-- ==== Sys2Proof/Word.lean ====
section
/-! DEFINITION. The 36-bit word of the machine and the names of its register files (00_scope.md R5, R8; 10_state.md R21). -/

namespace Sys2Proof

/-- A 36-bit word (R8). Slices are numbered LSB-0, as the spec's pseudocode numbers them. -/
abbrev Word := BitVec 36

/-- The number of a base register, B[0]..B[31] (R14). -/
abbrev Slot := Fin 32

/-- A general-register number, 0..15: the a-field of a request, or an index of X or R (R21, R49). -/
abbrev RegIndex := Fin 16

/-- The basic-mode base-register selector: 0..3 stand for B[12]..B[15] (30_encoding.md R59, R60). -/
abbrev BmSel := BitVec 2

/-- The user or the exec register set, chosen by DB17 (R21, R61). -/
inductive RegSet
  | user
  | exec
  deriving DecidableEq, Repr

/-- The index registers X or the R registers (R21). -/
inductive GrFile
  | x
  | r
  deriving DecidableEq, Repr

/-- The name of one general register, such as X[user][11] (R21). -/
structure GrName where
  file : GrFile
  set : RegSet
  index : RegIndex
  deriving DecidableEq, Repr

/-- Extended mode or basic mode (R13, DB16 = 1 is basic mode). -/
inductive Mode
  | em
  | bm
  deriving DecidableEq, Repr

end Sys2Proof
end

