-- ==== Sys2Proof/Syntax.lean ====
section
/-! DEFINITION. The requests of the engine: one constructor per row of spec/opcode_table.json (30_encoding.md R49, R50). -/

namespace Sys2Proof

/-- The eleven operation kinds of a request (R49). -/
inductive OpKind
  | call | goto | lae | lbe | lbu | lbj | ldj | lij | rtn | ur | int
  deriving DecidableEq, Repr

/-- An access key or access lock: an 18-bit value of ring and domain (R52). -/
structure AccessKey where
  ring : BitVec 2
  domain : BitVec 16
  deriving DecidableEq, Repr

/-- The name (L, BDI) of a bank: level and bank-descriptor index (R13). -/
structure BankName where
  level : BitVec 3
  bdi : BitVec 15
  deriving DecidableEq, Repr

/-- A virtual address (L, BDI, offset) (R51). -/
structure VA where
  level : BitVec 3
  bdi : BitVec 15
  offset : BitVec 18
  deriving DecidableEq, Repr

/-- A return-control-stack frame, also the layout of UR's operand (R60). `db` is DB12-17, DB12 its top bit. -/
structure Frame where
  level : BitVec 3
  bdi : BitVec 15
  offset : BitVec 18
  trap : Bool
  sel : BmSel
  db : BitVec 6
  key : AccessKey
  deriving DecidableEq, Repr

/-- A request to the engine: an operation kind with the header fields and operands that the kind reads
(R49, R50). The a-field of the kinds that ignore it, the header bits above the class, and the bits
`d[35:18]` of an LxJ operand are not kept: the spec ignores them. -/
inductive Instr
  /-- CALL l,bdi,off (R97). -/
  | call (v : VA)
  /-- GOTO l,bdi,off (R98). -/
  | goto (v : VA)
  /-- LAE v1; ...; v15 (R99). -/
  | lae (vs : List VA)
  /-- LBE a, l,bdi,off (R100). -/
  | lbe (a : RegIndex) (v : VA)
  /-- LBU a, l,bdi,off (R101). -/
  | lbu (a : RegIndex) (v : VA)
  /-- LBJ a, off (R103). -/
  | lbj (a : RegIndex) (d : BitVec 18)
  /-- LDJ a, off (R104). -/
  | ldj (a : RegIndex) (d : BitVec 18)
  /-- LIJ a, off (R105). -/
  | lij (a : RegIndex) (d : BitVec 18)
  /-- RTN (R106). -/
  | rtn
  /-- UR l,bdi,off, sel, db, key (R107). -/
  | ur (u : Frame)
  /-- INT class (R108). -/
  | int (cls : Nat)
  deriving DecidableEq, Repr

/-- The operation kind of a request (R49). -/
def Instr.kind : Instr → OpKind
  | .call _ => .call
  | .goto _ => .goto
  | .lae _ => .lae
  | .lbe _ _ => .lbe
  | .lbu _ _ => .lbu
  | .lbj _ _ => .lbj
  | .ldj _ _ => .ldj
  | .lij _ _ => .lij
  | .rtn => .rtn
  | .ur _ => .ur
  | .int _ => .int

end Sys2Proof
end

