-- ==== Sys2Proof/Config.lean ====
section
/-! DEFINITION. What an implementation fixes: the parameters of 00_scope.md R6, as plain data, and the uninterpreted
word P_LXJ_LINK_WORD. The defaults of R6 stand in Sys2Proof/Machine/Params.lean; what a substitute for FIND_BD
answers is uninterpreted too and stands in Sys2Proof/Machine/Ops.lean. -/

namespace Sys2Proof

/-- The three forms of an LxJ request (R12, R61). -/
inductive LxjForm
  | normal | call | ret
  deriving DecidableEq, Repr

/-- A basic-mode selector that depends on DB31: the shape of P_CUR_BM_CODE_SLOT, P_LIJ_SLOT and
P_LDJ_SLOT (R6). Each is one of B[12]..B[15] (log entry 21). -/
structure SelByDb31 where
  whenClear : BmSel
  whenSet : BmSel
  deriving DecidableEq, Repr

/-- The selector for a value of DB31. -/
def SelByDb31.at (t : SelByDb31) (db31 : Bool) : BmSel := if db31 then t.whenSet else t.whenClear

/-- The meaning of the interface-spec values 0, 1 and 2 (P_IS_FORM, R6). -/
structure FormByIs where
  is0 : LxjForm
  is1 : LxjForm
  is2 : LxjForm
  deriving DecidableEq, Repr

/-- The extent of the storage array, a property of the platform (20_memory.md R29, R36): every module
with every offset, or the listed modules with their sizes in words (a module not listed is absent).
The first entry of a module counts. -/
inductive StorageExtent
  | all
  | listed (modules : List (BitVec 16 × Nat))
  deriving DecidableEq, Repr

/-- What a P_ACCESS_SELECT predicate may compare: a part of the key, a part of the lock, or a number (R6, R67). -/
inductive AccessTerm
  | keyRing
  | keyDomain
  | lockRing
  | lockDomain
  | const (n : Nat)
  deriving DecidableEq, Repr

/-- A P_ACCESS_SELECT predicate as data: comparisons of the parts of key and lock, joined by the connectives. Rings and
domains are bounded, so every predicate of a key and a lock can be written so (R6, D57; log entry 15). -/
inductive AccessSelect
  | lt (a b : AccessTerm)
  | eq (a b : AccessTerm)
  | not (p : AccessSelect)
  | and (p q : AccessSelect)
  | or (p q : AccessSelect)
  deriving DecidableEq, Repr

/-- FIND_BD, the descriptor lookup collaborator: the BDT walk of R39, or a substitute that the spec allows but does not
describe, told apart by a number (R6, D18; log entry 15). -/
inductive DescriptorLookup
  | tableWalk
  | substitute (id : Nat)
  deriving DecidableEq, Repr

/-- The parameters that the spec leaves open (00_scope.md R6: "A model takes each as an argument"). -/
structure Params where
  /-- P_HARD_HELD_SLOT: loaded by UR into EM and by INT. -/
  hardHeldSlot : Slot
  /-- P_RCS_BREG: base register of the return control stack. -/
  rcsBreg : Slot
  /-- P_BDT_BREG(L): base register of the level-L descriptor table. -/
  bdtBreg : Vector Slot 8
  /-- FIND_BD: the descriptor lookup. -/
  lookup : DescriptorLookup
  /-- P_INT_CLASS_WIDTH: bits of an interrupt class. -/
  intClassWidth : Nat
  /-- P_LXJ_LEVEL(E, LS), at index 2·E + LS. -/
  lxjLevel : Vector (BitVec 3) 4
  /-- P_IS_FORM(IS). -/
  isForm : FormByIs
  /-- P_CUR_BM_CODE_SLOT(DB31). -/
  curBmCodeSel : SelByDb31
  /-- P_LIJ_SLOT(DB31). -/
  lijSel : SelByDb31
  /-- P_LDJ_SLOT(DB31). -/
  ldjSel : SelByDb31
  /-- P_TOGGLE_DB31: the operations that flip DB31. -/
  toggleDb31 : List OpKind
  /-- P_EM_TO_BM_DEFAULT_SLOT: slot of a non-gated CALL or GOTO from EM into a BasicMode bank. -/
  emToBmDefaultSlot : Slot
  /-- P_GATE_ALIGN: gate record alignment in words. -/
  gateAlign : Nat
  /-- P_GATE_RECORD_LOCK_CHECK: also check the gate record's own lock. -/
  gateRecordLockCheck : Bool
  /-- P_LATENT_DEST[0]. -/
  latentDest0 : GrName
  /-- P_LATENT_DEST[1]. -/
  latentDest1 : GrName
  /-- P_DIRECT_ENTER_CHECK: enter-access check on non-gated forward transfers. -/
  directEnterCheck : Bool
  /-- P_REDUCED_PRIVILEGE(pp), at index pp. -/
  reducedPrivilege : Vector Bool 4
  /-- P_LINK_GR: general register written by step 14. -/
  linkGr : GrName
  /-- P_INT_DB12_17: DB12-17 set by interrupt entry. -/
  intDb : BitVec 6
  /-- P_INT_KEY: access key set by interrupt entry. -/
  intKey : AccessKey
  /-- P_INT_PUSHES_RCS: interrupt entry pushes a frame. -/
  intPushesRcs : Bool
  /-- P_ACCESS_SELECT: the key-versus-lock predicate that selects the special permissions. -/
  accessSelect : AccessSelect
  /-- The extent of the storage array (R36). -/
  storage : StorageExtent
  deriving DecidableEq, Repr

/-- P_LXJ_LINK_WORD(prior.L, prior.BDI, prior.sel, prior.offset, prior.db16) (30_encoding.md R62): OPEN in
the spec, "uninterpreted 36-bit word". It has no body: nothing can be proved of its value (log entry 6). -/
opaque Config.lxjLinkWord (level : BitVec 3) (bdi : BitVec 15) (sel : BmSel) (offset : BitVec 18)
    (db16 : Bool) : Word

end Sys2Proof
end

