-- ==== Sys2Proof/Machine/Params.lean ====
section
/-! DEFINITION. The defaults of the parameters, as 00_scope.md R6 lists them. -/

namespace Sys2Proof.Machine

/-- P_INT_CLASS_WIDTH's default (R6, D55). -/
def defaultIntClassWidth : Nat := 6

/-- P_BDT_BREG's default: the level-L table is bound in B[16 + L] (R6, D18). -/
def defaultBdtBreg : Vector Slot 8 := #v[16, 17, 18, 19, 20, 21, 22, 23]

/-- P_LXJ_LEVEL's default (R6, D14): (E,LS) = (0,0)→4, (0,1)→6, (1,0)→0, (1,1)→2. -/
def defaultLxjLevel : Vector (BitVec 3) 4 := #v[4, 6, 0, 2]

/-- P_IS_FORM's default (R6, D15): 0 normal, 1 call, 2 return. -/
def defaultIsForm : FormByIs := ⟨.normal, .call, .ret⟩

/-- P_CUR_BM_CODE_SLOT's default (R6, D20): DB31 = 0 → B12, 1 → B14. -/
def defaultCurBmCodeSel : SelByDb31 := ⟨0, 2⟩

/-- P_LIJ_SLOT's default (R6, D20): DB31 = 0 → B14, 1 → B12. -/
def defaultLijSel : SelByDb31 := ⟨2, 0⟩

/-- P_LDJ_SLOT's default (R6, D20): DB31 = 0 → B15, 1 → B13. -/
def defaultLdjSel : SelByDb31 := ⟨3, 1⟩

/-- P_REDUCED_PRIVILEGE's default (R6, D35): pp ≥ 2. -/
def defaultReducedPrivilege : Vector Bool 4 := #v[false, false, true, true]

/-- P_ACCESS_SELECT's default, the source's rule (R68, D57): special iff `lock.domain < key.domain`, or key and lock
agree in ring and domain. -/
def sourceAccessSelect : AccessSelect :=
  .or (.lt .lockDomain .keyDomain) (.and (.eq .keyRing .lockRing) (.eq .keyDomain .lockDomain))

/-- Every parameter at the default of R6; the storage array at its full extent (log entry 5). -/
def defaultParams : Params where
  hardHeldSlot := 0
  rcsBreg := 25
  bdtBreg := defaultBdtBreg
  lookup := .tableWalk
  intClassWidth := defaultIntClassWidth
  lxjLevel := defaultLxjLevel
  isForm := defaultIsForm
  curBmCodeSel := defaultCurBmCodeSel
  lijSel := defaultLijSel
  ldjSel := defaultLdjSel
  toggleDb31 := [.lij, .ldj]
  emToBmDefaultSlot := 12
  gateAlign := 8
  gateRecordLockCheck := false
  latentDest0 := ⟨.r, .user, 0⟩
  latentDest1 := ⟨.r, .user, 1⟩
  directEnterCheck := true
  reducedPrivilege := defaultReducedPrivilege
  linkGr := ⟨.x, .user, 11⟩
  intDb := 0b000001
  intKey := ⟨0, 0⟩
  intPushesRcs := true
  accessSelect := sourceAccessSelect
  storage := .all

end Sys2Proof.Machine
end

