-- ==== Sys2Proof/WellFormed.lean ====
section
/-! DEFINITION. Which requests are well formed: the two checks that the types of Syntax.lean leave open. -/

namespace Sys2Proof

/-- LAE carries exactly 15 virtual addresses (R50); an interrupt class fits its header field of
`classWidth` bits (P_INT_CLASS_WIDTH, R49), which lies in the 28 header bits above the a-field. -/
def Instr.wf (classWidth : Nat) : Instr → Bool
  | .lae vs => vs.length == 15
  | .int cls => decide (cls < 2 ^ classWidth) && decide (cls < 2 ^ 28)
  | .call _ | .goto _ | .lbe _ _ | .lbu _ _ | .lbj _ _ | .ldj _ _ | .lij _ _ | .rtn | .ur _ => true

end Sys2Proof
end

