-- ==== Sys2Proof/Decode.lean ====
section
/-! DEFINITION. Decoding a request from its words, and encoding it (30_encoding.md R49 to R52, R60, R66), with the codecs of
the virtual address, the access key and the frame that requests share with storage records. -/

namespace Sys2Proof

/-! ### Field codecs shared with storage records -/

/-- `decode_va` (R51). -/
def decodeVa (w : Word) : VA := ⟨w.extractLsb' 33 3, w.extractLsb' 18 15, w.extractLsb' 0 18⟩

/-- `encode_va` (R51). -/
def encodeVa (v : VA) : Word := (v.level ++ v.bdi ++ v.offset).cast (by decide)

/-- `decode_key` (R52). -/
def decodeKey (k : BitVec 18) : AccessKey := ⟨k.extractLsb' 16 2, k.extractLsb' 0 16⟩

/-- `encode_key` (R52). -/
def encodeKey (k : AccessKey) : BitVec 18 := (k.ring ++ k.domain).cast (by decide)

/-- `decode_frame` (R60): reserved bits are ignored. -/
def decodeFrame (f0 f1 : Word) : Frame where
  level := (decodeVa f0).level
  bdi := (decodeVa f0).bdi
  offset := (decodeVa f0).offset
  trap := f1.getLsbD 35
  sel := f1.extractLsb' 32 2
  db := f1.extractLsb' 18 6
  key := decodeKey (f1.extractLsb' 0 18)

/-- Word 0 of `encode_frame` (R60). -/
def encodeFrame0 (f : Frame) : Word := encodeVa ⟨f.level, f.bdi, f.offset⟩

/-- Word 1 of `encode_frame` (R60): reserved bits are 0. -/
def encodeFrame1 (f : Frame) : Word :=
  (BitVec.ofBool f.trap ++ 0#1 ++ f.sel ++ 0#8 ++ f.db ++ encodeKey f.key).cast (by decide)

/-! ### The request header -/

/-- The operation code of a header, `h[3:0]` (R49). -/
def headerOp (h : Word) : BitVec 4 := h.extractLsb' 0 4

/-- The a-field of a header, `h[7:4]` (R49). -/
def headerA (h : Word) : RegIndex := (h.extractLsb' 4 4).toFin

/-- The interrupt class of a header, `h[8 + width - 1 : 8]` (R49). -/
def headerClass (classWidth : Nat) (h : Word) : Nat := h.toNat / 2 ^ 8 % 2 ^ classWidth

/-- The operation kind of an operation code; codes 10 to 14 are reserved (R49). -/
def opKindOf (op : BitVec 4) : Option OpKind :=
  match op.toNat with
  | 0 => some .call
  | 1 => some .goto
  | 2 => some .lae
  | 3 => some .lbe
  | 4 => some .lbu
  | 5 => some .lbj
  | 6 => some .ldj
  | 7 => some .lij
  | 8 => some .rtn
  | 9 => some .ur
  | 15 => some .int
  | _ => none

/-- The operation code of an operation kind (R49). -/
def opCodeOf : OpKind → Nat
  | .call => 0
  | .goto => 1
  | .lae => 2
  | .lbe => 3
  | .lbu => 4
  | .lbj => 5
  | .ldj => 6
  | .lij => 7
  | .rtn => 8
  | .ur => 9
  | .int => 15

/-- How many operand words follow the header: a function of the operation alone (R50, R66). -/
def operandCount : OpKind → Nat
  | .call | .goto | .lbe | .lbu | .lbj | .ldj | .lij => 1
  | .lae => 15
  | .rtn | .int => 0
  | .ur => 2

/-! ### Requests -/

/-- Why words are no request. -/
inductive DecodeError
  /-- There is no header word. -/
  | noRequest
  /-- The operation code is 10 to 14 (R65). -/
  | reservedRequestCode
  /-- Fewer operand words follow than R50 asks for (log entry 11). -/
  | truncatedRequest
  deriving DecidableEq, Repr

/-- What decoding answers: a request with the words after it, or why there is none. -/
inductive Decoded
  | request (i : Instr) (rest : List Word)
  | rejected (e : DecodeError)
  deriving DecidableEq, Repr

/-- A request with one operand word (R50). -/
def decodeOne (ws : List Word) (mk : Word → Instr) : Decoded :=
  match ws with
  | v :: rest => .request (mk v) rest
  | [] => .rejected .truncatedRequest

/-- UR's two operand words (R50, R60). -/
def decodeUr (ws : List Word) : Decoded :=
  match ws with
  | u0 :: u1 :: rest => .request (.ur (decodeFrame u0 u1)) rest
  | _ => .rejected .truncatedRequest

/-- LAE's fifteen operand words (R50). -/
def decodeLae (ws : List Word) : Decoded :=
  if 15 ≤ ws.length then .request (.lae ((ws.take 15).map decodeVa)) (ws.drop 15)
  else .rejected .truncatedRequest

/-- Decodes the operand words of one kind (R50). `h` is the header. -/
def decodeOperands (classWidth : Nat) (h : Word) (ws : List Word) : OpKind → Decoded
  | .call => decodeOne ws fun v => .call (decodeVa v)
  | .goto => decodeOne ws fun v => .goto (decodeVa v)
  | .lae => decodeLae ws
  | .lbe => decodeOne ws fun v => .lbe (headerA h) (decodeVa v)
  | .lbu => decodeOne ws fun v => .lbu (headerA h) (decodeVa v)
  | .lbj => decodeOne ws fun d => .lbj (headerA h) (d.extractLsb' 0 18)
  | .ldj => decodeOne ws fun d => .ldj (headerA h) (d.extractLsb' 0 18)
  | .lij => decodeOne ws fun d => .lij (headerA h) (d.extractLsb' 0 18)
  | .rtn => .request .rtn ws
  | .ur => decodeUr ws
  | .int => .request (.int (headerClass classWidth h)) ws

/-- Decodes the first request of a list of words (R49, R50, R66). -/
def decode (classWidth : Nat) (ws : List Word) : Decoded :=
  match ws with
  | [] => .rejected .noRequest
  | h :: rest =>
    match opKindOf (headerOp h) with
    | none => .rejected .reservedRequestCode
    | some k => decodeOperands classWidth h rest k

/-- The header word of a kind with an a-field and a class (R49, R67). -/
def encodeHeader (k : OpKind) (a cls : Nat) : Word := BitVec.ofNat 36 (opCodeOf k + a * 2 ^ 4 + cls * 2 ^ 8)

/-- The words of a request (R49, R50, R67): unused header and operand bits are 0. -/
def encode : Instr → List Word
  | .call v => [encodeHeader .call 0 0, encodeVa v]
  | .goto v => [encodeHeader .goto 0 0, encodeVa v]
  | .lae vs => encodeHeader .lae 0 0 :: vs.map encodeVa
  | .lbe a v => [encodeHeader .lbe a 0, encodeVa v]
  | .lbu a v => [encodeHeader .lbu a 0, encodeVa v]
  | .lbj a d => [encodeHeader .lbj a 0, d.setWidth 36]
  | .ldj a d => [encodeHeader .ldj a 0, d.setWidth 36]
  | .lij a d => [encodeHeader .lij a 0, d.setWidth 36]
  | .rtn => [encodeHeader .rtn 0 0]
  | .ur u => [encodeHeader .ur 0 0, encodeFrame0 u, encodeFrame1 u]
  | .int cls => [encodeHeader .int 0 cls]

/-! ### The host's view of the opcode table -/

/-- `n` words of 36 bits, the first from the low end of `w`. -/
def wordsOf (w : Nat) : Nat → List Word
  | 0 => []
  | n + 1 => BitVec.ofNat 36 w :: wordsOf (w / 2 ^ 36) n

/-- The words of the request whose bits are `w`, of which `nbits` are given and the rest are 0: the header
in bits 35..0, the operand words that R66 gives its operation above it. -/
def tableRequest (nbits w : Nat) : List Word :=
  let bits := w % 2 ^ nbits
  match opKindOf (headerOp (BitVec.ofNat 36 bits)) with
  | none => wordsOf bits 1
  | some k => wordsOf bits (operandCount k + 1)

/-- The request that the decoder reads from the bits of an opcode-table row (bit 0 the least significant
bit of the header). -/
def decodeTableWord (nbits w : Nat) : Option Instr :=
  match decode Machine.defaultIntClassWidth (tableRequest nbits w) with
  | .request i _ => some i
  | .rejected _ => none

end Sys2Proof
end

