-- ==== Sys2Proof/Machine/Bits.lean ====
section
/-! DEFINITION. Writing a bit field of a word, LSB-0 numbered (00_scope.md R8). Reading one is `BitVec.extractLsb'`. -/

namespace Sys2Proof.Machine

/-- `w` with the `n` bits from bit `lo` up replaced by `v`; the other bits stay. -/
def setField (w : Word) (lo n : Nat) (v : BitVec n) : Word :=
  (w &&& ~~~((BitVec.allOnes n).setWidth 36 <<< lo)) ||| (v.setWidth 36 <<< lo)

end Sys2Proof.Machine
end

