-- ==== Sys2Proof/Machine/Flags.lean ====
section
/-! DEFINITION. The designator bits and the access key inside DR and IKR (10_state.md R19, R20). The engine has no condition
codes (R23). -/

namespace Sys2Proof.Machine

/-- DB12-17: `DR[23:18]` (R19). -/
def db12to17 (dr : Word) : BitVec 6 := dr.extractLsb' 18 6

/-- The processor privilege pp = DB14-15: `DR[21:20]`, 0 most privileged (R19). -/
def processorPrivilege (dr : Word) : BitVec 2 := dr.extractLsb' 20 2

/-- DB16: `DR[19]`, 1 = basic mode (R19). -/
def db16 (dr : Word) : Bool := dr.getLsbD 19

/-- DB17: `DR[18]`, 1 = exec register set (R19). -/
def db17 (dr : Word) : Bool := dr.getLsbD 18

/-- DB31: `DR[4]`, the basic-mode base-register selection (R19). -/
def db31 (dr : Word) : Bool := dr.getLsbD 4

/-- The mode that DB16 names (R13, R19). -/
def modeOf (db16 : Bool) : Mode := if db16 then .bm else .em

/-- The register set that DB17 names (R21). -/
def regSetOf (db17 : Bool) : RegSet := if db17 then .exec else .user

/-- `DR[23:18] <- v`: a gate's, a frame's or an interrupt's DB12-17 (R83, R90). -/
def setDb12to17 (dr : Word) (v : BitVec 6) : Word := setField dr 18 6 v

/-- `DR[19] <- b` (R90). -/
def setDb16 (dr : Word) (b : Bool) : Word := setField dr 19 1 (BitVec.ofBool b)

/-- `DR[4] <- 1 − DR[4]` (R94). -/
def flipDb31 (dr : Word) : Word := setField dr 4 1 (BitVec.ofBool (!db31 dr))

/-- The access key `IKR[17:0]` (R20). -/
def accessKey (ikr : Word) : AccessKey := decodeKey (ikr.extractLsb' 0 18)

/-- `IKR[17:0] <- k` (R83, R90). -/
def setAccessKey (ikr : Word) (k : AccessKey) : Word := setField ikr 0 18 (encodeKey k)

/-- "Reduced privilege" for LBU: P_REDUCED_PRIVILEGE(pp) (40_access_control.md R70). -/
def reducedPrivilege (p : Params) (pp : BitVec 2) : Bool := p.reducedPrivilege[pp.toNat]'pp.isLt

end Sys2Proof.Machine
end

