-- ==== Sys2Proof/Machine/State.lean ====
section
/-! DEFINITION. The machine's state as plain data (10_state.md R14 to R28), its stop reasons, and reset. -/

namespace Sys2Proof.Machine

/-! ### Records of the machine -/

/-- A permission triple (R53). -/
structure Permissions where
  execute : Bool
  read : Bool
  write : Bool
  deriving DecidableEq, Repr

/-- The valid bank types (R55). -/
inductive BankType
  | extendedMode | basicMode | gate | indirect | queue | queueRepository
  deriving DecidableEq, Repr

/-- A location of main storage (R29). `offset` is the signed 64-bit word index of the spec; it is held as an
exact integer, and every offset the engine forms fits 64 bits (log entry 17). -/
structure AbsoluteAddress where
  processorIndex : BitVec 16
  offset : Int
  deriving DecidableEq, Repr

/-- A decoded bank descriptor (R54). -/
structure BankDescriptor where
  gap : Permissions
  sap : Permissions
  bankType : BankType
  generalFault : Bool
  largeBank : Bool
  upperLimitSuppression : Bool
  lock : AccessKey
  lowerLimit : BitVec 9
  upperLimit : BitVec 27
  upi : BitVec 16
  segment : BitVec 18
  baseOffset : BitVec 36
  target : BankName
  displacement : BitVec 18
  deriving DecidableEq, Repr

/-- A decoded gate record (R59). -/
structure GateRecord where
  gap : Permissions
  sap : Permissions
  libraryGate : Bool
  gotoInhibited : Bool
  designatorBitsInhibited : Bool
  accessKeyInhibited : Bool
  latentParam0Inhibited : Bool
  latentParam1Inhibited : Bool
  lock : AccessKey
  target : VA
  sel : BmSel
  db : BitVec 6
  key : AccessKey
  latent0 : Word
  latent1 : Word
  deriving DecidableEq, Repr

/-- The fields of a bound base register (R15). -/
structure Bound where
  bankType : BankType
  baseAddress : AbsoluteAddress
  largeSizeFlag : Bool
  /-- lowerLimitNormalized. -/
  lln : BitVec 24
  /-- upperLimitNormalized. -/
  uln : BitVec 33
  accessLock : AccessKey
  gap : Permissions
  sap : Permissions
  storageRef : BitVec 16
  deriving DecidableEq, Repr

/-- A base register: `Void` or a binding, replaced as a whole (R14). -/
inductive BaseRegister
  | void
  | bound (b : Bound)
  deriving DecidableEq, Repr

/-- The program address register PAR in its three fields (R18). -/
structure Par where
  level : BitVec 3
  bdi : BitVec 15
  pc : BitVec 18
  deriving DecidableEq, Repr

/-- One word of storage at a key (see `Memory`). -/
abbrev Cell := Nat × Word

/-- Main storage (R29, R30): the words that differ from what an unlisted word reads as, keyed by
`processorIndex · 2^63 + offset`, keys strictly rising (log entries 3 and 4). -/
structure Memory where
  cells : List Cell
  deriving DecidableEq, Repr

/-! ### The engine's invocation record -/

/-- The next step of the sequencer: 1..21, or idle for `info.step = 0` (R24, R73). -/
inductive StepNo
  | idle
  | s1 | s2 | s3 | s4 | s5 | s6 | s7 | s8 | s9 | s10 | s11
  | s12 | s13 | s14 | s15 | s16 | s17 | s18 | s19 | s20 | s21
  deriving DecidableEq, Repr

/-- The operand of a request as decoded by R50. -/
inductive Operand
  | absent
  | va (v : VA)
  | vas (vs : List VA)
  | offset (d : BitVec 18)
  | frame (u : Frame)
  deriving DecidableEq, Repr

/-- The caller's state captured at step 2 (R24, R76). -/
structure Prior where
  mode : Mode
  slot : Slot
  sel : BmSel
  name : BankName
  offset : BitVec 18
  db : BitVec 6
  key : AccessKey
  db16 : Bool
  db17 : Bool
  db31 : Bool
  deriving DecidableEq, Repr

/-- The invocation record `info` (R24). A field not yet computed is `none`, but for the two flags `voidTarget` and `gated`:
they are false until a step sets them, since R84, R89, R92, R93 and R95 read them where no step has (DEDUCED, log
entry 23). -/
structure Info where
  step : StepNo
  op : Option OpKind
  a : Option RegIndex
  operand : Operand
  cls : Option Nat
  xlink : Option Word
  form : Option LxjForm
  prior : Option Prior
  src : Option VA
  popped : Option Frame
  srcBD : Option BankDescriptor
  target : Option BankDescriptor
  targetName : Option BankName
  voidTarget : Bool
  gated : Bool
  gate : Option GateRecord
  finalOffset : Option (BitVec 18)
  targetMode : Option Mode
  slot : Option Slot
  laeI : Option (Fin 16)
  deriving DecidableEq, Repr

/-- The empty record of an idle engine (R28, R123). That its two flags start as false is the model's reading: R28 has every
field `none`, yet later rules read both flags where no step has set them (DEDUCED, log entry 23). -/
def Info.idle : Info where
  step := .idle
  op := none
  a := none
  operand := .absent
  cls := none
  xlink := none
  form := none
  prior := none
  src := none
  popped := none
  srcBD := none
  target := none
  targetName := none
  voidTarget := false
  gated := false
  gate := none
  finalOffset := none
  targetMode := none
  slot := none
  laeI := none

/-! ### Outcomes of an invocation -/

/-- The reasons of an AddressingFault (60_exceptions.md R109). -/
inductive AddressingReason
  | invalidISValue
  | invalidSourceLevelBDI
  | bdTypeInvalid
  | gBitSetIndirect
  | enterAccessDenied
  | gateBankBoundaryViolation
  | fatalAddressingException
  deriving DecidableEq, Repr

/-- The reasons of a StackFault (R109). -/
inductive StackReason
  | overflow
  | underflow
  deriving DecidableEq, Repr

/-- A fault result returned to the requester (R109): AddressingFault, InvalidInstructionFault
(InvalidBaseRegister, its one reason) or StackFault with its slot and frame pointer. -/
inductive EngineFault
  | addressing (reason : AddressingReason)
  | invalidInstruction
  | stack (reason : StackReason) (slot : Slot) (fp : BitVec 18)
  deriving DecidableEq, Repr

/-- A processor halt, `stop(reason, detail)` (R110). -/
inductive Halt
  | vectorBaseVoid (cls : Nat)
  | vectorClassOutOfRange (cls : Nat)
  | wrappedFault (f : EngineFault)
  deriving DecidableEq, Repr

/-- How an invocation ended with a state after it (R11): `Ok`, `Fault` or `Halt`. The fourth outcome, `Refused`, leaves
no state to speak of (R111) and is the Lean outcome `refused`. -/
inductive Completion
  | ok
  | fault (f : EngineFault)
  | halt (h : Halt)
  deriving DecidableEq, Repr

/-! ### The state -/

/-- The whole machine: the processor's registers that the engine reads and writes, main storage, the engine's record,
the request and result interface (R27), and the parameters it was built with (R6). -/
structure State where
  /-- The parameters of R6; no step writes them. -/
  params : Params
  /-- B[0]..B[31] (R14). -/
  bregs : Vector BaseRegister 32
  /-- ABT[12]..ABT[15], at index slot − 12 (R17). -/
  abt : Vector BankName 4
  /-- PAR (R18). -/
  par : Par
  /-- DR (R19). -/
  dr : Word
  /-- IKR (R20). -/
  ikr : Word
  /-- X[user][0..15] (R21). -/
  xUser : Vector Word 16
  /-- X[exec][0..15] (R21). -/
  xExec : Vector Word 16
  /-- R[user][0..15] (R21). -/
  rUser : Vector Word 16
  /-- R[exec][0..15] (R21). -/
  rExec : Vector Word 16
  /-- RCSP, the return-control-stack pointer (R22). -/
  rcsp : BitVec 18
  /-- Main storage (R29). -/
  memory : Memory
  /-- The invocation record (R24). -/
  info : Info
  /-- The outcome of the last invocation that ended, none before the first (R27, R123). -/
  result : Option Completion
  /-- The words of the requests handed to the engine and not yet taken (R27, R49). -/
  port : List Word
  deriving DecidableEq, Repr

/-- Why the machine is stuck. -/
inductive Fault
  /-- Raised by `step` on a processor that a halt has stopped (60_exceptions.md R122, 93_implementation_defined.md A28:
  "the processor executes nothing further"). Safe. -/
  | processorHalted
  /-- Raised by a storage access that the storage array cannot perform: an absent module, an offset beyond the
  module's size, a negative offset (20_memory.md R36: "the engine is stuck"), in a lookup by a substitute for FIND_BD
  too (log entry 15). Safe. -/
  | storageInaccessible
  /-- Raised by a step that reads a field of `info` not yet computed (R24: "a model fault (it cannot happen under the
  rules)"). No well-formed request reaches it from an idle engine. Safe. -/
  | infoFieldUnset
  /-- Raised when the sequencer has not ended an invocation within its bound of steps; no invocation reaches it
  (R73, log entry 19). Safe. -/
  | sequencerOverrun
  deriving DecidableEq, Repr

/-- Why the machine has no meaning for a request. -/
inductive Refusal
  /-- Raised by `exec`'s arm of an instruction without a meaning yet; no arm raises it. Safe. -/
  | notModelled (mnemonic : String)
  /-- Raised by step 9 on a gate with libraryGate = 1: "library-gate processing is explicitly unimplemented"
  (60_exceptions.md R111). Safe. -/
  | libraryGate
  /-- Raised by `step` on a header with operation code 10 to 14 (30_encoding.md R65, 60_exceptions.md R111). Safe. -/
  | reservedRequestCode
  /-- Raised by `step` on a header with too few operand words after it: no request of R50 (log entry 11). Safe. -/
  | truncatedRequest
  deriving DecidableEq, Repr

/-- The state the spec leaves to whoever starts the machine (R28: "a launch argument"). -/
structure Launch where
  params : Params
  bregs : Vector BaseRegister 32
  abt : Vector BankName 4
  par : Par
  dr : Word
  ikr : Word
  xUser : Vector Word 16
  xExec : Vector Word 16
  rUser : Vector Word 16
  rExec : Vector Word 16
  rcsp : BitVec 18
  memory : Memory
  deriving DecidableEq, Repr

/-- The machine after reset with the given launch arguments: the engine idle, no invocation in progress and no fault
pending (R28, R123). No halt is pending either, whatever stopped the processor before: DESIGN CHOICE (log entry 25). -/
def State.launch (l : Launch) : State where
  params := l.params
  bregs := l.bregs
  abt := l.abt
  par := l.par
  dr := l.dr
  ikr := l.ikr
  xUser := l.xUser
  xExec := l.xExec
  rUser := l.rUser
  rExec := l.rExec
  rcsp := l.rcsp
  memory := l.memory
  info := Info.idle
  result := none
  port := []

/-- The launch arguments that `State.reset` takes: DESIGN CHOICE, the spec gives none (log entry 2, unsafe). -/
def defaultLaunch : Launch where
  params := defaultParams
  bregs := Vector.replicate 32 .void
  abt := Vector.replicate 4 ⟨0, 0⟩
  par := ⟨0, 0, 0⟩
  dr := 0
  ikr := 0
  xUser := Vector.replicate 16 0
  xExec := Vector.replicate 16 0
  rUser := Vector.replicate 16 0
  rExec := Vector.replicate 16 0
  rcsp := 0
  memory := ⟨[]⟩

/-- The machine right after reset: the idle engine of R123 with `defaultLaunch`'s registers. -/
def State.reset : State := State.launch defaultLaunch

end Sys2Proof.Machine
end

