-- ==== Sys2Proof/Machine/Records.lean ====
section
/-! DEFINITION. The storage records and what is built from them: bank descriptor, limits, base address, binding, gate
record (30_encoding.md R53 to R59), and the words R61 and R63. -/

namespace Sys2Proof.Machine

/-- The permission triple of a 3-bit slice, execute in its top bit (R53). -/
def decodePermissions (p : BitVec 3) : Permissions := ⟨p.getLsbD 2, p.getLsbD 1, p.getLsbD 0⟩

/-- The 3-bit slice of a permission triple (R53). -/
def encodePermissions (p : Permissions) : BitVec 3 :=
  (BitVec.ofBool p.execute ++ BitVec.ofBool p.read ++ BitVec.ofBool p.write).cast (by decide)

/-- `type_of`: codes 5 and 7 to 15 are invalid (R55). -/
def bankTypeOf (c : BitVec 4) : Option BankType :=
  match c.toNat with
  | 0 => some .extendedMode
  | 1 => some .basicMode
  | 2 => some .gate
  | 3 => some .indirect
  | 4 => some .queue
  | 6 => some .queueRepository
  | _ => none

/-- The code of a bank type (R55). -/
def bankTypeCode : BankType → BitVec 4
  | .extendedMode => 0
  | .basicMode => 1
  | .gate => 2
  | .indirect => 3
  | .queue => 4
  | .queueRepository => 6

/-- `decode_bd` (R54), none on an invalid bank-type code (R55). Reserved bits are ignored (R64). -/
def decodeBd (w : Vector Word 8) : Option BankDescriptor :=
  match bankTypeOf (w[0].extractLsb' 24 4) with
  | none => none
  | some t => some
    { gap := decodePermissions (w[0].extractLsb' 33 3)
      sap := decodePermissions (w[0].extractLsb' 30 3)
      bankType := t
      generalFault := w[0].getLsbD 23
      largeBank := w[0].getLsbD 20
      upperLimitSuppression := w[0].getLsbD 19
      lock := decodeKey (w[0].extractLsb' 0 18)
      lowerLimit := w[1].extractLsb' 27 9
      upperLimit := w[1].extractLsb' 0 27
      upi := w[2].extractLsb' 18 16
      segment := w[2].extractLsb' 0 18
      baseOffset := w[3]
      target := ⟨w[4].extractLsb' 33 3, w[4].extractLsb' 18 15⟩
      displacement := w[4].extractLsb' 0 18 }

/-- `encode_bd` (R54, R64): reserved bits are 0. -/
def encodeBd (bd : BankDescriptor) : Vector Word 8 :=
  #v[(encodePermissions bd.gap ++ encodePermissions bd.sap ++ 0#2 ++ bankTypeCode bd.bankType
       ++ BitVec.ofBool bd.generalFault ++ 0#2 ++ BitVec.ofBool bd.largeBank
       ++ BitVec.ofBool bd.upperLimitSuppression ++ 0#1 ++ encodeKey bd.lock).cast (by decide),
     (bd.lowerLimit ++ bd.upperLimit).cast (by decide),
     (0#2 ++ bd.upi ++ bd.segment).cast (by decide),
     bd.baseOffset,
     (bd.target.level ++ bd.target.bdi ++ bd.displacement).cast (by decide),
     0, 0, 0]

/-- The normalized lower limit LLN: granularity 32768 or 512 words (R56). -/
def normalizedLower (bd : BankDescriptor) : BitVec 24 :=
  bd.lowerLimit.setWidth 24 <<< (if bd.largeBank then 15 else 9)

/-- The normalized upper limit ULN: granularity 64 words or 1 word (R56). -/
def normalizedUpper (bd : BankDescriptor) : BitVec 33 :=
  bd.upperLimit.setWidth 33 <<< (if bd.largeBank then 6 else 0)

/-- `base_addr`: already shifted down by LLN, so it may be negative (R57). -/
def baseAddr (bd : BankDescriptor) : AbsoluteAddress where
  processorIndex := bd.upi
  offset := (bd.segment.toNat : Int) * 2 ^ 36 + bd.baseOffset.toNat - (normalizedLower bd).toNat

/-- The fields of `make_breg` (R58). -/
def boundOf (bd : BankDescriptor) : Bound where
  bankType := bd.bankType
  baseAddress := baseAddr bd
  largeSizeFlag := bd.largeBank
  lln := normalizedLower bd
  uln := normalizedUpper bd
  accessLock := bd.lock
  gap := bd.gap
  sap := bd.sap
  storageRef := bd.upi

/-- `make_breg` (R58). -/
def makeBreg (bd : BankDescriptor) : BaseRegister := .bound (boundOf bd)

/-- `decode_gate` (R59). Reserved bits are ignored (R64). -/
def decodeGate (g : Vector Word 5) : GateRecord where
  gap := decodePermissions (g[0].extractLsb' 33 3)
  sap := decodePermissions (g[0].extractLsb' 30 3)
  libraryGate := g[0].getLsbD 29
  gotoInhibited := g[0].getLsbD 28
  designatorBitsInhibited := g[0].getLsbD 27
  accessKeyInhibited := g[0].getLsbD 26
  latentParam0Inhibited := g[0].getLsbD 25
  latentParam1Inhibited := g[0].getLsbD 24
  lock := decodeKey (g[0].extractLsb' 0 18)
  target := decodeVa g[1]
  sel := g[2].extractLsb' 32 2
  db := g[2].extractLsb' 18 6
  key := decodeKey (g[2].extractLsb' 0 18)
  latent0 := g[3]
  latent1 := g[4]

/-- `encode_gate` (R59, R64): reserved bits are 0. -/
def encodeGate (g : GateRecord) : Vector Word 5 :=
  #v[(encodePermissions g.gap ++ encodePermissions g.sap ++ BitVec.ofBool g.libraryGate
       ++ BitVec.ofBool g.gotoInhibited ++ BitVec.ofBool g.designatorBitsInhibited
       ++ BitVec.ofBool g.accessKeyInhibited ++ BitVec.ofBool g.latentParam0Inhibited
       ++ BitVec.ofBool g.latentParam1Inhibited ++ 0#6 ++ encodeKey g.lock).cast (by decide),
     encodeVa g.target,
     (0#2 ++ g.sel ++ 0#8 ++ g.db ++ encodeKey g.key).cast (by decide),
     g.latent0,
     g.latent1]

/-- DB16 of a frame: the return lands in basic mode (R60). -/
def frameDb16 (f : Frame) : Bool := f.db.getLsbD 1

/-- The virtual address of a frame's word 0 (R60). -/
def frameVa (f : Frame) : VA := ⟨f.level, f.bdi, f.offset⟩

/-- The bank name of a virtual address. -/
def vaName (v : VA) : BankName := ⟨v.level, v.bdi⟩

/-- PAR as one word in VA layout (R18). -/
def parWord (p : Par) : Word := encodeVa ⟨p.level, p.bdi, p.pc⟩

/-! ### The LxJ bank reference in X(a) (R61) -/

/-- E, the exec flag: `x[35]`. -/
def linkE (x : Word) : Bool := x.getLsbD 35

/-- LS, the level flag: `x[34]`. -/
def linkLs (x : Word) : Bool := x.getLsbD 34

/-- IS, the interface spec: `x[33:32]`. -/
def linkIs (x : Word) : BitVec 2 := x.extractLsb' 32 2

/-- B, the LBJ selector: `x[31:30]`. -/
def linkB (x : Word) : BmSel := x.extractLsb' 30 2

/-- BDI: `x[29:18]`, zero-extended to 15 bits. -/
def linkBdi (x : Word) : BitVec 15 := (x.extractLsb' 18 12).setWidth 15

/-- `link_gr_word`: MSB-0 bit 16 is the prior DB16, bits 18-35 the prior key, all else 0 (R63). -/
def linkGrWord (db16 : Bool) (key : AccessKey) : Word :=
  (0#16 ++ BitVec.ofBool db16 ++ 0#1 ++ encodeKey key).cast (by decide)

end Sys2Proof.Machine
end

