-- ==== Sys2Proof/Machine/Ops.lean ====
section
/-! DEFINITION. The named operations over registers and storage, access control, and how an invocation ends
(10_state.md, 20_memory.md, 40_access_control.md, 60_exceptions.md). -/

namespace Sys2Proof

/-- What a substitute for FIND_BD answers for a bank name: a descriptor, `some none` for NotFound, or `none` where the
storage array cannot perform the lookup (R6: the collaborator may be replaced; R10: what FIND_BD returns; R36). It has no
body: nothing can be proved of its value. It may depend on the base registers, the storage and the name alone, so it
is read-only and ignores the access key, as the translation of storage does (log entry 15). -/
opaque Config.findBankDescriptor (id : Nat) (bregs : Vector Machine.BaseRegister 32) (memory : Machine.Memory)
    (name : BankName) : Option (Option Machine.BankDescriptor)

end Sys2Proof

namespace Sys2Proof.Machine

/-- The outcome of one engine step, and of one invocation. -/
abbrev Out := Host.Outcome State Fault Refusal

/-! ### Writes of whole fields of the state -/

def State.setInfo (s : State) (i : Info) : State := { s with info := i }
def State.setResult (s : State) (r : Option Completion) : State := { s with result := r }
def State.setPort (s : State) (ws : List Word) : State := { s with port := ws }
def State.setPar (s : State) (p : Par) : State := { s with par := p }
def State.setDr (s : State) (w : Word) : State := { s with dr := w }
def State.setIkr (s : State) (w : Word) : State := { s with ikr := w }
def State.setRcsp (s : State) (p : BitVec 18) : State := { s with rcsp := p }
def State.setMemory (s : State) (m : Memory) : State := { s with memory := m }

/-! ### Base registers and the active base table -/

/-- `B[i]` (R14). -/
def State.breg (s : State) (i : Slot) : BaseRegister := s.bregs[i]

/-- `B[i] <- r`: the whole register is replaced (R14). -/
def State.setBreg (s : State) (i : Slot) (r : BaseRegister) : State := { s with bregs := s.bregs.set i r }

/-- `ABT[12 + k]` (R17). -/
def State.abtEntry (s : State) (k : BmSel) : BankName := s.abt[k.toNat]'k.isLt

/-- `ABT[12 + k] <- n` (R17). -/
def State.setAbtEntry (s : State) (k : BmSel) (n : BankName) : State :=
  { s with abt := s.abt.set k.toNat n k.isLt }

/-- The base register 12 + k that a basic-mode selector names (R59, R60). -/
def bmSlot (k : BmSel) : Slot := ⟨12 + k.toNat, by omega⟩

/-- The selector of a base register in 12..15; no other has an ABT entry (R17). -/
def bmSelOf (i : Slot) : Option BmSel :=
  if 12 ≤ i.val ∧ i.val ≤ 15 then some (BitVec.ofNat 2 (i.val - 12)) else none

/-- Records a name in the ABT entry of a base register, if it has one (R85, R92). -/
def recordAbt (s : State) (i : Slot) (n : BankName) : State :=
  match bmSelOf i with
  | some k => s.setAbtEntry k n
  | none => s

/-- The EM code bank's base register, B[0] (R16: fixed by the source). -/
def emCodeSlot : Slot := 0

/-- The name (0,0) of the void bank (R65). -/
def voidName : BankName := ⟨0, 0⟩

/-- `(PAR.L, PAR.BDI)` (R18). -/
def State.parName (s : State) : BankName := ⟨s.par.level, s.par.bdi⟩

/-- `(PAR.L, PAR.BDI) <- n` (R85, R92). -/
def State.setParName (s : State) (n : BankName) : State :=
  s.setPar { s.par with level := n.level, bdi := n.bdi }

/-- `PAR.PC <- pc` (R91). -/
def State.setPc (s : State) (pc : BitVec 18) : State := s.setPar { s.par with pc := pc }

/-! ### General registers -/

/-- Reads X[set][i] or R[set][i] (R21). -/
def State.gr (s : State) (g : GrName) : Word :=
  match g.file, g.set with
  | .x, .user => s.xUser[g.index]
  | .x, .exec => s.xExec[g.index]
  | .r, .user => s.rUser[g.index]
  | .r, .exec => s.rExec[g.index]

/-- Writes X[set][i] or R[set][i] (R21): no register is hardwired. -/
def State.setGr (s : State) (g : GrName) (w : Word) : State :=
  match g.file, g.set with
  | .x, .user => { s with xUser := s.xUser.set g.index w }
  | .x, .exec => { s with xExec := s.xExec.set g.index w }
  | .r, .user => { s with rUser := s.rUser.set g.index w }
  | .r, .exec => { s with rExec := s.rExec.set g.index w }

/-! ### Main storage -/

/-- What an unlisted word of storage reads as: DESIGN CHOICE 0, the spec gives none (log entry 3, unsafe). -/
def unlistedWord : Word := 0

/-- Looks a key up in a list of cells. -/
def cellsRead : List Cell → Nat → Word
  | [], _ => unlistedWord
  | (k, w) :: cs, key => if k = key then w else cellsRead cs key

/-- Writes a key in a list of cells in canonical form: writing the unlisted word removes the entry. -/
def cellsWrite : List Cell → Nat → Word → List Cell
  | [], key, w => if w = unlistedWord then [] else [(key, w)]
  | (k, v) :: cs, key, w =>
    if key < k then (if w = unlistedWord then (k, v) :: cs else (key, w) :: (k, v) :: cs)
    else if key = k then (if w = unlistedWord then cs else (key, w) :: cs)
    else (k, v) :: cellsWrite cs key w

/-- Every key of the cells lies above `low`, keys rise, and no cell holds the unlisted word. -/
def cellsWfFrom : Option Nat → List Cell → Bool
  | _, [] => true
  | low, (k, w) :: cs =>
    (match low with
      | none => true
      | some l => decide (l < k)) && !(w == unlistedWord) && cellsWfFrom (some k) cs

/-- The canonical form of storage: keys strictly rising, no cell equal to the unlisted word. -/
def Memory.wf (m : Memory) : Bool := cellsWfFrom none m.cells

/-- The least offset past the offsets of a signed 64-bit integer (R29). -/
def offsetBound : Nat := 2 ^ 63

/-- How many words of a storage module there are (R36). -/
def moduleSize : StorageExtent → BitVec 16 → Nat
  | .all, _ => offsetBound
  | .listed ms, m => match ms.find? (fun e => e.1 == m) with
    | some e => min e.2 offsetBound
    | none => 0

/-- The storage key of an absolute address; none where the storage array cannot perform the access: an absent module,
an offset beyond the module's size, a negative offset (R31, R36). -/
def storageKey (x : StorageExtent) (addr : AbsoluteAddress) : Option Nat :=
  if 0 ≤ addr.offset ∧ addr.offset.toNat < moduleSize x addr.processorIndex
  then some (addr.processorIndex.toNat * offsetBound + addr.offset.toNat) else none

/-- The result of an operation that may end the invocation: a value, a fault to raise (R109), a halt (R110), or an
access the storage array cannot perform (R36). -/
inductive Access (α : Type)
  | ok (a : α)
  | raise (f : EngineFault)
  | halt (h : Halt)
  | stuck
  deriving DecidableEq, Repr

/-- Goes on with the value of an operation, if it has one. -/
def andThen {α β : Type} (x : Access α) (k : α → Access β) : Access β :=
  match x with
  | .ok a => k a
  | .raise f => .raise f
  | .halt h => .halt h
  | .stuck => .stuck

/-- The word `n` words above an address. -/
def addressPlus (addr : AbsoluteAddress) (n : Nat) : AbsoluteAddress := { addr with offset := addr.offset + n }

/-- One single-word read (R35). -/
def readWord (s : State) (addr : AbsoluteAddress) : Access Word :=
  match storageKey s.params.storage addr with
  | some key => .ok (cellsRead s.memory.cells key)
  | none => .stuck

/-- One single-word write (R35). -/
def writeWord (s : State) (addr : AbsoluteAddress) (w : Word) : Access State :=
  match storageKey s.params.storage addr with
  | some key => .ok (s.setMemory ⟨cellsWrite s.memory.cells key w⟩)
  | none => .stuck

/-- `MemRead(addr, n)`: n single-word reads in increasing address order, word 0 first (R10, R35). -/
def memRead (s : State) (addr : AbsoluteAddress) : (n : Nat) → Access (Vector Word n)
  | 0 => .ok #v[]
  | n + 1 => andThen (memRead s addr n) fun ws =>
      andThen (readWord s (addressPlus addr n)) fun w => .ok (ws.push w)

/-- `MemWrite(addr, 2, v)`: two single-word writes in increasing address order (R10, R35). -/
def memWrite2 (s : State) (addr : AbsoluteAddress) (v0 v1 : Word) : Access State :=
  andThen (writeWord s addr v0) fun s1 => writeWord s1 (addressPlus addr 1) v1

/-! ### Translation through a base register -/

/-- `rel_to_abs(r, rel)` (R31). -/
def relToAbs (r : Bound) (rel : Int) : AbsoluteAddress where
  processorIndex := r.baseAddress.processorIndex
  offset := r.baseAddress.offset + rel

/-- A relative address is inside a bound base register iff `LLN ≤ rel ≤ ULN`; a Void register has no address
inside it (R32). -/
def inside : BaseRegister → Int → Bool
  | .void, _ => false
  | .bound r, rel => decide ((r.lln.toNat : Int) ≤ rel) && decide (rel ≤ (r.uln.toNat : Int))

/-! ### Access control (40_access_control.md) -/

/-- What a term of P_ACCESS_SELECT stands for. -/
def accessTermValue (key lock : AccessKey) : AccessTerm → Nat
  | .keyRing => key.ring.toNat
  | .keyDomain => key.domain.toNat
  | .lockRing => lock.ring.toNat
  | .lockDomain => lock.domain.toNat
  | .const n => n

/-- Whether P_ACCESS_SELECT selects the special permissions (R68, D57). -/
def accessSelects (key lock : AccessKey) : AccessSelect → Bool
  | .lt a b => decide (accessTermValue key lock a < accessTermValue key lock b)
  | .eq a b => decide (accessTermValue key lock a = accessTermValue key lock b)
  | .not p => !accessSelects key lock p
  | .and p q => accessSelects key lock p && accessSelects key lock q
  | .or p q => accessSelects key lock p || accessSelects key lock q

/-- `effectivePermissions(key, lock, general, special)` (R68), by the parameter P_ACCESS_SELECT (R6). -/
def effectivePermissions (p : Params) (key lock : AccessKey) (general special : Permissions) : Permissions :=
  if accessSelects key lock p.accessSelect then special else general

/-- Enter access of a key to a described bank (R69). -/
def enter (p : Params) (key : AccessKey) (bd : BankDescriptor) : Bool :=
  (effectivePermissions p key bd.lock bd.gap bd.sap).execute

/-! ### The engine's storage accesses (20_memory.md) -/

/-- The base register of the level-L descriptor table: P_BDT_BREG(L) (R16). -/
def bdtSlot (p : Params) (level : BitVec 3) : Slot := p.bdtBreg[level.toNat]'level.isLt

/-- The interrupt vector read of class `cls` (R38). -/
def vectorRead (s : State) (cls : Nat) : Access VA :=
  match s.breg (bdtSlot s.params 0) with
  | .void => .halt (.vectorBaseVoid cls)
  | .bound v =>
    if cls < v.lln.toNat ∨ v.uln.toNat < cls then .halt (.vectorClassOutOfRange cls)
    else andThen (memRead s (relToAbs v cls) 1) fun w => .ok (decodeVa w[0])

/-- The BDT walk, the default realization of `FIND_BD(L, BDI)` (R39); `none` is NotFound, an invalid bank-type code
included. -/
def tableLookup (s : State) (n : BankName) : Access (Option BankDescriptor) :=
  match s.breg (bdtSlot s.params n.level) with
  | .void => .ok none
  | .bound t =>
    if 8 * n.bdi.toNat < t.lln.toNat ∨ t.uln.toNat < 8 * n.bdi.toNat + 7 then .ok none
    else andThen (memRead s (relToAbs t (8 * n.bdi.toNat : Nat)) 8) fun w => .ok (decodeBd w)

/-- `FIND_BD(L, BDI)`: the collaborator that the parameters name (R6, R10, R39); `none` is NotFound. -/
def findBd (s : State) (n : BankName) : Access (Option BankDescriptor) :=
  match s.params.lookup with
  | .tableWalk => tableLookup s n
  | .substitute id =>
    match Config.findBankDescriptor id s.bregs s.memory n with
    | some r => .ok r
    | none => .stuck

/-- The gate record read at an offset of a gate bank (R40): the binding is used to form the address only. -/
def gateRead (s : State) (gb : BankDescriptor) (off : BitVec 18) : Access GateRecord :=
  andThen (memRead s (relToAbs (boundOf gb) off.toNat) 5) fun w => .ok (decodeGate w)

/-- The pop of a frame: the frame and the state with RCSP raised by 2 (R41). -/
def rcsPop (s : State) : Access (Frame × State) :=
  match s.breg s.params.rcsBreg with
  | .void => .raise (.stack .underflow s.params.rcsBreg s.rcsp)
  | .bound r =>
    if r.uln.toNat < s.rcsp.toNat + 1 ∨ s.rcsp.toNat < r.lln.toNat
    then .raise (.stack .underflow s.params.rcsBreg s.rcsp)
    else andThen (memRead s (relToAbs r s.rcsp.toNat) 2) fun w =>
      .ok (decodeFrame w[0] w[1], s.setRcsp (s.rcsp + 2))

/-- The push of a frame: `np` is RCSP − 2 as an unbounded integer, the stored pointer its value mod 2^18 (R42). -/
def rcsPush (s : State) (f : Frame) : Access State :=
  let np : Int := (s.rcsp.toNat : Int) - 2
  match s.breg s.params.rcsBreg with
  | .void => .raise (.stack .overflow s.params.rcsBreg (s.rcsp - 2))
  | .bound r =>
    if np < r.lln.toNat ∨ (r.uln.toNat : Int) < np + 1
    then .raise (.stack .overflow s.params.rcsBreg (s.rcsp - 2))
    else andThen (memWrite2 s (relToAbs r np) (encodeFrame0 f) (encodeFrame1 f)) fun s1 =>
      .ok (s1.setRcsp (s.rcsp - 2))

/-! ### How an invocation ends (60_exceptions.md) -/

/-- The state an invocation ends with: `info` is discarded, the outcome stands in `result` (R11, R24, R73). -/
def finished (c : Completion) (s : State) : State := (s.setInfo Info.idle).setResult (some c)

/-- Ends the invocation (R73). -/
def endInvocation (c : Completion) (s : State) : Out := .next (finished c s)

/-- `raise f`: THE taking of a fault. An instruction-driven invocation returns it to the requester; on the
interrupt-entry path it is `halt(WrappedFault, f)` (R74, R109, R110). No register is written (R109, R114). -/
def raise (f : EngineFault) (s : State) : Out :=
  if s.info.op = some .int then endInvocation (.halt (.wrappedFault f)) s else endInvocation (.fault f) s

/-- `halt(code)`: the processor stops; all state written before stays (R10, R122). -/
def haltProcessor (h : Halt) (s : State) : Out := endInvocation (.halt h) s

/-- Uses the value of an operation in a step, or ends the invocation as the operation says; `s` is the state the
invocation ends with. -/
def onAccess {α : Type} (x : Access α) (s : State) (k : α → Out) : Out :=
  match x with
  | .ok a => k a
  | .raise f => raise f s
  | .halt h => haltProcessor h s
  | .stuck => .fault .storageInaccessible

/-- Reads a field of `info`; a field not yet computed is a model fault (R24). -/
def need {α : Type} (o : Option α) (k : α → Out) : Out :=
  match o with
  | some a => k a
  | none => .fault .infoFieldUnset

/-- The processor is stopped by a halt (R122). -/
def State.halted (s : State) : Bool :=
  match s.result with
  | some (.halt _) => true
  | _ => false

/-- A reset that arrives during an invocation abandons it at a step boundary: the effects of the completed steps
remain, the engine is idle and no fault is pending (R123). Requests not yet taken stay (log entry 20). A pending halt is
cleared with the result, so that a reset wakes a processor that a halt has stopped: DESIGN CHOICE, the spec leaves open
what wakes it (R122; log entry 25, unsafe). -/
def State.abandonInvocation (s : State) : State := (s.setInfo Info.idle).setResult none

/-! ### Codes (R109, R110, R111) -/

/-- The code of an AddressingFault reason (R109). -/
def addressingCode : AddressingReason → Nat
  | .invalidISValue => 1
  | .invalidSourceLevelBDI => 2
  | .bdTypeInvalid => 3
  | .gBitSetIndirect => 4
  | .enterAccessDenied => 5
  | .gateBankBoundaryViolation => 6
  | .fatalAddressingException => 7

/-- The code of a StackFault reason (R109). -/
def stackCode : StackReason → Nat
  | .overflow => 1
  | .underflow => 2

/-- The fault tuple `Fault(kind, reason, slot, fp)` as numbers (R109). -/
def faultTuple : EngineFault → Nat × Nat × Nat × Nat
  | .addressing r => (1, addressingCode r, 0, 0)
  | .invalidInstruction => (2, 1, 0, 0)
  | .stack r slot fp => (3, stackCode r, slot.val, fp.toNat)

/-- The halt reason's code (R110). -/
def haltCode : Halt → Nat
  | .vectorBaseVoid _ => 1
  | .vectorClassOutOfRange _ => 2
  | .wrappedFault _ => 3

/-- The code of a refusal of the spec (R111): none for the model's own. -/
def refusalCode : Refusal → Option Nat
  | .libraryGate => some 1
  | .reservedRequestCode => some 2
  | _ => none

end Sys2Proof.Machine
end

