-- ==== Sys2Proof/Machine/Operands.lean ====
section
/-! DEFINITION. The operation classes and the operand forms: where an operation's bank name, offset and base register come
from (00_scope.md R12, 30_encoding.md R50, R61, 41_engine_steps.md R76, R77). -/

namespace Sys2Proof.Machine

/-! ### Operation classes (R12) -/

/-- `isLxJ` of an operation kind. -/
def kindIsLxj : OpKind → Bool
  | .lbj | .ldj | .lij => true
  | .call | .goto | .lae | .lbe | .lbu | .rtn | .ur | .int => false

/-- `isLoad` of an operation kind. -/
def kindIsLoad : OpKind → Bool
  | .lae | .lbe | .lbu => true
  | .call | .goto | .lbj | .ldj | .lij | .rtn | .ur | .int => false

/-- `isLxJ` (R12). -/
def Info.isLxj (i : Info) : Bool :=
  match i.op with
  | some k => kindIsLxj k
  | none => false

/-- `isLoad` (R12). -/
def Info.isLoad (i : Info) : Bool :=
  match i.op with
  | some k => kindIsLoad k
  | none => false

/-- `isInt` (R12). -/
def Info.isInt (i : Info) : Bool := i.op == some .int

/-- An LxJ of a given form (R12). -/
def Info.isLxjForm (i : Info) (f : LxjForm) : Bool := i.isLxj && i.form == some f

/-- `isCall` (R12). -/
def Info.isCall (i : Info) : Bool := i.op == some .call || i.isLxjForm .call || i.isInt

/-- `isReturn` (R12). -/
def Info.isReturn (i : Info) : Bool := i.op == some .rtn || i.isLxjForm .ret

/-- `isReturnLike` (R12). -/
def Info.isReturnLike (i : Info) : Bool := i.isReturn || i.op == some .ur

/-- `isForward` (R12). -/
def Info.isForward (i : Info) : Bool :=
  i.op == some .call || i.op == some .goto || i.isLxjForm .normal || i.isLxjForm .call

/-- `isTransfer` (R12). -/
def Info.isTransfer (i : Info) : Bool := !i.isLoad

/-! ### Reserved names -/

/-- The reserved range: level 0 with 0 < BDI < 32 (R5, R78). -/
def nameReserved (n : BankName) : Bool :=
  n.level == 0 && decide (1 ≤ n.bdi.toNat) && decide (n.bdi.toNat ≤ 31)

/-- The void bank (0,0) (R65, R79). -/
def nameIsVoid (n : BankName) : Bool := n == voidName

/-- "L = 0 and BDI ≤ 31": the reserved range or (0,0) (R82, R83). -/
def nameReservedOrVoid (n : BankName) : Bool := n.level == 0 && decide (n.bdi.toNat ≤ 31)

/-! ### The LxJ reference -/

/-- `P_IS_FORM(IS)` for the valid values 0, 1 and 2 (R61); 3 is rejected at step 1 (R75). -/
def formOf (p : Params) (is : BitVec 2) : LxjForm :=
  if is = 0 then p.isForm.is0 else if is = 1 then p.isForm.is1 else p.isForm.is2

/-- `P_LXJ_LEVEL(E, LS)` (R61). -/
def lxjLevel (p : Params) (x : Word) : BitVec 3 :=
  p.lxjLevel[2 * (linkE x).toNat + (linkLs x).toNat]'(by
    have h1 := Bool.toNat_le (linkE x)
    have h2 := Bool.toNat_le (linkLs x)
    omega)

/-- The basic-mode register that an LxJ kind selects (`lxj_slot`, R76), in the return form too: R102's "B fields are not
used" is read of its source and destination (DEDUCED, log entry 24). None for the other kinds. -/
def lxjSel (p : Params) (op : OpKind) (x : Word) (db31 : Bool) : Option BmSel :=
  match op with
  | .lbj => some (linkB x)
  | .lij => some (p.lijSel.at db31)
  | .ldj => some (p.ldjSel.at db31)
  | .call | .goto | .lae | .lbe | .lbu | .rtn | .ur | .int => none

/-- The source of an LxJ normal or call form: level and BDI from X(a), the offset from the operand (R61, R77). -/
def lxjSource (p : Params) (x : Word) (d : BitVec 18) : VA := ⟨lxjLevel p x, linkBdi x, d⟩

/-! ### The caller (R76) -/

/-- The caller's code slot and bank name: the register an LxJ selects, else the EM code slot with PAR's name, else the
current basic-mode code slot. `x` is X(a), read for an LxJ only. -/
def callerOf (s : State) (op : OpKind) (x : Word) : Slot × BmSel × BankName :=
  match lxjSel s.params op x (db31 s.dr) with
  | some k => (bmSlot k, k, s.abtEntry k)
  | none =>
    if db16 s.dr then
      let k := s.params.curBmCodeSel.at (db31 s.dr)
      (bmSlot k, k, s.abtEntry k)
    else (emCodeSlot, 0, s.parName)

/-- The snapshot of step 2 (R76). -/
def capturePrior (s : State) (op : OpKind) (x : Word) : Prior where
  mode := modeOf (db16 s.dr)
  slot := (callerOf s op x).1
  sel := (callerOf s op x).2.1
  name := (callerOf s op x).2.2
  offset := if op = .int then s.par.pc else s.par.pc + 1
  db := db12to17 s.dr
  key := accessKey s.ikr
  db16 := db16 s.dr
  db17 := db17 s.dr
  db31 := db31 s.dr

end Sys2Proof.Machine
end

