-- ==== Sys2Proof/Machine/Engine.lean ====
section
/-! DEFINITION. The engine's 21 steps and its sequencer (41_engine_steps.md R73 to R96), and the start of an invocation. -/

namespace Sys2Proof.Machine

/-- `goto step n` (R10, R73). -/
def goto (n : StepNo) (s : State) : Out := .next (s.setInfo { s.info with step := n })

/-- `raise AddressingFault(reason)`. -/
def raiseAddressing (r : AddressingReason) (s : State) : Out := raise (.addressing r) s

/-! ### Steps 1 and 2: preflight and the caller's state -/

/-- Step 1 for an LxJ: reads X(a), rejects IS = 3, sets the form (R75). -/
def step1Lxj (s : State) (a : RegIndex) : Out :=
  let x := s.gr ⟨.x, regSetOf (db17 s.dr), a⟩
  if linkIs x = 3 then raiseAddressing .invalidISValue s
  else goto .s2 (s.setInfo { s.info with xlink := some x, form := some (formOf s.params (linkIs x)) })

/-- Step 1: preflight validation (R75). `info` is the new record that `startInvocation` has made; the reserved codes are
refused where the request is decoded. -/
def step1 (s : State) : Out :=
  need s.info.op fun op =>
  if op = .lbu then
    need s.info.a fun a =>
    if a.val ≤ 1 then raise .invalidInstruction s else goto .s3 s
  else if kindIsLxj op then need s.info.a fun a => step1Lxj s a
  else if op = .lae then goto .s3 (s.setInfo { s.info with laeI := some 1 })
  else if kindIsLoad op then goto .s3 s
  else goto .s2 s

/-- Step 2: captures the caller's state; writes nothing but `info.prior` (R76). -/
def step2 (s : State) : Out :=
  need s.info.op fun op =>
  if kindIsLxj op then
    need s.info.xlink fun x => goto .s3 (s.setInfo { s.info with prior := some (capturePrior s op x) })
  else goto .s3 (s.setInfo { s.info with prior := some (capturePrior s op 0) })

/-! ### Steps 3 to 6: the source bank -/

/-- Sets the source and the offset that step 17 writes unless a gate replaces it (R77). An LAE iteration starts with no
void substitution (log entry 14). -/
def withSource (s : State) (v : VA) : State :=
  s.setInfo { s.info with src := some v, finalOffset := some v.offset, voidTarget := false }

/-- Step 3 for a return-like operation whose frame is at hand (R77). -/
def step3Frame (s : State) (f : Frame) : Out :=
  goto .s4 (withSource (s.setInfo { s.info with popped := some f }) (frameVa f))

/-- Step 3 for an LxJ: the return form pops, the normal and call forms read X(a) and the operand (R77, R102). -/
def step3Lxj (s : State) : Out :=
  need s.info.form fun f =>
  if f = .ret then onAccess (rcsPop s) s fun r => step3Frame r.2 r.1
  else need s.info.xlink fun x =>
    match s.info.operand with
    | .offset d => goto .s4 (withSource s (lxjSource s.params x d))
    | _ => .fault .infoFieldUnset

/-- The i-th virtual address of LAE's operand, i = 1..15 (R50). -/
def laeOperand (vs : List VA) (i : Fin 16) : Option VA := vs[i.val - 1]?

/-- Step 3: determines the source (L, BDI, offset) (R77). -/
def step3 (s : State) : Out :=
  need s.info.op fun op =>
  match op with
  | .int => need s.info.cls fun c => onAccess (vectorRead s c) s fun v => goto .s4 (withSource s v)
  | .rtn => onAccess (rcsPop s) s fun r => step3Frame r.2 r.1
  | .ur =>
    match s.info.operand with
    | .frame u => step3Frame s u
    | _ => .fault .infoFieldUnset
  | .lbj | .ldj | .lij => step3Lxj s
  | .lae =>
    match s.info.operand with
    | .vas vs => need s.info.laeI fun i => need (laeOperand vs i) fun v => goto .s4 (withSource s v)
    | _ => .fault .infoFieldUnset
  | .call | .goto | .lbe | .lbu =>
    match s.info.operand with
    | .va v => goto .s4 (withSource s v)
    | _ => .fault .infoFieldUnset

/-- Step 4: the reserved-range check (R78). -/
def step4 (s : State) : Out :=
  need s.info.src fun v =>
  if nameReserved (vaName v) then raiseAddressing .invalidSourceLevelBDI s else goto .s5 s

/-- The void binding of step 5: `voidTarget <- true; targetLBDI <- (0,0)` (R79). -/
def withVoidTarget (s : State) : State :=
  s.setInfo { s.info with voidTarget := true, targetName := some voidName }

/-- Step 5: the void-bank short-circuit (R79). -/
def step5 (s : State) : Out :=
  need s.info.src fun v =>
  if nameIsVoid (vaName v) then
    if s.info.isInt then raiseAddressing .invalidSourceLevelBDI s
    else if s.info.isLoad then goto .s10 (withVoidTarget s)
    else if s.info.isReturnLike then
      need s.info.popped fun f =>
      if frameDb16 f then goto .s10 (withVoidTarget s) else raiseAddressing .invalidSourceLevelBDI s
    else if s.info.isForward then raiseAddressing .invalidSourceLevelBDI s
    else goto .s6 s
  else goto .s6 s

/-- Step 6: fetches the source descriptor (R80). -/
def step6 (s : State) : Out :=
  need s.info.src fun v =>
  onAccess (findBd s (vaName v)) s fun
    | none => raiseAddressing .fatalAddressingException s
    | some bd => goto .s7 (s.setInfo
        { s.info with srcBD := some bd, target := some bd, targetName := some (vaName v) })

/-! ### Steps 7 to 9: type dispatch, indirection and gates -/

/-- The direct enter check fails: a forward transfer to a bank its key may not enter, where P_DIRECT_ENTER_CHECK
(R69, R81, R82). -/
def enterDenied (s : State) (bd : BankDescriptor) : Bool :=
  s.info.isForward && s.params.directEnterCheck && !enter s.params (accessKey s.ikr) bd

/-- The void substitution of LBU: a BasicMode bank, reduced privilege, execute in neither triple (R70). -/
def substitutesVoid (s : State) (bd : BankDescriptor) : Bool :=
  s.info.op == some .lbu && reducedPrivilege s.params (processorPrivilege s.dr) && !bd.gap.execute
    && !bd.sap.execute

/-- Sets `voidTarget` where LBU substitutes a void target for a BasicMode bank (R81, R82). -/
def withSubstitution (s : State) (bd : BankDescriptor) : State :=
  if substitutesVoid s bd then s.setInfo { s.info with voidTarget := true } else s

/-- The end of steps 7 and 8 for an ExtendedMode or BasicMode bank: the direct enter check, then step 10 (R81, R82). -/
def enterThenBind (s : State) (bd : BankDescriptor) : Out :=
  if enterDenied s bd then raiseAddressing .enterAccessDenied s else goto .s10 s

/-- Step 7: dispatch on the source bank's type (R81). -/
def step7 (s : State) : Out :=
  need s.info.srcBD fun bd =>
  match bd.bankType with
  | .extendedMode => enterThenBind s bd
  | .basicMode =>
    if s.info.isInt then raiseAddressing .bdTypeInvalid s
    else if s.info.isReturnLike then
      need s.info.popped fun f => if frameDb16 f then goto .s10 s else raiseAddressing .bdTypeInvalid s
    else enterThenBind (withSubstitution s bd) bd
  | .gate =>
    if s.info.isInt then raiseAddressing .bdTypeInvalid s
    else if s.info.isForward then goto .s9 s
    else if s.info.isReturnLike then raiseAddressing .bdTypeInvalid s
    else goto .s10 s
  | .indirect =>
    if s.info.isInt then raiseAddressing .bdTypeInvalid s
    else if s.info.isForward || s.info.op == some .lbe || s.info.op == some .lbu then goto .s8 s
    else raiseAddressing .bdTypeInvalid s
  | .queueRepository => raiseAddressing .bdTypeInvalid s
  | .queue => if s.info.isLoad then goto .s10 s else raiseAddressing .bdTypeInvalid s

/-- Step 8's dispatch on the type of the indirect's target (R82). -/
def step8Dispatch (s : State) (t : BankDescriptor) : Out :=
  match t.bankType with
  | .extendedMode => enterThenBind s t
  | .basicMode => enterThenBind (withSubstitution s t) t
  | .gate => if s.info.isForward then goto .s9 s else goto .s10 s
  | .indirect | .queueRepository => raiseAddressing .fatalAddressingException s
  | .queue => if s.info.isLoad then goto .s10 s else raiseAddressing .bdTypeInvalid s

/-- Step 8: one hop of indirection (R82). -/
def step8 (s : State) : Out :=
  need s.info.srcBD fun bd =>
  if bd.generalFault then raiseAddressing .gBitSetIndirect s
  else if nameReservedOrVoid bd.target then raiseAddressing .invalidSourceLevelBDI s
  else onAccess (findBd s bd.target) s fun
    | none => raiseAddressing .fatalAddressingException s
    | some t => step8Dispatch
        (s.setInfo { s.info with target := some t, targetName := some bd.target }) t

/-- The state a gate transfers to the caller, subject to its inhibit flags, in the order of R83: DB12-17, the access
key, latent parameters 0 and 1. -/
def gateTransfers (s : State) (g : GateRecord) : State :=
  let s1 := if g.designatorBitsInhibited then s else s.setDr (setDb12to17 s.dr g.db)
  let s2 := if g.accessKeyInhibited then s1 else s1.setIkr (setAccessKey s1.ikr g.key)
  let s3 := if g.latentParam0Inhibited then s2 else s2.setGr s2.params.latentDest0 g.latent0
  if g.latentParam1Inhibited then s3 else s3.setGr s3.params.latentDest1 g.latent1

/-- Whether goto-inhibit applies: GOTO, an LxJ normal form, LBJ with IS = 1 (R83, D26). -/
def gotoInhibitApplies (i : Info) : Bool :=
  i.op == some .goto || i.isLxjForm .normal
    || (i.op == some .lbj && (match i.xlink with | some x => linkIs x == 1 | none => false))

/-- Step 9's last part: the gate's target (R83). `s` holds the gate's transfers. -/
def step9Target (s : State) (g : GateRecord) : Out :=
  if nameReservedOrVoid (vaName g.target) then raiseAddressing .fatalAddressingException s
  else onAccess (findBd s (vaName g.target)) s fun
    | none => raiseAddressing .fatalAddressingException s
    | some t =>
      if t.bankType = .extendedMode ∨ t.bankType = .basicMode then
        goto .s10 (s.setInfo
          { s.info with gated := true, gate := some g, target := some t,
                        targetName := some (vaName g.target), finalOffset := some g.target.offset })
      else raiseAddressing .fatalAddressingException s

/-- Step 9's processing of a gate record that has been read (R83). -/
def step9Record (s : State) (g : GateRecord) : Out :=
  if g.libraryGate then .refused .libraryGate
  else if s.params.gateRecordLockCheck
      && !(effectivePermissions s.params (accessKey s.ikr) g.lock g.gap g.sap).execute then
    raiseAddressing .enterAccessDenied s
  else if g.gotoInhibited && gotoInhibitApplies s.info then
    raiseAddressing .enterAccessDenied (gateTransfers s g)
  else step9Target (gateTransfers s g) g

/-- A gate record of 5 words at this offset lies inside the gate bank and is aligned to P_GATE_ALIGN (R83). -/
def gateOffsetOk (p : Params) (gb : BankDescriptor) (off : BitVec 18) : Bool :=
  decide ((normalizedLower gb).toNat ≤ off.toNat) && decide (off.toNat ≤ (normalizedUpper gb).toNat)
    && decide (off.toNat % p.gateAlign = 0) && decide (off.toNat + 4 ≤ (normalizedUpper gb).toNat)

/-- Step 9: gate processing (R83). -/
def step9 (s : State) : Out :=
  need s.info.target fun gb =>
  need s.info.src fun v =>
  if gb.generalFault then raiseAddressing .gBitSetIndirect s
  else if !enter s.params (accessKey s.ikr) gb then raiseAddressing .enterAccessDenied s
  else if !gateOffsetOk s.params gb v.offset then raiseAddressing .gateBankBoundaryViolation s
  else onAccess (gateRead s gb v.offset) s fun g => step9Record s g

/-! ### Step 10: the destination slot -/

/-- The mode in which a forward transfer lands (R84): BM iff the final target is BasicMode. -/
def forwardMode (t : BankDescriptor) : Mode := if t.bankType = .basicMode then .bm else .em

/-- The slot of CALL and GOTO (R84). -/
def callSlot (p : Params) (i : Info) (pr : Prior) (m : Mode) : Option Slot :=
  if m = .em then some emCodeSlot
  else if i.gated then i.gate.map fun g => bmSlot g.sel
  else if pr.mode = .em then some p.emToBmDefaultSlot
  else some (bmSlot (p.curBmCodeSel.at pr.db31))

/-- Ends step 10 of a transfer: records the mode and the slot (R84). -/
def landIn (s : State) (m : Mode) (slot : Slot) : Out :=
  goto .s11 (s.setInfo { s.info with targetMode := some m, slot := some slot })

/-- Ends step 10 of a load: records the slot (R84). -/
def loadInto (s : State) (slot : Slot) : Out := goto .s18 (s.setInfo { s.info with slot := some slot })

/-- Step 10 of a return-like operation: the frame's DB16 gives the mode, its selector the basic-mode slot; in EM,
`emSlot` (R84). -/
def step10Return (s : State) (emSlot : Slot) : Out :=
  need s.info.popped fun f =>
  if frameDb16 f then landIn s .bm (bmSlot f.sel) else landIn s .em emSlot

/-- Step 10: selects the destination base register (R84). -/
def step10 (s : State) : Out :=
  need s.info.op fun op =>
  match op with
  | .lae => need s.info.laeI fun i => loadInto s ⟨i.val, by omega⟩
  | .lbe => need s.info.a fun a => loadInto s ⟨16 + a.val, by omega⟩
  | .lbu => need s.info.a fun a => loadInto s ⟨a.val, by omega⟩
  | .int => landIn s .em s.params.hardHeldSlot
  | .ur => step10Return s s.params.hardHeldSlot
  | .rtn => step10Return s emCodeSlot
  | .lbj | .ldj | .lij =>
    if s.info.isReturn then step10Return s emCodeSlot
    else need s.info.target fun t => need s.info.prior fun pr =>
      landIn s (forwardMode t) (if forwardMode t = .em then emCodeSlot else pr.slot)
  | .call | .goto =>
    need s.info.target fun t => need s.info.prior fun pr =>
    need (callSlot s.params s.info pr (forwardMode t)) fun slot => landIn s (forwardMode t) slot

/-! ### Steps 11 to 17: linkage and mode transition -/

/-- What step 11 does to the caller's base register (R85). -/
def voidPrior (s : State) (pr : Prior) (m : Mode) : State :=
  match pr.mode, m with
  | .em, .bm => (s.setBreg emCodeSlot .void).setParName voidName
  | .bm, .em => recordAbt (s.setBreg pr.slot .void) pr.slot voidName
  | .em, .em => s
  | .bm, .bm => s

/-- Step 11: the prior base register (R85). -/
def step11 (s : State) : Out :=
  need s.info.prior fun pr => need s.info.targetMode fun m => goto .s12 (voidPrior s pr m)

/-- The frame that a call-type operation pushes (R86). -/
def returnFrame (pr : Prior) (trap : Bool) : Frame where
  level := pr.name.level
  bdi := pr.name.bdi
  offset := pr.offset
  trap := trap
  sel := pr.sel
  db := pr.db
  key := pr.key

/-- Step 12: pushes the return frame of a call-type operation (R86). -/
def step12 (s : State) : Out :=
  if s.info.isCall && (!s.info.isInt || s.params.intPushesRcs) then
    need s.info.prior fun pr =>
    onAccess (rcsPush s (returnFrame pr s.info.isInt)) s fun s1 => goto .s13 s1
  else goto .s13 s

/-- Step 13: the LxJ link register (R87): the uninterpreted link word of R62. -/
def step13 (s : State) : Out :=
  if s.info.isLxjForm .normal || s.info.isLxjForm .call then
    need s.info.prior fun pr => need s.info.a fun a =>
    goto .s14 (s.setGr ⟨.x, regSetOf pr.db17, a⟩
      (Config.lxjLinkWord pr.name.level pr.name.bdi pr.sel pr.offset pr.db16))
  else goto .s14 s

/-- Step 14: the link general register (R88). -/
def step14 (s : State) : Out :=
  need s.info.prior fun pr => need s.info.targetMode fun m =>
  if (s.info.isForward && pr.mode != m) || s.info.isLxjForm .normal then
    goto .s15 (s.setGr s.params.linkGr (linkGrWord pr.db16 pr.key))
  else goto .s15 s

/-- Step 15: a gate that transferred its designator bits takes precedence over step 16 (R89). -/
def step15 (s : State) : Out :=
  if s.info.gated then
    need s.info.gate fun g => if g.designatorBitsInhibited then goto .s16 s else goto .s17 s
  else goto .s16 s

/-- `DR[23:18] <- db; IKR[17:0] <- key`: the restore of a return and the setting of an interrupt entry (R90). -/
def restoreDesignators (s : State) (db : BitVec 6) (key : AccessKey) : State :=
  (s.setDr (setDb12to17 s.dr db)).setIkr (setAccessKey s.ikr key)

/-- Step 16: restores or sets designator bits and key (R90). -/
def step16 (s : State) : Out :=
  if s.info.isReturnLike then
    need s.info.popped fun f => goto .s17 (restoreDesignators s f.db f.key)
  else if s.info.isInt then goto .s17 (restoreDesignators s s.params.intDb s.params.intKey)
  else need s.info.prior fun pr => need s.info.targetMode fun m =>
    if s.info.isForward && pr.mode != m then goto .s17 (s.setDr (setDb16 s.dr (m == .bm)))
    else goto .s17 s

/-- Step 17: the program counter (R91). -/
def step17 (s : State) : Out := need s.info.finalOffset fun off => goto .s18 (s.setPc off)

/-! ### Steps 18 to 21: binding -/

/-- What step 18 records: `rec` in PAR for a transfer into EM, else in the slot's ABT entry if it has one (R92). -/
def recordBinding (s : State) (slot : Slot) (n : BankName) : State :=
  if s.info.isTransfer && s.info.targetMode == some .em then s.setParName n else recordAbt s slot n

/-- Step 18: binding bookkeeping (R92). -/
def step18 (s : State) : Out :=
  need s.info.slot fun slot => need s.info.targetName fun n =>
  goto .s19 (recordBinding s slot (if s.info.voidTarget then voidName else n))

/-- The step after 19: 20 for a transfer, 21 for a load (R93). -/
def afterBind (i : Info) : StepNo := if i.isTransfer then .s20 else .s21

/-- Step 19: loads the base register (R93). -/
def step19 (s : State) : Out :=
  need s.info.slot fun slot =>
  if s.info.voidTarget then goto (afterBind s.info) (s.setBreg slot .void)
  else need s.info.target fun t => goto (afterBind s.info) (s.setBreg slot (makeBreg t))

/-- Step 20: the basic-mode register-pair toggle (R94). -/
def step20 (s : State) : Out :=
  need s.info.op fun op => need s.info.prior fun pr => need s.info.targetMode fun m =>
  if s.params.toggleDb31.contains op && s.info.isForward && pr.mode == .bm && m == .bm then
    goto .s21 (s.setDr (flipDb31 s.dr))
  else goto .s21 s

/-- Step 21: the final consistency check, the LAE loop, and `Ok` (R95, R96). -/
def step21 (s : State) : Out :=
  need s.info.op fun op => need s.info.targetName fun n =>
  if !s.info.voidTarget && nameReserved n then raiseAddressing .fatalAddressingException s
  else if op = .lae then
    need s.info.laeI fun i =>
    if i.val < 15 then goto .s3 (s.setInfo { s.info with laeI := some (i + 1) })
    else endInvocation .ok s
  else endInvocation .ok s

/-! ### The sequencer (R73) -/

/-- One transition of the engine agent: the step that `info.step` names (R73). An idle engine stays as it is. -/
def engineStep (s : State) : Out :=
  match s.info.step with
  | .idle => .next s
  | .s1 => step1 s
  | .s2 => step2 s
  | .s3 => step3 s
  | .s4 => step4 s
  | .s5 => step5 s
  | .s6 => step6 s
  | .s7 => step7 s
  | .s8 => step8 s
  | .s9 => step9 s
  | .s10 => step10 s
  | .s11 => step11 s
  | .s12 => step12 s
  | .s13 => step13 s
  | .s14 => step14 s
  | .s15 => step15 s
  | .s16 => step16 s
  | .s17 => step17 s
  | .s18 => step18 s
  | .s19 => step19 s
  | .s20 => step20 s
  | .s21 => step21 s

/-- At most `n` engine steps, stopping when the invocation ends (R73, R123). -/
def engineSteps : Nat → State → Out
  | 0, s => .next s
  | n + 1, s =>
    if s.info.step = .idle then .next s
    else match engineStep s with
      | .next s1 => engineSteps n s1
      | .fault f => .fault f
      | .refused r => .refused r

/-- More steps than any invocation takes: LAE takes the most, 1 + 15 · 9 (R73, R96). -/
def engineFuel : Nat := 400

/-- Runs the engine until the invocation ends (R73: "no suspension point"). -/
def runEngine (s : State) : Out :=
  match engineSteps engineFuel s with
  | .next s1 => if s1.info.step = .idle then .next s1 else .fault .sequencerOverrun
  | .fault f => .fault f
  | .refused r => .refused r

/-- The new record of an invocation, with `info.step = 1` (R73, R75). -/
def startInvocation (op : OpKind) (a : Option RegIndex) (operand : Operand) (cls : Option Nat) (s : State) : State :=
  s.setInfo { Info.idle with step := .s1, op := some op, a := a, operand := operand, cls := cls }

/-- The start of the invocation of a request: its kind, a-field, operand and class go into the record (R75). -/
def startRequest (i : Instr) (s : State) : State :=
  match i with
  | .call v => startInvocation .call none (.va v) none s
  | .goto v => startInvocation .goto none (.va v) none s
  | .lae vs => startInvocation .lae none (.vas vs) none s
  | .lbe a v => startInvocation .lbe (some a) (.va v) none s
  | .lbu a v => startInvocation .lbu (some a) (.va v) none s
  | .lbj a d => startInvocation .lbj (some a) (.offset d) none s
  | .ldj a d => startInvocation .ldj (some a) (.offset d) none s
  | .lij a d => startInvocation .lij (some a) (.offset d) none s
  | .rtn => startInvocation .rtn none .absent none s
  | .ur u => startInvocation .ur none (.frame u) none s
  | .int cls => startInvocation .int none .absent (some cls) s

/-- One whole invocation, `manipulate(operationKind, operand)` or `manipulate(interrupt)` (R27). -/
def invoke (i : Instr) (s : State) : Out := runEngine (startRequest i s)

/-- A reset that arrives after `k` engine steps of the invocation of `i`: it abandons the invocation at that step
boundary, and the effects of the completed steps remain (R123). Where the invocation has ended with a halt by then, the
reset wakes the processor: DESIGN CHOICE (log entry 25, unsafe). -/
def resetAfter (k : Nat) (i : Instr) (s : State) : Out :=
  match engineSteps k (startRequest i s) with
  | .next s1 => .next s1.abandonInvocation
  | .fault f => .fault f
  | .refused r => .refused r

end Sys2Proof.Machine
end

