-- ==== Sys2Proof/Machine/Interrupt.lean ====
section
/-! DEFINITION. Interrupt entry (46_interrupt_entry.md, 60_exceptions.md R116). -/

namespace Sys2Proof.Machine

/-- INT: interrupt entry of class `cls` (R108). -/
def execInt (cls : Nat) (s : State) : Out := invoke (.int cls) s

end Sys2Proof.Machine
end

