-- ==== Sys2Proof/Machine/Load.lean ====
section
/-! DEFINITION. The bank loads LAE, LBE and LBU (43_load.md). -/

namespace Sys2Proof.Machine

/-- LAE: load base registers B1 to B15 (R99, R96). -/
def execLae (vs : List VA) (s : State) : Out := invoke (.lae vs) s

/-- LBE: load base register 16 + a (R100). -/
def execLbe (a : RegIndex) (v : VA) (s : State) : Out := invoke (.lbe a v) s

/-- LBU: load base register a, 2 to 15 (R101). -/
def execLbu (a : RegIndex) (v : VA) (s : State) : Out := invoke (.lbu a v) s

end Sys2Proof.Machine
end

