-- ==== Sys2Proof/Machine/Lxj.lean ====
section
/-! DEFINITION. The basic-mode jumps LBJ, LDJ and LIJ (44_lxj.md). -/

namespace Sys2Proof.Machine

/-- LBJ: load bank and jump, the slot selected by X(a) (R102, R103). -/
def execLbj (a : RegIndex) (d : BitVec 18) (s : State) : Out := invoke (.lbj a d) s

/-- LDJ: load data bank and jump (R102, R104). -/
def execLdj (a : RegIndex) (d : BitVec 18) (s : State) : Out := invoke (.ldj a d) s

/-- LIJ: load instruction bank and jump (R102, R105). -/
def execLij (a : RegIndex) (d : BitVec 18) (s : State) : Out := invoke (.lij a d) s

end Sys2Proof.Machine
end

