-- ==== Sys2Proof/Machine/Return.lean ====
section
/-! DEFINITION. The returns RTN and UR (45_return.md). -/

namespace Sys2Proof.Machine

/-- RTN: return through the return control stack (R106). -/
def execRtn (s : State) : Out := invoke .rtn s

/-- UR: user return from an operand frame (R107). -/
def execUr (u : Frame) (s : State) : Out := invoke (.ur u) s

end Sys2Proof.Machine
end

