-- ==== Sys2Proof/Machine/Transfer.lean ====
section
/-! DEFINITION. The forward transfers CALL and GOTO (42_transfer.md). -/

namespace Sys2Proof.Machine

/-- CALL: call a bank through a virtual address (R97). -/
def execCall (v : VA) (s : State) : Out := invoke (.call v) s

/-- GOTO: transfer to a bank through a virtual address, without linkage (R98). -/
def execGoto (v : VA) (s : State) : Out := invoke (.goto v) s

end Sys2Proof.Machine
end

