-- ==== Sys2Proof/Machine/Dispatch.lean ====
section
/-! DEFINITION. One arm per request kind, each a direct call of its meaning. -/

namespace Sys2Proof.Machine

def exec (i : Instr) (s : State) : Host.Outcome State Fault Refusal :=
  match i with
  | .call v => Sys2Proof.Machine.execCall v s
  | .goto v => Sys2Proof.Machine.execGoto v s
  | .lae vs => Sys2Proof.Machine.execLae vs s
  | .lbe a v => Sys2Proof.Machine.execLbe a v s
  | .lbu a v => Sys2Proof.Machine.execLbu a v s
  | .lbj a d => Sys2Proof.Machine.execLbj a d s
  | .ldj a d => Sys2Proof.Machine.execLdj a d s
  | .lij a d => Sys2Proof.Machine.execLij a d s
  | .rtn => Sys2Proof.Machine.execRtn s
  | .ur u => Sys2Proof.Machine.execUr u s
  | .int cls => Sys2Proof.Machine.execInt cls s

end Sys2Proof.Machine
end

