-- ==== Sys2Proof/Machine/Fetch.lean ====
section
/-! DEFINITION. Taking the next request from the port (00_scope.md R7, 10_state.md R27, 30_encoding.md R49). -/

namespace Sys2Proof.Machine

/-- The next request of the port, with the words after it (R49, R50). -/
def nextRequest (s : State) : Decoded := decode s.params.intClassWidth s.port

/-- What the engine refuses without an invocation: words that are no request (R65, R111). An empty port is no
refusal: the engine stays as it is (log entry 10). -/
def rejectRequest (e : DecodeError) (s : State) : Out :=
  match e with
  | .noRequest => .next s
  | .reservedRequestCode => .refused .reservedRequestCode
  | .truncatedRequest => .refused .truncatedRequest

/-- Places words at the head of the port of an engine that can take them: idle and not halted (log entry 10;
of a halted one it clears the halt, as a reset does, log entry 25). -/
def presentRequest (s : State) (ws : List Word) : State :=
  s.abandonInvocation.setPort (ws ++ s.port)

end Sys2Proof.Machine
end

