-- ==== Sys2Proof/Machine/Step.lean ====
section
/-! DEFINITION. One step of the machine: the engine takes the next request of its port and runs the whole invocation. -/

namespace Sys2Proof.Machine

/-- One step. A halted processor executes nothing further (R122, 93_implementation_defined.md A28). An invocation in
progress runs to its end (R73). An idle engine takes the next request (R27). -/
def step (s : State) : Host.Outcome State Fault Refusal :=
  if s.halted then .fault .processorHalted
  else if s.info.step ≠ .idle then runEngine s
  else match nextRequest s with
    | .request i rest => exec i (s.setPort rest)
    | .rejected e => rejectRequest e s

/-- `s` with the request whose bits are `w` at the head of its port, on an engine that can take it (log entry 10). -/
def State.withFetchWord (s : State) (nbits w : Nat) : State := presentRequest s (tableRequest nbits w)

end Sys2Proof.Machine
end

