-- ==== Sys2Proof/Safety.lean ====
section
/-! DEFINITION. The terms that claims use: what an idle machine looks like, which stops are the model's own, and the
invariant of reachable states. -/

namespace Sys2Proof.Machine

/-- The engine is idle with an empty record (R28, R123). -/
def State.idle (s : State) : Bool := s.info == Info.idle

/-- A bound base register as R57 and R58 make it: its base offset is that of a descriptor (so it fits a signed 64-bit
integer with room for any relative address), and storageRef is the module of its base address. -/
def Bound.wf (b : Bound) : Bool :=
  decide (-(2 ^ 24 : Int) < b.baseAddress.offset) && decide (b.baseAddress.offset < (2 ^ 54 : Int))
    && b.storageRef == b.baseAddress.processorIndex

/-- A base register is Void or well formed. -/
def BaseRegister.wf : BaseRegister → Bool
  | .void => true
  | .bound b => b.wf

/-- The invariant of every state between invocations: storage in canonical form, every binding well formed, the engine
idle. -/
structure State.Inv (s : State) : Prop where
  memory : s.memory.wf = true
  bregs : ∀ i : Slot, (s.breg i).wf = true
  idle : s.info = Info.idle

/-- No recorded bank name lies in the reserved range (R5, R95): neither PAR's nor an ABT entry's. -/
structure State.NamesUnreserved (s : State) : Prop where
  par : nameReserved s.parName = false
  abt : ∀ k : BmSel, nameReserved (s.abtEntry k) = false

/-- The outcomes of an invocation that the spec knows (R11, R36): a state with a result and an idle engine, the refusal
of a library gate, or a storage access that the array cannot perform. -/
def SpecOutcome : Out → Prop
  | .next t => t.info = Info.idle ∧ t.result ≠ none
  | .refused r => r = .libraryGate
  | .fault f => f = .storageInaccessible

/-! ### Words for claims: the caller, the bank a name reaches, the landing -/

/-- The caller's mode, DB16 (R19, R76). -/
def State.mode (s : State) : Mode := modeOf (db16 s.dr)

/-- The current basic-mode code selector, P_CUR_BM_CODE_SLOT(DB31) (R76). -/
def State.codeSel (s : State) : BmSel := s.params.curBmCodeSel.at (db31 s.dr)

/-- The selector of the running code bank: 0 in extended mode (R76). -/
def State.callerSel (s : State) : BmSel := if db16 s.dr then s.codeSel else 0

/-- The name of the running code bank: PAR's in extended mode, an ABT entry's in basic mode (R76). -/
def State.callerName (s : State) : BankName := if db16 s.dr then s.abtEntry s.codeSel else s.parName

/-- The frame that a call-type request made in state `s` pushes for a caller's bank (R86). -/
def callerFrame (s : State) (n : BankName) (k : BmSel) (off : BitVec 18) (trap : Bool) : Frame where
  level := n.level
  bdi := n.bdi
  offset := off
  trap := trap
  sel := k
  db := db12to17 s.dr
  key := accessKey s.ikr

/-- What a transfer between modes does to the caller's base register; `k` selects the basic-mode one (R85). -/
def leaveCaller (s : State) (source target : Mode) (k : BmSel) : State :=
  match source, target with
  | .em, .bm => (s.setBreg 0 .void).setPar { s.par with level := 0, bdi := 0 }
  | .bm, .em => (s.setBreg (bmSlot k) .void).setAbtEntry k ⟨0, 0⟩
  | .em, .em => s
  | .bm, .bm => s

/-- What a transfer that lands in a mode records and binds: PAR's name in extended mode, the slot's ABT entry in basic
mode, and the base register (R92, R93). -/
def arrive (s : State) (target : Mode) (slot : Slot) (n : BankName) (r : BaseRegister) : State :=
  match target with
  | .em => (s.setPar { s.par with level := n.level, bdi := n.bdi }).setBreg slot r
  | .bm => (recordAbt s slot n).setBreg slot r

/-- The mode of a bank that a forward transfer enters (R84). -/
def landingMode (bd : BankDescriptor) : Mode := if bd.bankType = .basicMode then .bm else .em

/-- Designator bit 16 after a forward transfer without a gate: the new mode, where it changes (R90). `s` is the caller's
state, `u` the state to change. -/
def crossDb16 (s : State) (target : Mode) (u : State) : State :=
  if s.mode = target then u else u.setDr (setDb16 u.dr (target == .bm))

/-- The same after a transfer through a gate: designator bits that the gate transferred stand (R89, R90). -/
def gateDb16 (s : State) (g : GateRecord) (target : Mode) (u : State) : State :=
  if g.designatorBitsInhibited then crossDb16 s target u else u

/-- The link general register of CALL and GOTO: written where the mode changes (R88). -/
def crossLink (s : State) (target : Mode) (u : State) : State :=
  if s.mode = target then u else u.setGr s.params.linkGr (linkGrWord (db16 s.dr) (accessKey s.ikr))

/-- The slot where CALL and GOTO land without a gate (R84). -/
def callLanding (s : State) (target : Mode) : Slot :=
  match target with
  | .em => 0
  | .bm => if db16 s.dr then bmSlot s.codeSel else s.params.emToBmDefaultSlot

/-- A bank that can be bound: found under a name that is neither reserved nor the void bank's (R78, R79, R80). -/
def FindsBank (s : State) (n : BankName) (bd : BankDescriptor) : Prop :=
  nameReservedOrVoid n = false ∧ findBd s n = .ok (some bd)

/-- The bank `bd`, named `m`, that the name `n` reaches directly or through one Indirect descriptor (R81, R82). -/
def Reaches (s : State) (n m : BankName) (bd : BankDescriptor) : Prop :=
  (m = n ∧ bd.bankType ≠ .indirect ∧ FindsBank s n bd) ∨
    ∃ ib, FindsBank s n ib ∧ ib.bankType = .indirect ∧ ib.generalFault = false ∧ ib.target = m ∧ FindsBank s m bd

/-- A forward transfer without a gate may land in the bank: ExtendedMode or BasicMode, with enter access for the current
key where P_DIRECT_ENTER_CHECK (R69, R81, R82). -/
def MayLand (s : State) (bd : BankDescriptor) : Prop :=
  (bd.bankType = .extendedMode ∨ bd.bankType = .basicMode) ∧
    (s.params.directEnterCheck = true → enter s.params (accessKey s.ikr) bd = true)

/-- The gate record `g` that a forward transfer reads through the virtual address `v`: the gate bank passes the checks of
step 9 in their order (R83). -/
def ReadsGate (s : State) (v : VA) (g : GateRecord) : Prop :=
  ∃ m gb, Reaches s (vaName v) m gb ∧ gb.bankType = .gate ∧ gb.generalFault = false ∧
    enter s.params (accessKey s.ikr) gb = true ∧
    (normalizedLower gb).toNat ≤ v.offset.toNat ∧ v.offset.toNat + 4 ≤ (normalizedUpper gb).toNat ∧
    v.offset.toNat % s.params.gateAlign = 0 ∧ gateRead s gb v.offset = .ok g

/-- The gate lets the caller through: no library gate, and its own lock agrees where P_GATE_RECORD_LOCK_CHECK (R83). -/
def GateAdmits (s : State) (g : GateRecord) : Prop :=
  g.libraryGate = false ∧
    (s.params.gateRecordLockCheck = true →
      (effectivePermissions s.params (accessKey s.ikr) g.lock g.gap g.sap).execute = true)

/-- The bank that a gate leads to: ExtendedMode or BasicMode (R83). It is looked up in the state before the gate's transfers,
which no lookup of the model sees, a substitute for FIND_BD included (log entry 15). -/
def GateLeads (s : State) (g : GateRecord) (t : BankDescriptor) : Prop :=
  FindsBank s (vaName g.target) t ∧ (t.bankType = .extendedMode ∨ t.bankType = .basicMode)

/-- The slot where CALL and GOTO land through a gate (R84). -/
def gateLanding (g : GateRecord) (target : Mode) : Slot :=
  match target with
  | .em => 0
  | .bm => bmSlot g.sel

/-- The index register X(a) of an LxJ request (R61, R75). -/
def lxjRegister (s : State) (a : RegIndex) : GrName := ⟨.x, regSetOf (db17 s.dr), a⟩

/-- `i` is an LxJ request with a-field `a` and offset `d` that selects the basic-mode register `k` (R76, R102 to R105; in the
return form too, log entry 24). -/
def LxjSelects (s : State) (i : Instr) (a : RegIndex) (d : BitVec 18) (k : BmSel) : Prop :=
  (i = .lbj a d ∧ k = linkB (s.gr (lxjRegister s a))) ∨
    (i = .ldj a d ∧ k = s.params.ldjSel.at (db31 s.dr)) ∨
    (i = .lij a d ∧ k = s.params.lijSel.at (db31 s.dr))

/-- The LxJ reference X(a) is valid and has the form `f` (R61, R75). -/
def LxjHasForm (s : State) (a : RegIndex) (f : LxjForm) : Prop :=
  linkIs (s.gr (lxjRegister s a)) ≠ 3 ∧ formOf s.params (linkIs (s.gr (lxjRegister s a))) = f

/-- The source of an LxJ normal or call form (R61, R102). -/
def lxjTarget (s : State) (a : RegIndex) (d : BitVec 18) : VA :=
  ⟨lxjLevel s.params (s.gr (lxjRegister s a)), linkBdi (s.gr (lxjRegister s a)), d⟩

/-- The link registers that an LxJ writes: X(a) always, P_LINK_GR for the normal form and for a change of mode
(R87, R88). -/
def lxjLinks (s : State) (a : RegIndex) (k : BmSel) (f : LxjForm) (target : Mode) (u : State) : State :=
  let u1 := u.setGr (lxjRegister s a)
    (Config.lxjLinkWord (s.abtEntry k).level (s.abtEntry k).bdi k (s.par.pc + 1) (db16 s.dr))
  if f = .normal ∨ s.mode ≠ target then u1.setGr s.params.linkGr (linkGrWord (db16 s.dr) (accessKey s.ikr)) else u1

/-- The DB31 toggle of a forward transfer from basic mode into basic mode (R94). -/
def toggled (s : State) (op : OpKind) (target : Mode) (u : State) : State :=
  if s.params.toggleDb31.contains op ∧ s.mode = .bm ∧ target = .bm then u.setDr (flipDb31 u.dr) else u

/-- The slot where an LxJ normal or call form lands (R84). -/
def lxjLanding (k : BmSel) (target : Mode) : Slot :=
  match target with
  | .em => 0
  | .bm => bmSlot k

/-- What a return to the frame `f` binds: Void for the void bank in basic mode, else an ExtendedMode bank, or a BasicMode
bank in basic mode (R79, R81, R106). The bank is looked up in the state before a pop, which no lookup of the model sees, a
substitute for FIND_BD included (log entry 15). -/
def ReturnBinds (s : State) (f : Frame) (r : BaseRegister) : Prop :=
  (vaName (frameVa f) = ⟨0, 0⟩ ∧ frameDb16 f = true ∧ r = .void) ∨
    ∃ bd, FindsBank s (vaName (frameVa f)) bd ∧ r = makeBreg bd ∧
      (bd.bankType = .extendedMode ∨ (bd.bankType = .basicMode ∧ frameDb16 f = true))

/-- The state after a return to `f`: the caller's register of the mode it leaves is voided (`k` selects the basic-mode
one), DB12-17 and the key come from the frame, then PAR.PC, then the binding (R85, R90 to R93). `emSlot` is the
extended-mode slot. -/
def returned (s : State) (f : Frame) (k : BmSel) (emSlot : Slot) (r : BaseRegister) : State :=
  let m := modeOf (frameDb16 f)
  let u := ((leaveCaller s s.mode m k).setDr (setDb12to17 s.dr f.db)).setIkr (setAccessKey s.ikr f.key)
  arrive (u.setPar { u.par with pc := f.offset }) m (if frameDb16 f then bmSlot f.sel else emSlot)
    (vaName (frameVa f)) r

/-- What a load binds for a name: a bank with its name, or Void with (0,0) (R79, R81, R82). `hops` tells whether one
Indirect descriptor may stand between. -/
def LoadBinds (s : State) (hops : Bool) (n m : BankName) (r : BaseRegister) : Prop :=
  (n = ⟨0, 0⟩ ∧ m = ⟨0, 0⟩ ∧ r = .void) ∨
    ∃ bd, (if hops then Reaches s n m bd else m = n ∧ FindsBank s n bd) ∧ r = makeBreg bd ∧
      (bd.bankType = .extendedMode ∨ bd.bankType = .basicMode ∨ bd.bankType = .gate ∨ bd.bankType = .queue)

/-- The same for LBU: a BasicMode bank that reduced privilege may not bind, with execute in neither permission triple,
becomes Void with (0,0) (R70, R81, R82, R101). -/
def LbuBinds (s : State) (n m : BankName) (r : BaseRegister) : Prop :=
  (n = ⟨0, 0⟩ ∧ m = ⟨0, 0⟩ ∧ r = .void) ∨
    ∃ m' bd, Reaches s n m' bd ∧
      (bd.bankType = .extendedMode ∨ bd.bankType = .basicMode ∨ bd.bankType = .gate ∨ bd.bankType = .queue) ∧
      if bd.bankType = .basicMode ∧ reducedPrivilege s.params (processorPrivilege s.dr) = true ∧
          bd.gap.execute = false ∧ bd.sap.execute = false
      then m = ⟨0, 0⟩ ∧ r = .void else m = m' ∧ r = makeBreg bd

/-- `i` is a forward transfer with the source `v`: CALL, GOTO, or an LxJ of normal or call form (R12, R77). -/
def ForwardFrom (s : State) (i : Instr) (v : VA) : Prop :=
  i = .call v ∨ i = .goto v ∨
    ∃ a d k f, LxjSelects s i a d k ∧ LxjHasForm s a f ∧ f ≠ .ret ∧ v = lxjTarget s a d

/-- Goto-inhibit applies to the request: GOTO, an LxJ of normal form, and LBJ with IS = 1 (R83, R98, R102, R103). -/
def GotoInhibitApplies (s : State) (i : Instr) : Prop :=
  i.kind = .goto ∨ ∃ a d k, LxjSelects s i a d k ∧
    (LxjHasForm s a .normal ∨ (i.kind = .lbj ∧ linkIs (s.gr (lxjRegister s a)) = 1))

/-- Why one hop of indirection through `ib` fails for every operation that may take it (R82). -/
def HopFails (s : State) (ib : BankDescriptor) (e : AddressingReason) : Prop :=
  (ib.generalFault = true ∧ e = .gBitSetIndirect) ∨
    (ib.generalFault = false ∧
      ((nameReservedOrVoid ib.target = true ∧ e = .invalidSourceLevelBDI) ∨
        (nameReservedOrVoid ib.target = false ∧ findBd s ib.target = .ok none ∧ e = .fatalAddressingException) ∨
        ∃ bd, FindsBank s ib.target bd ∧ (bd.bankType = .indirect ∨ bd.bankType = .queueRepository) ∧
          e = .fatalAddressingException))

/-- Why a forward transfer to the name `n` fails before its gate or its destination (R78 to R82). -/
def ForwardFails (s : State) (n : BankName) (e : AddressingReason) : Prop :=
  (nameReservedOrVoid n = true ∧ e = .invalidSourceLevelBDI) ∨
    (nameReservedOrVoid n = false ∧ findBd s n = .ok none ∧ e = .fatalAddressingException) ∨
    (∃ bd, FindsBank s n bd ∧ bd.bankType = .queueRepository ∧ e = .bdTypeInvalid) ∨
    (∃ ib, FindsBank s n ib ∧ ib.bankType = .indirect ∧ HopFails s ib e) ∨
    ∃ m bd, Reaches s n m bd ∧
      ((bd.bankType = .queue ∧ e = .bdTypeInvalid) ∨
        ((bd.bankType = .extendedMode ∨ bd.bankType = .basicMode) ∧ s.params.directEnterCheck = true ∧
          enter s.params (accessKey s.ikr) bd = false ∧ e = .enterAccessDenied))

/-- Why a load of the name `n` fails (R78, R80, R81, R82); `hops` tells whether one Indirect descriptor may stand
between. -/
def LoadFails (s : State) (hops : Bool) (n : BankName) (e : AddressingReason) : Prop :=
  (nameReserved n = true ∧ e = .invalidSourceLevelBDI) ∨
    (nameReservedOrVoid n = false ∧ findBd s n = .ok none ∧ e = .fatalAddressingException) ∨
    ∃ bd, FindsBank s n bd ∧
      ((bd.bankType = .queueRepository ∧ e = .bdTypeInvalid) ∨
        (bd.bankType = .indirect ∧ if hops then HopFails s bd e else e = .bdTypeInvalid))

/-- Why a return to the frame `f` fails (R78 to R81, R106). -/
def ReturnFails (s : State) (f : Frame) (e : AddressingReason) : Prop :=
  (nameReserved (vaName (frameVa f)) = true ∧ e = .invalidSourceLevelBDI) ∨
    (vaName (frameVa f) = ⟨0, 0⟩ ∧ frameDb16 f = false ∧ e = .invalidSourceLevelBDI) ∨
    (nameReservedOrVoid (vaName (frameVa f)) = false ∧ findBd s (vaName (frameVa f)) = .ok none ∧
      e = .fatalAddressingException) ∨
    ∃ bd, FindsBank s (vaName (frameVa f)) bd ∧ e = .bdTypeInvalid ∧ bd.bankType ≠ .extendedMode ∧
      (bd.bankType = .basicMode → frameDb16 f = false)

/-- The requests that push a frame: CALL, an LxJ of call form, interrupt entry where P_INT_PUSHES_RCS (R86). -/
def Pushes (s : State) (i : Instr) : Prop :=
  i.kind = .call ∨ (i.kind = .int ∧ s.params.intPushesRcs = true) ∨
    ∃ a d k, LxjSelects s i a d k ∧ LxjHasForm s a .call

/-- The requests that pop a frame: RTN and an LxJ of return form (R77). -/
def Pops (s : State) (i : Instr) : Prop :=
  i = .rtn ∨ ∃ a d k, LxjSelects s i a d k ∧ LxjHasForm s a .ret

/-- The bank loads (R12). -/
def IsLoad (i : Instr) : Prop := i.kind = .lae ∨ i.kind = .lbe ∨ i.kind = .lbu

end Sys2Proof.Machine
end

