-- ==== Sys2Proof/Certificates/Slice0/Obligations.lean ====
section
/-! DEFINITION. The statements about the engine, for the provers. Each docstring names the rules of spec/ it rests on. The
words they share (Reaches, MayLand, leaveCaller, arrive, …) are defined in Sys2Proof/Safety.lean. -/

open Sys2Proof Sys2Proof.Machine

/-! ### Encoding -/

/-- R49, R50, R60, R67: decoding the words of a well-formed request, with any words after them, gives the request back and
leaves those words. -/
def Obligations.RequestDecodeOfEncode : Prop :=
  ∀ (classWidth : Nat) (i : Instr) (rest : List Word), i.wf classWidth = true →
    decode classWidth (encode i ++ rest) = .request i rest

/-- R64: the round-trip laws of bank descriptor, gate record and frame. Encoding what was decoded clears the reserved bits
of R54, R59 and R60; every pattern decodes but those with a bank-type code outside 0, 1, 2, 3, 4, 6. -/
def Obligations.RecordRoundTrips : Prop :=
  (∀ bd : BankDescriptor, decodeBd (encodeBd bd) = some bd) ∧
  (∀ g : GateRecord, decodeGate (encodeGate g) = g) ∧
  (∀ f : Frame, decodeFrame (encodeFrame0 f) (encodeFrame1 f) = f) ∧
  (∀ (w : Vector Word 8) (bd : BankDescriptor), decodeBd w = some bd →
    encodeBd bd = #v[w[0] &&& ~~~0o006031000000, w[1], w[2] &&& ~~~0o600000000000, w[3], w[4], 0, 0, 0]) ∧
  (∀ g : Vector Word 5, encodeGate (decodeGate g) =
    #v[g[0] &&& ~~~0o000077000000, g[1], g[2] &&& ~~~0o637700000000, g[3], g[4]]) ∧
  (∀ f0 f1 : Word, encodeFrame0 (decodeFrame f0 f1) = f0 ∧
    encodeFrame1 (decodeFrame f0 f1) = f1 &&& ~~~0o237700000000) ∧
  (∀ w : Vector Word 8, decodeBd w = none ↔ (w[0].extractLsb' 24 4).toNat ∉ [0, 1, 2, 3, 4, 6])

/-- R50, R66: how many operand words a request takes is a function of its operation code alone, and every header with an
operation code of R49 and enough words after it is a request of that kind. -/
def Obligations.OperandCountByOperation : Prop :=
  (∀ (classWidth : Nat) (h : Word) (ws rest : List Word) (i : Instr),
    decode classWidth (h :: ws) = .request i rest →
      opKindOf (headerOp h) = some i.kind ∧ operandCount i.kind ≤ ws.length ∧
        rest = ws.drop (operandCount i.kind)) ∧
  (∀ (classWidth : Nat) (h : Word) (ws : List Word) (k : OpKind),
    opKindOf (headerOp h) = some k → operandCount k ≤ ws.length →
      ∃ i rest, decode classWidth (h :: ws) = .request i rest ∧ i.kind = k)

/-- R49, R50, R51, R60: words written out from the layout tables decode to the requests they stand for: CALL 0,40,0100,
LBU 12, LIJ 5, RTN, UR, INT 8. -/
def Obligations.SampleWordsDecode : Prop :=
  decode 6 [0o000000000000, 0o000050000100] = .request (.call ⟨0, 40, 64⟩) [] ∧
  decode 6 [0o000000000304, 0o100057000000] = .request (.lbu 12 ⟨1, 47, 0⟩) [] ∧
  decode 6 [0o000000000127, 0o777777002000] = .request (.lij 5 1024) [] ∧
  decode 6 [0o000000000010] = .request .rtn [] ∧
  decode 6 [0o000000000011, 0o000040000200, 0o140010200005] =
    .request (.ur ⟨0, 32, 128, false, 3, 8, ⟨1, 5⟩⟩) [] ∧
  decode 6 [0o000000004017] = .request (.int 8) []

/-- R38, R39, R40, R54: what the engine reads from storage is what stands there. Where FIND_BD is the BDT walk of R39, a
descriptor whose eight words lie inside its table is found, a table that is Void or does not hold them is NotFound, and so
is an invalid type code; a gate record and an interrupt vector are read from their five words and one word. -/
def Obligations.StoredRecordsAreRead : Prop :=
  (∀ (s : State) (n : BankName) (r : Bound) (w : Vector Word 8), s.params.lookup = .tableWalk →
    s.breg (bdtSlot s.params n.level) = .bound r →
    r.lln.toNat ≤ 8 * n.bdi.toNat → 8 * n.bdi.toNat + 7 ≤ r.uln.toNat →
    (∀ k : Fin 8, readWord s (addressPlus (relToAbs r (8 * n.bdi.toNat : Nat)) k) = .ok w[k]) →
      findBd s n = .ok (decodeBd w)) ∧
  (∀ (s : State) (n : BankName), s.params.lookup = .tableWalk → s.breg (bdtSlot s.params n.level) = .void →
    findBd s n = .ok none) ∧
  (∀ (s : State) (n : BankName) (r : Bound), s.params.lookup = .tableWalk →
    s.breg (bdtSlot s.params n.level) = .bound r →
    8 * n.bdi.toNat < r.lln.toNat ∨ r.uln.toNat < 8 * n.bdi.toNat + 7 → findBd s n = .ok none) ∧
  (∀ (s : State) (gb : BankDescriptor) (off : BitVec 18) (g : Vector Word 5),
    (∀ k : Fin 5, readWord s (addressPlus (relToAbs (boundOf gb) off.toNat) k) = .ok g[k]) →
      gateRead s gb off = .ok (decodeGate g)) ∧
  (∀ (s : State) (c : Nat) (r : Bound) (w : Word), s.breg (bdtSlot s.params 0) = .bound r →
    r.lln.toNat ≤ c → c ≤ r.uln.toNat → readWord s (relToAbs r c) = .ok w → vectorRead s c = .ok (decodeVa w))

/-! ### The step and reset -/

/-- R27, R49, R73: where the words at the port are those of a well-formed request, one step of an idle engine on a
running processor takes those words from the port and runs the request. The port is the model's form of the requester's
interface (log entry 10). -/
def Obligations.StepRunsDecodedRequest : Prop :=
  ∀ (s : State) (i : Instr) (rest : List Word), s.halted = false → s.info.step = .idle →
    i.wf s.params.intClassWidth = true → nextRequest s = .request i rest → step s = exec i (s.setPort rest)

/-- R49, R65, R111: operation codes 10 to 14 are refused, whatever follows. The other two clauses are the model's own
choices: that an idle engine whose port is empty stays as it is (log entry 10), and the refusal of a request cut short (log
entry 11). -/
def Obligations.WordsThatAreNoRequest : Prop :=
  (∀ (s : State) (h : Word) (ws : List Word), s.halted = false → s.info.step = .idle → s.port = h :: ws →
    10 ≤ (headerOp h).toNat → (headerOp h).toNat ≤ 14 → step s = .refused .reservedRequestCode) ∧
  (∀ (s : State), s.halted = false → s.info.step = .idle → s.port = [] → step s = .next s) ∧
  (∀ (s : State) (h : Word) (ws : List Word) (k : OpKind), s.halted = false → s.info.step = .idle → s.port = h :: ws →
    opKindOf (headerOp h) = some k → ws.length < operandCount k → step s = .refused .truncatedRequest)

/-- R122, 93_implementation_defined.md A28: a halt is a stop state. A processor that an invocation has halted executes
nothing further; that the model shows this as a fault is its own choice (log entry 9). -/
def Obligations.HaltStopsProcessor : Prop :=
  ∀ (i : Instr) (s t : State) (h : Halt), exec i s = .next t → t.result = some (.halt h) →
    step t = .fault .processorHalted

/-- R123: after reset the engine is idle with an empty record and no fault pending, and the architectural registers are the
launch arguments; the engine keeps nothing across invocations; a reset during an invocation abandons it at a step boundary
and keeps the effects of the completed steps. The last clause also says that the words waiting at the port stay through such
a reset: that is the model's choice (log entry 20), as the port itself is (log entry 10), and as it is that the two flags of
the empty record are false and not `none` (log entry 23). R123 speaks of a pending fault: that no halt is pending after a
reset either, so that it wakes a halted processor, is the model's choice too (log entry 25). -/
def Obligations.ResetLeavesIdleEngine : Prop :=
  (∀ l : Launch, (State.launch l).info = Info.idle ∧ (State.launch l).result = none ∧
    (State.launch l).bregs = l.bregs ∧ (State.launch l).abt = l.abt ∧ (State.launch l).par = l.par ∧
    (State.launch l).dr = l.dr ∧ (State.launch l).ikr = l.ikr ∧ (State.launch l).xUser = l.xUser ∧
    (State.launch l).xExec = l.xExec ∧ (State.launch l).rUser = l.rUser ∧ (State.launch l).rExec = l.rExec ∧
    (State.launch l).rcsp = l.rcsp ∧ (State.launch l).memory = l.memory) ∧
  (∀ (i : Instr) (s : State) (j : Info), exec i (s.setInfo j) = exec i s) ∧
  (∀ (k : Nat) (i : Instr) (s t : State), resetAfter k i s = .next t →
    ∃ u, engineSteps k (startRequest i s) = .next u ∧ t.info = Info.idle ∧ t.result = none ∧
      t = (u.setInfo t.info).setResult t.result)

/-- The reset state of the model (log entry 2: its register values are the model's choice) meets the two invariants. -/
def Obligations.ResetMeetsInvariants : Prop :=
  State.reset.Inv ∧ State.reset.NamesUnreserved

/-- R14, R29, R57, R73: every step keeps the invariant: storage in canonical form, every base register Void or a binding
whose base offset fits, the engine idle. -/
def Obligations.StepKeepsInvariant : Prop :=
  ∀ s t : State, s.Inv → step s = .next t → t.Inv

/-- R95: no step lets a name of the reserved range into PAR or the active base table. -/
def Obligations.StepKeepsNamesUnreserved : Prop :=
  ∀ s t : State, s.Inv → s.NamesUnreserved → step s = .next t → t.NamesUnreserved

/-- R11, R24, R36, R73: every well-formed request ends: with a result and an idle engine, by the refusal of a library
gate, or stuck on a word that the storage array cannot access. No field of the record is read before it is set, and the
sequencer does not run on. The record's two flags, voidTarget and gated, are false until set: the model's reading (log
entry 23). -/
def Obligations.EveryRequestHasSpecOutcome : Prop :=
  ∀ (i : Instr) (s : State), i.wf s.params.intClassWidth = true → SpecOutcome (exec i s)

/-- R74: on the interrupt-entry path a raised fault halts with that fault wrapped, and the vector read halts with its own
codes; an instruction-driven invocation returns its faults and never halts. -/
def Obligations.InterruptPathHalts : Prop :=
  (∀ (f : EngineFault) (s : State), s.info.op = some .int → raise f s = .next (finished (.halt (.wrappedFault f)) s)) ∧
  (∀ (f : EngineFault) (s : State), s.info.op ≠ some .int → raise f s = .next (finished (.fault f) s)) ∧
  (∀ (s : State) (c : Nat), s.breg (bdtSlot s.params 0) = .void →
    exec (.int c) s = .next (finished (.halt (.vectorBaseVoid c)) s)) ∧
  (∀ (s : State) (c : Nat) (r : Bound), s.breg (bdtSlot s.params 0) = .bound r →
    c < r.lln.toNat ∨ r.uln.toNat < c → exec (.int c) s = .next (finished (.halt (.vectorClassOutOfRange c)) s)) ∧
  (∀ (c : Nat) (s t : State) (f : EngineFault), exec (.int c) s = .next t → t.result ≠ some (.fault f)) ∧
  (∀ (i : Instr) (s t : State) (h : Halt), i.kind ≠ .int → exec i s = .next t → t.result ≠ some (.halt h))

/-! ### Access control, limits, bindings, the stack -/

/-- R68, R72: the permission triple that a key selects where P_ACCESS_SELECT is the source's rule, its default (R6), with
the spec's worked example. -/
def Obligations.EffectivePermissionsSelect : Prop :=
  ∀ p : Params, p.accessSelect = sourceAccessSelect →
    (∀ (key lock : AccessKey) (general special : Permissions),
      (lock.domain.toNat < key.domain.toNat ∨ (key.ring = lock.ring ∧ key.domain = lock.domain) →
        effectivePermissions p key lock general special = special) ∧
      (¬(lock.domain.toNat < key.domain.toNat ∨ (key.ring = lock.ring ∧ key.domain = lock.domain)) →
        effectivePermissions p key lock general special = general)) ∧
    effectivePermissions p ⟨2, 5⟩ ⟨0, 3⟩ ⟨false, false, false⟩ ⟨true, false, false⟩ = ⟨true, false, false⟩

/-- R56: the normalized limits, and that a bank with LLN above ULN holds no address and fails every limit check: the gate
record's (step 9), the interrupt vector's, the BDT walk's (where FIND_BD is that walk), the pop's and the push's. -/
def Obligations.LimitsNormalized : Prop :=
  (∀ bd : BankDescriptor, (normalizedLower bd).toNat = bd.lowerLimit.toNat * (if bd.largeBank then 32768 else 512)) ∧
  (∀ bd : BankDescriptor, (normalizedUpper bd).toNat = bd.upperLimit.toNat * (if bd.largeBank then 64 else 1)) ∧
  (∀ (bd : BankDescriptor) (rel : Int), (normalizedUpper bd).toNat < (normalizedLower bd).toNat →
    inside (makeBreg bd) rel = false) ∧
  (∀ (p : Params) (bd : BankDescriptor) (off : BitVec 18), (normalizedUpper bd).toNat < (normalizedLower bd).toNat →
    gateOffsetOk p bd off = false) ∧
  (∀ (s : State) (c : Nat) (r : Bound), s.breg (bdtSlot s.params 0) = .bound r → r.uln.toNat < r.lln.toNat →
    vectorRead s c = .halt (.vectorClassOutOfRange c)) ∧
  (∀ (s : State) (n : BankName) (r : Bound), s.params.lookup = .tableWalk →
    s.breg (bdtSlot s.params n.level) = .bound r → r.uln.toNat < r.lln.toNat → findBd s n = .ok none) ∧
  (∀ (s : State) (f : Frame) (r : Bound), s.breg s.params.rcsBreg = .bound r → r.uln.toNat < r.lln.toNat →
    rcsPop s = .raise (.stack .underflow s.params.rcsBreg s.rcsp) ∧
    rcsPush s f = .raise (.stack .overflow s.params.rcsBreg (s.rcsp - 2)))

/-- R57, R58: the base address of a descriptor, in range and negative exactly below the lower limit, and the base register
made from it, which does not depend on G, U, the target name and the displacement. -/
def Obligations.BaseRegisterFromDescriptor : Prop :=
  (∀ bd : BankDescriptor, (baseAddr bd).processorIndex = bd.upi ∧
    (baseAddr bd).offset = (bd.segment.toNat : Int) * 2 ^ 36 + bd.baseOffset.toNat - (normalizedLower bd).toNat ∧
    -(2 ^ 55 : Int) < (baseAddr bd).offset ∧ (baseAddr bd).offset < (2 ^ 55 : Int) ∧
    ((baseAddr bd).offset < 0 ↔ bd.segment.toNat * 2 ^ 36 + bd.baseOffset.toNat < (normalizedLower bd).toNat)) ∧
  (∀ bd : BankDescriptor, makeBreg bd = .bound
    { bankType := bd.bankType, baseAddress := baseAddr bd, largeSizeFlag := bd.largeBank, lln := normalizedLower bd,
      uln := normalizedUpper bd, accessLock := bd.lock, gap := bd.gap, sap := bd.sap, storageRef := bd.upi }) ∧
  (∀ (bd : BankDescriptor) (g u : Bool) (n : BankName) (d : BitVec 18),
    makeBreg { bd with generalFault := g, upperLimitSuppression := u, target := n, displacement := d } = makeBreg bd)

/-- R41: the pop of a frame: when it underflows, and else the frame read and RCSP raised by 2. -/
def Obligations.PopReadsFrame : Prop :=
  (∀ s : State, s.breg s.params.rcsBreg = .void →
    rcsPop s = .raise (.stack .underflow s.params.rcsBreg s.rcsp)) ∧
  (∀ (s : State) (r : Bound), s.breg s.params.rcsBreg = .bound r →
    r.uln.toNat < s.rcsp.toNat + 1 ∨ s.rcsp.toNat < r.lln.toNat →
      rcsPop s = .raise (.stack .underflow s.params.rcsBreg s.rcsp)) ∧
  (∀ (s : State) (r : Bound) (w0 w1 : Word), s.breg s.params.rcsBreg = .bound r →
    s.rcsp.toNat + 1 ≤ r.uln.toNat → r.lln.toNat ≤ s.rcsp.toNat →
    readWord s (relToAbs r s.rcsp.toNat) = .ok w0 → readWord s (relToAbs r (s.rcsp.toNat + 1)) = .ok w1 →
      rcsPop s = .ok (decodeFrame w0 w1, s.setRcsp (s.rcsp + 2)))

/-- R42: the push of a frame: when it overflows, and else the two words stored below RCSP, no other word of storage changed,
and RCSP lowered by 2. `np` is an unbounded integer; the storage is in its canonical form, which every step keeps. -/
def Obligations.PushStoresFrame : Prop :=
  (∀ (s : State) (f : Frame), s.breg s.params.rcsBreg = .void →
    rcsPush s f = .raise (.stack .overflow s.params.rcsBreg (s.rcsp - 2))) ∧
  (∀ (s : State) (f : Frame) (r : Bound), s.breg s.params.rcsBreg = .bound r →
    (s.rcsp.toNat : Int) - 2 < r.lln.toNat ∨ (r.uln.toNat : Int) < (s.rcsp.toNat : Int) - 1 →
      rcsPush s f = .raise (.stack .overflow s.params.rcsBreg (s.rcsp - 2))) ∧
  (∀ (s : State) (f : Frame) (r : Bound) (w0 w1 : Word), s.memory.wf = true → s.breg s.params.rcsBreg = .bound r →
    (r.lln.toNat : Int) ≤ (s.rcsp.toNat : Int) - 2 → (s.rcsp.toNat : Int) - 1 ≤ r.uln.toNat →
    readWord s (relToAbs r ((s.rcsp.toNat : Int) - 2)) = .ok w0 →
    readWord s (relToAbs r ((s.rcsp.toNat : Int) - 1)) = .ok w1 →
      ∃ t, rcsPush s f = .ok t ∧ t = (s.setMemory t.memory).setRcsp (s.rcsp - 2) ∧
        readWord t (relToAbs r ((s.rcsp.toNat : Int) - 2)) = .ok (encodeFrame0 f) ∧
        readWord t (relToAbs r ((s.rcsp.toNat : Int) - 1)) = .ok (encodeFrame1 f) ∧
        ∀ a, a ≠ relToAbs r ((s.rcsp.toNat : Int) - 2) → a ≠ relToAbs r ((s.rcsp.toNat : Int) - 1) →
          readWord t a = readWord s a)

/-- R22, R41 to R43, R64: a frame pushed is the frame the next pop reads, and the pop brings RCSP back. The storage is in
its canonical form, which every step keeps. -/
def Obligations.PushThenPop : Prop :=
  ∀ (s t : State) (f : Frame), s.memory.wf = true → rcsPush s f = .ok t → rcsPop t = .ok (f, t.setRcsp s.rcsp)

/-! ### Forward transfers CALL and GOTO -/

/-- R97, R84 to R93: CALL to an ExtendedMode or BasicMode bank, direct or through one Indirect descriptor, from either mode:
the whole next state. The frame with the caller's bank, PAR.PC + 1, selector, DB12-17 and key is pushed; on a change of mode
the caller's base register is voided, the link general register and DB16 are written; PAR.PC is the offset; the bank is
recorded and bound. Nothing else changes, but DB31 where P_TOGGLE_DB31 names CALL (it does not by default). -/
def Obligations.CallBindsBank : Prop :=
  ∀ (s u : State) (v : VA) (n : BankName) (bd : BankDescriptor), Reaches s (vaName v) n bd → MayLand s bd →
    rcsPush (leaveCaller s s.mode (landingMode bd) s.codeSel)
      (callerFrame s s.callerName s.callerSel (s.par.pc + 1) false) = .ok u →
    exec (.call v) s = .next (finished .ok (toggled s .call (landingMode bd)
      (arrive ((crossDb16 s (landingMode bd) (crossLink s (landingMode bd) u)).setPc v.offset)
        (landingMode bd) (callLanding s (landingMode bd)) n (makeBreg bd))))

/-- R98: GOTO is the CALL path without the push. -/
def Obligations.GotoBindsBank : Prop :=
  ∀ (s : State) (v : VA) (n : BankName) (bd : BankDescriptor), Reaches s (vaName v) n bd → MayLand s bd →
    exec (.goto v) s = .next (finished .ok (toggled s .goto (landingMode bd)
      (arrive ((crossDb16 s (landingMode bd) (crossLink s (landingMode bd)
          (leaveCaller s s.mode (landingMode bd) s.codeSel))).setPc v.offset)
        (landingMode bd) (callLanding s (landingMode bd)) n (makeBreg bd))))

/-- R97, R83, R89: CALL through a gate: the gate's transfers to the caller, the frame of the state before them, and the
gate's target bound, with PAR.PC the gate's target offset and B12 + the gate's selector in basic mode. Goto-inhibit does not
matter. -/
def Obligations.CallThroughGate : Prop :=
  ∀ (s u : State) (v : VA) (g : GateRecord) (t : BankDescriptor), ReadsGate s v g → GateAdmits s g → GateLeads s g t →
    rcsPush (leaveCaller (gateTransfers s g) s.mode (landingMode t) s.codeSel)
      (callerFrame s s.callerName s.callerSel (s.par.pc + 1) false) = .ok u →
    exec (.call v) s = .next (finished .ok (toggled s .call (landingMode t)
      (arrive ((gateDb16 s g (landingMode t) (crossLink s (landingMode t) u)).setPc g.target.offset)
        (landingMode t) (gateLanding g (landingMode t)) (vaName g.target) (makeBreg t))))

/-- R98, R83, R89: GOTO through a gate that does not inhibit it. -/
def Obligations.GotoThroughGate : Prop :=
  ∀ (s : State) (v : VA) (g : GateRecord) (t : BankDescriptor), ReadsGate s v g → GateAdmits s g → GateLeads s g t →
    g.gotoInhibited = false →
    exec (.goto v) s = .next (finished .ok (toggled s .goto (landingMode t)
      (arrive ((gateDb16 s g (landingMode t) (crossLink s (landingMode t)
          (leaveCaller (gateTransfers s g) s.mode (landingMode t) s.codeSel))).setPc g.target.offset)
        (landingMode t) (gateLanding g (landingMode t)) (vaName g.target) (makeBreg t))))

/-- R83, R98, R102, R103: a goto-inhibited gate denies GOTO, the LxJ normal forms and LBJ with IS = 1, after its transfers,
which stay. -/
def Obligations.GotoInhibitedGateDenies : Prop :=
  ∀ (s : State) (g : GateRecord), GateAdmits s g → g.gotoInhibited = true →
    (∀ v : VA, ReadsGate s v g →
      exec (.goto v) s = .next (finished (.fault (.addressing .enterAccessDenied)) (gateTransfers s g))) ∧
    (∀ (i : Instr) (a : RegIndex) (d : BitVec 18) (k : BmSel) (f : LxjForm), LxjSelects s i a d k → LxjHasForm s a f →
      f = .normal ∨ (f = .call ∧ i.kind = .lbj ∧ linkIs (s.gr (lxjRegister s a)) = 1) →
      ReadsGate s (lxjTarget s a d) g →
      exec i s = .next (finished (.fault (.addressing .enterAccessDenied)) (gateTransfers s g)))

/-- R83: what a gate transfers to the caller under each of its four inhibit flags, and that it changes nothing else. -/
def Obligations.GateTransfersFollowInhibitFlags : Prop :=
  ∀ (s : State) (g : GateRecord) (r : GrName),
    (gateTransfers s g).dr = (if g.designatorBitsInhibited then s.dr else setDb12to17 s.dr g.db) ∧
    (gateTransfers s g).ikr = (if g.accessKeyInhibited then s.ikr else setAccessKey s.ikr g.key) ∧
    (gateTransfers s g).gr r =
      (if g.latentParam1Inhibited = false ∧ r = s.params.latentDest1 then g.latent1
        else if g.latentParam0Inhibited = false ∧ r = s.params.latentDest0 then g.latent0 else s.gr r) ∧
    (gateTransfers s g).bregs = s.bregs ∧ (gateTransfers s g).abt = s.abt ∧ (gateTransfers s g).par = s.par ∧
    (gateTransfers s g).rcsp = s.rcsp ∧ (gateTransfers s g).memory = s.memory ∧
    (gateTransfers s g).params = s.params ∧ (gateTransfers s g).info = s.info ∧
    (gateTransfers s g).result = s.result ∧ (gateTransfers s g).port = s.port

/-- R83, R112, R113: the checks of step 9 in their order, for every forward transfer that reaches a gate bank: its G bit,
enter access, limits, alignment and fit, then the record: library gate, record lock, and the gate's target. Only the last
leaves the gate's transfers behind; it is reached where the gate does not inhibit the request (R98, R102, R103: a
goto-inhibited gate does not inhibit CALL and most LxJ of call form). -/
def Obligations.GateChecksInOrder : Prop :=
  ∀ (s : State) (i : Instr) (v : VA) (m : BankName) (gb : BankDescriptor), ForwardFrom s i v →
    Reaches s (vaName v) m gb → gb.bankType = .gate →
    (gb.generalFault = true → exec i s = .next (finished (.fault (.addressing .gBitSetIndirect)) s)) ∧
    (gb.generalFault = false → enter s.params (accessKey s.ikr) gb = false →
      exec i s = .next (finished (.fault (.addressing .enterAccessDenied)) s)) ∧
    (gb.generalFault = false → enter s.params (accessKey s.ikr) gb = true →
      (v.offset.toNat < (normalizedLower gb).toNat ∨ (normalizedUpper gb).toNat < v.offset.toNat + 4 ∨
        v.offset.toNat % s.params.gateAlign ≠ 0) →
      exec i s = .next (finished (.fault (.addressing .gateBankBoundaryViolation)) s)) ∧
    (∀ g : GateRecord, ReadsGate s v g →
      (g.libraryGate = true → exec i s = .refused .libraryGate) ∧
      (g.libraryGate = false → s.params.gateRecordLockCheck = true →
        (effectivePermissions s.params (accessKey s.ikr) g.lock g.gap g.sap).execute = false →
        exec i s = .next (finished (.fault (.addressing .enterAccessDenied)) s)) ∧
      (GateAdmits s g → ¬(g.gotoInhibited = true ∧ GotoInhibitApplies s i) →
        (nameReservedOrVoid (vaName g.target) = true ∨
          (nameReservedOrVoid (vaName g.target) = false ∧ findBd s (vaName g.target) = .ok none) ∨
          ∃ t, FindsBank s (vaName g.target) t ∧ t.bankType ≠ .extendedMode ∧ t.bankType ≠ .basicMode) →
        exec i s = .next (finished (.fault (.addressing .fatalAddressingException)) (gateTransfers s g))))

/-- R78 to R82, R112: why a forward transfer fails before its gate or destination; the fault is returned and no register
and no word of storage is changed. It includes double indirection, which is fatal. -/
def Obligations.ForwardFailures : Prop :=
  ∀ (s : State) (i : Instr) (v : VA) (e : AddressingReason), ForwardFrom s i v → ForwardFails s (vaName v) e →
    exec i s = .next (finished (.fault (.addressing e)) s)

/-- R82: an Indirect descriptor is transparent: CALL, GOTO, LBE and LBU through it do what they do with its target's name,
whatever that is, but where the target is itself Indirect or a QueueRepository. -/
def Obligations.IndirectionTransparent : Prop :=
  ∀ (s : State) (n m : BankName) (ib : BankDescriptor) (off : BitVec 18) (a : RegIndex), FindsBank s n ib →
    ib.bankType = .indirect → ib.generalFault = false → ib.target = m → nameReservedOrVoid m = false →
    (∀ bd, findBd s m = .ok (some bd) → bd.bankType ≠ .indirect ∧ bd.bankType ≠ .queueRepository) →
    exec (.call ⟨n.level, n.bdi, off⟩) s = exec (.call ⟨m.level, m.bdi, off⟩) s ∧
    exec (.goto ⟨n.level, n.bdi, off⟩) s = exec (.goto ⟨m.level, m.bdi, off⟩) s ∧
    exec (.lbe a ⟨n.level, n.bdi, off⟩) s = exec (.lbe a ⟨m.level, m.bdi, off⟩) s ∧
    exec (.lbu a ⟨n.level, n.bdi, off⟩) s = exec (.lbu a ⟨m.level, m.bdi, off⟩) s

/-- R26, R86, R97, R102, R112, R126: a CALL, or an LBJ, LDJ or LIJ of call form, whose frame does not fit faults with the
effects of step 11, and of the gate where there is one, left in place; the link registers are not written. -/
def Obligations.CallOverflowKeepsEarlierWrites : Prop :=
  (∀ (s : State) (v : VA) (n : BankName) (bd : BankDescriptor) (e : EngineFault), Reaches s (vaName v) n bd →
    MayLand s bd →
    rcsPush (leaveCaller s s.mode (landingMode bd) s.codeSel)
      (callerFrame s s.callerName s.callerSel (s.par.pc + 1) false) = .raise e →
    exec (.call v) s = .next (finished (.fault e) (leaveCaller s s.mode (landingMode bd) s.codeSel))) ∧
  (∀ (s : State) (v : VA) (g : GateRecord) (t : BankDescriptor) (e : EngineFault), ReadsGate s v g → GateAdmits s g →
    GateLeads s g t →
    rcsPush (leaveCaller (gateTransfers s g) s.mode (landingMode t) s.codeSel)
      (callerFrame s s.callerName s.callerSel (s.par.pc + 1) false) = .raise e →
    exec (.call v) s = .next (finished (.fault e) (leaveCaller (gateTransfers s g) s.mode (landingMode t) s.codeSel))) ∧
  (∀ (s : State) (i : Instr) (a : RegIndex) (d : BitVec 18) (k : BmSel) (n : BankName) (bd : BankDescriptor)
    (e : EngineFault), LxjSelects s i a d k → LxjHasForm s a .call → Reaches s (vaName (lxjTarget s a d)) n bd →
    MayLand s bd →
    rcsPush (leaveCaller s s.mode (landingMode bd) k)
      (callerFrame s (s.abtEntry k) k (s.par.pc + 1) false) = .raise e →
    exec i s = .next (finished (.fault e) (leaveCaller s s.mode (landingMode bd) k))) ∧
  (∀ (s : State) (i : Instr) (a : RegIndex) (d : BitVec 18) (k : BmSel) (g : GateRecord) (t : BankDescriptor)
    (e : EngineFault), LxjSelects s i a d k → LxjHasForm s a .call → ReadsGate s (lxjTarget s a d) g →
    GateAdmits s g → GateLeads s g t → ¬(g.gotoInhibited = true ∧ GotoInhibitApplies s i) →
    rcsPush (leaveCaller (gateTransfers s g) s.mode (landingMode t) k)
      (callerFrame s (s.abtEntry k) k (s.par.pc + 1) false) = .raise e →
    exec i s = .next (finished (.fault e) (leaveCaller (gateTransfers s g) s.mode (landingMode t) k)))

/-! ### Bank loads -/

/-- R100: LBE binds the bank of its operand, direct or through one Indirect descriptor, or Void for (0,0), in B16 + a.
Nothing else changes. -/
def Obligations.LbeBindsBank : Prop :=
  ∀ (s : State) (a : RegIndex) (v : VA) (m : BankName) (r : BaseRegister), LoadBinds s true (vaName v) m r →
    exec (.lbe a v) s = .next (finished .ok (s.setBreg ⟨16 + a.val, by omega⟩ r))

/-- R101, R70: LBU binds its bank in B a, a = 2 to 15, and records its name where a has an ABT entry; a BasicMode bank that
reduced privilege may not bind becomes Void with the name (0,0). -/
def Obligations.LbuBindsBank : Prop :=
  ∀ (s : State) (a : RegIndex) (v : VA) (m : BankName) (r : BaseRegister), 2 ≤ a.val → LbuBinds s (vaName v) m r →
    exec (.lbu a v) s = .next (finished .ok ((recordAbt s ⟨a.val, by omega⟩ m).setBreg ⟨a.val, by omega⟩ r))

/-- R96, R99: LAE binds B1 to B15 in this order, each lookup made in the state that the iterations before it left; `f j` is
the state after `j` iterations. That a void name does not make the banks after it Void is log entry 14. -/
def Obligations.LaeBindsAll : Prop :=
  ∀ (s : State) (vs : List VA) (f : Nat → State), vs.length = 15 → f 0 = s →
    (∀ j (h : j < 15), ∃ v m r, vs[j]? = some v ∧ LoadBinds (f j) false (vaName v) m r ∧
      f (j + 1) = (recordAbt (f j) ⟨j + 1, by omega⟩ m).setBreg ⟨j + 1, by omega⟩ r) →
    exec (.lae vs) s = .next (finished .ok (f 15))

/-- R96, R99, R126: an LAE that fails at an iteration faults there and keeps what the iterations before it bound
(a void name before it changes nothing for it: log entry 14). -/
def Obligations.LaeFaultKeepsEarlier : Prop :=
  ∀ (s : State) (vs : List VA) (f : Nat → State) (k : Nat) (v : VA) (e : AddressingReason), k < 15 → f 0 = s →
    (∀ j (h : j < 15), j < k → ∃ v m r, vs[j]? = some v ∧ LoadBinds (f j) false (vaName v) m r ∧
      f (j + 1) = (recordAbt (f j) ⟨j + 1, by omega⟩ m).setBreg ⟨j + 1, by omega⟩ r) →
    vs[k]? = some v → LoadFails (f k) false (vaName v) e →
    exec (.lae vs) s = .next (finished (.fault (.addressing e)) (f k))

/-- R75, R78, R80 to R82, R100, R101: why LBE and LBU fail; nothing is changed. An LBU of B0 or B1 is an
InvalidInstructionFault whatever its operand names. -/
def Obligations.LoadFailures : Prop :=
  (∀ (s : State) (a : RegIndex) (v : VA) (e : AddressingReason), LoadFails s true (vaName v) e →
    exec (.lbe a v) s = .next (finished (.fault (.addressing e)) s) ∧
    (2 ≤ a.val → exec (.lbu a v) s = .next (finished (.fault (.addressing e)) s))) ∧
  (∀ (s : State) (a : RegIndex) (v : VA), a.val ≤ 1 →
    exec (.lbu a v) s = .next (finished (.fault .invalidInstruction) s))

/-- R18, R99 to R101, D61: LAE, LBE and LBU leave PAR, DR, IKR, RCSP, every general register and every word of storage
alone, whether they succeed or fault. -/
def Obligations.LoadsLeaveControlState : Prop :=
  ∀ (i : Instr) (s t : State), IsLoad i → exec i s = .next t →
    t.par = s.par ∧ t.dr = s.dr ∧ t.ikr = s.ikr ∧ t.rcsp = s.rcsp ∧ (∀ g, t.gr g = s.gr g) ∧
      ∀ a, readWord t a = readWord s a

/-- R70, R71, R99: a load does not look at the access key: with another IKR it does the same, on every outcome. Where FIND_BD
is a substitute and not the walk of R39, this rests on the model's choice that a substitute reads the base registers, the
storage and the name alone, and so no key (log entry 15). -/
def Obligations.LoadsIgnoreKey : Prop :=
  ∀ (i : Instr) (s : State) (w : Word), IsLoad i →
    (∀ t, exec i s = .next t → exec i (s.setIkr w) = .next (t.setIkr w)) ∧
    (∀ f, exec i s = .fault f → exec i (s.setIkr w) = .fault f)

/-! ### Basic-mode jumps -/

/-- R102 to R105, R84 to R94: LBJ, LDJ and LIJ of normal and call form to an ExtendedMode or BasicMode bank, direct or
through one Indirect descriptor, from either mode: the whole next state. The call form pushes, X(a) gets the link word, the
link general register is written by the normal form and on a change of mode, and LDJ and LIJ (P_TOGGLE_DB31) flip DB31
from basic mode into basic mode. -/
def Obligations.LxjBindsBank : Prop :=
  ∀ (s u : State) (i : Instr) (a : RegIndex) (d : BitVec 18) (k : BmSel) (f : LxjForm) (n : BankName)
    (bd : BankDescriptor), LxjSelects s i a d k → LxjHasForm s a f → f ≠ .ret →
    Reaches s (vaName (lxjTarget s a d)) n bd → MayLand s bd →
    (f = .call → rcsPush (leaveCaller s s.mode (landingMode bd) k)
      (callerFrame s (s.abtEntry k) k (s.par.pc + 1) false) = .ok u) →
    (f = .normal → u = leaveCaller s s.mode (landingMode bd) k) →
    exec i s = .next (finished .ok (toggled s i.kind (landingMode bd)
      (arrive ((crossDb16 s (landingMode bd) (lxjLinks s a k f (landingMode bd) u)).setPc d)
        (landingMode bd) (lxjLanding k (landingMode bd)) n (makeBreg bd))))

/-- R102, R103, R83: the same through a gate that does not inhibit the form: the gate's target and offset, but the slot that
the LxJ selects. -/
def Obligations.LxjThroughGate : Prop :=
  ∀ (s u : State) (i : Instr) (a : RegIndex) (d : BitVec 18) (k : BmSel) (f : LxjForm) (g : GateRecord)
    (t : BankDescriptor), LxjSelects s i a d k → LxjHasForm s a f → f ≠ .ret →
    ReadsGate s (lxjTarget s a d) g → GateAdmits s g → GateLeads s g t →
    (g.gotoInhibited = true →
      f = .call ∧ ¬(i.kind = .lbj ∧ linkIs (s.gr (lxjRegister s a)) = 1)) →
    (f = .call → rcsPush (leaveCaller (gateTransfers s g) s.mode (landingMode t) k)
      (callerFrame s (s.abtEntry k) k (s.par.pc + 1) false) = .ok u) →
    (f = .normal → u = leaveCaller (gateTransfers s g) s.mode (landingMode t) k) →
    exec i s = .next (finished .ok (toggled s i.kind (landingMode t)
      (arrive ((gateDb16 s g (landingMode t) (lxjLinks s a k f (landingMode t) u)).setPc g.target.offset)
        (landingMode t) (lxjLanding k (landingMode t)) (vaName g.target) (makeBreg t))))

/-- R75, R102: an LxJ whose X(a) has interface spec 3 faults at step 1 and changes nothing. -/
def Obligations.LxjInvalidInterfaceSpec : Prop :=
  ∀ (s : State) (i : Instr) (a : RegIndex) (d : BitVec 18) (k : BmSel), LxjSelects s i a d k →
    linkIs (s.gr (lxjRegister s a)) = 3 →
    exec i s = .next (finished (.fault (.addressing .invalidISValue)) s)

/-- R76, R85, R102: the return form of LBJ, LDJ and LIJ pops a frame and returns to it as RTN does. Where it leaves basic
mode for extended mode, the register that it voids is the one the LxJ selects at step 2 (D37): for LBJ the one that the B
field of X(a) names. R102 says of this form that the level, BDI and B fields of X(a) are not used; the model reads that of
the source and the destination, which come from the frame, and not of the voided register (the model's reading, log
entry 24). -/
def Obligations.LxjReturnsToFrame : Prop :=
  ∀ (s s1 : State) (i : Instr) (a : RegIndex) (d : BitVec 18) (k : BmSel) (fr : Frame) (r : BaseRegister),
    LxjSelects s i a d k → LxjHasForm s a .ret → rcsPop s = .ok (fr, s1) → ReturnBinds s fr r →
    exec i s = .next (finished .ok (returned s1 fr k 0 r))

/-! ### Returns -/

/-- R106, R90 to R93: RTN returns to the frame it pops, into extended or basic mode or to the void bank: the whole next
state. -/
def Obligations.RtnReturnsToFrame : Prop :=
  ∀ (s s1 : State) (fr : Frame) (r : BaseRegister), rcsPop s = .ok (fr, s1) → ReturnBinds s fr r →
    exec .rtn s = .next (finished .ok (returned s1 fr s.codeSel 0 r))

/-- R107: UR returns to the frame of its operand, into B[P_HARD_HELD_SLOT] in extended mode; RCSP stays. -/
def Obligations.UrReturnsToOperand : Prop :=
  ∀ (s : State) (fr : Frame) (r : BaseRegister), ReturnBinds s fr r →
    exec (.ur fr) s = .next (finished .ok (returned s fr s.codeSel s.params.hardHeldSlot r))

/-- R78 to R81, R106, R107, R26: why a return fails. The frame that RTN or an LxJ return popped stays consumed; nothing else
changes. A pop that underflows changes nothing. -/
def Obligations.ReturnFailures : Prop :=
  (∀ (s : State) (fr : Frame) (e : AddressingReason), ReturnFails s fr e →
    exec (.ur fr) s = .next (finished (.fault (.addressing e)) s)) ∧
  (∀ (s s1 : State) (i : Instr) (fr : Frame) (e : AddressingReason), Pops s i → rcsPop s = .ok (fr, s1) →
    ReturnFails s fr e → exec i s = .next (finished (.fault (.addressing e)) (s.setRcsp (s.rcsp + 2)))) ∧
  (∀ (s : State) (i : Instr) (e : EngineFault), Pops s i → rcsPop s = .raise e →
    exec i s = .next (finished (.fault e) s))

/-- R77, R107, D46: the trap bit of UR's operand has no effect. -/
def Obligations.UrIgnoresTrapBit : Prop :=
  ∀ (s : State) (fr : Frame) (b : Bool), exec (.ur { fr with trap := b }) s = exec (.ur fr) s

/-- R97, R106, R117: a CALL and the RTN after it bring the caller back: PAR.PC is the address after the CALL, RCSP, DB12-17
and the key are the caller's, and the caller's bank is bound again under its name, from its descriptor as it then reads. The
storage is in its canonical form, which every step keeps. -/
def Obligations.CallThenRtnRestoresCaller : Prop :=
  ∀ (s u t : State) (v : VA) (n : BankName) (bd : BankDescriptor) (r : BaseRegister),
    s.memory.wf = true → Reaches s (vaName v) n bd → MayLand s bd →
    rcsPush (leaveCaller s s.mode (landingMode bd) s.codeSel)
      (callerFrame s s.callerName s.callerSel (s.par.pc + 1) false) = .ok u →
    exec (.call v) s = .next t → s.params.rcsBreg ≠ callLanding s (landingMode bd) →
    ReturnBinds t (callerFrame s s.callerName s.callerSel (s.par.pc + 1) false) r →
    ∃ w, exec .rtn t = .next w ∧ w.result = some .ok ∧ w.par.pc = s.par.pc + 1 ∧ w.rcsp = s.rcsp ∧
      db12to17 w.dr = db12to17 s.dr ∧ accessKey w.ikr = accessKey s.ikr ∧ w.mode = s.mode ∧
      (s.mode = .em → w.parName = s.parName ∧ w.breg 0 = r) ∧
      (s.mode = .bm → w.abtEntry s.codeSel = s.abtEntry s.codeSel ∧ w.breg (bmSlot s.codeSel) = r)

/-! ### Interrupt entry -/

/-- R108, R116: interrupt entry of a class whose vector names an ExtendedMode bank, from either mode: the whole next state.
The frame with the interrupted bank, PAR.PC, trap = 1, selector, DB12-17 and key is pushed where P_INT_PUSHES_RCS, an
interrupted basic-mode bank is voided, DB12-17 and the key are the parameters', and the handler's bank is bound. -/
def Obligations.IntEntersHandler : Prop :=
  ∀ (s u : State) (c : Nat) (v : VA) (bd : BankDescriptor), vectorRead s c = .ok v → FindsBank s (vaName v) bd →
    bd.bankType = .extendedMode →
    (s.params.intPushesRcs = true → rcsPush (leaveCaller s s.mode .em s.codeSel)
      (callerFrame s s.callerName s.callerSel s.par.pc true) = .ok u) →
    (s.params.intPushesRcs = false → u = leaveCaller s s.mode .em s.codeSel) →
    exec (.int c) s = .next (finished .ok
      (arrive (((u.setDr (setDb12to17 s.dr s.params.intDb)).setIkr (setAccessKey s.ikr s.params.intKey)).setPc v.offset)
        .em s.params.hardHeldSlot (vaName v) (makeBreg bd)))

/-- R108, R74, R112: interrupt entry with a vector that cannot be entered, or without room for its frame, halts the
processor with the fault wrapped; what the completed steps wrote stays. -/
def Obligations.IntHaltsOnFailure : Prop :=
  (∀ (s : State) (c : Nat) (v : VA), vectorRead s c = .ok v → nameReservedOrVoid (vaName v) = true →
    exec (.int c) s = .next (finished (.halt (.wrappedFault (.addressing .invalidSourceLevelBDI))) s)) ∧
  (∀ (s : State) (c : Nat) (v : VA), vectorRead s c = .ok v → nameReservedOrVoid (vaName v) = false →
    findBd s (vaName v) = .ok none →
    exec (.int c) s = .next (finished (.halt (.wrappedFault (.addressing .fatalAddressingException))) s)) ∧
  (∀ (s : State) (c : Nat) (v : VA) (bd : BankDescriptor), vectorRead s c = .ok v → FindsBank s (vaName v) bd →
    bd.bankType ≠ .extendedMode →
    exec (.int c) s = .next (finished (.halt (.wrappedFault (.addressing .bdTypeInvalid))) s)) ∧
  (∀ (s : State) (c : Nat) (v : VA) (bd : BankDescriptor) (e : EngineFault), vectorRead s c = .ok v →
    FindsBank s (vaName v) bd → bd.bankType = .extendedMode → s.params.intPushesRcs = true →
    rcsPush (leaveCaller s s.mode .em s.codeSel) (callerFrame s s.callerName s.callerSel s.par.pc true) = .raise e →
    exec (.int c) s = .next (finished (.halt (.wrappedFault e)) (leaveCaller s s.mode .em s.codeSel)))

/-- R108, R117: an interrupt entry and the RTN after it bring the interrupted code back: PAR.PC is the resume address, RCSP,
DB12-17 and the key are the interrupted code's, and its bank is bound again under its name. The storage is in its canonical
form, which every step keeps. -/
def Obligations.IntThenRtnResumes : Prop :=
  ∀ (s u t : State) (c : Nat) (v : VA) (bd : BankDescriptor) (r : BaseRegister), s.memory.wf = true → vectorRead s c = .ok v →
    FindsBank s (vaName v) bd → bd.bankType = .extendedMode → s.params.intPushesRcs = true →
    rcsPush (leaveCaller s s.mode .em s.codeSel) (callerFrame s s.callerName s.callerSel s.par.pc true) = .ok u →
    exec (.int c) s = .next t → s.params.rcsBreg ≠ s.params.hardHeldSlot →
    ReturnBinds t (callerFrame s s.callerName s.callerSel s.par.pc true) r →
    ∃ w, exec .rtn t = .next w ∧ w.result = some .ok ∧ w.par.pc = s.par.pc ∧ w.rcsp = s.rcsp ∧
      db12to17 w.dr = db12to17 s.dr ∧ accessKey w.ikr = accessKey s.ikr ∧ w.mode = s.mode ∧
      (s.mode = .em → w.parName = s.parName ∧ w.breg 0 = r) ∧
      (s.mode = .bm → w.abtEntry s.codeSel = s.abtEntry s.codeSel ∧ w.breg (bmSlot s.codeSel) = r)

/-! ### Frames: what an invocation leaves alone, on every outcome with a next state -/

/-- R35, R42, R86: storage is written by the push alone: a request that does not push leaves every word as it was, and one
that pushes leaves every word but the two below RCSP in the bank of B[P_RCS_BREG]. -/
def Obligations.StorageWrittenByPushOnly : Prop :=
  ∀ (i : Instr) (s t : State), exec i s = .next t →
    (¬Pushes s i → ∀ a, readWord t a = readWord s a) ∧
    (s.breg s.params.rcsBreg = .void → ∀ a, readWord t a = readWord s a) ∧
    (∀ r, s.breg s.params.rcsBreg = .bound r → ∀ a, a ≠ relToAbs r ((s.rcsp.toNat : Int) - 2) →
      a ≠ relToAbs r ((s.rcsp.toNat : Int) - 1) → readWord t a = readWord s a)

/-- R22: RCSP stays, but for a request that pops (raised by 2) or pushes (lowered by 2). -/
def Obligations.StackPointerMovesByFrames : Prop :=
  ∀ (i : Instr) (s t : State), exec i s = .next t →
    t.rcsp = s.rcsp ∨ (Pops s i ∧ t.rcsp = s.rcsp + 2) ∨ (Pushes s i ∧ t.rcsp = s.rcsp - 2)

/-- R21: the general registers that an invocation may write: none for a load, a return or interrupt entry; the link register
and the gate's two destinations for CALL and GOTO; these and X(a) for an LxJ of normal or call form. That a push or a pop
writes no general register, so that interrupt entry, RTN and an LxJ return write none, is the model's choice: R21 also
lists the register that P_RCSP_LOCATION names, and the model keeps RCSP apart from every general register (log entry 7). -/
def Obligations.GeneralRegisterFrame : Prop :=
  ∀ (i : Instr) (s t : State) (g : GrName), exec i s = .next t →
    (IsLoad i ∨ Pops s i ∨ i.kind = .ur ∨ i.kind = .int → t.gr g = s.gr g) ∧
    (g ≠ s.params.linkGr → g ≠ s.params.latentDest0 → g ≠ s.params.latentDest1 →
      (i.kind = .call ∨ i.kind = .goto → t.gr g = s.gr g) ∧
      (∀ a d k, LxjSelects s i a d k → g ≠ lxjRegister s a → t.gr g = s.gr g))

/-- R19, R20: the engine writes DB12-17 and DB31 of DR only, the key of IKR only, and DB31 only for the requests of
P_TOGGLE_DB31. -/
def Obligations.DesignatorAndKeyFrame : Prop :=
  ∀ (i : Instr) (s t : State), exec i s = .next t →
    (∀ j, j < 36 → j ≠ 4 → j < 18 ∨ 23 < j → t.dr.getLsbD j = s.dr.getLsbD j) ∧
    (∀ j, 18 ≤ j → t.ikr.getLsbD j = s.ikr.getLsbD j) ∧
    (s.params.toggleDb31.contains i.kind = false → db31 t.dr = db31 s.dr)

/-- R14: a base register is written at steps 11 and 19 only, and then the whole register: it becomes Void or the binding of a
descriptor. -/
def Obligations.BaseRegistersWrittenWhole : Prop :=
  ∀ (s t : State) (j : Slot), s.info.step ≠ .idle → engineStep s = .next t →
    (s.info.step ≠ .s11 → s.info.step ≠ .s19 → t.breg j = s.breg j) ∧
    (t.breg j = s.breg j ∨ t.breg j = .void ∨ ∃ bd, t.breg j = makeBreg bd)

/-- R84, R85, R92, R93: the base registers and ABT entries that a request may write: a load's own slot; B0, B12 to B15 and
the two slots of the parameters for a transfer. -/
def Obligations.BindingFrame : Prop :=
  ∀ (i : Instr) (s t : State), exec i s = .next t →
    (∀ a v, i = .lbe a v → (∀ j : Slot, j.val ≠ 16 + a.val → t.breg j = s.breg j) ∧ t.abt = s.abt) ∧
    (∀ a v, i = .lbu a v → (∀ j : Slot, j.val ≠ a.val → t.breg j = s.breg j) ∧
      ∀ k : BmSel, (bmSlot k).val ≠ a.val → t.abtEntry k = s.abtEntry k) ∧
    (i.kind = .lae → ∀ j : Slot, j.val = 0 ∨ 15 < j.val → t.breg j = s.breg j) ∧
    (¬IsLoad i → ∀ j : Slot, j ≠ 0 → j.val < 12 ∨ 15 < j.val → j ≠ s.params.hardHeldSlot →
      j ≠ s.params.emToBmDefaultSlot → t.breg j = s.breg j)

/-- R91, R95, R114: an invocation that ends with a fault or a halt leaves PAR.PC as it was. -/
def Obligations.ProgramCounterKeptOnFault : Prop :=
  ∀ (i : Instr) (s t : State), exec i s = .next t → t.result ≠ some .ok → t.par.pc = s.par.pc

/-- No request changes the parameters or takes words from the port beyond its own. Both are the model's choices and no
rule's words: the parameters are fixed before reset (log entry 1), and the requester's interface is a port of words from
which the step alone takes (log entry 10). The parameters are those of 00_scope.md, the interface that of 10_state.md. -/
def Obligations.ParametersAndPortKept : Prop :=
  ∀ (i : Instr) (s t : State), exec i s = .next t → t.params = s.params ∧ t.port = s.port

/-! ### Single steps -/

/-- R85: step 11, the prior base register. -/
def Obligations.StepElevenVoidsCaller : Prop :=
  ∀ (s : State) (pr : Prior) (m : Mode), s.info.step = .s11 → s.info.prior = some pr → s.info.targetMode = some m →
    ∃ t, engineStep s = .next t ∧ t.info.step = .s12 ∧
      (pr.mode = .em → m = .bm → t.breg 0 = .void ∧ t.parName = ⟨0, 0⟩ ∧ t.par.pc = s.par.pc ∧ t.abt = s.abt ∧
        ∀ j : Slot, j ≠ 0 → t.breg j = s.breg j) ∧
      (pr.mode = .bm → m = .em → t.breg pr.slot = .void ∧ t.par = s.par ∧
        (∀ j : Slot, j ≠ pr.slot → t.breg j = s.breg j) ∧
        ∀ k : BmSel, t.abtEntry k = if bmSlot k = pr.slot then ⟨0, 0⟩ else s.abtEntry k) ∧
      (pr.mode = m → t.breg = s.breg ∧ t.abt = s.abt ∧ t.par = s.par)

/-- R90: step 16, the designator bits and the key. -/
def Obligations.StepSixteenRestores : Prop :=
  ∀ s : State, s.info.step = .s16 →
    (∀ f, s.info.isReturnLike = true → s.info.popped = some f → ∃ t, engineStep s = .next t ∧ t.info.step = .s17 ∧
      db12to17 t.dr = f.db ∧ accessKey t.ikr = f.key) ∧
    (s.info.isReturnLike = false → s.info.isInt = true → ∃ t, engineStep s = .next t ∧ t.info.step = .s17 ∧
      db12to17 t.dr = s.params.intDb ∧ accessKey t.ikr = s.params.intKey) ∧
    (∀ pr m, s.info.isReturnLike = false → s.info.isInt = false → s.info.prior = some pr → s.info.targetMode = some m →
      ∃ t, engineStep s = .next t ∧ t.info.step = .s17 ∧ t.ikr = s.ikr ∧
        t.dr = if s.info.isForward = true ∧ pr.mode ≠ m then setDb16 s.dr (m == .bm) else s.dr) ∧
    (∀ t, engineStep s = .next t → (∀ j, j < 36 → j < 18 ∨ 23 < j → t.dr.getLsbD j = s.dr.getLsbD j) ∧
      ∀ j, 18 ≤ j → t.ikr.getLsbD j = s.ikr.getLsbD j)

/-- R94: step 20, the basic-mode register-pair toggle. -/
def Obligations.StepTwentyToggles : Prop :=
  ∀ (s : State) (op : OpKind) (pr : Prior) (m : Mode), s.info.step = .s20 → s.info.op = some op →
    s.info.prior = some pr → s.info.targetMode = some m →
    ∃ t, engineStep s = .next t ∧ t.info.step = .s21 ∧
      (if op ∈ s.params.toggleDb31 ∧ s.info.isForward = true ∧ pr.mode = .bm ∧ m = .bm
        then db31 t.dr = !db31 s.dr ∧ ∀ j, j ≠ 4 → t.dr.getLsbD j = s.dr.getLsbD j
        else t.dr = s.dr)
end

