-- ==== Sys2Proof/Laws/Bits.lean ====
section
/-! SUPPORT. What `setField` does to every bit, and what that means for the designator bits and the access key. -/

namespace Sys2Proof.Machine

/-- Every bit of a word after a field was written. -/
theorem getLsbD_setField (w : Word) (lo n : Nat) (v : BitVec n) (h : lo + n ≤ 36) (i : Nat) :
    (setField w lo n v).getLsbD i =
      if lo ≤ i ∧ i < lo + n then v.getLsbD (i - lo) else w.getLsbD i := by
  by_cases hi : i < 36
  · unfold setField
    simp only [BitVec.getLsbD_or, BitVec.getLsbD_and, BitVec.getLsbD_not, BitVec.getLsbD_shiftLeft,
      BitVec.getLsbD_setWidth, BitVec.getLsbD_allOnes, hi, decide_true, Bool.true_and]
    by_cases h1 : lo ≤ i
    · by_cases h2 : i < lo + n
      · have h3 : i - lo < n := by omega
        have h4 : i - lo < 36 := by omega
        simp [h1, h2, h3, h4, Nat.not_lt.mpr h1]
      · have h3 : ¬ (i - lo < n) := by omega
        simp [h2, h3, Nat.not_lt.mpr h1, BitVec.getLsbD_of_ge v (i - lo) (by omega)]
    · simp [h1, Nat.lt_of_not_le h1]
  · rw [BitVec.getLsbD_of_ge _ _ (by omega), BitVec.getLsbD_of_ge w _ (by omega)]
    have : ¬ (lo ≤ i ∧ i < lo + n) := by omega
    simp [this]

/-- A field that was written reads back. -/
theorem extract_setField_same (w : Word) (lo n : Nat) (v : BitVec n) (h : lo + n ≤ 36) :
    (setField w lo n v).extractLsb' lo n = v := by
  ext i hi
  simp [BitVec.getElem_extractLsb', getLsbD_setField _ _ _ _ h, hi, BitVec.getLsbD_eq_getElem]

/-- A field that does not meet the one written keeps its value. -/
theorem extract_setField_disjoint (w : Word) (lo n : Nat) (v : BitVec n) (h : lo + n ≤ 36) (lo' n' : Nat)
    (hd : lo' + n' ≤ lo ∨ lo + n ≤ lo') :
    (setField w lo n v).extractLsb' lo' n' = w.extractLsb' lo' n' := by
  ext i hi
  have : ¬ (lo ≤ lo' + i ∧ lo' + i < lo + n) := by omega
  simp [BitVec.getElem_extractLsb', getLsbD_setField _ _ _ _ h, this]

/-! ### DR and IKR -/

@[simp] theorem db12to17_setDb12to17 (dr : Word) (v : BitVec 6) : db12to17 (setDb12to17 dr v) = v :=
  extract_setField_same dr 18 6 v (by decide)

@[simp] theorem db31_setDb12to17 (dr : Word) (v : BitVec 6) : db31 (setDb12to17 dr v) = db31 dr := by
  unfold db31 setDb12to17; rw [getLsbD_setField _ _ _ _ (by decide)]; simp

@[simp] theorem db16_setDb12to17 (dr : Word) (v : BitVec 6) : db16 (setDb12to17 dr v) = v.getLsbD 1 := by
  unfold db16 setDb12to17; rw [getLsbD_setField _ _ _ _ (by decide)]; simp

@[simp] theorem db17_setDb12to17 (dr : Word) (v : BitVec 6) : db17 (setDb12to17 dr v) = v.getLsbD 0 := by
  unfold db17 setDb12to17; rw [getLsbD_setField _ _ _ _ (by decide)]; simp

@[simp] theorem db16_setDb16 (dr : Word) (b : Bool) : db16 (setDb16 dr b) = b := by
  unfold db16 setDb16; rw [getLsbD_setField _ _ _ _ (by decide)]; cases b <;> simp

@[simp] theorem db31_setDb16 (dr : Word) (b : Bool) : db31 (setDb16 dr b) = db31 dr := by
  unfold db31 setDb16; rw [getLsbD_setField _ _ _ _ (by decide)]; simp

@[simp] theorem db31_flipDb31 (dr : Word) : db31 (flipDb31 dr) = !db31 dr := by
  have h : (flipDb31 dr).getLsbD 4 = (BitVec.ofBool (!db31 dr)).getLsbD 0 := by
    unfold flipDb31; rw [getLsbD_setField _ _ _ _ (by decide)]; simp
  rw [db31, h]; cases db31 dr <;> rfl

@[simp] theorem db12to17_flipDb31 (dr : Word) : db12to17 (flipDb31 dr) = db12to17 dr :=
  extract_setField_disjoint dr 4 1 _ (by decide) 18 6 (by decide)

/-- The bits of a concatenation: the low part first. Codec proofs take a field out bit by bit with this. -/
theorem getLsbD_cat {n m k : Nat} (h : n + m = k) (x : BitVec n) (y : BitVec m) (i : Nat) :
    ((x ++ y).cast h).getLsbD i = if i < m then y.getLsbD i else x.getLsbD (i - m) := by
  subst h; simp [BitVec.getLsbD_append]

@[simp] theorem decodeKey_encodeKey (k : AccessKey) : decodeKey (encodeKey k) = k := by
  obtain ⟨r, d⟩ := k
  simp only [decodeKey, encodeKey, AccessKey.mk.injEq]
  constructor <;> (apply BitVec.eq_of_getLsbD_eq; intro i hi) <;>
    rw [BitVec.getLsbD_extractLsb', getLsbD_cat] <;> simp [hi]

@[simp] theorem encodeKey_decodeKey (w : BitVec 18) : encodeKey (decodeKey w) = w := by
  apply BitVec.eq_of_getLsbD_eq
  intro i hi
  rw [decodeKey, encodeKey, getLsbD_cat]
  split
  · rename_i h; simp only [BitVec.getLsbD_extractLsb', h, Nat.zero_add, decide_true, Bool.true_and]
  · rename_i h
    have h1 : i - 16 < 2 := by omega
    have h2 : 16 + (i - 16) = i := by omega
    simp only [BitVec.getLsbD_extractLsb', h1, h2, decide_true, Bool.true_and]

@[simp] theorem decodeVa_encodeVa (v : VA) : decodeVa (encodeVa v) = v := by
  obtain ⟨l, b, o⟩ := v
  simp only [decodeVa, encodeVa, VA.mk.injEq]
  refine ⟨?_, ?_, ?_⟩ <;> (apply BitVec.eq_of_getLsbD_eq; intro i hi)
  all_goals
    simp only [BitVec.getLsbD_extractLsb', BitVec.getLsbD_cast, BitVec.getLsbD_append, hi, decide_true, Bool.true_and]
    split_ifs <;> first | rfl | omega | (congr 1; omega)

@[simp] theorem accessKey_setAccessKey (w : Word) (k : AccessKey) : accessKey (setAccessKey w k) = k := by
  simp [accessKey, setAccessKey, extract_setField_same]

end Sys2Proof.Machine
end

