-- ==== Sys2Proof/Laws/State.lean ====
section
/-! SUPPORT. One lemma per field per update of the state, so that no later proof unfolds a record update. -/

namespace Sys2Proof.Machine

/-! ### setInfo -/

@[simp] theorem setInfo_params (s : State) (i : Info) : (s.setInfo i).params = s.params := rfl
@[simp] theorem setInfo_bregs (s : State) (i : Info) : (s.setInfo i).bregs = s.bregs := rfl
@[simp] theorem setInfo_abt (s : State) (i : Info) : (s.setInfo i).abt = s.abt := rfl
@[simp] theorem setInfo_par (s : State) (i : Info) : (s.setInfo i).par = s.par := rfl
@[simp] theorem setInfo_dr (s : State) (i : Info) : (s.setInfo i).dr = s.dr := rfl
@[simp] theorem setInfo_ikr (s : State) (i : Info) : (s.setInfo i).ikr = s.ikr := rfl
@[simp] theorem setInfo_xUser (s : State) (i : Info) : (s.setInfo i).xUser = s.xUser := rfl
@[simp] theorem setInfo_xExec (s : State) (i : Info) : (s.setInfo i).xExec = s.xExec := rfl
@[simp] theorem setInfo_rUser (s : State) (i : Info) : (s.setInfo i).rUser = s.rUser := rfl
@[simp] theorem setInfo_rExec (s : State) (i : Info) : (s.setInfo i).rExec = s.rExec := rfl
@[simp] theorem setInfo_rcsp (s : State) (i : Info) : (s.setInfo i).rcsp = s.rcsp := rfl
@[simp] theorem setInfo_memory (s : State) (i : Info) : (s.setInfo i).memory = s.memory := rfl
@[simp] theorem setInfo_info (s : State) (i : Info) : (s.setInfo i).info = i := rfl
@[simp] theorem setInfo_result (s : State) (i : Info) : (s.setInfo i).result = s.result := rfl
@[simp] theorem setInfo_port (s : State) (i : Info) : (s.setInfo i).port = s.port := rfl
@[simp] theorem setInfo_breg (s : State) (i : Info) (j : Slot) : (s.setInfo i).breg j = s.breg j := rfl
@[simp] theorem setInfo_abtEntry (s : State) (i : Info) (k : BmSel) : (s.setInfo i).abtEntry k = s.abtEntry k := rfl
@[simp] theorem setInfo_parName (s : State) (i : Info)  : (s.setInfo i).parName = s.parName  := rfl
@[simp] theorem setInfo_gr (s : State) (i : Info) (g : GrName) : (s.setInfo i).gr g = s.gr g := rfl
@[simp] theorem setInfo_halted (s : State) (i : Info)  : (s.setInfo i).halted = s.halted  := rfl

/-! ### setResult -/

@[simp] theorem setResult_params (s : State) (r : Option Completion) : (s.setResult r).params = s.params := rfl
@[simp] theorem setResult_bregs (s : State) (r : Option Completion) : (s.setResult r).bregs = s.bregs := rfl
@[simp] theorem setResult_abt (s : State) (r : Option Completion) : (s.setResult r).abt = s.abt := rfl
@[simp] theorem setResult_par (s : State) (r : Option Completion) : (s.setResult r).par = s.par := rfl
@[simp] theorem setResult_dr (s : State) (r : Option Completion) : (s.setResult r).dr = s.dr := rfl
@[simp] theorem setResult_ikr (s : State) (r : Option Completion) : (s.setResult r).ikr = s.ikr := rfl
@[simp] theorem setResult_xUser (s : State) (r : Option Completion) : (s.setResult r).xUser = s.xUser := rfl
@[simp] theorem setResult_xExec (s : State) (r : Option Completion) : (s.setResult r).xExec = s.xExec := rfl
@[simp] theorem setResult_rUser (s : State) (r : Option Completion) : (s.setResult r).rUser = s.rUser := rfl
@[simp] theorem setResult_rExec (s : State) (r : Option Completion) : (s.setResult r).rExec = s.rExec := rfl
@[simp] theorem setResult_rcsp (s : State) (r : Option Completion) : (s.setResult r).rcsp = s.rcsp := rfl
@[simp] theorem setResult_memory (s : State) (r : Option Completion) : (s.setResult r).memory = s.memory := rfl
@[simp] theorem setResult_info (s : State) (r : Option Completion) : (s.setResult r).info = s.info := rfl
@[simp] theorem setResult_result (s : State) (r : Option Completion) : (s.setResult r).result = r := rfl
@[simp] theorem setResult_port (s : State) (r : Option Completion) : (s.setResult r).port = s.port := rfl
@[simp] theorem setResult_breg (s : State) (r : Option Completion) (j : Slot) : (s.setResult r).breg j = s.breg j := rfl
@[simp] theorem setResult_abtEntry (s : State) (r : Option Completion) (k : BmSel) : (s.setResult r).abtEntry k = s.abtEntry k := rfl
@[simp] theorem setResult_parName (s : State) (r : Option Completion)  : (s.setResult r).parName = s.parName  := rfl
@[simp] theorem setResult_gr (s : State) (r : Option Completion) (g : GrName) : (s.setResult r).gr g = s.gr g := rfl

/-! ### setPort -/

@[simp] theorem setPort_params (s : State) (ws : List Word) : (s.setPort ws).params = s.params := rfl
@[simp] theorem setPort_bregs (s : State) (ws : List Word) : (s.setPort ws).bregs = s.bregs := rfl
@[simp] theorem setPort_abt (s : State) (ws : List Word) : (s.setPort ws).abt = s.abt := rfl
@[simp] theorem setPort_par (s : State) (ws : List Word) : (s.setPort ws).par = s.par := rfl
@[simp] theorem setPort_dr (s : State) (ws : List Word) : (s.setPort ws).dr = s.dr := rfl
@[simp] theorem setPort_ikr (s : State) (ws : List Word) : (s.setPort ws).ikr = s.ikr := rfl
@[simp] theorem setPort_xUser (s : State) (ws : List Word) : (s.setPort ws).xUser = s.xUser := rfl
@[simp] theorem setPort_xExec (s : State) (ws : List Word) : (s.setPort ws).xExec = s.xExec := rfl
@[simp] theorem setPort_rUser (s : State) (ws : List Word) : (s.setPort ws).rUser = s.rUser := rfl
@[simp] theorem setPort_rExec (s : State) (ws : List Word) : (s.setPort ws).rExec = s.rExec := rfl
@[simp] theorem setPort_rcsp (s : State) (ws : List Word) : (s.setPort ws).rcsp = s.rcsp := rfl
@[simp] theorem setPort_memory (s : State) (ws : List Word) : (s.setPort ws).memory = s.memory := rfl
@[simp] theorem setPort_info (s : State) (ws : List Word) : (s.setPort ws).info = s.info := rfl
@[simp] theorem setPort_result (s : State) (ws : List Word) : (s.setPort ws).result = s.result := rfl
@[simp] theorem setPort_port (s : State) (ws : List Word) : (s.setPort ws).port = ws := rfl
@[simp] theorem setPort_breg (s : State) (ws : List Word) (j : Slot) : (s.setPort ws).breg j = s.breg j := rfl
@[simp] theorem setPort_abtEntry (s : State) (ws : List Word) (k : BmSel) : (s.setPort ws).abtEntry k = s.abtEntry k := rfl
@[simp] theorem setPort_parName (s : State) (ws : List Word)  : (s.setPort ws).parName = s.parName  := rfl
@[simp] theorem setPort_gr (s : State) (ws : List Word) (g : GrName) : (s.setPort ws).gr g = s.gr g := rfl
@[simp] theorem setPort_halted (s : State) (ws : List Word)  : (s.setPort ws).halted = s.halted  := rfl

/-! ### setPar -/

@[simp] theorem setPar_params (s : State) (p : Par) : (s.setPar p).params = s.params := rfl
@[simp] theorem setPar_bregs (s : State) (p : Par) : (s.setPar p).bregs = s.bregs := rfl
@[simp] theorem setPar_abt (s : State) (p : Par) : (s.setPar p).abt = s.abt := rfl
@[simp] theorem setPar_par (s : State) (p : Par) : (s.setPar p).par = p := rfl
@[simp] theorem setPar_dr (s : State) (p : Par) : (s.setPar p).dr = s.dr := rfl
@[simp] theorem setPar_ikr (s : State) (p : Par) : (s.setPar p).ikr = s.ikr := rfl
@[simp] theorem setPar_xUser (s : State) (p : Par) : (s.setPar p).xUser = s.xUser := rfl
@[simp] theorem setPar_xExec (s : State) (p : Par) : (s.setPar p).xExec = s.xExec := rfl
@[simp] theorem setPar_rUser (s : State) (p : Par) : (s.setPar p).rUser = s.rUser := rfl
@[simp] theorem setPar_rExec (s : State) (p : Par) : (s.setPar p).rExec = s.rExec := rfl
@[simp] theorem setPar_rcsp (s : State) (p : Par) : (s.setPar p).rcsp = s.rcsp := rfl
@[simp] theorem setPar_memory (s : State) (p : Par) : (s.setPar p).memory = s.memory := rfl
@[simp] theorem setPar_info (s : State) (p : Par) : (s.setPar p).info = s.info := rfl
@[simp] theorem setPar_result (s : State) (p : Par) : (s.setPar p).result = s.result := rfl
@[simp] theorem setPar_port (s : State) (p : Par) : (s.setPar p).port = s.port := rfl
@[simp] theorem setPar_breg (s : State) (p : Par) (j : Slot) : (s.setPar p).breg j = s.breg j := rfl
@[simp] theorem setPar_abtEntry (s : State) (p : Par) (k : BmSel) : (s.setPar p).abtEntry k = s.abtEntry k := rfl
@[simp] theorem setPar_gr (s : State) (p : Par) (g : GrName) : (s.setPar p).gr g = s.gr g := rfl
@[simp] theorem setPar_halted (s : State) (p : Par)  : (s.setPar p).halted = s.halted  := rfl

/-! ### setDr -/

@[simp] theorem setDr_params (s : State) (w : Word) : (s.setDr w).params = s.params := rfl
@[simp] theorem setDr_bregs (s : State) (w : Word) : (s.setDr w).bregs = s.bregs := rfl
@[simp] theorem setDr_abt (s : State) (w : Word) : (s.setDr w).abt = s.abt := rfl
@[simp] theorem setDr_par (s : State) (w : Word) : (s.setDr w).par = s.par := rfl
@[simp] theorem setDr_dr (s : State) (w : Word) : (s.setDr w).dr = w := rfl
@[simp] theorem setDr_ikr (s : State) (w : Word) : (s.setDr w).ikr = s.ikr := rfl
@[simp] theorem setDr_xUser (s : State) (w : Word) : (s.setDr w).xUser = s.xUser := rfl
@[simp] theorem setDr_xExec (s : State) (w : Word) : (s.setDr w).xExec = s.xExec := rfl
@[simp] theorem setDr_rUser (s : State) (w : Word) : (s.setDr w).rUser = s.rUser := rfl
@[simp] theorem setDr_rExec (s : State) (w : Word) : (s.setDr w).rExec = s.rExec := rfl
@[simp] theorem setDr_rcsp (s : State) (w : Word) : (s.setDr w).rcsp = s.rcsp := rfl
@[simp] theorem setDr_memory (s : State) (w : Word) : (s.setDr w).memory = s.memory := rfl
@[simp] theorem setDr_info (s : State) (w : Word) : (s.setDr w).info = s.info := rfl
@[simp] theorem setDr_result (s : State) (w : Word) : (s.setDr w).result = s.result := rfl
@[simp] theorem setDr_port (s : State) (w : Word) : (s.setDr w).port = s.port := rfl
@[simp] theorem setDr_breg (s : State) (w : Word) (j : Slot) : (s.setDr w).breg j = s.breg j := rfl
@[simp] theorem setDr_abtEntry (s : State) (w : Word) (k : BmSel) : (s.setDr w).abtEntry k = s.abtEntry k := rfl
@[simp] theorem setDr_parName (s : State) (w : Word)  : (s.setDr w).parName = s.parName  := rfl
@[simp] theorem setDr_gr (s : State) (w : Word) (g : GrName) : (s.setDr w).gr g = s.gr g := rfl
@[simp] theorem setDr_halted (s : State) (w : Word)  : (s.setDr w).halted = s.halted  := rfl

/-! ### setIkr -/

@[simp] theorem setIkr_params (s : State) (w : Word) : (s.setIkr w).params = s.params := rfl
@[simp] theorem setIkr_bregs (s : State) (w : Word) : (s.setIkr w).bregs = s.bregs := rfl
@[simp] theorem setIkr_abt (s : State) (w : Word) : (s.setIkr w).abt = s.abt := rfl
@[simp] theorem setIkr_par (s : State) (w : Word) : (s.setIkr w).par = s.par := rfl
@[simp] theorem setIkr_dr (s : State) (w : Word) : (s.setIkr w).dr = s.dr := rfl
@[simp] theorem setIkr_ikr (s : State) (w : Word) : (s.setIkr w).ikr = w := rfl
@[simp] theorem setIkr_xUser (s : State) (w : Word) : (s.setIkr w).xUser = s.xUser := rfl
@[simp] theorem setIkr_xExec (s : State) (w : Word) : (s.setIkr w).xExec = s.xExec := rfl
@[simp] theorem setIkr_rUser (s : State) (w : Word) : (s.setIkr w).rUser = s.rUser := rfl
@[simp] theorem setIkr_rExec (s : State) (w : Word) : (s.setIkr w).rExec = s.rExec := rfl
@[simp] theorem setIkr_rcsp (s : State) (w : Word) : (s.setIkr w).rcsp = s.rcsp := rfl
@[simp] theorem setIkr_memory (s : State) (w : Word) : (s.setIkr w).memory = s.memory := rfl
@[simp] theorem setIkr_info (s : State) (w : Word) : (s.setIkr w).info = s.info := rfl
@[simp] theorem setIkr_result (s : State) (w : Word) : (s.setIkr w).result = s.result := rfl
@[simp] theorem setIkr_port (s : State) (w : Word) : (s.setIkr w).port = s.port := rfl
@[simp] theorem setIkr_breg (s : State) (w : Word) (j : Slot) : (s.setIkr w).breg j = s.breg j := rfl
@[simp] theorem setIkr_abtEntry (s : State) (w : Word) (k : BmSel) : (s.setIkr w).abtEntry k = s.abtEntry k := rfl
@[simp] theorem setIkr_parName (s : State) (w : Word)  : (s.setIkr w).parName = s.parName  := rfl
@[simp] theorem setIkr_gr (s : State) (w : Word) (g : GrName) : (s.setIkr w).gr g = s.gr g := rfl
@[simp] theorem setIkr_halted (s : State) (w : Word)  : (s.setIkr w).halted = s.halted  := rfl

/-! ### setRcsp -/

@[simp] theorem setRcsp_params (s : State) (p : BitVec 18) : (s.setRcsp p).params = s.params := rfl
@[simp] theorem setRcsp_bregs (s : State) (p : BitVec 18) : (s.setRcsp p).bregs = s.bregs := rfl
@[simp] theorem setRcsp_abt (s : State) (p : BitVec 18) : (s.setRcsp p).abt = s.abt := rfl
@[simp] theorem setRcsp_par (s : State) (p : BitVec 18) : (s.setRcsp p).par = s.par := rfl
@[simp] theorem setRcsp_dr (s : State) (p : BitVec 18) : (s.setRcsp p).dr = s.dr := rfl
@[simp] theorem setRcsp_ikr (s : State) (p : BitVec 18) : (s.setRcsp p).ikr = s.ikr := rfl
@[simp] theorem setRcsp_xUser (s : State) (p : BitVec 18) : (s.setRcsp p).xUser = s.xUser := rfl
@[simp] theorem setRcsp_xExec (s : State) (p : BitVec 18) : (s.setRcsp p).xExec = s.xExec := rfl
@[simp] theorem setRcsp_rUser (s : State) (p : BitVec 18) : (s.setRcsp p).rUser = s.rUser := rfl
@[simp] theorem setRcsp_rExec (s : State) (p : BitVec 18) : (s.setRcsp p).rExec = s.rExec := rfl
@[simp] theorem setRcsp_rcsp (s : State) (p : BitVec 18) : (s.setRcsp p).rcsp = p := rfl
@[simp] theorem setRcsp_memory (s : State) (p : BitVec 18) : (s.setRcsp p).memory = s.memory := rfl
@[simp] theorem setRcsp_info (s : State) (p : BitVec 18) : (s.setRcsp p).info = s.info := rfl
@[simp] theorem setRcsp_result (s : State) (p : BitVec 18) : (s.setRcsp p).result = s.result := rfl
@[simp] theorem setRcsp_port (s : State) (p : BitVec 18) : (s.setRcsp p).port = s.port := rfl
@[simp] theorem setRcsp_breg (s : State) (p : BitVec 18) (j : Slot) : (s.setRcsp p).breg j = s.breg j := rfl
@[simp] theorem setRcsp_abtEntry (s : State) (p : BitVec 18) (k : BmSel) : (s.setRcsp p).abtEntry k = s.abtEntry k := rfl
@[simp] theorem setRcsp_parName (s : State) (p : BitVec 18)  : (s.setRcsp p).parName = s.parName  := rfl
@[simp] theorem setRcsp_gr (s : State) (p : BitVec 18) (g : GrName) : (s.setRcsp p).gr g = s.gr g := rfl
@[simp] theorem setRcsp_halted (s : State) (p : BitVec 18)  : (s.setRcsp p).halted = s.halted  := rfl

/-! ### setMemory -/

@[simp] theorem setMemory_params (s : State) (m : Memory) : (s.setMemory m).params = s.params := rfl
@[simp] theorem setMemory_bregs (s : State) (m : Memory) : (s.setMemory m).bregs = s.bregs := rfl
@[simp] theorem setMemory_abt (s : State) (m : Memory) : (s.setMemory m).abt = s.abt := rfl
@[simp] theorem setMemory_par (s : State) (m : Memory) : (s.setMemory m).par = s.par := rfl
@[simp] theorem setMemory_dr (s : State) (m : Memory) : (s.setMemory m).dr = s.dr := rfl
@[simp] theorem setMemory_ikr (s : State) (m : Memory) : (s.setMemory m).ikr = s.ikr := rfl
@[simp] theorem setMemory_xUser (s : State) (m : Memory) : (s.setMemory m).xUser = s.xUser := rfl
@[simp] theorem setMemory_xExec (s : State) (m : Memory) : (s.setMemory m).xExec = s.xExec := rfl
@[simp] theorem setMemory_rUser (s : State) (m : Memory) : (s.setMemory m).rUser = s.rUser := rfl
@[simp] theorem setMemory_rExec (s : State) (m : Memory) : (s.setMemory m).rExec = s.rExec := rfl
@[simp] theorem setMemory_rcsp (s : State) (m : Memory) : (s.setMemory m).rcsp = s.rcsp := rfl
@[simp] theorem setMemory_memory (s : State) (m : Memory) : (s.setMemory m).memory = m := rfl
@[simp] theorem setMemory_info (s : State) (m : Memory) : (s.setMemory m).info = s.info := rfl
@[simp] theorem setMemory_result (s : State) (m : Memory) : (s.setMemory m).result = s.result := rfl
@[simp] theorem setMemory_port (s : State) (m : Memory) : (s.setMemory m).port = s.port := rfl
@[simp] theorem setMemory_breg (s : State) (m : Memory) (j : Slot) : (s.setMemory m).breg j = s.breg j := rfl
@[simp] theorem setMemory_abtEntry (s : State) (m : Memory) (k : BmSel) : (s.setMemory m).abtEntry k = s.abtEntry k := rfl
@[simp] theorem setMemory_parName (s : State) (m : Memory)  : (s.setMemory m).parName = s.parName  := rfl
@[simp] theorem setMemory_gr (s : State) (m : Memory) (g : GrName) : (s.setMemory m).gr g = s.gr g := rfl
@[simp] theorem setMemory_halted (s : State) (m : Memory)  : (s.setMemory m).halted = s.halted  := rfl

/-! ### setBreg -/

@[simp] theorem setBreg_params (s : State) (j0 : Slot) (r : BaseRegister) : (s.setBreg j0 r).params = s.params := rfl
@[simp] theorem setBreg_bregs (s : State) (j0 : Slot) (r : BaseRegister) : (s.setBreg j0 r).bregs = s.bregs.set j0 r := rfl
@[simp] theorem setBreg_abt (s : State) (j0 : Slot) (r : BaseRegister) : (s.setBreg j0 r).abt = s.abt := rfl
@[simp] theorem setBreg_par (s : State) (j0 : Slot) (r : BaseRegister) : (s.setBreg j0 r).par = s.par := rfl
@[simp] theorem setBreg_dr (s : State) (j0 : Slot) (r : BaseRegister) : (s.setBreg j0 r).dr = s.dr := rfl
@[simp] theorem setBreg_ikr (s : State) (j0 : Slot) (r : BaseRegister) : (s.setBreg j0 r).ikr = s.ikr := rfl
@[simp] theorem setBreg_xUser (s : State) (j0 : Slot) (r : BaseRegister) : (s.setBreg j0 r).xUser = s.xUser := rfl
@[simp] theorem setBreg_xExec (s : State) (j0 : Slot) (r : BaseRegister) : (s.setBreg j0 r).xExec = s.xExec := rfl
@[simp] theorem setBreg_rUser (s : State) (j0 : Slot) (r : BaseRegister) : (s.setBreg j0 r).rUser = s.rUser := rfl
@[simp] theorem setBreg_rExec (s : State) (j0 : Slot) (r : BaseRegister) : (s.setBreg j0 r).rExec = s.rExec := rfl
@[simp] theorem setBreg_rcsp (s : State) (j0 : Slot) (r : BaseRegister) : (s.setBreg j0 r).rcsp = s.rcsp := rfl
@[simp] theorem setBreg_memory (s : State) (j0 : Slot) (r : BaseRegister) : (s.setBreg j0 r).memory = s.memory := rfl
@[simp] theorem setBreg_info (s : State) (j0 : Slot) (r : BaseRegister) : (s.setBreg j0 r).info = s.info := rfl
@[simp] theorem setBreg_result (s : State) (j0 : Slot) (r : BaseRegister) : (s.setBreg j0 r).result = s.result := rfl
@[simp] theorem setBreg_port (s : State) (j0 : Slot) (r : BaseRegister) : (s.setBreg j0 r).port = s.port := rfl
@[simp] theorem setBreg_abtEntry (s : State) (j0 : Slot) (r : BaseRegister) (k : BmSel) : (s.setBreg j0 r).abtEntry k = s.abtEntry k := rfl
@[simp] theorem setBreg_parName (s : State) (j0 : Slot) (r : BaseRegister)  : (s.setBreg j0 r).parName = s.parName  := rfl
@[simp] theorem setBreg_gr (s : State) (j0 : Slot) (r : BaseRegister) (g : GrName) : (s.setBreg j0 r).gr g = s.gr g := rfl
@[simp] theorem setBreg_halted (s : State) (j0 : Slot) (r : BaseRegister)  : (s.setBreg j0 r).halted = s.halted  := rfl

/-! ### setAbtEntry -/

@[simp] theorem setAbtEntry_params (s : State) (k0 : BmSel) (n : BankName) : (s.setAbtEntry k0 n).params = s.params := rfl
@[simp] theorem setAbtEntry_bregs (s : State) (k0 : BmSel) (n : BankName) : (s.setAbtEntry k0 n).bregs = s.bregs := rfl
@[simp] theorem setAbtEntry_abt (s : State) (k0 : BmSel) (n : BankName) : (s.setAbtEntry k0 n).abt = s.abt.set k0.toNat n k0.isLt := rfl
@[simp] theorem setAbtEntry_par (s : State) (k0 : BmSel) (n : BankName) : (s.setAbtEntry k0 n).par = s.par := rfl
@[simp] theorem setAbtEntry_dr (s : State) (k0 : BmSel) (n : BankName) : (s.setAbtEntry k0 n).dr = s.dr := rfl
@[simp] theorem setAbtEntry_ikr (s : State) (k0 : BmSel) (n : BankName) : (s.setAbtEntry k0 n).ikr = s.ikr := rfl
@[simp] theorem setAbtEntry_xUser (s : State) (k0 : BmSel) (n : BankName) : (s.setAbtEntry k0 n).xUser = s.xUser := rfl
@[simp] theorem setAbtEntry_xExec (s : State) (k0 : BmSel) (n : BankName) : (s.setAbtEntry k0 n).xExec = s.xExec := rfl
@[simp] theorem setAbtEntry_rUser (s : State) (k0 : BmSel) (n : BankName) : (s.setAbtEntry k0 n).rUser = s.rUser := rfl
@[simp] theorem setAbtEntry_rExec (s : State) (k0 : BmSel) (n : BankName) : (s.setAbtEntry k0 n).rExec = s.rExec := rfl
@[simp] theorem setAbtEntry_rcsp (s : State) (k0 : BmSel) (n : BankName) : (s.setAbtEntry k0 n).rcsp = s.rcsp := rfl
@[simp] theorem setAbtEntry_memory (s : State) (k0 : BmSel) (n : BankName) : (s.setAbtEntry k0 n).memory = s.memory := rfl
@[simp] theorem setAbtEntry_info (s : State) (k0 : BmSel) (n : BankName) : (s.setAbtEntry k0 n).info = s.info := rfl
@[simp] theorem setAbtEntry_result (s : State) (k0 : BmSel) (n : BankName) : (s.setAbtEntry k0 n).result = s.result := rfl
@[simp] theorem setAbtEntry_port (s : State) (k0 : BmSel) (n : BankName) : (s.setAbtEntry k0 n).port = s.port := rfl
@[simp] theorem setAbtEntry_breg (s : State) (k0 : BmSel) (n : BankName) (j : Slot) : (s.setAbtEntry k0 n).breg j = s.breg j := rfl
@[simp] theorem setAbtEntry_parName (s : State) (k0 : BmSel) (n : BankName)  : (s.setAbtEntry k0 n).parName = s.parName  := rfl
@[simp] theorem setAbtEntry_gr (s : State) (k0 : BmSel) (n : BankName) (g : GrName) : (s.setAbtEntry k0 n).gr g = s.gr g := rfl
@[simp] theorem setAbtEntry_halted (s : State) (k0 : BmSel) (n : BankName)  : (s.setAbtEntry k0 n).halted = s.halted  := rfl

/-! ### setParName -/

@[simp] theorem setParName_params (s : State) (n : BankName) : (s.setParName n).params = s.params := rfl
@[simp] theorem setParName_bregs (s : State) (n : BankName) : (s.setParName n).bregs = s.bregs := rfl
@[simp] theorem setParName_abt (s : State) (n : BankName) : (s.setParName n).abt = s.abt := rfl
@[simp] theorem setParName_par (s : State) (n : BankName) : (s.setParName n).par = { s.par with level := n.level, bdi := n.bdi } := rfl
@[simp] theorem setParName_dr (s : State) (n : BankName) : (s.setParName n).dr = s.dr := rfl
@[simp] theorem setParName_ikr (s : State) (n : BankName) : (s.setParName n).ikr = s.ikr := rfl
@[simp] theorem setParName_xUser (s : State) (n : BankName) : (s.setParName n).xUser = s.xUser := rfl
@[simp] theorem setParName_xExec (s : State) (n : BankName) : (s.setParName n).xExec = s.xExec := rfl
@[simp] theorem setParName_rUser (s : State) (n : BankName) : (s.setParName n).rUser = s.rUser := rfl
@[simp] theorem setParName_rExec (s : State) (n : BankName) : (s.setParName n).rExec = s.rExec := rfl
@[simp] theorem setParName_rcsp (s : State) (n : BankName) : (s.setParName n).rcsp = s.rcsp := rfl
@[simp] theorem setParName_memory (s : State) (n : BankName) : (s.setParName n).memory = s.memory := rfl
@[simp] theorem setParName_info (s : State) (n : BankName) : (s.setParName n).info = s.info := rfl
@[simp] theorem setParName_result (s : State) (n : BankName) : (s.setParName n).result = s.result := rfl
@[simp] theorem setParName_port (s : State) (n : BankName) : (s.setParName n).port = s.port := rfl
@[simp] theorem setParName_breg (s : State) (n : BankName) (j : Slot) : (s.setParName n).breg j = s.breg j := rfl
@[simp] theorem setParName_abtEntry (s : State) (n : BankName) (k : BmSel) : (s.setParName n).abtEntry k = s.abtEntry k := rfl
@[simp] theorem setParName_gr (s : State) (n : BankName) (g : GrName) : (s.setParName n).gr g = s.gr g := rfl
@[simp] theorem setParName_halted (s : State) (n : BankName)  : (s.setParName n).halted = s.halted  := rfl

/-! ### setPc -/

@[simp] theorem setPc_params (s : State) (pc : BitVec 18) : (s.setPc pc).params = s.params := rfl
@[simp] theorem setPc_bregs (s : State) (pc : BitVec 18) : (s.setPc pc).bregs = s.bregs := rfl
@[simp] theorem setPc_abt (s : State) (pc : BitVec 18) : (s.setPc pc).abt = s.abt := rfl
@[simp] theorem setPc_par (s : State) (pc : BitVec 18) : (s.setPc pc).par = { s.par with pc := pc } := rfl
@[simp] theorem setPc_dr (s : State) (pc : BitVec 18) : (s.setPc pc).dr = s.dr := rfl
@[simp] theorem setPc_ikr (s : State) (pc : BitVec 18) : (s.setPc pc).ikr = s.ikr := rfl
@[simp] theorem setPc_xUser (s : State) (pc : BitVec 18) : (s.setPc pc).xUser = s.xUser := rfl
@[simp] theorem setPc_xExec (s : State) (pc : BitVec 18) : (s.setPc pc).xExec = s.xExec := rfl
@[simp] theorem setPc_rUser (s : State) (pc : BitVec 18) : (s.setPc pc).rUser = s.rUser := rfl
@[simp] theorem setPc_rExec (s : State) (pc : BitVec 18) : (s.setPc pc).rExec = s.rExec := rfl
@[simp] theorem setPc_rcsp (s : State) (pc : BitVec 18) : (s.setPc pc).rcsp = s.rcsp := rfl
@[simp] theorem setPc_memory (s : State) (pc : BitVec 18) : (s.setPc pc).memory = s.memory := rfl
@[simp] theorem setPc_info (s : State) (pc : BitVec 18) : (s.setPc pc).info = s.info := rfl
@[simp] theorem setPc_result (s : State) (pc : BitVec 18) : (s.setPc pc).result = s.result := rfl
@[simp] theorem setPc_port (s : State) (pc : BitVec 18) : (s.setPc pc).port = s.port := rfl
@[simp] theorem setPc_breg (s : State) (pc : BitVec 18) (j : Slot) : (s.setPc pc).breg j = s.breg j := rfl
@[simp] theorem setPc_abtEntry (s : State) (pc : BitVec 18) (k : BmSel) : (s.setPc pc).abtEntry k = s.abtEntry k := rfl
@[simp] theorem setPc_gr (s : State) (pc : BitVec 18) (g : GrName) : (s.setPc pc).gr g = s.gr g := rfl
@[simp] theorem setPc_halted (s : State) (pc : BitVec 18)  : (s.setPc pc).halted = s.halted  := rfl

/-! ### setGr -/

@[simp] theorem setGr_params (s : State) (g0 : GrName) (w : Word) : (s.setGr g0 w).params = s.params := by
  unfold State.setGr; split <;> rfl
@[simp] theorem setGr_bregs (s : State) (g0 : GrName) (w : Word) : (s.setGr g0 w).bregs = s.bregs := by
  unfold State.setGr; split <;> rfl
@[simp] theorem setGr_abt (s : State) (g0 : GrName) (w : Word) : (s.setGr g0 w).abt = s.abt := by
  unfold State.setGr; split <;> rfl
@[simp] theorem setGr_par (s : State) (g0 : GrName) (w : Word) : (s.setGr g0 w).par = s.par := by
  unfold State.setGr; split <;> rfl
@[simp] theorem setGr_dr (s : State) (g0 : GrName) (w : Word) : (s.setGr g0 w).dr = s.dr := by
  unfold State.setGr; split <;> rfl
@[simp] theorem setGr_ikr (s : State) (g0 : GrName) (w : Word) : (s.setGr g0 w).ikr = s.ikr := by
  unfold State.setGr; split <;> rfl
@[simp] theorem setGr_rcsp (s : State) (g0 : GrName) (w : Word) : (s.setGr g0 w).rcsp = s.rcsp := by
  unfold State.setGr; split <;> rfl
@[simp] theorem setGr_memory (s : State) (g0 : GrName) (w : Word) : (s.setGr g0 w).memory = s.memory := by
  unfold State.setGr; split <;> rfl
@[simp] theorem setGr_info (s : State) (g0 : GrName) (w : Word) : (s.setGr g0 w).info = s.info := by
  unfold State.setGr; split <;> rfl
@[simp] theorem setGr_result (s : State) (g0 : GrName) (w : Word) : (s.setGr g0 w).result = s.result := by
  unfold State.setGr; split <;> rfl
@[simp] theorem setGr_port (s : State) (g0 : GrName) (w : Word) : (s.setGr g0 w).port = s.port := by
  unfold State.setGr; split <;> rfl
@[simp] theorem setGr_breg (s : State) (g0 : GrName) (w : Word) (j : Slot) : (s.setGr g0 w).breg j = s.breg j := by
  simp [State.breg]
@[simp] theorem setGr_abtEntry (s : State) (g0 : GrName) (w : Word) (k : BmSel) : (s.setGr g0 w).abtEntry k = s.abtEntry k := by
  simp [State.abtEntry]
@[simp] theorem setGr_parName (s : State) (g0 : GrName) (w : Word)  : (s.setGr g0 w).parName  = s.parName  := by
  simp [State.parName]
@[simp] theorem setGr_halted (s : State) (g0 : GrName) (w : Word)  : (s.setGr g0 w).halted  = s.halted  := by
  simp [State.halted]

/-! ### Reading a register that was written -/

@[simp] theorem setBreg_breg_same (s : State) (j : Slot) (r : BaseRegister) : (s.setBreg j r).breg j = r := by
  simp [State.breg]

theorem setBreg_breg (s : State) (j0 j : Slot) (r : BaseRegister) :
    (s.setBreg j0 r).breg j = if j = j0 then r else s.breg j := by
  by_cases h : j = j0
  · subst h; simp
  · have h' : j0.val ≠ j.val := fun e => h (Fin.ext e.symm)
    simp [State.breg, h, Vector.getElem_set_ne _ _ h']

@[simp] theorem setAbtEntry_abtEntry_same (s : State) (k : BmSel) (n : BankName) :
    (s.setAbtEntry k n).abtEntry k = n := by
  simp [State.abtEntry]

theorem setAbtEntry_abtEntry (s : State) (k0 k : BmSel) (n : BankName) :
    (s.setAbtEntry k0 n).abtEntry k = if k = k0 then n else s.abtEntry k := by
  by_cases h : k = k0
  · subst h; simp
  · have h' : k0.toNat ≠ k.toNat := fun e => h (BitVec.eq_of_toNat_eq e.symm)
    simp [State.abtEntry, h, Vector.getElem_set_ne _ _ h']

@[simp] theorem setParName_parName (s : State) (n : BankName) : (s.setParName n).parName = n := rfl

@[simp] theorem setPc_parName (s : State) (pc : BitVec 18) : (s.setPc pc).parName = s.parName := rfl

@[simp] theorem setGr_gr_same (s : State) (g : GrName) (w : Word) : (s.setGr g w).gr g = w := by
  obtain ⟨f, t, i⟩ := g
  cases f <;> cases t <;> simp [State.setGr, State.gr]

theorem setGr_gr (s : State) (g0 g : GrName) (w : Word) :
    (s.setGr g0 w).gr g = if g = g0 then w else s.gr g := by
  by_cases h : g = g0
  · subst h; simp
  · obtain ⟨f0, t0, i0⟩ := g0
    obtain ⟨f, t, i⟩ := g
    cases f <;> cases t <;> cases f0 <;> cases t0 <;> simp_all [State.setGr, State.gr] <;>
      exact Vector.getElem_set_ne _ _ (fun e => h (Fin.ext e.symm))

/-! ### The last write of a field counts -/

@[simp] theorem setInfo_setInfo (s : State) (i i' : Info) : (s.setInfo i).setInfo i' = s.setInfo i' := rfl
@[simp] theorem setResult_setResult (s : State) (r r' : Option Completion) :
    (s.setResult r).setResult r' = s.setResult r' := rfl

end Sys2Proof.Machine
end

