-- ==== Sys2Proof/Laws/Storage.lean ====
section
/-! SUPPORT. Storage: what a write leaves readable, and that every write keeps the canonical form. -/

namespace Sys2Proof.Machine

/-! ### Cells -/

/-- A write leaves every other key alone. -/
theorem cellsRead_cellsWrite_other (cs : List Cell) (key key' : Nat) (w : Word) (h : key' ≠ key) :
    cellsRead (cellsWrite cs key w) key' = cellsRead cs key' := by
  induction cs with
  | nil => simp only [cellsWrite]; split <;> simp [cellsRead, h.symm]
  | cons c cs ih =>
    obtain ⟨k, v⟩ := c
    simp only [cellsWrite]
    split
    · split <;> simp [cellsRead, h.symm]
    · split
      · rename_i hk; subst hk; split <;> simp [cellsRead, h.symm]
      · simp [cellsRead, ih]

/-- Below the first key nothing is listed. -/
theorem cellsRead_below (l : Nat) (cs : List Cell) (key : Nat) (hw : cellsWfFrom (some l) cs = true) (hk : key ≤ l) :
    cellsRead cs key = unlistedWord := by
  induction cs generalizing l with
  | nil => rfl
  | cons c cs ih =>
    obtain ⟨k, v⟩ := c
    simp only [cellsWfFrom, Bool.and_eq_true, decide_eq_true_eq] at hw
    have hne : k ≠ key := by omega
    simp [cellsRead, hne, ih k hw.2 (by omega)]

/-- A weaker lower bound keeps the canonical form. -/
theorem cellsWfFrom_of_le (l l' : Nat) (cs : List Cell) (h : l' ≤ l) (hw : cellsWfFrom (some l) cs = true) :
    cellsWfFrom (some l') cs = true := by
  cases cs with
  | nil => rfl
  | cons c cs =>
    obtain ⟨k, v⟩ := c
    simp only [cellsWfFrom, Bool.and_eq_true, decide_eq_true_eq] at hw ⊢
    exact ⟨⟨by omega, hw.1.2⟩, hw.2⟩

/-- Without a lower bound the canonical form is weaker still. -/
theorem cellsWfFrom_none (l : Option Nat) (cs : List Cell) (hw : cellsWfFrom l cs = true) :
    cellsWfFrom none cs = true := by
  cases cs with
  | nil => rfl
  | cons c cs =>
    obtain ⟨k, v⟩ := c
    simp only [cellsWfFrom, Bool.and_eq_true] at hw ⊢
    exact ⟨⟨trivial, hw.1.2⟩, hw.2⟩

/-- A write reads back, in canonical storage. -/
theorem cellsRead_cellsWrite_same (cs : List Cell) (key : Nat) (w : Word) (hw : cellsWfFrom none cs = true) :
    cellsRead (cellsWrite cs key w) key = w := by
  induction cs with
  | nil => simp only [cellsWrite]; split <;> simp_all [cellsRead]
  | cons c cs ih =>
    obtain ⟨k, v⟩ := c
    simp only [cellsWfFrom, Bool.and_eq_true] at hw
    simp only [cellsWrite]
    split
    · rename_i hk
      split
      · rename_i h0
        have hne : k ≠ key := by omega
        simp [cellsRead, hne, cellsRead_below k cs key hw.2 (by omega), h0]
      · simp [cellsRead]
    · split
      · rename_i hk hk2
        split
        · rename_i h0
          rw [hk2, cellsRead_below k cs k hw.2 (le_refl k), h0]
        · simp [cellsRead]
      · rename_i hk hk2
        have hne : k ≠ key := by omega
        simp [cellsRead, hne, ih (cellsWfFrom_none _ _ hw.2)]

/-- A write keeps keys above a bound that the written key is above. -/
theorem cellsWfFrom_cellsWrite (l : Nat) (cs : List Cell) (key : Nat) (w : Word) (hl : l < key)
    (hw : cellsWfFrom (some l) cs = true) : cellsWfFrom (some l) (cellsWrite cs key w) = true := by
  induction cs generalizing l with
  | nil => simp only [cellsWrite]; split <;> simp_all [cellsWfFrom]
  | cons c cs ih =>
    obtain ⟨k, v⟩ := c
    have hw0 := hw
    simp only [cellsWfFrom, Bool.and_eq_true, decide_eq_true_eq] at hw
    simp only [cellsWrite]
    split
    · rename_i hk
      split
      · exact hw0
      · rename_i h0
        simp [cellsWfFrom, hl, h0, hk, hw.1.2, hw.2]
    · split
      · rename_i hk hk2
        split
        · exact cellsWfFrom_of_le k l cs (by omega) hw.2
        · rename_i h0; simp [cellsWfFrom, hw.1.1, h0, hk2, hw.2]
      · rename_i hk hk2
        have := ih k (by omega) hw.2
        simp only [cellsWfFrom, this, Bool.and_true, Bool.and_eq_true, decide_eq_true_eq]
        exact ⟨hw.1.1, hw.1.2⟩

/-- A write keeps the canonical form. -/
theorem wf_cellsWrite (m : Memory) (key : Nat) (w : Word) (h : m.wf = true) :
    Memory.wf ⟨cellsWrite m.cells key w⟩ = true := by
  obtain ⟨cs⟩ := m
  unfold Memory.wf at *
  cases cs with
  | nil => simp only [cellsWrite]; split <;> simp_all [cellsWfFrom]
  | cons c cs =>
    obtain ⟨k, v⟩ := c
    have h0 := h
    simp only [cellsWfFrom, Bool.and_eq_true] at h
    simp only [cellsWrite]
    split
    · rename_i hk
      split
      · exact h0
      · rename_i hw
        simp only [cellsWfFrom, h.2, Bool.and_true, hk, decide_true, Bool.true_and, Bool.and_eq_true]
        exact ⟨by simpa using hw, h.1.2⟩
    · split
      · split
        · exact cellsWfFrom_none _ _ h.2
        · rename_i hw hk2 h1
          simp only [cellsWfFrom, Bool.true_and, Bool.and_eq_true]
          exact ⟨by simpa using h1, by rw [hk2]; exact h.2⟩
      · rename_i hk hk2
        have := cellsWfFrom_cellsWrite k cs key w (by omega) h.2
        simp only [cellsWfFrom, this, Bool.and_true, Bool.true_and]
        exact h.1.2

/-! ### Addresses -/

/-- No module is larger than the offsets of an address. -/
theorem moduleSize_le (x : StorageExtent) (m : BitVec 16) : moduleSize x m ≤ offsetBound := by
  unfold moduleSize
  split
  · exact le_refl _
  · split
    · exact Nat.min_le_right _ _
    · exact Nat.zero_le _

/-- Two addresses with one key are one address. -/
theorem storageKey_inj (x : StorageExtent) (a b : AbsoluteAddress) (k : Nat) (ha : storageKey x a = some k)
    (hb : storageKey x b = some k) : a = b := by
  obtain ⟨pa, oa⟩ := a
  obtain ⟨pb, ob⟩ := b
  simp only [storageKey] at ha hb
  split at ha
  · split at hb
    · rename_i h1 h2
      simp only [Option.some.injEq] at ha hb
      have l1 := moduleSize_le x pa
      have l2 := moduleSize_le x pb
      have e : pa.toNat * offsetBound + oa.toNat = pb.toNat * offsetBound + ob.toNat := by omega
      unfold offsetBound at *
      have hp : pa.toNat = pb.toNat := by omega
      have ho : oa.toNat = ob.toNat := by omega
      have hp' : pa = pb := BitVec.eq_of_toNat_eq hp
      have ho' : oa = ob := by omega
      rw [hp', ho']
    · simp at hb
  · simp at ha

/-! ### Single words -/

/-- What a word write does: the address has a key, and only storage changes. -/
theorem writeWord_ok (s t : State) (a : AbsoluteAddress) (w : Word) (h : writeWord s a w = .ok t) :
    ∃ k, storageKey s.params.storage a = some k ∧ t = s.setMemory ⟨cellsWrite s.memory.cells k w⟩ := by
  unfold writeWord at h
  split at h
  · rename_i k hk; exact ⟨k, hk, by simpa using h.symm⟩
  · simp at h

/-- A word write never raises or halts. -/
theorem writeWord_cases (s : State) (a : AbsoluteAddress) (w : Word) :
    writeWord s a w = .stuck ∨ ∃ t, writeWord s a w = .ok t := by
  unfold writeWord
  split
  · exact .inr ⟨_, rfl⟩
  · exact .inl rfl

/-- A word reads back after it was written, in canonical storage. -/
theorem readWord_writeWord_same (s t : State) (a : AbsoluteAddress) (w : Word) (hm : s.memory.wf = true)
    (h : writeWord s a w = .ok t) : readWord t a = .ok w := by
  obtain ⟨k, hk, rfl⟩ := writeWord_ok s t a w h
  simp [readWord, hk, cellsRead_cellsWrite_same _ _ _ hm]

/-- A word write leaves every other word alone. -/
theorem readWord_writeWord_other (s t : State) (a b : AbsoluteAddress) (w : Word) (hab : b ≠ a)
    (h : writeWord s a w = .ok t) : readWord t b = readWord s b := by
  obtain ⟨k, hk, rfl⟩ := writeWord_ok s t a w h
  simp only [readWord, setMemory_params, setMemory_memory]
  split
  · rename_i k' hk'
    have hne : k' ≠ k := fun e => hab (storageKey_inj _ _ _ k (e ▸ hk') hk)
    rw [cellsRead_cellsWrite_other _ _ _ _ hne]
  · rfl

/-- A word write keeps the canonical form. -/
theorem wf_writeWord (s t : State) (a : AbsoluteAddress) (w : Word) (hm : s.memory.wf = true)
    (h : writeWord s a w = .ok t) : t.memory.wf = true := by
  obtain ⟨k, _, rfl⟩ := writeWord_ok s t a w h
  exact wf_cellsWrite s.memory k w hm

/-- A word read depends on the storage and its extent alone. -/
theorem readWord_congr (s t : State) (a : AbsoluteAddress) (hp : t.params.storage = s.params.storage)
    (hm : t.memory = s.memory) : readWord t a = readWord s a := by
  simp [readWord, hp, hm]

/-- The storage of the machine after reset is in canonical form. -/
theorem wf_reset_memory : State.reset.memory.wf = true := rfl

end Sys2Proof.Machine
end

