-- ==== Sys2Proof/Laws/Ops.lean ====
section
/-! SUPPORT. For each shared operation, what it can answer: later proofs cite these instead of unfolding it. -/

namespace Sys2Proof.Machine

/-! ### Ending an invocation -/

@[simp] theorem finished_info (c : Completion) (s : State) : (finished c s).info = Info.idle := rfl
@[simp] theorem finished_result (c : Completion) (s : State) : (finished c s).result = some c := rfl
@[simp] theorem finished_params (c : Completion) (s : State) : (finished c s).params = s.params := rfl
@[simp] theorem finished_bregs (c : Completion) (s : State) : (finished c s).bregs = s.bregs := rfl
@[simp] theorem finished_abt (c : Completion) (s : State) : (finished c s).abt = s.abt := rfl
@[simp] theorem finished_par (c : Completion) (s : State) : (finished c s).par = s.par := rfl
@[simp] theorem finished_dr (c : Completion) (s : State) : (finished c s).dr = s.dr := rfl
@[simp] theorem finished_ikr (c : Completion) (s : State) : (finished c s).ikr = s.ikr := rfl
@[simp] theorem finished_xUser (c : Completion) (s : State) : (finished c s).xUser = s.xUser := rfl
@[simp] theorem finished_xExec (c : Completion) (s : State) : (finished c s).xExec = s.xExec := rfl
@[simp] theorem finished_rUser (c : Completion) (s : State) : (finished c s).rUser = s.rUser := rfl
@[simp] theorem finished_rExec (c : Completion) (s : State) : (finished c s).rExec = s.rExec := rfl
@[simp] theorem finished_rcsp (c : Completion) (s : State) : (finished c s).rcsp = s.rcsp := rfl
@[simp] theorem finished_memory (c : Completion) (s : State) : (finished c s).memory = s.memory := rfl
@[simp] theorem finished_port (c : Completion) (s : State) : (finished c s).port = s.port := rfl
@[simp] theorem finished_breg (c : Completion) (s : State) (j : Slot) : (finished c s).breg j = s.breg j := rfl
@[simp] theorem finished_parName (c : Completion) (s : State) : (finished c s).parName = s.parName := rfl
@[simp] theorem finished_gr (c : Completion) (s : State) (g : GrName) : (finished c s).gr g = s.gr g := rfl
@[simp] theorem finished_abtEntry (c : Completion) (s : State) (k : BmSel) :
    (finished c s).abtEntry k = s.abtEntry k := rfl

theorem endInvocation_eq (c : Completion) (s : State) : endInvocation c s = .next (finished c s) := rfl

/-- What raising a fault gives: a halt with the fault wrapped on the interrupt-entry path, else the fault. -/
theorem raise_eq (f : EngineFault) (s : State) :
    raise f s = .next (finished (if s.info.op = some .int then .halt (.wrappedFault f) else .fault f) s) := by
  unfold raise; split <;> rfl

theorem haltProcessor_eq (h : Halt) (s : State) : haltProcessor h s = .next (finished (.halt h) s) := rfl

/-! ### Combinators -/

@[simp] theorem need_some {α : Type} (a : α) (k : α → Out) : need (some a) k = k a := rfl
@[simp] theorem need_none {α : Type} (k : α → Out) : need none k = .fault .infoFieldUnset := rfl

/-- A step that goes on after reading a field of `info` found it set. -/
theorem need_next {α : Type} (o : Option α) (k : α → Out) (t : State) (h : need o k = .next t) :
    ∃ a, o = some a ∧ k a = .next t := by
  cases o with
  | none => simp at h
  | some a => exact ⟨a, rfl, h⟩

@[simp] theorem onAccess_ok {α : Type} (a : α) (s : State) (k : α → Out) : onAccess (.ok a) s k = k a := rfl
@[simp] theorem onAccess_stuck {α : Type} (s : State) (k : α → Out) :
    onAccess (α := α) .stuck s k = .fault .storageInaccessible := rfl

/-- A step that answers a next state after an operation went on with its value, raised its fault or halted. -/
theorem onAccess_next {α : Type} (x : Access α) (s t : State) (k : α → Out) (h : onAccess x s k = .next t) :
    (∃ a, x = .ok a ∧ k a = .next t) ∨ (∃ f, x = .raise f ∧ raise f s = .next t) ∨
      (∃ e, x = .halt e ∧ t = finished (.halt e) s) := by
  cases x with
  | ok a => exact .inl ⟨a, rfl, h⟩
  | raise f => exact .inr (.inl ⟨f, rfl, h⟩)
  | halt e => exact .inr (.inr ⟨e, rfl, by simpa [onAccess, haltProcessor_eq] using h.symm⟩)
  | stuck => simp at h

@[simp] theorem andThen_ok {α β : Type} (a : α) (k : α → Access β) : andThen (.ok a) k = k a := rfl
@[simp] theorem andThen_stuck {α β : Type} (k : α → Access β) : andThen (α := α) .stuck k = .stuck := rfl

/-- A composed operation that has a value had one at each part. -/
theorem andThen_eq_ok {α β : Type} (x : Access α) (k : α → Access β) (b : β) (h : andThen x k = .ok b) :
    ∃ a, x = .ok a ∧ k a = .ok b := by
  cases x <;> simp_all [andThen]

/-! ### Storage records -/

/-- An operation that only reads storage: it has a value or is stuck. -/
def Access.reads {α : Type} (x : Access α) : Prop := x = .stuck ∨ ∃ a, x = .ok a

theorem andThen_reads {α β : Type} (x : Access α) (k : α → Access β) (hx : x.reads) (hk : ∀ a, (k a).reads) :
    (andThen x k).reads := by
  rcases hx with rfl | ⟨a, rfl⟩
  · exact .inl rfl
  · exact hk a

theorem readWord_reads (s : State) (a : AbsoluteAddress) : (readWord s a).reads := by
  unfold readWord
  split
  · exact .inr ⟨_, rfl⟩
  · exact .inl rfl

theorem memRead_reads (s : State) (a : AbsoluteAddress) (n : Nat) : (memRead s a n).reads := by
  induction n with
  | zero => exact .inr ⟨_, rfl⟩
  | succ n ih =>
    exact andThen_reads _ _ ih fun ws => andThen_reads _ _ (readWord_reads _ _) fun w => .inr ⟨_, rfl⟩

/-- The BDT walk has an answer, NotFound included, or is stuck. -/
theorem tableLookup_reads (s : State) (n : BankName) : (tableLookup s n).reads := by
  unfold tableLookup
  split
  · exact .inr ⟨_, rfl⟩
  · split
    · exact .inr ⟨_, rfl⟩
    · exact andThen_reads _ _ (memRead_reads _ _ _) fun w => .inr ⟨_, rfl⟩

/-- With the BDT walk for FIND_BD, a lookup is the walk (R39). -/
theorem findBd_tableWalk (s : State) (n : BankName) (h : s.params.lookup = .tableWalk) :
    findBd s n = tableLookup s n := by
  simp [findBd, h]

/-- With a substitute for FIND_BD, a lookup is what the substitute answers (R6, D18). -/
theorem findBd_substitute (s : State) (n : BankName) (id : Nat) (h : s.params.lookup = .substitute id) :
    findBd s n = (Config.findBankDescriptor id s.bregs s.memory n).elim .stuck .ok := by
  simp only [findBd, h]
  cases Config.findBankDescriptor id s.bregs s.memory n <;> rfl

/-- A descriptor lookup has an answer, NotFound included, or is stuck, whichever collaborator makes it. -/
theorem findBd_reads (s : State) (n : BankName) : (findBd s n).reads := by
  unfold findBd
  split
  · exact tableLookup_reads s n
  · split
    · exact .inr ⟨_, rfl⟩
    · exact .inl rfl

/-- A gate record read has an answer or is stuck. -/
theorem gateRead_reads (s : State) (gb : BankDescriptor) (off : BitVec 18) : (gateRead s gb off).reads :=
  andThen_reads _ _ (memRead_reads _ _ _) fun _ => .inr ⟨_, rfl⟩

/-- A vector read has an answer, is stuck, or halts with one of its own two codes. -/
theorem vectorRead_cases (s : State) (c : Nat) :
    (vectorRead s c).reads ∨ vectorRead s c = .halt (.vectorBaseVoid c) ∨
      vectorRead s c = .halt (.vectorClassOutOfRange c) := by
  unfold vectorRead
  split
  · exact .inr (.inl rfl)
  · split
    · exact .inr (.inr rfl)
    · exact .inl (andThen_reads _ _ (memRead_reads _ _ _) fun w => .inr ⟨_, rfl⟩)

/-- A read of several words depends on the storage and its extent alone. -/
theorem memRead_congr (s t : State) (a : AbsoluteAddress) (n : Nat) (hp : t.params.storage = s.params.storage)
    (hm : t.memory = s.memory) : memRead t a n = memRead s a n := by
  induction n with
  | zero => rfl
  | succ n ih => simp [memRead, ih, readWord_congr s t _ hp hm]

/-- A descriptor lookup depends on the parameters, the base registers and the storage alone. -/
theorem findBd_congr (s t : State) (n : BankName) (hp : t.params = s.params) (hb : t.bregs = s.bregs)
    (hm : t.memory = s.memory) : findBd t n = findBd s n := by
  simp [findBd, tableLookup, State.breg, hp, hb, hm, memRead_congr s t _ _ (by rw [hp]) hm]

/-! ### Access control -/

/-- With the source's P_ACCESS_SELECT the special permissions are selected as R68 says. -/
theorem accessSelects_source (key lock : AccessKey) :
    accessSelects key lock sourceAccessSelect = decide (lock.domain.toNat < key.domain.toNat ∨ key = lock) := by
  cases key; cases lock
  rw [Bool.eq_iff_iff]
  simp only [accessSelects, sourceAccessSelect, Bool.or_eq_true, Bool.and_eq_true, decide_eq_true_eq]
  simp only [accessTermValue, BitVec.toNat_inj, AccessKey.mk.injEq]

/-- Every predicate of a key and a lock is a value of P_ACCESS_SELECT: the data leaves none out. -/
theorem accessSelect_complete (P : AccessKey → AccessKey → Bool) :
    ∃ q, ∀ key lock, accessSelects key lock q = P key lock := by
  have hl : ∀ l : List (AccessKey × AccessKey), ∃ q, ∀ key lock, accessSelects key lock q = decide ((key, lock) ∈ l) := by
    intro l
    induction l with
    | nil => exact ⟨.lt (.const 0) (.const 0), fun key lock => by simp [accessSelects, accessTermValue]⟩
    | cons x l ih =>
      obtain ⟨q, hq⟩ := ih
      obtain ⟨⟨r, d⟩, ⟨r', d'⟩⟩ := x
      refine ⟨.or (.and (.and (.eq .keyRing (.const r.toNat)) (.eq .keyDomain (.const d.toNat)))
        (.and (.eq .lockRing (.const r'.toNat)) (.eq .lockDomain (.const d'.toNat)))) q, fun key lock => ?_⟩
      cases key; cases lock
      simp [accessSelects, accessTermValue, hq, BitVec.toNat_inj]
  let keys : List AccessKey := (List.finRange (2 ^ 2)).flatMap fun r => (List.finRange (2 ^ 16)).map fun d =>
    ⟨BitVec.ofFin r, BitVec.ofFin d⟩
  have hk : ∀ k, k ∈ keys := fun k => List.mem_flatMap.mpr ⟨k.ring.toFin, List.mem_finRange _,
    List.mem_map.mpr ⟨k.domain.toFin, List.mem_finRange _, rfl⟩⟩
  obtain ⟨q, hq⟩ := hl ((keys.product keys).filter fun x => P x.1 x.2)
  exact ⟨q, fun key lock => by rw [hq]; simp [List.mem_filter, List.pair_mem_product, hk]⟩

/-- What a two-word write does: only storage changes. -/
theorem memWrite2_ok (s t : State) (a : AbsoluteAddress) (v0 v1 : Word) (h : memWrite2 s a v0 v1 = .ok t) :
    ∃ s1, writeWord s a v0 = .ok s1 ∧ writeWord s1 (addressPlus a 1) v1 = .ok t ∧ t = s.setMemory t.memory := by
  obtain ⟨s1, h1, h2⟩ := andThen_eq_ok _ _ _ h
  obtain ⟨k1, _, e1⟩ := writeWord_ok _ _ _ _ h1
  obtain ⟨k2, _, e2⟩ := writeWord_ok _ _ _ _ h2
  exact ⟨s1, h1, h2, by subst e1; subst e2; rfl⟩

/-- A two-word write has a result or is stuck. -/
theorem memWrite2_reads (s : State) (a : AbsoluteAddress) (v0 v1 : Word) : (memWrite2 s a v0 v1).reads := by
  refine andThen_reads _ _ ?_ fun s1 => ?_
  · exact writeWord_cases _ _ _
  · exact writeWord_cases _ _ _

/-! ### The return control stack -/

/-- A pop that has a result: the register is bound, the frame lies inside, only RCSP changes (R41). -/
theorem rcsPop_ok (s t : State) (f : Frame) (h : rcsPop s = .ok (f, t)) :
    ∃ r w, s.breg s.params.rcsBreg = .bound r ∧ s.rcsp.toNat + 1 ≤ r.uln.toNat ∧ r.lln.toNat ≤ s.rcsp.toNat ∧
      memRead s (relToAbs r s.rcsp.toNat) 2 = .ok w ∧ f = decodeFrame w[0] w[1] ∧ t = s.setRcsp (s.rcsp + 2) := by
  unfold rcsPop at h
  split at h
  · simp at h
  · rename_i r hr
    split at h
    · simp at h
    · rename_i hl
      obtain ⟨w, hw, e⟩ := andThen_eq_ok _ _ _ h
      simp only [Access.ok.injEq, Prod.mk.injEq] at e
      exact ⟨r, w, hr, by omega, by omega, hw, e.1.symm, e.2.symm⟩

/-- A pop that has no result is an underflow at the attempted location, or stuck (R41). -/
theorem rcsPop_cases (s : State) :
    rcsPop s = .raise (.stack .underflow s.params.rcsBreg s.rcsp) ∨ (rcsPop s).reads := by
  unfold rcsPop
  split
  · exact .inl rfl
  · split
    · exact .inl rfl
    · exact .inr (andThen_reads _ _ (memRead_reads _ _ _) fun w => .inr ⟨_, rfl⟩)

/-- A push that has a result: the register is bound, the frame fits, two words are stored and RCSP is lowered by 2; only
storage and RCSP change (R42). -/
theorem rcsPush_ok (s t : State) (f : Frame) (h : rcsPush s f = .ok t) :
    ∃ r s1, s.breg s.params.rcsBreg = .bound r ∧ (r.lln.toNat : Int) ≤ (s.rcsp.toNat : Int) - 2 ∧
      (s.rcsp.toNat : Int) - 1 ≤ r.uln.toNat ∧
      memWrite2 s (relToAbs r ((s.rcsp.toNat : Int) - 2)) (encodeFrame0 f) (encodeFrame1 f) = .ok s1 ∧
      t = s1.setRcsp (s.rcsp - 2) ∧ t = (s.setMemory t.memory).setRcsp (s.rcsp - 2) := by
  unfold rcsPush at h
  simp only at h
  split at h
  · simp at h
  · rename_i r hr
    split at h
    · simp at h
    · rename_i hl
      obtain ⟨s1, h1, e⟩ := andThen_eq_ok _ _ _ h
      obtain ⟨_, _, _, e1⟩ := memWrite2_ok _ _ _ _ _ h1
      simp only [Access.ok.injEq] at e
      refine ⟨r, s1, hr, by omega, by omega, h1, e.symm, ?_⟩
      rw [← e, e1]
      rfl

/-- A push that has no result is an overflow at the computed frame pointer, or stuck (R42). -/
theorem rcsPush_cases (s : State) (f : Frame) :
    rcsPush s f = .raise (.stack .overflow s.params.rcsBreg (s.rcsp - 2)) ∨ (rcsPush s f).reads := by
  unfold rcsPush
  simp only
  split
  · exact .inl rfl
  · split
    · exact .inl rfl
    · exact .inr (andThen_reads _ _ (memWrite2_reads _ _ _ _) fun w => .inr ⟨_, rfl⟩)

/-- A push keeps the canonical form of storage. -/
theorem wf_rcsPush (s t : State) (f : Frame) (hm : s.memory.wf = true) (h : rcsPush s f = .ok t) :
    t.memory.wf = true := by
  obtain ⟨r, s1, _, _, _, h1, e, _⟩ := rcsPush_ok s t f h
  obtain ⟨s0, w0, w1, _⟩ := memWrite2_ok _ _ _ _ _ h1
  rw [e]
  have := wf_writeWord _ _ _ _ (wf_writeWord _ _ _ _ hm w0) w1
  simpa using this

/-! ### Bindings -/

/-- A binding made from a descriptor is well formed: its base offset fits a signed 64-bit integer (R57, R58). -/
theorem makeBreg_wf (bd : BankDescriptor) : (makeBreg bd).wf = true := by
  have h1 := bd.segment.isLt
  have h2 := bd.baseOffset.isLt
  have h3 := (normalizedLower bd).isLt
  simp only [makeBreg, BaseRegister.wf, Bound.wf, boundOf, baseAddr, Bool.and_eq_true, decide_eq_true_eq, beq_self_eq_true,
    and_true]
  omega

end Sys2Proof.Machine
end

