-- ==== Sys2Proof/Laws/Engine.lean ====
section
/-! SUPPORT. What one engine step can do, said once (`engineStep_effect`), and how a run of the sequencer is taken apart. -/

namespace Sys2Proof.Machine

/-! ### Running the sequencer -/

/-- An engine step that goes on is the first of a run. -/
theorem engineSteps_succ (n : Nat) (s t : State) (hs : s.info.step ≠ .idle) (h : engineStep s = .next t) :
    engineSteps (n + 1) s = engineSteps n t := by
  simp [engineSteps, hs, h]

/-- An idle engine stays as it is. -/
theorem engineSteps_idle (n : Nat) (s : State) (hs : s.info.step = .idle) : engineSteps n s = .next s := by
  cases n <;> simp [engineSteps, hs]

/-- A run of `m + n` steps is a run of `m` steps and one of `n`. -/
theorem engineSteps_add (m n : Nat) (s t : State) (h : engineSteps m s = .next t) :
    engineSteps (m + n) s = engineSteps n t := by
  induction m generalizing s with
  | zero => simp only [engineSteps, Host.Outcome.next.injEq] at h; simp [h]
  | succ m ih =>
    by_cases hs : s.info.step = .idle
    · rw [engineSteps_idle _ _ hs] at h
      simp only [Host.Outcome.next.injEq] at h
      subst h
      rw [engineSteps_idle _ _ hs, engineSteps_idle _ _ hs]
    · simp only [engineSteps, hs, if_false] at h
      rw [show m + 1 + n = (m + n) + 1 by omega]
      simp only [engineSteps, hs, if_false]
      cases he : engineStep s with
      | next s1 => rw [he] at h; exact ih s1 h
      | fault f => rw [he] at h; simp at h
      | refused r => rw [he] at h; simp at h

/-- A run that ends within the fuel gives the engine's answer. -/
theorem runEngine_of_steps (n : Nat) (hn : n ≤ engineFuel) (s t : State) (h : engineSteps n s = .next t)
    (ht : t.info.step = .idle) : runEngine s = .next t := by
  have : engineSteps engineFuel s = .next t := by
    obtain ⟨k, hk⟩ := Nat.exists_eq_add_of_le hn
    rw [hk, engineSteps_add n k s t h, engineSteps_idle _ _ ht]
  simp [runEngine, this, ht]

/-- A relation that every engine step keeps holds along a run. -/
theorem engineSteps_rel (R : State → State → Prop) (hr : ∀ s, R s s) (htr : ∀ s t u, R s t → R t u → R s u)
    (hstep : ∀ s t, s.info.step ≠ .idle → engineStep s = .next t → R s t) (n : Nat) (s t : State)
    (h : engineSteps n s = .next t) : R s t := by
  induction n generalizing s with
  | zero => simp only [engineSteps, Host.Outcome.next.injEq] at h; exact h ▸ hr s
  | succ n ih =>
    by_cases hs : s.info.step = .idle
    · rw [engineSteps_idle _ _ hs] at h
      simp only [Host.Outcome.next.injEq] at h
      exact h ▸ hr s
    · simp only [engineSteps, hs, if_false] at h
      cases he : engineStep s with
      | next s1 => rw [he] at h; exact htr _ _ _ (hstep s s1 hs he) (ih s1 h)
      | fault f => rw [he] at h; simp at h
      | refused r => rw [he] at h; simp at h

/-- A property that every engine step keeps holds at the end of a run. -/
theorem engineSteps_inv (P : State → Prop) (hstep : ∀ s t, P s → s.info.step ≠ .idle → engineStep s = .next t → P t)
    (n : Nat) (s t : State) (hs : P s) (h : engineSteps n s = .next t) : P t :=
  engineSteps_rel (fun s t => P s → P t) (fun _ h => h) (fun _ _ _ h1 h2 h => h2 (h1 h))
    (fun s t hi he hp => hstep s t hp hi he) n s t h hs

/-- The engine's answer is the end of a run, with an idle engine. -/
theorem runEngine_next (s t : State) (h : runEngine s = .next t) :
    engineSteps engineFuel s = .next t ∧ t.info.step = .idle := by
  unfold runEngine at h
  split at h
  · rename_i s1 h1
    split at h
    · rename_i hi; simp only [Host.Outcome.next.injEq] at h; exact ⟨h ▸ h1, h ▸ hi⟩
    · simp at h
  · simp at h
  · simp at h

/-! ### What one engine step can do -/

/-- The change one engine step makes to the state before it moves `info` on or ends the invocation. -/
inductive Effect (s : State) : State → Prop
  /-- Steps 1 to 8, 10, 15, 21 and the parts of others: nothing but `info`. -/
  | none : Effect s s
  /-- Step 3 of a return: a frame was popped. -/
  | popped (f : Frame) (s1 : State) (hstep : s.info.step = .s3) (h : rcsPop s = .ok (f, s1)) : Effect s s1
  /-- Step 9: a gate's transfers. -/
  | gate (g : GateRecord) (hstep : s.info.step = .s9) : Effect s (gateTransfers s g)
  /-- Step 11: the caller's base register. -/
  | voided (pr : Prior) (m : Mode) (hstep : s.info.step = .s11) (hp : s.info.prior = some pr)
      (hm : s.info.targetMode = some m) : Effect s (voidPrior s pr m)
  /-- Step 12: a frame was pushed. -/
  | pushed (pr : Prior) (s1 : State) (hstep : s.info.step = .s12) (hc : s.info.isCall = true)
      (hp : s.info.prior = some pr) (h : rcsPush s (returnFrame pr s.info.isInt) = .ok s1) : Effect s s1
  /-- Step 13: the LxJ link register. -/
  | linked (pr : Prior) (a : RegIndex) (hstep : s.info.step = .s13) (hp : s.info.prior = some pr)
      (hf : (s.info.isLxjForm .normal || s.info.isLxjForm .call) = true) :
      Effect s (s.setGr ⟨.x, regSetOf pr.db17, a⟩
        (Config.lxjLinkWord pr.name.level pr.name.bdi pr.sel pr.offset pr.db16))
  /-- Step 14: the link general register. -/
  | linkedGr (pr : Prior) (hstep : s.info.step = .s14) (hp : s.info.prior = some pr)
      (hf : (s.info.isForward || s.info.isLxjForm .normal) = true) :
      Effect s (s.setGr s.params.linkGr (linkGrWord pr.db16 pr.key))
  /-- Step 16 of a return or an interrupt entry. -/
  | restored (db : BitVec 6) (key : AccessKey) (hstep : s.info.step = .s16) : Effect s (restoreDesignators s db key)
  /-- Step 16 of a forward transfer that changes mode. -/
  | modeSet (b : Bool) (hstep : s.info.step = .s16) : Effect s (s.setDr (setDb16 s.dr b))
  /-- Step 17: the program counter. -/
  | counter (off : BitVec 18) (hstep : s.info.step = .s17) (h : s.info.finalOffset = some off) : Effect s (s.setPc off)
  /-- Step 18: the binding's name. -/
  | recorded (slot : Slot) (n : BankName) (hstep : s.info.step = .s18) (hs : s.info.slot = some slot)
      (hn : n = voidName ∨ s.info.targetName = some n) : Effect s (recordBinding s slot n)
  /-- Step 19: the base register. -/
  | bound (slot : Slot) (r : BaseRegister) (hstep : s.info.step = .s19) (hs : s.info.slot = some slot)
      (hr : r = .void ∨ ∃ bd, r = makeBreg bd) : Effect s (s.setBreg slot r)
  /-- Step 20: DB31. -/
  | flipped (hstep : s.info.step = .s20) : Effect s (s.setDr (flipDb31 s.dr))

/-- What happens to `info` after the change: the sequencer goes on with the same operation, or the invocation ends. -/
inductive Proceeds (s1 : State) (op : Option OpKind) : State → Prop
  | goes (i : Info) (hi : i.step ≠ .idle) (ho : i.op = op) : Proceeds s1 op (s1.setInfo i)
  | ends (c : Completion) : Proceeds s1 op (finished c s1)

/-- A step's answer: a change followed by a move of the sequencer or the end of the invocation. -/
def Answers (s : State) (o : Out) : Prop :=
  ∀ t, o = .next t → ∃ s1, Effect s s1 ∧ Proceeds s1 s.info.op t

theorem answers_need {α : Type} (s : State) (o : Option α) (k : α → Out)
    (h : ∀ a, o = some a → Answers s (k a)) : Answers s (need o k) := by
  intro t ht
  obtain ⟨a, ha, hk⟩ := need_next o k t ht
  exact h a ha t hk

theorem answers_stop (s : State) (f : Fault) : Answers s (.fault f) := fun t ht => by simp at ht

theorem answers_refuse (s : State) (r : Refusal) : Answers s (.refused r) := fun t ht => by simp at ht

theorem answers_goto (s s1 : State) (n : StepNo) (hn : n ≠ .idle) (he : Effect s s1) (i : Info)
    (hi : i.op = s.info.op) : Answers s (goto n (s1.setInfo i)) := by
  intro t ht
  simp only [goto, Host.Outcome.next.injEq, setInfo_info, setInfo_setInfo] at ht
  subst ht
  exact ⟨s1, he, .goes _ hn hi⟩

theorem answers_goto_plain (s s1 : State) (n : StepNo) (hn : n ≠ .idle) (he : Effect s s1)
    (hi : s1.info.op = s.info.op) : Answers s (goto n s1) := by
  intro t ht
  simp only [goto, Host.Outcome.next.injEq] at ht
  subst ht
  exact ⟨s1, he, .goes _ hn hi⟩

theorem answers_end (s s1 : State) (c : Completion) (he : Effect s s1) (i : Info) :
    Answers s (endInvocation c (s1.setInfo i)) := by
  intro t ht
  simp only [endInvocation_eq, Host.Outcome.next.injEq] at ht
  subst ht
  exact ⟨s1, he, .ends c⟩

theorem answers_raise (s s1 : State) (f : EngineFault) (he : Effect s s1) (i : Info) :
    Answers s (raise f (s1.setInfo i)) := by
  rw [raise_eq]
  intro t ht
  simp only [Host.Outcome.next.injEq] at ht
  subst ht
  exact ⟨s1, he, .ends _⟩

theorem answers_raise_plain (s s1 : State) (f : EngineFault) (he : Effect s s1) : Answers s (raise f s1) :=
  answers_raise s s1 f he s1.info

theorem answers_onAccess {α : Type} (s : State) (x : Access α) (k : α → Out)
    (h : ∀ a, x = .ok a → Answers s (k a)) : Answers s (onAccess x s k) := by
  intro t ht
  rcases onAccess_next x s t k ht with ⟨a, ha, hk⟩ | ⟨f, _, hk⟩ | ⟨e, _, rfl⟩
  · exact h a ha t hk
  · exact answers_raise_plain s s f .none t hk
  · exact ⟨s, .none, .ends _⟩

theorem answers_onAccess_after {α : Type} (s s1 : State) (he : Effect s s1) (x : Access α) (k : α → Out)
    (h : ∀ a, x = .ok a → Answers s (k a)) : Answers s (onAccess x s1 k) := by
  intro t ht
  rcases onAccess_next x s1 t k ht with ⟨a, ha, hk⟩ | ⟨f, _, hk⟩ | ⟨e, _, rfl⟩
  · exact h a ha t hk
  · exact answers_raise_plain s s1 f he t hk
  · exact ⟨s1, he, .ends _⟩

/-! ### Each step's answer -/

theorem step1_answers (s : State) : Answers s (step1 s) := by
  refine answers_need s _ _ fun op _ => ?_
  split
  · refine answers_need s _ _ fun a _ => ?_
    split
    · exact answers_raise_plain s s _ .none
    · exact answers_goto_plain s s _ (by decide) .none rfl
  · split
    · refine answers_need s _ _ fun a _ => ?_
      simp only [step1Lxj]
      split
      · exact answers_raise_plain s s _ .none
      · exact answers_goto s s _ (by decide) .none _ rfl
    · split
      · exact answers_goto s s _ (by decide) .none _ rfl
      · split <;> exact answers_goto_plain s s _ (by decide) .none rfl

theorem step2_answers (s : State) : Answers s (step2 s) := by
  refine answers_need s _ _ fun op _ => ?_
  split
  · exact answers_need s _ _ fun x _ => answers_goto s s _ (by decide) .none _ rfl
  · exact answers_goto s s _ (by decide) .none _ rfl

theorem step3Frame_answers (s s1 : State) (he : Effect s s1) (hi : s1.info = s.info) (f : Frame) :
    Answers s (step3Frame s1 f) :=
  answers_goto s s1 _ (by decide) he _ (by rw [setInfo_info, hi])

theorem step3Pop_answers (s : State) (h : s.info.step = .s3) :
    Answers s (onAccess (rcsPop s) s fun r => step3Frame r.2 r.1) := by
  refine answers_onAccess s _ _ fun r hr => ?_
  obtain ⟨_, _, _, _, _, _, _, e⟩ := rcsPop_ok s r.2 r.1 hr
  exact step3Frame_answers s r.2 (.popped r.1 r.2 h hr) (by rw [e]; rfl) r.1

theorem withSource_answers (s : State) (v : VA) : Answers s (goto .s4 (withSource s v)) :=
  answers_goto s s _ (by decide) .none _ rfl

theorem step3_answers (s : State) (h : s.info.step = .s3) : Answers s (step3 s) := by
  have hx : Answers s (step3Lxj s) := by
    refine answers_need s _ _ fun f _ => ?_
    split
    · exact step3Pop_answers s h
    · refine answers_need s _ _ fun x _ => ?_
      split
      · exact withSource_answers s _
      · exact answers_stop s _
  refine answers_need s _ _ fun op _ => ?_
  split
  · refine answers_need s _ _ fun c _ => answers_onAccess s _ _ fun v _ => withSource_answers s v
  · exact step3Pop_answers s h
  · split
    · exact step3Frame_answers s s .none rfl _
    · exact answers_stop s _
  · exact hx
  · exact hx
  · exact hx
  · split
    · exact answers_need s _ _ fun i _ => answers_need s _ _ fun v _ => withSource_answers s v
    · exact answers_stop s _
  all_goals
    split
    · exact withSource_answers s _
    · exact answers_stop s _

theorem step4_answers (s : State) : Answers s (step4 s) := by
  refine answers_need s _ _ fun v _ => ?_
  split
  · exact answers_raise_plain s s _ .none
  · exact answers_goto_plain s s _ (by decide) .none rfl

theorem step5_answers (s : State) : Answers s (step5 s) := by
  refine answers_need s _ _ fun v _ => ?_
  split
  · split
    · exact answers_raise_plain s s _ .none
    · split
      · exact answers_goto s s _ (by decide) .none _ rfl
      · split
        · refine answers_need s _ _ fun f _ => ?_
          split
          · exact answers_goto s s _ (by decide) .none _ rfl
          · exact answers_raise_plain s s _ .none
        · split
          · exact answers_raise_plain s s _ .none
          · exact answers_goto_plain s s _ (by decide) .none rfl
  · exact answers_goto_plain s s _ (by decide) .none rfl

theorem step6_answers (s : State) : Answers s (step6 s) := by
  refine answers_need s _ _ fun v _ => answers_onAccess s _ _ fun a _ => ?_
  cases a with
  | none => exact answers_raise_plain s s _ .none
  | some bd => exact answers_goto s s _ (by decide) .none _ rfl

theorem enterThenBind_answers (s : State) (i : Info) (hi : i.op = s.info.op) (bd : BankDescriptor) :
    Answers s (enterThenBind (s.setInfo i) bd) := by
  unfold enterThenBind
  split
  · exact answers_raise s s _ .none i
  · exact answers_goto s s _ (by decide) .none i hi

theorem withSubstitution_eq (s : State) (bd : BankDescriptor) :
    ∃ i : Info, withSubstitution s bd = s.setInfo i ∧ i.op = s.info.op := by
  unfold withSubstitution
  split
  · exact ⟨_, rfl, rfl⟩
  · exact ⟨s.info, rfl, rfl⟩

theorem step7_answers (s : State) : Answers s (step7 s) := by
  refine answers_need s _ _ fun bd _ => ?_
  split
  · exact enterThenBind_answers s s.info rfl bd
  · split
    · exact answers_raise_plain s s _ .none
    · split
      · refine answers_need s _ _ fun f _ => ?_
        split
        · exact answers_goto_plain s s _ (by decide) .none rfl
        · exact answers_raise_plain s s _ .none
      · obtain ⟨i, hi, ho⟩ := withSubstitution_eq s bd
        rw [hi]
        exact enterThenBind_answers s i ho bd
  · split
    · exact answers_raise_plain s s _ .none
    · split
      · exact answers_goto_plain s s _ (by decide) .none rfl
      · split
        · exact answers_raise_plain s s _ .none
        · exact answers_goto_plain s s _ (by decide) .none rfl
  · split
    · exact answers_raise_plain s s _ .none
    · split
      · exact answers_goto_plain s s _ (by decide) .none rfl
      · exact answers_raise_plain s s _ .none
  · exact answers_raise_plain s s _ .none
  · split
    · exact answers_goto_plain s s _ (by decide) .none rfl
    · exact answers_raise_plain s s _ .none

theorem step8Dispatch_answers (s : State) (i : Info) (hi : i.op = s.info.op) (t : BankDescriptor) :
    Answers s (step8Dispatch (s.setInfo i) t) := by
  unfold step8Dispatch
  split
  · exact enterThenBind_answers s i hi t
  · obtain ⟨j, hj, ho⟩ := withSubstitution_eq (s.setInfo i) t
    rw [hj, setInfo_setInfo]
    exact enterThenBind_answers s j (ho.trans hi) t
  · split <;> exact answers_goto s s _ (by decide) .none i hi
  · exact answers_raise s s _ .none i
  · exact answers_raise s s _ .none i
  · split
    · exact answers_goto s s _ (by decide) .none i hi
    · exact answers_raise s s _ .none i

theorem step8_answers (s : State) : Answers s (step8 s) := by
  refine answers_need s _ _ fun bd _ => ?_
  split
  · exact answers_raise_plain s s _ .none
  · split
    · exact answers_raise_plain s s _ .none
    · refine answers_onAccess s _ _ fun a _ => ?_
      cases a with
      | none => exact answers_raise_plain s s _ .none
      | some t =>
        refine step8Dispatch_answers s _ ?_ t
        rfl

/-- A gate's transfers write DR, IKR and the latent destinations only; `info` and the rest stay. -/
theorem gateTransfers_info (s : State) (g : GateRecord) : (gateTransfers s g).info = s.info := by
  unfold gateTransfers
  split <;> split <;> split <;> split <;> simp

theorem step9_answers (s : State) (h : s.info.step = .s9) : Answers s (step9 s) := by
  refine answers_need s _ _ fun gb _ => answers_need s _ _ fun v _ => ?_
  split
  · exact answers_raise_plain s s _ .none
  · split
    · exact answers_raise_plain s s _ .none
    · split
      · exact answers_raise_plain s s _ .none
      · refine answers_onAccess s _ _ fun g _ => ?_
        have hg : Effect s (gateTransfers s g) := .gate g h
        unfold step9Record
        split
        · exact answers_refuse s _
        · split
          · exact answers_raise_plain s s _ .none
          · split
            · exact answers_raise_plain s _ _ hg
            · unfold step9Target
              split
              · exact answers_raise_plain s _ _ hg
              · refine answers_onAccess_after s _ hg _ _ fun a _ => ?_
                cases a with
                | none => exact answers_raise_plain s _ _ hg
                | some t =>
                  simp only
                  split
                  · exact answers_goto s _ _ (by decide) hg _ (by rw [gateTransfers_info])
                  · exact answers_raise_plain s _ _ hg

theorem step10Return_answers (s : State) (k : Slot) : Answers s (step10Return s k) := by
  refine answers_need s _ _ fun f _ => ?_
  split <;> exact answers_goto s s _ (by decide) .none _ rfl

theorem step10_answers (s : State) : Answers s (step10 s) := by
  refine answers_need s _ _ fun op _ => ?_
  split
  · exact answers_need s _ _ fun i _ => answers_goto s s _ (by decide) .none _ rfl
  · exact answers_need s _ _ fun i _ => answers_goto s s _ (by decide) .none _ rfl
  · exact answers_need s _ _ fun i _ => answers_goto s s _ (by decide) .none _ rfl
  · exact answers_goto s s _ (by decide) .none _ rfl
  · exact step10Return_answers s _
  · exact step10Return_answers s _
  iterate 3
    · split
      · exact step10Return_answers s _
      · exact answers_need s _ _ fun t _ => answers_need s _ _ fun pr _ =>
          answers_goto s s _ (by decide) .none _ rfl
  all_goals
    exact answers_need s _ _ fun t _ => answers_need s _ _ fun pr _ => answers_need s _ _ fun k _ =>
      answers_goto s s _ (by decide) .none _ rfl

theorem recordAbt_info (s : State) (k : Slot) (n : BankName) : (recordAbt s k n).info = s.info := by
  unfold recordAbt; split <;> rfl

theorem voidPrior_info (s : State) (pr : Prior) (m : Mode) : (voidPrior s pr m).info = s.info := by
  unfold voidPrior
  split
  · rfl
  · rw [recordAbt_info]; rfl
  · rfl
  · rfl

theorem recordBinding_info (s : State) (k : Slot) (n : BankName) : (recordBinding s k n).info = s.info := by
  unfold recordBinding
  split
  · rfl
  · exact recordAbt_info _ _ _

theorem step11_answers (s : State) (h : s.info.step = .s11) : Answers s (step11 s) :=
  answers_need s _ _ fun pr hp => answers_need s _ _ fun m hm =>
    answers_goto_plain s _ _ (by decide) (.voided pr m h hp hm) (by rw [voidPrior_info])

theorem step12_answers (s : State) (h : s.info.step = .s12) : Answers s (step12 s) := by
  unfold step12
  split
  · rename_i hc
    simp only [Bool.and_eq_true] at hc
    refine answers_need s _ _ fun pr hp => answers_onAccess s _ _ fun s1 h1 => ?_
    obtain ⟨_, _, _, _, _, _, _, e⟩ := rcsPush_ok _ _ _ h1
    exact answers_goto_plain s s1 _ (by decide) (.pushed pr s1 h hc.1 hp h1) (by rw [e]; rfl)
  · exact answers_goto_plain s s _ (by decide) .none rfl

theorem step13_answers (s : State) (h : s.info.step = .s13) : Answers s (step13 s) := by
  unfold step13
  split
  · rename_i hf
    exact answers_need s _ _ fun pr hp => answers_need s _ _ fun a _ =>
      answers_goto_plain s _ _ (by decide) (.linked pr a h hp hf) (by rw [setGr_info])
  · exact answers_goto_plain s s _ (by decide) .none rfl

theorem step14_answers (s : State) (h : s.info.step = .s14) : Answers s (step14 s) := by
  refine answers_need s _ _ fun pr hp => answers_need s _ _ fun m _ => ?_
  split
  · rename_i hf
    refine answers_goto_plain s _ _ (by decide) (.linkedGr pr h hp ?_) (by rw [setGr_info])
    simp only [Bool.or_eq_true, Bool.and_eq_true] at hf ⊢
    exact hf.imp (·.1) id
  · exact answers_goto_plain s s _ (by decide) .none rfl

theorem step15_answers (s : State) : Answers s (step15 s) := by
  unfold step15
  split
  · refine answers_need s _ _ fun g _ => ?_
    split <;> exact answers_goto_plain s s _ (by decide) .none rfl
  · exact answers_goto_plain s s _ (by decide) .none rfl

theorem step16_answers (s : State) (h : s.info.step = .s16) : Answers s (step16 s) := by
  unfold step16
  split
  · exact answers_need s _ _ fun f _ => answers_goto_plain s _ _ (by decide) (.restored _ _ h) rfl
  · split
    · exact answers_goto_plain s _ _ (by decide) (.restored _ _ h) rfl
    · refine answers_need s _ _ fun pr _ => answers_need s _ _ fun m _ => ?_
      split
      · exact answers_goto_plain s _ _ (by decide) (.modeSet _ h) rfl
      · exact answers_goto_plain s s _ (by decide) .none rfl

theorem step17_answers (s : State) (h : s.info.step = .s17) : Answers s (step17 s) :=
  answers_need s _ _ fun off ho => answers_goto_plain s _ _ (by decide) (.counter off h ho) rfl

theorem step18_answers (s : State) (h : s.info.step = .s18) : Answers s (step18 s) := by
  refine answers_need s _ _ fun k hk => answers_need s _ _ fun n hn => ?_
  refine answers_goto_plain s _ _ (by decide) (.recorded k _ h hk ?_) (by rw [recordBinding_info])
  split
  · exact .inl rfl
  · exact .inr hn

theorem step19_answers (s : State) (h : s.info.step = .s19) : Answers s (step19 s) := by
  have hn : afterBind s.info ≠ .idle := by unfold afterBind; split <;> decide
  refine answers_need s _ _ fun k hk => ?_
  split
  · exact answers_goto_plain s _ _ hn (.bound k _ h hk (.inl rfl)) rfl
  · exact answers_need s _ _ fun t _ => answers_goto_plain s _ _ hn (.bound k _ h hk (.inr ⟨t, rfl⟩)) rfl

theorem step20_answers (s : State) (h : s.info.step = .s20) : Answers s (step20 s) := by
  refine answers_need s _ _ fun op _ => answers_need s _ _ fun pr _ => answers_need s _ _ fun m _ => ?_
  split
  · exact answers_goto_plain s _ _ (by decide) (.flipped h) rfl
  · exact answers_goto_plain s s _ (by decide) .none rfl

theorem step21_answers (s : State) : Answers s (step21 s) := by
  refine answers_need s _ _ fun op _ => answers_need s _ _ fun n _ => ?_
  split
  · exact answers_raise_plain s s _ .none
  · split
    · refine answers_need s _ _ fun i _ => ?_
      split
      · exact answers_goto s s _ (by decide) .none _ rfl
      · exact answers_end s s _ .none s.info
    · exact answers_end s s _ .none s.info

/-- Everything one engine step of a running invocation can do to the state: one of the changes of `Effect`, and then
the sequencer goes on or the invocation ends. Frame facts and invariants of whole invocations follow from this by
`engineSteps_rel` and `engineSteps_inv`. -/
theorem engineStep_effect (s t : State) (hs : s.info.step ≠ .idle) (h : engineStep s = .next t) :
    ∃ s1, Effect s s1 ∧ Proceeds s1 s.info.op t := by
  unfold engineStep at h
  split at h
  · rename_i hi; exact absurd hi hs
  · exact step1_answers s t h
  · exact step2_answers s t h
  · rename_i hi; exact step3_answers s hi t h
  · exact step4_answers s t h
  · exact step5_answers s t h
  · exact step6_answers s t h
  · exact step7_answers s t h
  · exact step8_answers s t h
  · rename_i hi; exact step9_answers s hi t h
  · exact step10_answers s t h
  · rename_i hi; exact step11_answers s hi t h
  · rename_i hi; exact step12_answers s hi t h
  · rename_i hi; exact step13_answers s hi t h
  · rename_i hi; exact step14_answers s hi t h
  · exact step15_answers s t h
  · rename_i hi; exact step16_answers s hi t h
  · rename_i hi; exact step17_answers s hi t h
  · rename_i hi; exact step18_answers s hi t h
  · rename_i hi; exact step19_answers s hi t h
  · rename_i hi; exact step20_answers s hi t h
  · exact step21_answers s t h

end Sys2Proof.Machine
end

