-- ==== Sys2Proof/Laws/Runs.lean ====
section
/-! SUPPORT. Runs of the sequencer: `Leads` chains engine steps, and one lemma per step says where it leads under the
conditions of its rule. The lemmas are stated for a state `u.setInfo i`, so that a chain needs no unfolding. -/

namespace Sys2Proof.Machine

/-- `n` engine steps lead from `s` to `t`. -/
def Leads (n : Nat) (s t : State) : Prop := ∀ m, engineSteps (n + m) s = engineSteps m t

theorem Leads.refl (s : State) : Leads 0 s s := fun m => by rw [Nat.zero_add]

theorem Leads.trans (a b : Nat) (s t u : State) (h1 : Leads a s t) (h2 : Leads b t u) : Leads (a + b) s u := fun m => by
  rw [Nat.add_assoc, h1, h2]

theorem Leads.step (s t : State) (hs : s.info.step ≠ .idle) (h : engineStep s = .next t) : Leads 1 s t := fun m => by
  rw [Nat.add_comm, engineSteps_succ m s t hs h]

/-- A step that goes on, then `n` more. -/
theorem Leads.cons (n : Nat) (s t u : State) (hs : s.info.step ≠ .idle) (h : engineStep s = .next t)
    (h2 : Leads n t u) : Leads (n + 1) s u := by
  rw [Nat.add_comm]; exact Leads.trans 1 n s t u (Leads.step s t hs h) h2

/-- The run from `s` ends with `t` after at most `n` engine steps. -/
def Ends (n : Nat) (s t : State) : Prop := ∀ m, engineSteps (n + m) s = .next t

/-- A step that goes on, then a run that ends. -/
theorem Ends.cons (n : Nat) (s s1 t : State) (hs : s.info.step ≠ .idle) (h : engineStep s = .next s1)
    (h2 : Ends n s1 t) : Ends (n + 1) s t := fun m => by
  rw [show n + 1 + m = (n + m) + 1 by omega, engineSteps_succ _ s s1 hs h, h2]

/-- The last step of a run. -/
theorem Ends.last (s t : State) (hs : s.info.step ≠ .idle) (h : engineStep s = .next t) (ht : t.info.step = .idle) :
    Ends 1 s t := fun m => by
  rw [Nat.add_comm, engineSteps_succ m s t hs h, engineSteps_idle m t ht]

/-- Steps that lead to a run that ends. -/
theorem Leads.ends (a b : Nat) (s s1 t : State) (h1 : Leads a s s1) (h2 : Ends b s1 t) : Ends (a + b) s t := fun m => by
  rw [Nat.add_assoc, h1, h2]

/-- A run that ends within the fuel gives the engine's answer. -/
theorem Ends.runs (n : Nat) (hn : n ≤ engineFuel) (s t : State) (h : Ends n s t) (ht : t.info.step = .idle) :
    runEngine s = .next t := by
  refine runEngine_of_steps n hn s t ?_ ht
  simpa using h 0

/-- A run that leads to a refusal. -/
theorem Leads.refuses (n : Nat) (hn : n + 1 ≤ engineFuel) (s t : State) (r : Refusal) (h : Leads n s t)
    (ht : t.info.step ≠ .idle) (he : engineStep t = .refused r) : runEngine s = .refused r := by
  obtain ⟨k, hk⟩ := Nat.exists_eq_add_of_le hn
  have : engineSteps engineFuel s = .refused r := by
    rw [hk, show n + 1 + k = n + (k + 1) by omega, h (k + 1)]
    simp [engineSteps, ht, he]
  simp [runEngine, this]

/-! ### Operations that do not read the record -/

@[simp] theorem breg_setInfo (u : State) (i : Info) (j : Slot) : (u.setInfo i).breg j = u.breg j := rfl
@[simp] theorem findBd_setInfo (u : State) (i : Info) (n : BankName) : findBd (u.setInfo i) n = findBd u n :=
  findBd_congr u (u.setInfo i) n rfl rfl rfl
@[simp] theorem findBd_setRcsp (u : State) (p : BitVec 18) (n : BankName) : findBd (u.setRcsp p) n = findBd u n :=
  findBd_congr u (u.setRcsp p) n rfl rfl rfl

@[simp] theorem gateRead_setInfo (u : State) (i : Info) (gb : BankDescriptor) (off : BitVec 18) :
    gateRead (u.setInfo i) gb off = gateRead u gb off := by
  simp [gateRead, memRead_congr u (u.setInfo i) _ 5 rfl rfl]

@[simp] theorem vectorRead_setInfo (u : State) (i : Info) (c : Nat) : vectorRead (u.setInfo i) c = vectorRead u c := by
  have h : ∀ a, memRead (u.setInfo i) a 1 = memRead u a 1 := fun a => memRead_congr u (u.setInfo i) a 1 rfl rfl
  simp only [vectorRead, breg_setInfo, setInfo_params, h]

/-- The value of an operation, changed. -/
def Access.map {α β : Type} (f : α → β) : Access α → Access β
  | .ok a => .ok (f a)
  | .raise e => .raise e
  | .halt h => .halt h
  | .stuck => .stuck

theorem writeWord_setInfo (u : State) (i : Info) (a : AbsoluteAddress) (w : Word) :
    writeWord (u.setInfo i) a w = (writeWord u a w).map (·.setInfo i) := by
  simp only [writeWord, setInfo_params]
  split <;> rfl

theorem memWrite2_setInfo (u : State) (i : Info) (a : AbsoluteAddress) (v w : Word) :
    memWrite2 (u.setInfo i) a v w = (memWrite2 u a v w).map (·.setInfo i) := by
  simp only [memWrite2, writeWord_setInfo]
  cases writeWord u a v with
  | ok u1 => simp [Access.map, andThen, writeWord_setInfo]
  | raise f => rfl
  | halt h => rfl
  | stuck => rfl

/-- A push does not read the record. -/
theorem rcsPush_setInfo (u : State) (i : Info) (f : Frame) :
    rcsPush (u.setInfo i) f = (rcsPush u f).map (·.setInfo i) := by
  simp only [rcsPush, breg_setInfo, setInfo_params]
  split
  · rfl
  · rename_i r hr
    show (if _ then _ else _) = Access.map _ (if _ then _ else _)
    simp only [show (u.setInfo i).rcsp = u.rcsp from rfl]
    split
    · rfl
    · simp only [memWrite2_setInfo]
      cases memWrite2 u (relToAbs r ((u.rcsp.toNat : Int) - 2)) (encodeFrame0 f) (encodeFrame1 f) <;> rfl

/-- A pop does not read the record. -/
theorem rcsPop_setInfo (u : State) (i : Info) :
    rcsPop (u.setInfo i) = (rcsPop u).map fun r => (r.1, r.2.setInfo i) := by
  have h : ∀ a, memRead (u.setInfo i) a 2 = memRead u a 2 := fun a => memRead_congr u (u.setInfo i) a 2 rfl rfl
  simp only [rcsPop, breg_setInfo, setInfo_params, h, show (u.setInfo i).rcsp = u.rcsp from rfl]
  split
  · rfl
  · rename_i r hr
    split
    · rfl
    · cases memRead u (relToAbs r u.rcsp.toNat) 2 <;> rfl

/-! ### Reserved names -/

theorem notReserved_of (n : BankName) (h : nameReservedOrVoid n = false) : nameReserved n = false := by
  simp only [nameReservedOrVoid, nameReserved, Bool.and_eq_false_iff, decide_eq_false_iff_not] at h ⊢
  rcases h with h | h
  · exact .inl (.inl h)
  · exact .inr h

theorem notVoid_of (n : BankName) (h : nameReservedOrVoid n = false) : nameIsVoid n = false := by
  simp only [nameIsVoid, beq_eq_false_iff_ne]
  rintro rfl
  simp [nameReservedOrVoid, voidName] at h

/-! ### One lemma per step: where it leads -/

section Steps
variable (u : State) (i : Info)

/-- Reading a field of the record that is set. -/
theorem need_eq {α : Type} (o : Option α) (a : α) (k : α → Out) (h : o = some a) : need o k = k a := by
  rw [h]; rfl

theorem goto_setInfo (n : StepNo) : goto n (u.setInfo i) = .next (u.setInfo { i with step := n }) := rfl

/-- Step 1 of a transfer that is no LxJ. -/
theorem leads1_transfer (op : OpKind) (hs : i.step = .s1) (ho : i.op = some op) (hx : kindIsLxj op = false)
    (hl : kindIsLoad op = false) : engineStep (u.setInfo i) = .next (u.setInfo { i with step := .s2 }) := by
  have h : engineStep (u.setInfo i) = step1 (u.setInfo i) := by simp only [engineStep, setInfo_info, hs]
  refine h.trans ((need_eq _ _ _ ho).trans ((if_neg ?_).trans ((if_neg (by simp [hx])).trans ((if_neg ?_).trans
    ((if_neg (by simp [hl])).trans rfl)))))
  · rintro rfl; simp [kindIsLoad] at hl
  · rintro rfl; simp [kindIsLoad] at hl

/-- Step 1 of an LxJ with a valid interface spec. -/
theorem leads1_lxj (op : OpKind) (a : RegIndex) (hs : i.step = .s1) (ho : i.op = some op) (ha : i.a = some a)
    (hx : kindIsLxj op = true) (his : linkIs (u.gr ⟨.x, regSetOf (db17 u.dr), a⟩) ≠ 3) :
    engineStep (u.setInfo i) = .next (u.setInfo
      { i with step := .s2, xlink := some (u.gr ⟨.x, regSetOf (db17 u.dr), a⟩),
               form := some (formOf u.params (linkIs (u.gr ⟨.x, regSetOf (db17 u.dr), a⟩))) }) := by
  have h : engineStep (u.setInfo i) = step1 (u.setInfo i) := by simp only [engineStep, setInfo_info, hs]
  refine h.trans ((need_eq _ _ _ ho).trans ((if_neg ?_).trans ((if_pos hx).trans ((need_eq _ _ _ ha).trans
    ((if_neg his).trans rfl)))))
  rintro rfl; simp [kindIsLxj] at hx

/-- Step 1 of LBE, and of LBU with a register it may load. -/
theorem leads1_load (op : OpKind) (hs : i.step = .s1) (ho : i.op = some op)
    (hop : op = .lbe ∨ (op = .lbu ∧ ∃ a : RegIndex, i.a = some a ∧ 2 ≤ a.val)) :
    engineStep (u.setInfo i) = .next (u.setInfo { i with step := .s3 }) := by
  have h : engineStep (u.setInfo i) = step1 (u.setInfo i) := by simp only [engineStep, setInfo_info, hs]
  refine h.trans ((need_eq _ _ _ ho).trans ?_)
  rcases hop with rfl | ⟨rfl, a, ha, h2⟩
  · rfl
  · exact (if_pos rfl).trans ((need_eq _ _ _ ha).trans ((if_neg (by omega)).trans rfl))

/-- Step 2 of a transfer that is no LxJ. -/
theorem leads2_transfer (op : OpKind) (hs : i.step = .s2) (ho : i.op = some op) (hx : kindIsLxj op = false) :
    engineStep (u.setInfo i) = .next (u.setInfo { i with step := .s3, prior := some (capturePrior u op 0) }) := by
  have h : engineStep (u.setInfo i) = step2 (u.setInfo i) := by simp only [engineStep, setInfo_info, hs]
  exact h.trans ((need_eq _ _ _ ho).trans ((if_neg (by simp [hx])).trans rfl))

/-- Step 2 of an LxJ. -/
theorem leads2_lxj (op : OpKind) (x : Word) (hs : i.step = .s2) (ho : i.op = some op) (hx : kindIsLxj op = true)
    (hl : i.xlink = some x) :
    engineStep (u.setInfo i) = .next (u.setInfo { i with step := .s3, prior := some (capturePrior u op x) }) := by
  have h : engineStep (u.setInfo i) = step2 (u.setInfo i) := by simp only [engineStep, setInfo_info, hs]
  exact h.trans ((need_eq _ _ _ ho).trans ((if_pos hx).trans ((need_eq _ _ _ hl).trans rfl)))

/-- The record after step 3. -/
def sourced (i : Info) (v : VA) : Info :=
  { i with step := .s4, src := some v, finalOffset := some v.offset, voidTarget := false }

/-- Step 3 of a request with one virtual address. -/
theorem leads3_va (op : OpKind) (v : VA) (hs : i.step = .s3) (ho : i.op = some op)
    (hop : op = .call ∨ op = .goto ∨ op = .lbe ∨ op = .lbu) (hv : i.operand = .va v) :
    engineStep (u.setInfo i) = .next (u.setInfo (sourced i v)) := by
  have h : engineStep (u.setInfo i) = step3 (u.setInfo i) := by simp only [engineStep, setInfo_info, hs]
  refine h.trans ((need_eq _ _ _ ho).trans ?_)
  rcases hop with rfl | rfl | rfl | rfl <;> simp only [setInfo_info, hv] <;> rfl

/-- Step 3 of an LxJ normal or call form. -/
theorem leads3_lxj (op : OpKind) (f : LxjForm) (x : Word) (d : BitVec 18) (hs : i.step = .s3) (ho : i.op = some op)
    (hx : kindIsLxj op = true) (hf : i.form = some f) (hnr : f ≠ .ret) (hl : i.xlink = some x)
    (hd : i.operand = .offset d) :
    engineStep (u.setInfo i) = .next (u.setInfo (sourced i (lxjSource u.params x d))) := by
  have h : engineStep (u.setInfo i) = step3Lxj (u.setInfo i) := by
    simp only [engineStep, setInfo_info, hs]
    refine (need_eq _ _ _ ho).trans ?_
    cases op <;> first | rfl | simp [kindIsLxj] at hx
  refine h.trans ((need_eq _ _ _ hf).trans ((if_neg hnr).trans ((need_eq _ _ _ hl).trans ?_)))
  simp only [setInfo_info, hd]
  rfl

/-- The record after step 3 of a return. -/
def sourcedFrame (i : Info) (f : Frame) : Info := sourced { i with popped := some f } (frameVa f)

/-- Step 3 of an operation that pops: RTN and an LxJ return form. -/
theorem leads3_pop (op : OpKind) (f : Frame) (w : State) (hs : i.step = .s3) (ho : i.op = some op)
    (hop : op = .rtn ∨ (kindIsLxj op = true ∧ i.form = some .ret)) (hp : rcsPop u = .ok (f, w)) :
    engineStep (u.setInfo i) = .next (w.setInfo (sourcedFrame i f)) := by
  have h : engineStep (u.setInfo i) =
      onAccess (rcsPop (u.setInfo i)) (u.setInfo i) fun r => step3Frame r.2 r.1 := by
    simp only [engineStep, setInfo_info, hs]
    refine (need_eq _ _ _ ho).trans ?_
    rcases hop with rfl | ⟨hx, hf⟩
    · rfl
    · have e : step3Lxj (u.setInfo i) =
          onAccess (rcsPop (u.setInfo i)) (u.setInfo i) fun r => step3Frame r.2 r.1 :=
        (need_eq _ _ _ hf).trans (if_pos rfl)
      cases op <;> first | exact e | simp [kindIsLxj] at hx
  rw [h, rcsPop_setInfo, hp]
  rfl

/-- Step 3 of UR. -/
theorem leads3_ur (f : Frame) (hs : i.step = .s3) (ho : i.op = some .ur) (hd : i.operand = .frame f) :
    engineStep (u.setInfo i) = .next (u.setInfo (sourcedFrame i f)) := by
  have h : engineStep (u.setInfo i) = step3 (u.setInfo i) := by simp only [engineStep, setInfo_info, hs]
  refine h.trans ((need_eq _ _ _ ho).trans ?_)
  simp only [setInfo_info, hd]
  rfl

/-- Step 3 of interrupt entry. -/
theorem leads3_int (c : Nat) (v : VA) (hs : i.step = .s3) (ho : i.op = some .int) (hc : i.cls = some c)
    (hv : vectorRead u c = .ok v) :
    engineStep (u.setInfo i) = .next (u.setInfo (sourced i v)) := by
  have h : engineStep (u.setInfo i) = step3 (u.setInfo i) := by simp only [engineStep, setInfo_info, hs]
  refine h.trans ((need_eq _ _ _ ho).trans ((need_eq _ _ _ hc).trans ?_))
  rw [vectorRead_setInfo, hv]
  rfl

theorem leads4 (v : VA) (hs : i.step = .s4) (hv : i.src = some v) (hr : nameReserved (vaName v) = false) :
    engineStep (u.setInfo i) = .next (u.setInfo { i with step := .s5 }) := by
  simp [engineStep, hs, step4, hv, hr, goto]

theorem leads5 (v : VA) (hs : i.step = .s5) (hv : i.src = some v) (hr : nameIsVoid (vaName v) = false) :
    engineStep (u.setInfo i) = .next (u.setInfo { i with step := .s6 }) := by
  simp [engineStep, hs, step5, hv, hr, goto]

theorem leads6 (v : VA) (bd : BankDescriptor) (hs : i.step = .s6) (hv : i.src = some v)
    (hf : findBd u (vaName v) = .ok (some bd)) :
    engineStep (u.setInfo i) = .next (u.setInfo
      { i with step := .s7, srcBD := some bd, target := some bd, targetName := some (vaName v) }) := by
  simp [engineStep, hs, step6, hv, hf, goto]

/-- A forward transfer that may enter a bank is not denied there. -/
theorem enterDenied_of (bd : BankDescriptor)
    (he : u.params.directEnterCheck = true → enter u.params (accessKey u.ikr) bd = true) :
    enterDenied (u.setInfo i) bd = false := by
  simp only [enterDenied, setInfo_info, setInfo_params, setInfo_ikr]
  cases hc : u.params.directEnterCheck <;> simp_all

/-- The void substitution is LBU's alone. -/
theorem withSubstitution_of (bd : BankDescriptor) (hlbu : (i.op == some .lbu) = false) :
    withSubstitution (u.setInfo i) bd = u.setInfo i := by
  simp [withSubstitution, substitutesVoid, hlbu]

/-- The end of steps 7 and 8 of a forward transfer that may enter the bank. -/
theorem enterThenBind_of (bd : BankDescriptor)
    (he : u.params.directEnterCheck = true → enter u.params (accessKey u.ikr) bd = true) :
    enterThenBind (u.setInfo i) bd = .next (u.setInfo { i with step := .s10 }) := by
  simp [enterThenBind, enterDenied_of u i bd he, goto]

/-- Step 7 of a forward transfer to an ExtendedMode or BasicMode bank that it may enter. -/
theorem leads7_forward (bd : BankDescriptor) (hs : i.step = .s7) (hb : i.srcBD = some bd)
    (ht : bd.bankType = .extendedMode ∨ bd.bankType = .basicMode)
    (hint : i.isInt = false) (hret : i.isReturnLike = false) (hlbu : (i.op == some .lbu) = false)
    (he : u.params.directEnterCheck = true → enter u.params (accessKey u.ikr) bd = true) :
    engineStep (u.setInfo i) = .next (u.setInfo { i with step := .s10 }) := by
  rcases ht with ht | ht
  · simp [engineStep, hs, step7, hb, ht, enterThenBind_of u i bd he]
  · simp [engineStep, hs, step7, hb, ht, hint, hret, withSubstitution_of u i bd hlbu, enterThenBind_of u i bd he]

/-- Step 7 of an Indirect source. -/
theorem leads7_indirect (bd : BankDescriptor) (hs : i.step = .s7) (hb : i.srcBD = some bd)
    (ht : bd.bankType = .indirect) (hint : i.isInt = false)
    (hfw : (i.isForward || i.op == some .lbe || i.op == some .lbu) = true) :
    engineStep (u.setInfo i) = .next (u.setInfo { i with step := .s8 }) := by
  simp [engineStep, hs, step7, hb, ht, hint, hfw, goto]

/-- Step 7 of a forward transfer to a Gate. -/
theorem leads7_gate (bd : BankDescriptor) (hs : i.step = .s7) (hb : i.srcBD = some bd)
    (ht : bd.bankType = .gate) (hint : i.isInt = false) (hfw : i.isForward = true) :
    engineStep (u.setInfo i) = .next (u.setInfo { i with step := .s9 }) := by
  simp [engineStep, hs, step7, hb, ht, hint, hfw, goto]

/-- Step 8 with an Indirect whose target is found. -/
theorem step8_found (ib bd : BankDescriptor) (hs : i.step = .s8) (hb : i.srcBD = some ib)
    (hg : ib.generalFault = false) (hn : nameReservedOrVoid ib.target = false)
    (hf : findBd u ib.target = .ok (some bd)) : engineStep (u.setInfo i) =
      step8Dispatch (u.setInfo { i with target := some bd, targetName := some ib.target }) bd := by
  simp only [engineStep, hs, step8, setInfo_info, hb, need_some, hg, hn, Bool.false_eq_true, if_false, findBd_setInfo,
    hf, onAccess_ok, setInfo_setInfo]

/-- Step 8's dispatch for a forward transfer to an ExtendedMode or BasicMode bank that it may enter. -/
theorem step8Dispatch_forward (bd : BankDescriptor) (ht : bd.bankType = .extendedMode ∨ bd.bankType = .basicMode)
    (hlbu : (i.op == some .lbu) = false)
    (he : u.params.directEnterCheck = true → enter u.params (accessKey u.ikr) bd = true) :
    step8Dispatch (u.setInfo i) bd = .next (u.setInfo { i with step := .s10 }) := by
  rcases ht with ht | ht
  · simp [step8Dispatch, ht, enterThenBind_of u i bd he]
  · simp [step8Dispatch, ht, withSubstitution_of u i bd hlbu, enterThenBind_of u i bd he]

/-- Step 8's dispatch for a forward transfer to a Gate. -/
theorem step8Dispatch_gate (bd : BankDescriptor) (ht : bd.bankType = .gate) (hfw : i.isForward = true) :
    step8Dispatch (u.setInfo i) bd = .next (u.setInfo { i with step := .s9 }) := by
  simp [step8Dispatch, ht, hfw, goto]

/-- The record after step 10 of a transfer. -/
def landed (i : Info) (m : Mode) (slot : Slot) : Info :=
  { i with step := .s11, targetMode := some m, slot := some slot }

/-- Step 10 of CALL and GOTO. -/
theorem leads10_call (op : OpKind) (t : BankDescriptor) (pr : Prior) (slot : Slot) (hs : i.step = .s10)
    (ho : i.op = some op) (hop : op = .call ∨ op = .goto) (ht : i.target = some t) (hp : i.prior = some pr)
    (hk : callSlot u.params i pr (forwardMode t) = some slot) :
    engineStep (u.setInfo i) = .next (u.setInfo (landed i (forwardMode t) slot)) := by
  have h : engineStep (u.setInfo i) = step10 (u.setInfo i) := by simp only [engineStep, setInfo_info, hs]
  refine h.trans ((need_eq _ _ _ ho).trans ?_)
  rcases hop with rfl | rfl
  · exact (need_eq _ _ _ ht).trans ((need_eq _ _ _ hp).trans ((need_eq _ _ _ hk).trans rfl))
  · exact (need_eq _ _ _ ht).trans ((need_eq _ _ _ hp).trans ((need_eq _ _ _ hk).trans rfl))

/-- Step 10 of an LxJ normal or call form. -/
theorem leads10_lxj (op : OpKind) (t : BankDescriptor) (pr : Prior) (hs : i.step = .s10) (ho : i.op = some op)
    (hx : kindIsLxj op = true) (hr : i.isReturn = false) (ht : i.target = some t) (hp : i.prior = some pr) :
    engineStep (u.setInfo i) = .next (u.setInfo
      (landed i (forwardMode t) (if forwardMode t = .em then emCodeSlot else pr.slot))) := by
  have h : engineStep (u.setInfo i) = step10 (u.setInfo i) := by simp only [engineStep, setInfo_info, hs]
  refine h.trans ((need_eq _ _ _ ho).trans ?_)
  have e : ∀ k : Out, (if (u.setInfo i).info.isReturn = true then k else need (u.setInfo i).info.target fun t =>
      need (u.setInfo i).info.prior fun pr => landIn (u.setInfo i) (forwardMode t)
        (if forwardMode t = .em then emCodeSlot else pr.slot)) =
      .next (u.setInfo (landed i (forwardMode t) (if forwardMode t = .em then emCodeSlot else pr.slot))) := fun k =>
    (if_neg (by simp [hr])).trans ((need_eq _ _ _ ht).trans ((need_eq _ _ _ hp).trans rfl))
  cases op <;> first | exact e _ | simp [kindIsLxj] at hx

/-- Step 10 of a return-like operation. -/
theorem leads10_return (op : OpKind) (f : Frame) (hs : i.step = .s10) (ho : i.op = some op)
    (hop : op = .rtn ∨ op = .ur ∨ (kindIsLxj op = true ∧ i.isReturn = true)) (hp : i.popped = some f) :
    engineStep (u.setInfo i) = .next (u.setInfo (landed i (modeOf (frameDb16 f))
      (if frameDb16 f then bmSlot f.sel else if op = .ur then u.params.hardHeldSlot else emCodeSlot))) := by
  have h : engineStep (u.setInfo i) = step10 (u.setInfo i) := by simp only [engineStep, setInfo_info, hs]
  refine h.trans ((need_eq _ _ _ ho).trans ?_)
  have e : ∀ k : Slot, step10Return (u.setInfo i) k =
      .next (u.setInfo (landed i (modeOf (frameDb16 f)) (if frameDb16 f then bmSlot f.sel else k))) := fun k => by
    refine (need_eq _ _ _ hp).trans ?_
    cases frameDb16 f <;> rfl
  rcases hop with rfl | rfl | ⟨hx, hr⟩
  · exact e _
  · exact e _
  · cases op <;> first | exact (if_pos hr).trans (e _) | simp [kindIsLxj] at hx

/-- Step 10 of interrupt entry. -/
theorem leads10_int (hs : i.step = .s10) (ho : i.op = some .int) :
    engineStep (u.setInfo i) = .next (u.setInfo (landed i .em u.params.hardHeldSlot)) := by
  have h : engineStep (u.setInfo i) = step10 (u.setInfo i) := by simp only [engineStep, setInfo_info, hs]
  exact h.trans ((need_eq _ _ _ ho).trans rfl)

/-- Step 10 of a load: the slot (R84). -/
theorem leads10_load (op : OpKind) (slot : Slot) (hs : i.step = .s10) (ho : i.op = some op)
    (hk : (op = .lbe ∧ ∃ a : RegIndex, i.a = some a ∧ slot = ⟨16 + a.val, by omega⟩) ∨
      (op = .lbu ∧ ∃ a : RegIndex, i.a = some a ∧ slot = ⟨a.val, by omega⟩) ∨
      (op = .lae ∧ ∃ a : Fin 16, i.laeI = some a ∧ slot = ⟨a.val, by omega⟩)) :
    engineStep (u.setInfo i) = .next (u.setInfo { i with step := .s18, slot := some slot }) := by
  have h : engineStep (u.setInfo i) = step10 (u.setInfo i) := by simp only [engineStep, setInfo_info, hs]
  refine h.trans ((need_eq _ _ _ ho).trans ?_)
  rcases hk with ⟨rfl, a, ha, rfl⟩ | ⟨rfl, a, ha, rfl⟩ | ⟨rfl, a, ha, rfl⟩
  · exact (need_eq _ _ _ ha).trans rfl
  · exact (need_eq _ _ _ ha).trans rfl
  · exact (need_eq _ _ _ ha).trans rfl

theorem recordAbt_setInfo (k : Slot) (n : BankName) : recordAbt (u.setInfo i) k n = (recordAbt u k n).setInfo i := by
  unfold recordAbt; split <;> rfl

theorem voidPrior_setInfo (pr : Prior) (m : Mode) : voidPrior (u.setInfo i) pr m = (voidPrior u pr m).setInfo i := by
  unfold voidPrior
  split
  · rfl
  · exact recordAbt_setInfo (u.setBreg pr.slot .void) i pr.slot voidName
  · rfl
  · rfl

theorem leads11 (pr : Prior) (m : Mode) (hs : i.step = .s11) (hp : i.prior = some pr) (hm : i.targetMode = some m) :
    engineStep (u.setInfo i) = .next ((voidPrior u pr m).setInfo { i with step := .s12 }) := by
  have h : engineStep (u.setInfo i) = step11 (u.setInfo i) := by simp only [engineStep, setInfo_info, hs]
  refine h.trans ((need_eq _ _ _ hp).trans ((need_eq _ _ _ hm).trans ?_))
  rw [voidPrior_setInfo, goto_setInfo]

/-- Step 12 of an operation that pushes. -/
theorem leads12_push (pr : Prior) (w : State) (hs : i.step = .s12) (hp : i.prior = some pr)
    (hc : (i.isCall && (!i.isInt || u.params.intPushesRcs)) = true)
    (hpush : rcsPush u (returnFrame pr i.isInt) = .ok w) :
    engineStep (u.setInfo i) = .next (w.setInfo { i with step := .s13 }) := by
  simp [engineStep, hs, step12, hc, hp, rcsPush_setInfo, hpush, Access.map, goto]

/-- Step 12 of an operation that does not push. -/
theorem leads12_none (hs : i.step = .s12) (hc : (i.isCall && (!i.isInt || u.params.intPushesRcs)) = false) :
    engineStep (u.setInfo i) = .next (u.setInfo { i with step := .s13 }) := by
  simp [engineStep, hs, step12, hc, goto]

/-- Setting a general register and setting the record commute. -/
theorem setGr_setInfo (g : GrName) (w : Word) : (u.setInfo i).setGr g w = (u.setGr g w).setInfo i := by
  rcases g with ⟨f, s, k⟩
  cases f <;> cases s <;> rfl

/-- Step 13 of an LxJ normal or call form. -/
theorem leads13_link (pr : Prior) (a : RegIndex) (hs : i.step = .s13) (hp : i.prior = some pr) (ha : i.a = some a)
    (hf : (i.isLxjForm .normal || i.isLxjForm .call) = true) :
    engineStep (u.setInfo i) = .next ((u.setGr ⟨.x, regSetOf pr.db17, a⟩
      (Config.lxjLinkWord pr.name.level pr.name.bdi pr.sel pr.offset pr.db16)).setInfo { i with step := .s14 }) := by
  have h : engineStep (u.setInfo i) = step13 (u.setInfo i) := by simp only [engineStep, setInfo_info, hs]
  refine h.trans ((if_pos hf).trans ((need_eq _ _ _ hp).trans ((need_eq _ _ _ ha).trans ?_)))
  rw [setGr_setInfo, goto_setInfo]

theorem leads13_none (hs : i.step = .s13) (hf : (i.isLxjForm .normal || i.isLxjForm .call) = false) :
    engineStep (u.setInfo i) = .next (u.setInfo { i with step := .s14 }) := by
  simp [engineStep, hs, step13, hf, goto]

/-- Step 14 where it writes the link general register. -/
theorem leads14_link (pr : Prior) (m : Mode) (hs : i.step = .s14) (hp : i.prior = some pr)
    (hm : i.targetMode = some m) (hc : ((i.isForward && pr.mode != m) || i.isLxjForm .normal) = true) :
    engineStep (u.setInfo i) = .next
      ((u.setGr u.params.linkGr (linkGrWord pr.db16 pr.key)).setInfo { i with step := .s15 }) := by
  have h : engineStep (u.setInfo i) = step14 (u.setInfo i) := by simp only [engineStep, setInfo_info, hs]
  refine h.trans ((need_eq _ _ _ hp).trans ((need_eq _ _ _ hm).trans ((if_pos hc).trans ?_)))
  rw [setInfo_params, setGr_setInfo, goto_setInfo]

theorem leads14_none (pr : Prior) (m : Mode) (hs : i.step = .s14) (hp : i.prior = some pr)
    (hm : i.targetMode = some m) (hc : ((i.isForward && pr.mode != m) || i.isLxjForm .normal) = false) :
    engineStep (u.setInfo i) = .next (u.setInfo { i with step := .s15 }) := by
  have h : engineStep (u.setInfo i) = step14 (u.setInfo i) := by simp only [engineStep, setInfo_info, hs]
  refine h.trans ((need_eq _ _ _ hp).trans ((need_eq _ _ _ hm).trans ((if_neg ?_).trans rfl)))
  simpa using hc

theorem leads15_plain (hs : i.step = .s15) (hg : i.gated = false) :
    engineStep (u.setInfo i) = .next (u.setInfo { i with step := .s16 }) := by
  simp [engineStep, hs, step15, hg, goto]

theorem leads15_gated (g : GateRecord) (hs : i.step = .s15) (hg : i.gated = true) (hgr : i.gate = some g) :
    engineStep (u.setInfo i) = .next (u.setInfo
      { i with step := if g.designatorBitsInhibited then .s16 else .s17 }) := by
  have h : engineStep (u.setInfo i) = step15 (u.setInfo i) := by simp only [engineStep, setInfo_info, hs]
  refine h.trans ((if_pos hg).trans ((need_eq _ _ _ hgr).trans ?_))
  cases g.designatorBitsInhibited <;> rfl

/-- Step 16 of a return-like operation. -/
theorem leads16_return (f : Frame) (hs : i.step = .s16) (hr : i.isReturnLike = true) (hp : i.popped = some f) :
    engineStep (u.setInfo i) = .next ((restoreDesignators u f.db f.key).setInfo { i with step := .s17 }) := by
  have h : engineStep (u.setInfo i) = step16 (u.setInfo i) := by simp only [engineStep, setInfo_info, hs]
  exact h.trans ((if_pos hr).trans ((need_eq _ _ _ hp).trans rfl))

/-- Step 16 of interrupt entry. -/
theorem leads16_int (hs : i.step = .s16) (hr : i.isReturnLike = false) (hi : i.isInt = true) :
    engineStep (u.setInfo i) = .next
      ((restoreDesignators u u.params.intDb u.params.intKey).setInfo { i with step := .s17 }) := by
  have h : engineStep (u.setInfo i) = step16 (u.setInfo i) := by simp only [engineStep, setInfo_info, hs]
  exact h.trans ((if_neg (by simp [hr])).trans ((if_pos hi).trans rfl))

/-- Step 16 of a forward transfer. -/
theorem leads16_forward (pr : Prior) (m : Mode) (hs : i.step = .s16) (hp : i.prior = some pr)
    (hm : i.targetMode = some m) (hr : i.isReturnLike = false) (hi : i.isInt = false) (hf : i.isForward = true) :
    engineStep (u.setInfo i) = .next
      ((if pr.mode = m then u else u.setDr (setDb16 u.dr (m == .bm))).setInfo { i with step := .s17 }) := by
  have h : engineStep (u.setInfo i) = step16 (u.setInfo i) := by simp only [engineStep, setInfo_info, hs]
  refine h.trans ((if_neg (by simp [hr])).trans ((if_neg (by simp [hi])).trans
    ((need_eq _ _ _ hp).trans ((need_eq _ _ _ hm).trans ?_))))
  show (if (i.isForward && pr.mode != m) = true then _ else _) = _
  by_cases e : pr.mode = m
  · rw [if_pos e, if_neg (by simp [e])]; rfl
  · rw [if_neg e, if_pos (by simp [e, hf])]; rfl

theorem leads17 (off : BitVec 18) (hs : i.step = .s17) (ho : i.finalOffset = some off) :
    engineStep (u.setInfo i) = .next ((u.setPc off).setInfo { i with step := .s18 }) := by
  have h : engineStep (u.setInfo i) = step17 (u.setInfo i) := by simp only [engineStep, setInfo_info, hs]
  exact h.trans ((need_eq _ _ _ ho).trans rfl)

/-- Step 18 of a transfer into extended mode. -/
theorem leads18_em (slot : Slot) (n : BankName) (hs : i.step = .s18) (hk : i.slot = some slot)
    (hn : i.targetName = some n) (ht : i.isTransfer = true) (hm : i.targetMode = some .em) :
    engineStep (u.setInfo i) = .next
      ((u.setParName (if i.voidTarget then voidName else n)).setInfo { i with step := .s19 }) := by
  have h : engineStep (u.setInfo i) = step18 (u.setInfo i) := by simp only [engineStep, setInfo_info, hs]
  refine h.trans ((need_eq _ _ _ hk).trans ((need_eq _ _ _ hn).trans ?_))
  have e : (i.isTransfer && i.targetMode == some .em) = true := by simp [ht, hm]
  unfold recordBinding
  rw [setInfo_info, if_pos e]
  rfl

/-- Step 18 of a load or of a transfer into basic mode. -/
theorem leads18_abt (slot : Slot) (n : BankName) (hs : i.step = .s18) (hk : i.slot = some slot)
    (hn : i.targetName = some n) (ht : (i.isTransfer && i.targetMode == some .em) = false) :
    engineStep (u.setInfo i) = .next
      ((recordAbt u slot (if i.voidTarget then voidName else n)).setInfo { i with step := .s19 }) := by
  have h : engineStep (u.setInfo i) = step18 (u.setInfo i) := by simp only [engineStep, setInfo_info, hs]
  refine h.trans ((need_eq _ _ _ hk).trans ((need_eq _ _ _ hn).trans ?_))
  unfold recordBinding
  rw [setInfo_info, if_neg (by simpa using ht), recordAbt_setInfo, goto_setInfo]

/-- Step 19 with a target. -/
theorem leads19_bound (slot : Slot) (t : BankDescriptor) (hs : i.step = .s19) (hk : i.slot = some slot)
    (ht : i.target = some t) (hv : i.voidTarget = false) :
    engineStep (u.setInfo i) = .next ((u.setBreg slot (makeBreg t)).setInfo { i with step := afterBind i }) := by
  have h : engineStep (u.setInfo i) = step19 (u.setInfo i) := by simp only [engineStep, setInfo_info, hs]
  exact h.trans ((need_eq _ _ _ hk).trans ((if_neg (by simp [hv])).trans ((need_eq _ _ _ ht).trans rfl)))

/-- Step 19 without a target. -/
theorem leads19_void (slot : Slot) (hs : i.step = .s19) (hk : i.slot = some slot) (hv : i.voidTarget = true) :
    engineStep (u.setInfo i) = .next ((u.setBreg slot .void).setInfo { i with step := afterBind i }) := by
  have h : engineStep (u.setInfo i) = step19 (u.setInfo i) := by simp only [engineStep, setInfo_info, hs]
  exact h.trans ((need_eq _ _ _ hk).trans ((if_pos hv).trans rfl))

theorem leads20 (op : OpKind) (pr : Prior) (m : Mode) (hs : i.step = .s20) (ho : i.op = some op)
    (hp : i.prior = some pr) (hm : i.targetMode = some m) :
    engineStep (u.setInfo i) = .next ((if u.params.toggleDb31.contains op && i.isForward && pr.mode == .bm && m == .bm
      then u.setDr (flipDb31 u.dr) else u).setInfo { i with step := .s21 }) := by
  have h : engineStep (u.setInfo i) = step20 (u.setInfo i) := by simp only [engineStep, setInfo_info, hs]
  refine h.trans ((need_eq _ _ _ ho).trans ((need_eq _ _ _ hp).trans ((need_eq _ _ _ hm).trans ?_)))
  cases e : (u.params.toggleDb31.contains op && i.isForward && pr.mode == .bm && m == .bm)
  · exact (if_neg (fun k => Bool.noConfusion (k.symm.trans e))).trans rfl
  · exact (if_pos e).trans rfl

/-- Step 21 of everything but an LAE that goes on. -/
theorem ends21 (op : OpKind) (n : BankName) (hs : i.step = .s21) (ho : i.op = some op) (hn : i.targetName = some n)
    (hr : (!i.voidTarget && nameReserved n) = false) (hl : op ≠ .lae ∨ i.laeI = some 15) :
    engineStep (u.setInfo i) = .next (finished .ok u) := by
  have h : engineStep (u.setInfo i) = step21 (u.setInfo i) := by simp only [engineStep, setInfo_info, hs]
  refine h.trans ((need_eq _ _ _ ho).trans ((need_eq _ _ _ hn).trans ((if_neg (by simpa using hr)).trans ?_)))
  by_cases e : op = .lae
  · exact (if_pos e).trans ((need_eq _ _ _ (hl.resolve_left (fun k => k e))).trans rfl)
  · exact (if_neg e).trans rfl

/-- Step 21 of an LAE that goes on to its next iteration. -/
theorem leads21_lae (k : Fin 16) (n : BankName) (hs : i.step = .s21) (ho : i.op = some .lae)
    (hn : i.targetName = some n) (hr : (!i.voidTarget && nameReserved n) = false) (hl : i.laeI = some k)
    (hk : k.val < 15) :
    engineStep (u.setInfo i) = .next (u.setInfo { i with step := .s3, laeI := some (k + 1) }) := by
  have h : engineStep (u.setInfo i) = step21 (u.setInfo i) := by simp only [engineStep, setInfo_info, hs]
  exact h.trans ((need_eq _ _ _ ho).trans ((need_eq _ _ _ hn).trans ((if_neg (by simpa using hr)).trans
    ((if_pos rfl).trans ((need_eq _ _ _ hl).trans ((if_pos hk).trans rfl))))))

/-- A step that raises ends the invocation with the fault, or with a halt on the interrupt-entry path. -/
theorem raise_setInfo (f : EngineFault) : raise f (u.setInfo i) =
    .next (finished (if i.op = some .int then .halt (.wrappedFault f) else .fault f) u) := by
  rw [raise_eq]; rfl

end Steps

/-! ### The end of a run, from step 18 -/

section Tails
variable (u : State) (i : Info)

/-- The end of a transfer that binds a bank, from step 18. -/
theorem ends_bind (op : OpKind) (pr : Prior) (m : Mode) (slot : Slot) (bd : BankDescriptor) (n : BankName)
    (hs : i.step = .s18) (ho : i.op = some op) (hp : i.prior = some pr) (hm : i.targetMode = some m)
    (hk : i.slot = some slot) (ht : i.target = some bd) (hn : i.targetName = some n) (hv : i.voidTarget = false)
    (hr : nameReserved n = false) (htr : i.isTransfer = true) :
    Ends 4 (u.setInfo i) (finished .ok
      (if u.params.toggleDb31.contains op && i.isForward && pr.mode == .bm && m == .bm
        then (arrive u m slot n (makeBreg bd)).setDr (flipDb31 u.dr) else arrive u m slot n (makeBreg bd))) := by
  have hop : op ≠ .lae := by
    rintro rfl
    simp [Info.isTransfer, Info.isLoad, ho, kindIsLoad] at htr
  have hab : ∀ st, afterBind { i with step := st } = .s20 := fun st => if_pos htr
  have last : ∀ w : State, Ends 1 (w.setInfo { i with step := .s21 }) (finished .ok w) := fun w =>
    Ends.last _ _ (by simp) (ends21 w _ op n rfl ho hn (by simp [hv, hr]) (.inl hop)) rfl
  have bind : ∀ w : State, Ends 3 (w.setInfo { i with step := .s19 }) (finished .ok
      (if w.params.toggleDb31.contains op && i.isForward && pr.mode == .bm && m == .bm
        then (w.setBreg slot (makeBreg bd)).setDr (flipDb31 w.dr) else w.setBreg slot (makeBreg bd))) := fun w => by
    refine Ends.cons _ _ _ _ (by simp) (leads19_bound w _ slot bd rfl hk ht hv) ?_
    rw [hab]
    refine Ends.cons _ _ _ _ (by simp) (leads20 _ _ op pr m rfl ho hp hm) ?_
    exact last _
  cases m with
  | em => exact Ends.cons _ _ _ _ (by simp [hs]) (leads18_em u i slot n hs hk hn htr hm) (by
      rw [if_neg (by simp [hv])]; exact bind (u.setParName n))
  | bm =>
    refine Ends.cons _ _ _ _ (by simp [hs]) (leads18_abt u i slot n hs hk hn (by simp [hm])) ?_
    rw [if_neg (by simp [hv])]
    have e : (recordAbt u slot n).params = u.params ∧ (recordAbt u slot n).dr = u.dr := by
      unfold recordAbt; split <;> exact ⟨rfl, rfl⟩
    have := bind (recordAbt u slot n)
    rw [e.1, e.2] at this
    exact this

/-- The state after step 14. -/
def linked (u : State) (i : Info) (pr : Prior) (m : Mode) : State :=
  if (i.isForward && pr.mode != m) || i.isLxjForm .normal
  then u.setGr u.params.linkGr (linkGrWord pr.db16 pr.key) else u

/-- Step 14, whether or not it writes. -/
theorem leads14 (pr : Prior) (m : Mode) (hs : i.step = .s14) (hp : i.prior = some pr)
    (hm : i.targetMode = some m) :
    engineStep (u.setInfo i) = .next ((linked u i pr m).setInfo { i with step := .s15 }) := by
  unfold linked
  cases hc : ((i.isForward && pr.mode != m) || i.isLxjForm .normal)
  · exact (leads14_none u i pr m hs hp hm hc).trans (by simp)
  · exact (leads14_link u i pr m hs hp hm hc).trans (by simp)

/-- The end of a forward transfer without a gate, from step 14. -/
theorem ends_forward (op : OpKind) (pr : Prior) (m : Mode) (slot : Slot) (bd : BankDescriptor) (n : BankName)
    (off : BitVec 18) (hs : i.step = .s14) (ho : i.op = some op) (hp : i.prior = some pr)
    (hm : i.targetMode = some m) (hk : i.slot = some slot) (ht : i.target = some bd) (hn : i.targetName = some n)
    (hv : i.voidTarget = false) (hr : nameReserved n = false) (htr : i.isTransfer = true) (hg : i.gated = false)
    (ho' : i.finalOffset = some off) (hfw : i.isForward = true) (hint : i.isInt = false)
    (hret : i.isReturnLike = false) (w t : State)
    (hw : w = (if pr.mode = m then linked u i pr m
      else (linked u i pr m).setDr (setDb16 (linked u i pr m).dr (m == .bm))).setPc off)
    (hend : t = if w.params.toggleDb31.contains op && pr.mode == .bm && m == .bm
        then (arrive w m slot n (makeBreg bd)).setDr (flipDb31 w.dr) else arrive w m slot n (makeBreg bd)) :
    Ends 8 (u.setInfo i) (finished .ok t) := by
  refine Ends.cons _ _ _ _ (by simp [hs]) (leads14 u i pr m hs hp hm) ?_
  refine Ends.cons _ _ _ _ (by simp) (leads15_plain _ _ rfl hg) ?_
  refine Ends.cons _ _ _ _ (by simp) (leads16_forward _ _ pr m rfl hp hm hret hint hfw) ?_
  refine Ends.cons _ _ _ _ (by simp) (leads17 _ _ off rfl ho') ?_
  have h := ends_bind w { i with step := .s18 } op pr m slot bd n rfl ho hp hm hk ht hn hv hr htr
  have e : ({ i with step := .s18 } : Info).isForward = true := hfw
  rw [e, Bool.and_true] at h
  rw [hend, ← hw]
  exact h

/-- The end of a forward transfer through a gate, from step 14. -/
theorem ends_gated (op : OpKind) (pr : Prior) (m : Mode) (slot : Slot) (bd : BankDescriptor) (n : BankName)
    (off : BitVec 18) (g : GateRecord) (hs : i.step = .s14) (ho : i.op = some op) (hp : i.prior = some pr)
    (hm : i.targetMode = some m) (hk : i.slot = some slot) (ht : i.target = some bd) (hn : i.targetName = some n)
    (hv : i.voidTarget = false) (hr : nameReserved n = false) (htr : i.isTransfer = true) (hg : i.gated = true)
    (hgr : i.gate = some g) (ho' : i.finalOffset = some off) (hfw : i.isForward = true) (hint : i.isInt = false)
    (hret : i.isReturnLike = false) (w t : State)
    (hw : w = (if g.designatorBitsInhibited = true ∧ pr.mode ≠ m
      then (linked u i pr m).setDr (setDb16 (linked u i pr m).dr (m == .bm)) else linked u i pr m).setPc off)
    (hend : t = if w.params.toggleDb31.contains op && pr.mode == .bm && m == .bm
        then (arrive w m slot n (makeBreg bd)).setDr (flipDb31 w.dr) else arrive w m slot n (makeBreg bd)) :
    Ends 8 (u.setInfo i) (finished .ok t) := by
  have h := ends_bind w { i with step := .s18 } op pr m slot bd n rfl ho hp hm hk ht hn hv hr htr
  have e : ({ i with step := .s18 } : Info).isForward = true := hfw
  rw [e, Bool.and_true] at h
  rw [hend]
  refine Ends.cons _ _ _ _ (by simp [hs]) (leads14 u i pr m hs hp hm) ?_
  refine Ends.cons _ _ _ _ (by simp) (leads15_gated _ _ g rfl hg hgr) ?_
  cases hd : g.designatorBitsInhibited
  · have hw' : w = (linked u i pr m).setPc off := by rw [hw, hd]; simp
    intro k
    have := Ends.cons _ _ _ _ (by simp) (leads17 (linked u i pr m) { i with step := .s17 } off rfl ho')
      (by rw [← hw']; exact h) (k + 1)
    rw [show 6 + k = 4 + 1 + (k + 1) by omega]
    exact this
  · refine Ends.cons _ _ _ _ (by simp) (leads16_forward _ _ pr m rfl hp hm hret hint hfw) ?_
    refine Ends.cons _ _ _ _ (by simp) (leads17 _ _ off rfl ho') ?_
    have hw' : w = (if pr.mode = m then linked u i pr m
        else (linked u i pr m).setDr (setDb16 (linked u i pr m).dr (m == .bm))).setPc off := by
      rw [hw, hd]
      by_cases hmm : pr.mode = m <;> simp [hmm]
    rw [← hw']
    exact h

/-- The end of a return that binds a bank or Void, from step 14. -/
theorem ends_return (op : OpKind) (pr : Prior) (m : Mode) (slot : Slot) (r : BaseRegister) (n : BankName)
    (f : Frame) (hs : i.step = .s14) (ho : i.op = some op) (hp : i.prior = some pr)
    (hm : i.targetMode = some m) (hk : i.slot = some slot) (hn : i.targetName = some n)
    (hb : (i.voidTarget = true ∧ n = voidName ∧ r = .void) ∨
      (i.voidTarget = false ∧ nameReserved n = false ∧ ∃ bd, i.target = some bd ∧ r = makeBreg bd))
    (htr : i.isTransfer = true) (hg : i.gated = false)
    (ho' : i.finalOffset = some f.offset) (hfw : i.isForward = false) (hnorm : i.isLxjForm .normal = false)
    (hret : i.isReturnLike = true) (hpop : i.popped = some f) (t : State)
    (hend : t = arrive ((restoreDesignators u f.db f.key).setPc f.offset) m slot n r) :
    Ends 8 (u.setInfo i) (finished .ok t) := by
  have hop : op ≠ .lae := by
    rintro rfl
    simp [Info.isTransfer, Info.isLoad, ho, kindIsLoad] at htr
  have hab : ∀ st, afterBind { i with step := st } = .s20 := fun st => if_pos htr
  have hl : linked u i pr m = u := by simp [linked, hfw, hnorm]
  refine Ends.cons _ _ _ _ (by simp [hs]) (leads14 u i pr m hs hp hm) ?_
  rw [hl]
  refine Ends.cons _ _ _ _ (by simp) (leads15_plain _ _ rfl hg) ?_
  refine Ends.cons _ _ _ _ (by simp) (leads16_return _ _ f rfl hret hpop) ?_
  refine Ends.cons _ _ _ _ (by simp) (leads17 _ _ f.offset rfl ho') ?_
  have last : ∀ w : State, Ends 2 (w.setInfo { i with step := .s20 }) (finished .ok w) := fun w => by
    refine Ends.cons _ _ _ _ (by simp) (leads20 w _ op pr m rfl ho hp hm) ?_
    have e : ({ i with step := .s20 } : Info).isForward = false := hfw
    simp only [e, Bool.and_false, Bool.false_and, Bool.false_eq_true, if_false]
    refine Ends.last _ _ (by simp) (ends21 w _ op n rfl ho hn ?_ (.inl hop)) rfl
    rcases hb with ⟨hv, _⟩ | ⟨hv, hr, _⟩
    · simp [hv]
    · simp [hv, hr]
  have bind : ∀ w : State, Ends 3 (w.setInfo { i with step := .s19 }) (finished .ok (w.setBreg slot r)) := fun w => by
    rcases hb with ⟨hv, _, rfl⟩ | ⟨hv, _, bd, ht, rfl⟩
    · refine Ends.cons _ _ _ _ (by simp) (leads19_void w _ slot rfl hk hv) ?_
      rw [hab]; exact last _
    · refine Ends.cons _ _ _ _ (by simp) (leads19_bound w _ slot bd rfl hk ht hv) ?_
      rw [hab]; exact last _
  have hrec : (if i.voidTarget then voidName else n) = n := by
    rcases hb with ⟨_, rfl, _⟩ | ⟨hv, _⟩
    · simp
    · simp [hv]
  rw [hend]
  cases m with
  | em =>
    refine Ends.cons _ _ _ _ (by simp) (leads18_em _ _ slot n rfl hk hn htr hm) ?_
    rw [hrec]
    exact bind _
  | bm =>
    refine Ends.cons _ _ _ _ (by simp) (leads18_abt _ _ slot n rfl hk hn ?_) ?_
    · show (i.isTransfer && i.targetMode == some .em) = false
      simp [hm]
    · rw [hrec]
      exact bind _

/-- The end of interrupt entry, from step 14. -/
theorem ends_int (pr : Prior) (slot : Slot) (bd : BankDescriptor) (n : BankName) (off : BitVec 18)
    (hs : i.step = .s14) (ho : i.op = some .int) (hp : i.prior = some pr)
    (hm : i.targetMode = some .em) (hk : i.slot = some slot) (ht : i.target = some bd) (hn : i.targetName = some n)
    (hv : i.voidTarget = false) (hr : nameReserved n = false) (hg : i.gated = false)
    (ho' : i.finalOffset = some off) (t : State)
    (hend : t = arrive ((restoreDesignators u u.params.intDb u.params.intKey).setPc off) .em slot n (makeBreg bd)) :
    Ends 8 (u.setInfo i) (finished .ok t) := by
  have hlx : ∀ f, i.isLxjForm f = false := fun f => by simp [Info.isLxjForm, Info.isLxj, ho, kindIsLxj]
  have hfw : i.isForward = false := by simp [Info.isForward, ho, hlx]
  have hret : i.isReturnLike = false := by simp [Info.isReturnLike, Info.isReturn, ho, hlx]
  have hint : i.isInt = true := by simp [Info.isInt, ho]
  have htr : i.isTransfer = true := by simp [Info.isTransfer, Info.isLoad, ho, kindIsLoad]
  have hl : linked u i pr .em = u := by simp [linked, hfw, hlx]
  refine Ends.cons _ _ _ _ (by simp [hs]) (leads14 u i pr .em hs hp hm) ?_
  rw [hl]
  refine Ends.cons _ _ _ _ (by simp) (leads15_plain _ _ rfl hg) ?_
  refine Ends.cons _ _ _ _ (by simp) (leads16_int _ _ rfl hret hint) ?_
  refine Ends.cons _ _ _ _ (by simp) (leads17 _ _ off rfl ho') ?_
  have h := ends_bind ((restoreDesignators u u.params.intDb u.params.intKey).setPc off) { i with step := .s18 } .int pr
    .em slot bd n rfl ho hp hm hk ht hn hv hr htr
  have e : ({ i with step := .s18 } : Info).isForward = false := hfw
  simp only [e, Bool.and_false, Bool.false_and, Bool.false_eq_true, if_false] at h
  rw [hend]
  exact h

/-! ### From the source to the destination slot -/

/-- A forward transfer goes from step 4 to step 10 with the bank that its source reaches. -/
theorem leads_reaches (v : VA) (n : BankName) (bd : BankDescriptor) (hs : i.step = .s4)
    (hv : i.src = some v) (h : Reaches u (vaName v) n bd) (hl : MayLand u bd) (hfw : i.isForward = true)
    (hint : i.isInt = false) (hret : i.isReturnLike = false) (hlbu : (i.op == some .lbu) = false) :
    ∃ k ib, k ≤ 5 ∧ Leads k (u.setInfo i)
      (u.setInfo { i with step := .s10, srcBD := some ib, target := some bd, targetName := some n }) := by
  obtain ⟨ht, he⟩ := hl
  rcases h with ⟨rfl, hni, hn, hfb⟩ | ⟨ib, ⟨hn, hfb⟩, hib, hg, rfl, hn2, hfb2⟩
  · refine ⟨4, bd, by omega, ?_⟩
    refine Leads.cons _ _ _ _ (by simp [hs]) (leads4 u i v hs hv (notReserved_of _ hn)) ?_
    refine Leads.cons _ _ _ _ (by simp) (leads5 u _ v rfl hv (notVoid_of _ hn)) ?_
    refine Leads.cons _ _ _ _ (by simp) (leads6 u _ v bd rfl hv hfb) ?_
    refine Leads.cons _ _ _ _ (by simp) (leads7_forward u _ bd rfl rfl ht hint hret hlbu he) ?_
    exact Leads.refl _
  · refine ⟨5, ib, by omega, ?_⟩
    refine Leads.cons _ _ _ _ (by simp [hs]) (leads4 u i v hs hv (notReserved_of _ hn)) ?_
    refine Leads.cons _ _ _ _ (by simp) (leads5 u _ v rfl hv (notVoid_of _ hn)) ?_
    refine Leads.cons _ _ _ _ (by simp) (leads6 u _ v ib rfl hv hfb) ?_
    refine Leads.cons _ _ _ _ (by simp) (leads7_indirect u _ ib rfl rfl hib hint ?_) ?_
    · show (i.isForward || i.op == some .lbe || i.op == some .lbu) = true
      simp [hfw]
    refine Leads.cons _ _ _ _ (by simp) ((step8_found u _ ib bd rfl rfl hg hn2 hfb2).trans
      (step8Dispatch_forward u _ bd ht hlbu he)) ?_
    exact Leads.refl _

/-- A forward transfer goes from step 4 to step 9 with the gate bank that its source reaches. -/
theorem leads_reaches_gate (v : VA) (n : BankName) (bd : BankDescriptor) (hs : i.step = .s4)
    (hv : i.src = some v) (h : Reaches u (vaName v) n bd) (ht : bd.bankType = .gate) (hfw : i.isForward = true)
    (hint : i.isInt = false) :
    ∃ k ib, k ≤ 5 ∧ Leads k (u.setInfo i)
      (u.setInfo { i with step := .s9, srcBD := some ib, target := some bd, targetName := some n }) := by
  rcases h with ⟨rfl, hni, hn, hfb⟩ | ⟨ib, ⟨hn, hfb⟩, hib, hg, rfl, hn2, hfb2⟩
  · refine ⟨4, bd, by omega, ?_⟩
    refine Leads.cons _ _ _ _ (by simp [hs]) (leads4 u i v hs hv (notReserved_of _ hn)) ?_
    refine Leads.cons _ _ _ _ (by simp) (leads5 u _ v rfl hv (notVoid_of _ hn)) ?_
    refine Leads.cons _ _ _ _ (by simp) (leads6 u _ v bd rfl hv hfb) ?_
    refine Leads.cons _ _ _ _ (by simp) (leads7_gate u _ bd rfl rfl ht hint hfw) ?_
    exact Leads.refl _
  · refine ⟨5, ib, by omega, ?_⟩
    refine Leads.cons _ _ _ _ (by simp [hs]) (leads4 u i v hs hv (notReserved_of _ hn)) ?_
    refine Leads.cons _ _ _ _ (by simp) (leads5 u _ v rfl hv (notVoid_of _ hn)) ?_
    refine Leads.cons _ _ _ _ (by simp) (leads6 u _ v ib rfl hv hfb) ?_
    refine Leads.cons _ _ _ _ (by simp) (leads7_indirect u _ ib rfl rfl hib hint ?_) ?_
    · show (i.isForward || i.op == some .lbe || i.op == some .lbu) = true
      simp [hfw]
    refine Leads.cons _ _ _ _ (by simp) ((step8_found u _ ib bd rfl rfl hg hn2 hfb2).trans
      (step8Dispatch_gate u _ bd ht hfw)) ?_
    exact Leads.refl _

/-- Step 9 once the gate bank's checks have passed and its record is read. -/
theorem step9_reads (v : VA) (gb : BankDescriptor) (g : GateRecord) (hs : i.step = .s9) (hv : i.src = some v)
    (ht : i.target = some gb) (hg : gb.generalFault = false) (he : enter u.params (accessKey u.ikr) gb = true)
    (ho : gateOffsetOk u.params gb v.offset = true) (hr : gateRead u gb v.offset = .ok g) :
    engineStep (u.setInfo i) = step9Record (u.setInfo i) g := by
  have h : engineStep (u.setInfo i) = step9 (u.setInfo i) := by simp only [engineStep, setInfo_info, hs]
  refine h.trans ((need_eq _ _ _ ht).trans ((need_eq _ _ _ hv).trans ((if_neg (by simp [hg])).trans
    ((if_neg ?_).trans ((if_neg ?_).trans ?_)))))
  · show ¬(!enter u.params (accessKey u.ikr) gb) = true
    simp [he]
  · show ¬(!gateOffsetOk u.params gb v.offset) = true
    simp [ho]
  · show onAccess (gateRead (u.setInfo i) gb v.offset) _ _ = _
    rw [gateRead_setInfo, hr]
    rfl

theorem setDr_setInfo (w : Word) : (u.setInfo i).setDr w = (u.setDr w).setInfo i := rfl
theorem setIkr_setInfo (w : Word) : (u.setInfo i).setIkr w = (u.setIkr w).setInfo i := rfl

theorem gateTransfers_setInfo (g : GateRecord) :
    gateTransfers (u.setInfo i) g = (gateTransfers u g).setInfo i := by
  unfold gateTransfers
  cases g.designatorBitsInhibited <;> cases g.accessKeyInhibited <;> cases g.latentParam0Inhibited <;>
    cases g.latentParam1Inhibited <;> simp [setGr_setInfo, setDr_setInfo, setIkr_setInfo]

/-- What a gate's transfers leave alone. -/
theorem gateTransfers_frame (g : GateRecord) : (gateTransfers u g).params = u.params ∧
    (gateTransfers u g).bregs = u.bregs ∧ (gateTransfers u g).abt = u.abt ∧ (gateTransfers u g).par = u.par ∧
    (gateTransfers u g).rcsp = u.rcsp ∧ (gateTransfers u g).memory = u.memory ∧
    (gateTransfers u g).port = u.port ∧ (gateTransfers u g).result = u.result := by
  unfold gateTransfers
  cases g.designatorBitsInhibited <;> cases g.accessKeyInhibited <;> cases g.latentParam0Inhibited <;>
    cases g.latentParam1Inhibited <;> simp

theorem findBd_gateTransfers (g : GateRecord) (n : BankName) : findBd (gateTransfers u g) n = findBd u n := by
  obtain ⟨hp, hb, _, _, _, hm, _⟩ := gateTransfers_frame u g
  exact findBd_congr u _ n hp hb hm

/-- Step 9 of a gate that leads on. -/
theorem leads9 (v : VA) (gb : BankDescriptor) (g : GateRecord) (t : BankDescriptor) (hs : i.step = .s9)
    (hv : i.src = some v) (ht : i.target = some gb) (hg : gb.generalFault = false)
    (he : enter u.params (accessKey u.ikr) gb = true) (ho : gateOffsetOk u.params gb v.offset = true)
    (hr : gateRead u gb v.offset = .ok g) (ha : GateAdmits u g)
    (hi : (g.gotoInhibited && gotoInhibitApplies i) = false) (hl : GateLeads u g t) :
    engineStep (u.setInfo i) = .next ((gateTransfers u g).setInfo
      { i with step := .s10, gated := true, gate := some g, target := some t,
               targetName := some (vaName g.target), finalOffset := some g.target.offset }) := by
  obtain ⟨⟨hn, hf⟩, hty⟩ := hl
  rw [step9_reads u i v gb g hs hv ht hg he ho hr]
  refine (if_neg (by simp [ha.1])).trans ((if_neg ?_).trans ((if_neg ?_).trans ?_))
  · show ¬(u.params.gateRecordLockCheck &&
      !(effectivePermissions u.params (accessKey u.ikr) g.lock g.gap g.sap).execute) = true
    cases hc : u.params.gateRecordLockCheck
    · simp
    · simp [ha.2 hc]
  · show ¬(g.gotoInhibited && gotoInhibitApplies i) = true
    rw [hi]; simp
  · rw [gateTransfers_setInfo]
    refine (if_neg (by simp [hn])).trans ?_
    rw [findBd_setInfo, findBd_gateTransfers, hf]
    exact if_pos hty

end Tails

end Sys2Proof.Machine
end

