-- ==== Sys2Proof/Laws/Track.lean ====
section
/-! SUPPORT. Which fields of the record are set at each step of the invocation of a well-formed request (R24). `step_tracks`
says that every engine step keeps this, never reads an unset field, and lowers the rank of the record, so that
the invocation ends within the fuel (`engineSteps_track`). -/

namespace Sys2Proof.Machine

/-! ### What the request puts into the record -/

/-- The a-field of a request's record. -/
def aOf : Instr → Option RegIndex
  | .lbe a _ | .lbu a _ | .lbj a _ | .ldj a _ | .lij a _ => some a
  | .call _ | .goto _ | .lae _ | .rtn | .ur _ | .int _ => none

/-- The operand of a request's record. -/
def operandOf : Instr → Operand
  | .call v | .goto v | .lbe _ v | .lbu _ v => .va v
  | .lae vs => .vas vs
  | .lbj _ d | .ldj _ d | .lij _ d => .offset d
  | .rtn | .int _ => .absent
  | .ur u => .frame u

/-- The class of a request's record. -/
def clsOf : Instr → Option Nat
  | .int c => some c
  | .call _ | .goto _ | .lae _ | .lbe _ _ | .lbu _ _ | .lbj _ _ | .ldj _ _ | .lij _ _ | .rtn | .ur _ => none

theorem startRequest_eq (i : Instr) (s : State) :
    startRequest i s = startInvocation i.kind (aOf i) (operandOf i) (clsOf i) s := by cases i <;> rfl

theorem exec_eq_run (i : Instr) (s : State) : exec i s = runEngine (startRequest i s) := by cases i <;> rfl

/-! ### What each step may rely on -/

/-- An LxJ has its reference and its form. -/
def Info.LxjSet (i : Info) : Prop := i.isLxj = true → (∃ x, i.xlink = some x) ∧ ∃ f, i.form = some f

/-- A transfer has the caller's snapshot. -/
def Info.PriorSet (i : Info) : Prop := i.isLoad = false → ∃ pr, i.prior = some pr

/-- An LAE has its counter, from 1 up. -/
def Info.LaeSet (i : Info) : Prop := i.op = some .lae → ∃ k : Fin 16, i.laeI = some k ∧ 1 ≤ k.val

/-- The source, the offset, for a return its frame and for an LxJ its form are known. -/
def Info.SourceSet (i : Info) : Prop :=
  (∃ v, i.src = some v) ∧ (∃ off, i.finalOffset = some off) ∧ (i.isReturnLike = true → ∃ f, i.popped = some f) ∧
    (i.isLxj = true → ∃ f, i.form = some f)

/-- A binding is known: Void, or a descriptor with its name. -/
def Info.TargetSet (i : Info) : Prop :=
  (i.voidTarget = true ∨ ∃ bd, i.target = some bd) ∧ ∃ n, i.targetName = some n

/-- The fields that a step relies on. -/
inductive Ready (i : Info) : Prop
  | start (h : i.step = .s1) (l : i.laeI = none)
  | caller (h : i.step = .s2) (load : i.isLoad = false) (lxj : i.LxjSet)
  | source (h : i.step = .s3) (lxj : i.LxjSet) (pr : i.PriorSet) (lae : i.LaeSet)
  | sourced (h : i.step = .s4 ∨ i.step = .s5 ∨ i.step = .s6) (pr : i.PriorSet) (lae : i.LaeSet) (src : i.SourceSet)
  | found (h : i.step = .s7) (pr : i.PriorSet) (lae : i.LaeSet) (src : i.SourceSet)
      (bd : ∃ bd, i.srcBD = some bd) (t : ∃ bd, i.target = some bd) (n : ∃ n, i.targetName = some n)
  | hop (h : i.step = .s8) (pr : i.PriorSet) (lae : i.LaeSet) (src : i.SourceSet) (bd : ∃ bd, i.srcBD = some bd)
  | gate (h : i.step = .s9) (pr : i.PriorSet) (lae : i.LaeSet) (src : i.SourceSet) (t : ∃ bd, i.target = some bd)
  | landing (h : i.step = .s10) (pr : i.PriorSet) (lae : i.LaeSet) (src : i.SourceSet) (t : i.TargetSet)
      (fwd : i.isForward = true → ∃ bd, i.target = some bd)
  | moving (h : i.step = .s11 ∨ i.step = .s12 ∨ i.step = .s13 ∨ i.step = .s14 ∨ i.step = .s15 ∨ i.step = .s16 ∨
      i.step = .s17) (load : i.isLoad = false) (pr : ∃ pr, i.prior = some pr) (src : i.SourceSet) (t : i.TargetSet)
      (m : ∃ m, i.targetMode = some m) (slot : ∃ k, i.slot = some k)
  | binding (h : i.step = .s18 ∨ i.step = .s19) (lae : i.LaeSet) (t : i.TargetSet) (slot : ∃ k, i.slot = some k)
      (tr : i.isLoad = false → (∃ pr, i.prior = some pr) ∧ ∃ m, i.targetMode = some m)
  | toggling (h : i.step = .s20) (load : i.isLoad = false) (t : i.TargetSet) (pr : ∃ pr, i.prior = some pr)
      (m : ∃ m, i.targetMode = some m)
  | last (h : i.step = .s21) (lae : i.LaeSet) (t : i.TargetSet)

/-- The record of the invocation of `i0` in progress. -/
structure Tracked (i0 : Instr) (i : Info) : Prop where
  op : i.op = some i0.kind
  a : i.a = aOf i0
  operand : i.operand = operandOf i0
  cls : i.cls = clsOf i0
  gate : i.gated = true → ∃ g, i.gate = some g
  ready : Ready i

theorem Tracked.running {i0 : Instr} {i : Info} (h : Tracked i0 i) : i.step ≠ .idle := by
  intro hi
  cases h.ready <;> simp_all

/-- The order of the steps. -/
def pos : StepNo → Nat
  | .idle => 0
  | .s1 => 1 | .s2 => 2 | .s3 => 3 | .s4 => 4 | .s5 => 5 | .s6 => 6 | .s7 => 7 | .s8 => 8 | .s9 => 9 | .s10 => 10
  | .s11 => 11 | .s12 => 12 | .s13 => 13 | .s14 => 14 | .s15 => 15 | .s16 => 16 | .s17 => 17 | .s18 => 18
  | .s19 => 19 | .s20 => 20 | .s21 => 21

/-- A bound on the steps that are left: the iterations of LAE, then the steps. -/
def rank (i : Info) : Nat :=
  22 * (15 - (match i.laeI with | some k => k.val | none => 0)) + (22 - pos i.step)

theorem pos_le (n : StepNo) : pos n ≤ 21 := by cases n <;> decide

/-- Going forward lowers the rank. -/
theorem rank_lt {i j : Info} (hl : j.laeI = i.laeI) (hp : pos i.step < pos j.step) : rank j < rank i := by
  have := pos_le j.step
  simp only [rank, hl]
  omega

/-- An answer of one engine step that keeps the invocation on track: it goes on with a rank below `r`, ends, is refused at
a library gate, or is stuck on storage. -/
def OnTrack (i0 : Instr) (r : Nat) : Out → Prop
  | .next t => (Tracked i0 t.info ∧ rank t.info < r) ∨ (t.info = Info.idle ∧ t.result ≠ none)
  | .fault f => f = .storageInaccessible
  | .refused r => r = .libraryGate

section
variable {i0 : Instr} {r : Nat}

theorem onTrack_need {α : Type} {o : Option α} {k : α → Out} (h : ∃ a, o = some a)
    (hk : ∀ a, o = some a → OnTrack i0 r (k a)) : OnTrack i0 r (need o k) := by
  obtain ⟨a, rfl⟩ := h
  exact hk a rfl

theorem onTrack_raise (f : EngineFault) (s : State) : OnTrack i0 r (raise f s) := by
  rw [raise_eq]; exact .inr ⟨rfl, by simp⟩

theorem onTrack_end (c : Completion) (s : State) : OnTrack i0 r (endInvocation c s) := .inr ⟨rfl, by simp [finished]⟩

theorem onTrack_access {α : Type} {x : Access α} {s : State} {k : α → Out}
    (h : ∀ a, x = .ok a → OnTrack i0 r (k a)) : OnTrack i0 r (onAccess x s k) := by
  cases x with
  | ok a => exact h a rfl
  | raise f => exact onTrack_raise f s
  | halt e => exact onTrack_end _ s
  | stuck => rfl

/-- A step that goes on, to a later step. -/
theorem onTrack_goto {m n : StepNo} {s u : State} (hs : s.info.step = m) (hl : u.info.laeI = s.info.laeI)
    (hp : pos m < pos n) (h : Tracked i0 { u.info with step := n }) : OnTrack i0 (rank s.info) (goto n u) :=
  .inl ⟨h, rank_lt hl (by rw [hs]; exact hp)⟩

end

/-! ### The classes exclude one another -/

theorem not_forward_of_load (i : Info) (h : i.isLoad = true) : i.isForward = false := by
  unfold Info.isLoad at h
  split at h
  · rename_i k hk
    cases k <;> simp [kindIsLoad, Info.isForward, Info.isLxjForm, Info.isLxj, kindIsLxj, hk] at h ⊢
  · simp at h

theorem not_forward_of_returnLike (i : Info) (h : i.isReturnLike = true) : i.isForward = false := by
  simp only [Info.isReturnLike, Info.isReturn, Info.isForward, Info.isLxjForm, Info.isLxj] at h ⊢
  cases ho : i.op with
  | none => simp [ho] at h
  | some k =>
    cases hf : i.form with
    | none => cases k <;> simp_all [kindIsLxj]
    | some f => cases k <;> cases f <;> simp_all [kindIsLxj]

/-! ### What a step may rely on, by its number -/

section
variable {i : Info}

theorem Ready.at1 (h : Ready i) (hs : i.step = .s1) : i.laeI = none := by cases h <;> simp_all
theorem Ready.at2 (h : Ready i) (hs : i.step = .s2) : i.isLoad = false ∧ i.LxjSet := by
  cases h <;> simp_all
theorem Ready.at3 (h : Ready i) (hs : i.step = .s3) : i.LxjSet ∧ i.PriorSet ∧ i.LaeSet := by cases h <;> simp_all
theorem Ready.at456 (h : Ready i) (hs : i.step = .s4 ∨ i.step = .s5 ∨ i.step = .s6) :
    i.PriorSet ∧ i.LaeSet ∧ i.SourceSet := by
  rcases hs with hs | hs | hs <;> cases h <;> simp_all
theorem Ready.at7 (h : Ready i) (hs : i.step = .s7) : i.PriorSet ∧ i.LaeSet ∧ i.SourceSet ∧
    (∃ bd, i.srcBD = some bd) ∧ (∃ bd, i.target = some bd) ∧ ∃ n, i.targetName = some n := by
  cases h <;> simp_all
theorem Ready.at8 (h : Ready i) (hs : i.step = .s8) : i.PriorSet ∧ i.LaeSet ∧ i.SourceSet ∧
    ∃ bd, i.srcBD = some bd := by
  cases h <;> simp_all
theorem Ready.at9 (h : Ready i) (hs : i.step = .s9) : i.PriorSet ∧ i.LaeSet ∧ i.SourceSet ∧
    ∃ bd, i.target = some bd := by
  cases h <;> simp_all
theorem Ready.at10 (h : Ready i) (hs : i.step = .s10) : i.PriorSet ∧ i.LaeSet ∧ i.SourceSet ∧ i.TargetSet ∧
    (i.isForward = true → ∃ bd, i.target = some bd) := by
  cases h <;> simp_all
theorem Ready.atMoving (h : Ready i) (hs : i.step = .s11 ∨ i.step = .s12 ∨ i.step = .s13 ∨ i.step = .s14 ∨
    i.step = .s15 ∨ i.step = .s16 ∨ i.step = .s17) :
    i.isLoad = false ∧ (∃ pr, i.prior = some pr) ∧ i.SourceSet ∧ i.TargetSet ∧ (∃ m, i.targetMode = some m) ∧
      ∃ k, i.slot = some k := by
  rcases hs with hs | hs | hs | hs | hs | hs | hs <;> cases h <;> simp_all
theorem Ready.atBinding (h : Ready i) (hs : i.step = .s18 ∨ i.step = .s19) : i.LaeSet ∧ i.TargetSet ∧
    (∃ k, i.slot = some k) ∧ (i.isLoad = false → (∃ pr, i.prior = some pr) ∧ ∃ m, i.targetMode = some m) := by
  rcases hs with hs | hs <;> cases h <;> simp_all
theorem Ready.at20 (h : Ready i) (hs : i.step = .s20) : i.isLoad = false ∧ i.TargetSet ∧ (∃ pr, i.prior = some pr) ∧
    ∃ m, i.targetMode = some m := by
  cases h <;> simp_all
theorem Ready.at21 (h : Ready i) (hs : i.step = .s21) : i.LaeSet ∧ i.TargetSet := by cases h <;> simp_all

end

/-! ### Each step -/

section
variable {i0 : Instr} {s : State}

/-- Step 1 of an LxJ. -/
theorem step1Lxj_tracks (h : Tracked i0 s.info) (hs : s.info.step = .s1) (hx : kindIsLxj i0.kind = true) (a : RegIndex) :
    OnTrack i0 (rank s.info) (step1Lxj s a) := by
  obtain ⟨ho, ha, hd, hc, hg, hr⟩ := h
  simp only [step1Lxj]
  split
  · exact onTrack_raise ..
  · refine onTrack_goto hs rfl (by decide) ⟨ho, ha, hd, hc, hg, .caller rfl ?_ fun _ => ⟨⟨_, rfl⟩, _, rfl⟩⟩
    simp only [Info.isLoad, setInfo_info, ho]
    cases i0 <;> first | rfl | simp [Instr.kind, kindIsLxj] at hx

theorem step1_tracks (h : Tracked i0 s.info) (hs : s.info.step = .s1) : OnTrack i0 (rank s.info) (step1 s) := by
  have hT := h
  obtain ⟨ho, ha, hd, hc, hg, hr⟩ := h
  have load : ∀ u : State, u.info = s.info → kindIsLxj i0.kind = false → i0.kind ≠ .lae → kindIsLoad i0.kind = true →
      OnTrack i0 (rank s.info) (goto .s3 u) := fun u hu hx hl hk =>
    onTrack_goto hs (by rw [hu]) (by decide) (by
      rw [hu]
      refine ⟨ho, ha, hd, hc, hg, .source rfl (fun h => ?_) (fun h => ?_) fun h => ?_⟩
      · simp [Info.isLxj, ho, hx] at h
      · simp [Info.isLoad, ho, hk] at h
      · exact absurd (Option.some.inj (ho.symm.trans h)) hl)
  have transfer : kindIsLxj i0.kind = false → kindIsLoad i0.kind = false → OnTrack i0 (rank s.info) (goto .s2 s) :=
    fun hx hk => onTrack_goto hs rfl (by decide) (by
      refine ⟨ho, ha, hd, hc, hg, .caller rfl ?_ fun h => ?_⟩
      · simp [Info.isLoad, ho, hk]
      · simp [Info.isLxj, ho, hx] at h)
  have lae : i0.kind = .lae → OnTrack i0 (rank s.info) (goto .s3 (s.setInfo { s.info with laeI := some 1 })) := by
    intro hk
    refine .inl ⟨⟨ho, ha, hd, hc, hg, .source rfl (fun h => ?_) (fun h => ?_) fun _ => ⟨1, rfl, by decide⟩⟩, ?_⟩
    · simp [Info.isLxj, ho, hk, kindIsLxj] at h
    · simp [Info.isLoad, ho, hk, kindIsLoad] at h
    · simp [rank, pos, hs, hr.at1 hs]
  refine onTrack_need ⟨_, ho⟩ fun op hop => ?_
  obtain rfl : i0.kind = op := Option.some.inj (ho.symm.trans hop)
  cases i0 with
  | lbu a v =>
    refine onTrack_need ⟨_, ha⟩ fun a' _ => ?_
    split
    · exact onTrack_raise ..
    · exact load s rfl rfl (by simp [Instr.kind]) rfl
  | lbj a d => exact onTrack_need ⟨_, ha⟩ fun a' _ => step1Lxj_tracks hT hs rfl a'
  | ldj a d => exact onTrack_need ⟨_, ha⟩ fun a' _ => step1Lxj_tracks hT hs rfl a'
  | lij a d => exact onTrack_need ⟨_, ha⟩ fun a' _ => step1Lxj_tracks hT hs rfl a'
  | lae vs => exact lae rfl
  | lbe a v => exact load s rfl rfl (by simp [Instr.kind]) rfl
  | call v => exact transfer rfl rfl
  | goto v => exact transfer rfl rfl
  | rtn => exact transfer rfl rfl
  | ur u => exact transfer rfl rfl
  | int c => exact transfer rfl rfl

theorem step2_tracks (h : Tracked i0 s.info) (hs : s.info.step = .s2) : OnTrack i0 (rank s.info) (step2 s) := by
  obtain ⟨ho, ha, hd, hc, hg, hr⟩ := h
  obtain ⟨hl, hx⟩ := hr.at2 hs
  have go : ∀ pr, OnTrack i0 (rank s.info) (goto .s3 (s.setInfo { s.info with prior := some pr })) := fun pr =>
    onTrack_goto hs rfl (by decide) ⟨ho, ha, hd, hc, hg, .source rfl hx (fun _ => ⟨_, rfl⟩) fun h => by
      simp [Info.isLoad, show s.info.op = _ from h, kindIsLoad] at hl⟩
  refine onTrack_need ⟨_, ho⟩ fun op hop => ?_
  split
  · rename_i hk
    exact onTrack_need (hx (by simp [Info.isLxj, hop, hk])).1 fun x _ => go _
  · exact go _

/-- Step 3 once the source is known. -/
theorem withSource_tracks (h : Tracked i0 s.info) (hs : s.info.step = .s3) (hr : s.info.isReturnLike = false) (v : VA) :
    OnTrack i0 (rank s.info) (goto .s4 (withSource s v)) := by
  obtain ⟨ho, ha, hd, hc, hg, hr'⟩ := h
  obtain ⟨hx, pr, lae⟩ := hr'.at3 hs
  refine onTrack_goto hs rfl (by decide)
    ⟨ho, ha, hd, hc, hg, .sourced (.inl rfl) pr lae ⟨⟨_, rfl⟩, ⟨_, rfl⟩, fun h => ?_, fun h => (hx h).2⟩⟩
  simp [show s.info.isReturnLike = true from h] at hr

/-- Step 3 of a return whose frame is at hand. -/
theorem step3Frame_tracks (h : Tracked i0 s.info) (hs : s.info.step = .s3) (u : State) (hu : u.info = s.info) (f : Frame) :
    OnTrack i0 (rank s.info) (step3Frame u f) := by
  obtain ⟨ho, ha, hd, hc, hg, hr⟩ := h
  obtain ⟨hx, pr, lae⟩ := hr.at3 hs
  refine onTrack_goto hs (by simp [withSource, hu]) (by decide) ?_
  simp only [withSource, setInfo_info, hu]
  exact ⟨ho, ha, hd, hc, hg, .sourced (.inl rfl) pr lae ⟨⟨_, rfl⟩, ⟨_, rfl⟩, fun _ => ⟨_, rfl⟩, fun h => (hx h).2⟩⟩

theorem step3Pop_tracks (h : Tracked i0 s.info) (hs : s.info.step = .s3) :
    OnTrack i0 (rank s.info) (onAccess (rcsPop s) s fun r => step3Frame r.2 r.1) := by
  refine onTrack_access fun r hr => ?_
  obtain ⟨_, _, _, _, _, _, _, e⟩ := rcsPop_ok s r.2 r.1 hr
  exact step3Frame_tracks h hs r.2 (by rw [e]; rfl) r.1

theorem step3Lxj_tracks (h : Tracked i0 s.info) (hs : s.info.step = .s3) (hx : s.info.isLxj = true) (d : BitVec 18)
    (hop : s.info.operand = .offset d) (hn : ∀ f, s.info.form = some f → f ≠ .ret → s.info.isReturnLike = false) :
    OnTrack i0 (rank s.info) (step3Lxj s) := by
  obtain ⟨hl, _, _⟩ := h.ready.at3 hs
  refine onTrack_need (hl hx).2 fun f hf => ?_
  split
  · exact step3Pop_tracks h hs
  · rename_i hne
    refine onTrack_need (hl hx).1 fun x _ => ?_
    rw [hop]
    exact withSource_tracks h hs (hn f hf hne) _

theorem step3_tracks (h : Tracked i0 s.info) (hs : s.info.step = .s3) (W : Nat) (hw : i0.wf W = true) :
    OnTrack i0 (rank s.info) (step3 s) := by
  have ho := h.op
  have hd := h.operand
  have plain : ∀ v, s.info.isReturnLike = false → OnTrack i0 (rank s.info) (goto .s4 (withSource s v)) :=
    fun v hr => withSource_tracks h hs hr v
  refine onTrack_need ⟨_, ho⟩ fun op hop => ?_
  obtain rfl : i0.kind = op := Option.some.inj (ho.symm.trans hop)
  have nr : i0.kind ≠ .rtn → i0.kind ≠ .ur → kindIsLxj i0.kind = false → s.info.isReturnLike = false := by
    intro h1 h2 h3
    simp [Info.isReturnLike, Info.isReturn, Info.isLxjForm, Info.isLxj, ho, h1, h2, h3]
  have lxj : ∀ d, s.info.operand = .offset d → kindIsLxj i0.kind = true → OnTrack i0 (rank s.info) (step3Lxj s) := by
    intro d hop hk
    refine step3Lxj_tracks h hs (by simp [Info.isLxj, ho, hk]) d hop fun f hf hne => ?_
    have h1 : i0.kind ≠ .rtn := by intro e; simp [e, kindIsLxj] at hk
    have h2 : i0.kind ≠ .ur := by intro e; simp [e, kindIsLxj] at hk
    simp [Info.isReturnLike, Info.isReturn, Info.isLxjForm, ho, h1, h2, hf, hne]
  cases i0 with
  | call v => simp only [Instr.kind]; rw [hd]; exact plain v (nr (by simp [Instr.kind]) (by simp [Instr.kind]) rfl)
  | goto v => simp only [Instr.kind]; rw [hd]; exact plain v (nr (by simp [Instr.kind]) (by simp [Instr.kind]) rfl)
  | lbe a v => simp only [Instr.kind]; rw [hd]; exact plain v (nr (by simp [Instr.kind]) (by simp [Instr.kind]) rfl)
  | lbu a v => simp only [Instr.kind]; rw [hd]; exact plain v (nr (by simp [Instr.kind]) (by simp [Instr.kind]) rfl)
  | lae vs =>
    simp only [Instr.kind]
    rw [hd]
    obtain ⟨k, hk, hk1⟩ := (h.ready.at3 hs).2.2 ho
    refine onTrack_need ⟨k, hk⟩ fun k' hk' => ?_
    obtain rfl : k = k' := Option.some.inj (hk.symm.trans hk')
    refine onTrack_need ?_ fun v _ => plain v (nr (by simp [Instr.kind]) (by simp [Instr.kind]) rfl)
    simp only [Instr.wf, beq_iff_eq] at hw
    exact ⟨vs[k.val - 1]'(by omega), by simp [laeOperand]⟩
  | lbj a d => exact lxj d hd rfl
  | ldj a d => exact lxj d hd rfl
  | lij a d => exact lxj d hd rfl
  | rtn => exact step3Pop_tracks h hs
  | ur u => simp only [Instr.kind]; rw [hd]; exact step3Frame_tracks h hs s rfl u
  | int c =>
    exact onTrack_need ⟨_, h.cls⟩ fun c' _ => onTrack_access fun v _ =>
      plain v (nr (by simp [Instr.kind]) (by simp [Instr.kind]) rfl)

theorem step4_tracks (h : Tracked i0 s.info) (hs : s.info.step = .s4) : OnTrack i0 (rank s.info) (step4 s) := by
  obtain ⟨ho, ha, hd, hc, hg, hr⟩ := h
  obtain ⟨pr, lae, src⟩ := hr.at456 (.inl hs)
  refine onTrack_need src.1 fun v _ => ?_
  split
  · exact onTrack_raise ..
  · exact onTrack_goto hs rfl (by decide) ⟨ho, ha, hd, hc, hg, .sourced (.inr (.inl rfl)) pr lae src⟩

theorem step5_tracks (h : Tracked i0 s.info) (hs : s.info.step = .s5) : OnTrack i0 (rank s.info) (step5 s) := by
  obtain ⟨ho, ha, hd, hc, hg, hr⟩ := h
  obtain ⟨pr, lae, src⟩ := hr.at456 (.inr (.inl hs))
  have on6 : OnTrack i0 (rank s.info) (goto .s6 s) :=
    onTrack_goto hs rfl (by decide) ⟨ho, ha, hd, hc, hg, .sourced (.inr (.inr rfl)) pr lae src⟩
  have on10 : s.info.isForward = false → OnTrack i0 (rank s.info) (goto .s10 (withVoidTarget s)) := fun hf =>
    onTrack_goto hs rfl (by decide) ⟨ho, ha, hd, hc, hg, .landing rfl pr lae src ⟨.inl rfl, _, rfl⟩ fun hf' => by
      simp [show s.info.isForward = true from hf'] at hf⟩
  refine onTrack_need src.1 fun v _ => ?_
  split
  · split
    · exact onTrack_raise ..
    · split
      · rename_i hl
        exact on10 (not_forward_of_load _ hl)
      · split
        · rename_i hr
          refine onTrack_need (src.2.2.1 hr) fun f _ => ?_
          split
          · exact on10 (not_forward_of_returnLike _ hr)
          · exact onTrack_raise ..
        · split
          · exact onTrack_raise ..
          · exact on6
  · exact on6

theorem step6_tracks (h : Tracked i0 s.info) (hs : s.info.step = .s6) : OnTrack i0 (rank s.info) (step6 s) := by
  obtain ⟨ho, ha, hd, hc, hg, hr⟩ := h
  obtain ⟨pr, lae, src⟩ := hr.at456 (.inr (.inr hs))
  refine onTrack_need src.1 fun v _ => onTrack_access fun o _ => ?_
  cases o with
  | none => exact onTrack_raise ..
  | some bd =>
    exact onTrack_goto hs rfl (by decide)
      ⟨ho, ha, hd, hc, hg, .found rfl pr lae src ⟨_, rfl⟩ ⟨_, rfl⟩ ⟨_, rfl⟩⟩

/-- How steps 7 and 8 end for a bank that may be bound or entered: `u` holds the record with the target. -/
theorem enterThenBind_tracks {m : StepNo} {u : State} {bd : BankDescriptor} (hs : s.info.step = m) (hp : pos m < 9)
    (hl : u.info.laeI = s.info.laeI) (ho : u.info.op = some i0.kind) (ha : u.info.a = aOf i0)
    (hd : u.info.operand = operandOf i0) (hc : u.info.cls = clsOf i0)
    (hg : u.info.gated = true → ∃ g, u.info.gate = some g) (pr : u.info.PriorSet) (lae : u.info.LaeSet)
    (src : u.info.SourceSet) (t : ∃ bd, u.info.target = some bd) (n : ∃ n, u.info.targetName = some n) :
    OnTrack i0 (rank s.info) (enterThenBind u bd) ∧
      OnTrack i0 (rank s.info) (enterThenBind (withSubstitution u bd) bd) ∧
      OnTrack i0 (rank s.info) (goto .s10 u) ∧ OnTrack i0 (rank s.info) (goto .s9 u) := by
  have on10 : OnTrack i0 (rank s.info) (goto .s10 u) := onTrack_goto hs hl (Nat.lt_trans hp (by decide))
    ⟨ho, ha, hd, hc, hg, .landing rfl pr lae src ⟨.inr t, n⟩ fun _ => t⟩
  have on10' : OnTrack i0 (rank s.info) (goto .s10 (u.setInfo { u.info with voidTarget := true })) :=
    onTrack_goto hs hl (Nat.lt_trans hp (by decide))
      ⟨ho, ha, hd, hc, hg, .landing rfl pr lae src ⟨.inl rfl, n⟩ fun _ => t⟩
  refine ⟨?_, ?_, on10, onTrack_goto hs hl hp ⟨ho, ha, hd, hc, hg, .gate rfl pr lae src t⟩⟩
  · unfold enterThenBind
    split
    · exact onTrack_raise ..
    · exact on10
  · unfold withSubstitution enterThenBind
    split <;> split
    · exact onTrack_raise ..
    · exact on10'
    · exact onTrack_raise ..
    · exact on10

theorem step7_tracks (h : Tracked i0 s.info) (hs : s.info.step = .s7) : OnTrack i0 (rank s.info) (step7 s) := by
  obtain ⟨ho, ha, hd, hc, hg, hr⟩ := h
  obtain ⟨pr, lae, src, sb, t, n⟩ := hr.at7 hs
  refine onTrack_need sb fun bd hbd => ?_
  obtain ⟨h1, h2, h3, h4⟩ := enterThenBind_tracks (bd := bd) hs (by decide) rfl ho ha hd hc hg pr lae src t n
  split
  · exact h1
  · split
    · exact onTrack_raise ..
    · split
      · rename_i hr
        refine onTrack_need (src.2.2.1 hr) fun f _ => ?_
        split
        · exact h3
        · exact onTrack_raise ..
      · exact h2
  · split
    · exact onTrack_raise ..
    · split
      · exact h4
      · split
        · exact onTrack_raise ..
        · exact h3
  · split
    · exact onTrack_raise ..
    · split
      · exact onTrack_goto hs rfl (by decide) ⟨ho, ha, hd, hc, hg, .hop rfl pr lae src sb⟩
      · exact onTrack_raise ..
  · exact onTrack_raise ..
  · split
    · exact h3
    · exact onTrack_raise ..

theorem step8_tracks (h : Tracked i0 s.info) (hs : s.info.step = .s8) : OnTrack i0 (rank s.info) (step8 s) := by
  obtain ⟨ho, ha, hd, hc, hg, hr⟩ := h
  obtain ⟨pr, lae, src, sb⟩ := hr.at8 hs
  refine onTrack_need sb fun ib _ => ?_
  split
  · exact onTrack_raise ..
  · split
    · exact onTrack_raise ..
    · refine onTrack_access fun o _ => ?_
      cases o with
      | none => exact onTrack_raise ..
      | some t =>
        obtain ⟨h1, h2, h3, h4⟩ := enterThenBind_tracks (i0 := i0)
          (u := s.setInfo { s.info with target := some t, targetName := some ib.target }) (bd := t) hs (by decide) rfl
          ho ha hd hc hg pr lae src ⟨_, rfl⟩ ⟨_, rfl⟩
        show OnTrack i0 (rank s.info) (step8Dispatch _ t)
        unfold step8Dispatch
        split
        · exact h1
        · exact h2
        · split
          · exact h4
          · exact h3
        · exact onTrack_raise ..
        · exact onTrack_raise ..
        · split
          · exact h3
          · exact onTrack_raise ..

theorem step9_tracks (h : Tracked i0 s.info) (hs : s.info.step = .s9) : OnTrack i0 (rank s.info) (step9 s) := by
  obtain ⟨ho, ha, hd, hc, hg, hr⟩ := h
  obtain ⟨pr, lae, src, t⟩ := hr.at9 hs
  refine onTrack_need t fun gb _ => onTrack_need src.1 fun v _ => ?_
  split
  · exact onTrack_raise ..
  · split
    · exact onTrack_raise ..
    · split
      · exact onTrack_raise ..
      · refine onTrack_access fun g _ => ?_
        unfold step9Record
        split
        · rfl
        · split
          · exact onTrack_raise ..
          · split
            · exact onTrack_raise ..
            · have hi : (gateTransfers s g).info = s.info := gateTransfers_info s g
              unfold step9Target
              split
              · exact onTrack_raise ..
              · refine onTrack_access fun o _ => ?_
                cases o with
                | none => exact onTrack_raise ..
                | some b =>
                  show OnTrack i0 (rank s.info) (if _ then _ else _)
                  split
                  · refine onTrack_goto hs (by simp [hi]) (by decide) ?_
                    simp only [setInfo_info, hi]
                    exact ⟨ho, ha, hd, hc, fun _ => ⟨_, rfl⟩,
                      .landing rfl pr lae ⟨src.1, ⟨_, rfl⟩, src.2.2⟩ ⟨.inr ⟨_, rfl⟩, _, rfl⟩ fun _ => ⟨_, rfl⟩⟩
                  · exact onTrack_raise ..

theorem landIn_tracks (h : Tracked i0 s.info) (hs : s.info.step = .s10) (hl : s.info.isLoad = false) (m : Mode)
    (slot : Slot) : OnTrack i0 (rank s.info) (landIn s m slot) := by
  obtain ⟨ho, ha, hd, hc, hg, hr⟩ := h
  obtain ⟨pr, lae, src, t, fwd⟩ := hr.at10 hs
  exact onTrack_goto hs rfl (by decide)
    ⟨ho, ha, hd, hc, hg, .moving (.inl rfl) hl (pr hl) src t ⟨_, rfl⟩ ⟨_, rfl⟩⟩

theorem loadInto_tracks (h : Tracked i0 s.info) (hs : s.info.step = .s10) (hl : s.info.isLoad = true) (slot : Slot) :
    OnTrack i0 (rank s.info) (loadInto s slot) := by
  obtain ⟨ho, ha, hd, hc, hg, hr⟩ := h
  obtain ⟨pr, lae, src, t, fwd⟩ := hr.at10 hs
  exact onTrack_goto hs rfl (by decide) ⟨ho, ha, hd, hc, hg, .binding (.inl rfl) lae t ⟨_, rfl⟩ fun hl' =>
    absurd (hl.symm.trans hl') (by decide)⟩

theorem step10Return_tracks (h : Tracked i0 s.info) (hs : s.info.step = .s10) (hl : s.info.isLoad = false)
    (hr : s.info.isReturnLike = true) (slot : Slot) : OnTrack i0 (rank s.info) (step10Return s slot) := by
  refine onTrack_need ((h.ready.at10 hs).2.2.1.2.2.1 hr) fun f _ => ?_
  split <;> exact landIn_tracks h hs hl _ _

/-- The slot of a CALL or GOTO is known once the gate is. -/
theorem callSlot_some (p : Params) (i : Info) (pr : Prior) (m : Mode) (hg : i.gated = true → ∃ g, i.gate = some g) :
    ∃ k, callSlot p i pr m = some k := by
  unfold callSlot
  split
  · exact ⟨_, rfl⟩
  · split
    · rename_i h
      obtain ⟨g, hg⟩ := hg h
      exact ⟨_, by rw [hg]; rfl⟩
    · split <;> exact ⟨_, rfl⟩

/-- Step 10 of CALL and GOTO. -/
theorem step10Call_tracks (h : Tracked i0 s.info) (hs : s.info.step = .s10) (hl : s.info.isLoad = false)
    (hf : s.info.isForward = true) :
    OnTrack i0 (rank s.info) (need s.info.target fun t => need s.info.prior fun pr =>
      need (callSlot s.params s.info pr (forwardMode t)) fun slot => landIn s (forwardMode t) slot) := by
  obtain ⟨hp, _, _, _, fwd⟩ := h.ready.at10 hs
  exact onTrack_need (fwd hf) fun t _ => onTrack_need (hp hl) fun pr _ =>
    onTrack_need (callSlot_some _ _ _ _ h.gate) fun slot _ => landIn_tracks h hs hl _ _

/-- Step 10 of LBJ, LDJ and LIJ. -/
theorem step10Lxj_tracks (h : Tracked i0 s.info) (hs : s.info.step = .s10) (hl : s.info.isLoad = false)
    (hx : s.info.isLxj = true) :
    OnTrack i0 (rank s.info) (if s.info.isReturn then step10Return s emCodeSlot
      else need s.info.target fun t => need s.info.prior fun pr =>
        landIn s (forwardMode t) (if forwardMode t = .em then emCodeSlot else pr.slot)) := by
  obtain ⟨hp, _, src, _, fwd⟩ := h.ready.at10 hs
  split
  · rename_i hr
    exact step10Return_tracks h hs hl (by simp [Info.isReturnLike, hr]) _
  · rename_i hr
    obtain ⟨f, hf⟩ := src.2.2.2 hx
    have hfw : s.info.isForward = true := by
      cases f <;> simp_all [Info.isForward, Info.isReturn, Info.isLxjForm]
    exact onTrack_need (fwd hfw) fun t _ => onTrack_need (hp hl) fun pr _ => landIn_tracks h hs hl _ _

theorem step10_tracks (h : Tracked i0 s.info) (hs : s.info.step = .s10) : OnTrack i0 (rank s.info) (step10 s) := by
  have ho := h.op
  have ha := h.a
  have load : kindIsLoad i0.kind = true → ∀ k, OnTrack i0 (rank s.info) (loadInto s k) := fun hk k =>
    loadInto_tracks h hs (by simp [Info.isLoad, ho, hk]) k
  have nl : kindIsLoad i0.kind = false → s.info.isLoad = false := fun hk => by simp [Info.isLoad, ho, hk]
  refine onTrack_need ⟨_, ho⟩ fun op hop => ?_
  obtain rfl : i0.kind = op := Option.some.inj (ho.symm.trans hop)
  cases i0 with
  | lae vs =>
    obtain ⟨k, hk, _⟩ := (h.ready.at10 hs).2.1 ho
    exact onTrack_need ⟨k, hk⟩ fun k' _ => load rfl _
  | lbe a v => exact onTrack_need ⟨_, ha⟩ fun a' _ => load rfl _
  | lbu a v => exact onTrack_need ⟨_, ha⟩ fun a' _ => load rfl _
  | int c => exact landIn_tracks h hs (nl rfl) _ _
  | ur u => exact step10Return_tracks h hs (nl rfl) (by simp [Info.isReturnLike, ho, Instr.kind]) _
  | rtn => exact step10Return_tracks h hs (nl rfl) (by simp [Info.isReturnLike, Info.isReturn, ho, Instr.kind]) _
  | lbj a d => exact step10Lxj_tracks h hs (nl rfl) (by simp [Info.isLxj, ho, Instr.kind, kindIsLxj])
  | ldj a d => exact step10Lxj_tracks h hs (nl rfl) (by simp [Info.isLxj, ho, Instr.kind, kindIsLxj])
  | lij a d => exact step10Lxj_tracks h hs (nl rfl) (by simp [Info.isLxj, ho, Instr.kind, kindIsLxj])
  | call v => exact step10Call_tracks h hs (nl rfl) (by simp [Info.isForward, ho, Instr.kind])
  | goto v => exact step10Call_tracks h hs (nl rfl) (by simp [Info.isForward, ho, Instr.kind])

/-- A step of 11 to 16 goes on to a later one of 12 to 17 with the same record. -/
theorem moves {m n : StepNo} {u : State} (h : Tracked i0 s.info) (hs : s.info.step = m) (hp : pos m < pos n)
    (hm : m = .s11 ∨ m = .s12 ∨ m = .s13 ∨ m = .s14 ∨ m = .s15 ∨ m = .s16 ∨ m = .s17)
    (hn : n = .s11 ∨ n = .s12 ∨ n = .s13 ∨ n = .s14 ∨ n = .s15 ∨ n = .s16 ∨ n = .s17) (hu : u.info = s.info) :
    OnTrack i0 (rank s.info) (goto n u) := by
  obtain ⟨ho, ha, hd, hc, hg, hr⟩ := h
  obtain ⟨hl, pr, src, t, md, slot⟩ := hr.atMoving (hs ▸ hm)
  refine onTrack_goto hs (by rw [hu]) hp ?_
  rw [hu]
  exact ⟨ho, ha, hd, hc, hg, .moving hn hl pr src t md slot⟩

theorem step11_tracks (h : Tracked i0 s.info) (hs : s.info.step = .s11) : OnTrack i0 (rank s.info) (step11 s) := by
  obtain ⟨hl, pr, src, t, md, slot⟩ := h.ready.atMoving (by simp [hs])
  refine onTrack_need pr fun p _ => onTrack_need md fun m _ => moves h hs (by decide) (by simp) (by simp) ?_
  unfold voidPrior
  split <;> first | rfl | exact recordAbt_info _ _ _

theorem step12_tracks (h : Tracked i0 s.info) (hs : s.info.step = .s12) : OnTrack i0 (rank s.info) (step12 s) := by
  obtain ⟨hl, pr, src, t, md, slot⟩ := h.ready.atMoving (by simp [hs])
  unfold step12
  split
  · refine onTrack_need pr fun p _ => onTrack_access fun u hu => moves h hs (by decide) (by simp) (by simp) ?_
    obtain ⟨_, _, _, _, _, _, _, e⟩ := rcsPush_ok _ _ _ hu
    rw [e]
    rfl
  · exact moves h hs (by decide) (by simp) (by simp) rfl

theorem step13_tracks (h : Tracked i0 s.info) (hs : s.info.step = .s13) : OnTrack i0 (rank s.info) (step13 s) := by
  obtain ⟨hl, pr, src, t, md, slot⟩ := h.ready.atMoving (by simp [hs])
  unfold step13
  split
  · rename_i hf
    refine onTrack_need pr fun p _ => onTrack_need ?_ fun a _ => moves h hs (by decide) (by simp) (by simp) (by simp)
    have hx : s.info.isLxj = true := by simp [Info.isLxjForm] at hf; rcases hf with hf | hf <;> exact hf.1
    rw [h.a]
    simp only [Info.isLxj, h.op] at hx
    cases i0 <;> first | exact ⟨_, rfl⟩ | simp [Instr.kind, kindIsLxj] at hx
  · exact moves h hs (by decide) (by simp) (by simp) rfl

theorem step14_tracks (h : Tracked i0 s.info) (hs : s.info.step = .s14) : OnTrack i0 (rank s.info) (step14 s) := by
  obtain ⟨hl, pr, src, t, md, slot⟩ := h.ready.atMoving (by simp [hs])
  refine onTrack_need pr fun p _ => onTrack_need md fun m _ => ?_
  split <;> exact moves h hs (by decide) (by simp) (by simp) (by simp)

theorem step15_tracks (h : Tracked i0 s.info) (hs : s.info.step = .s15) : OnTrack i0 (rank s.info) (step15 s) := by
  unfold step15
  split
  · rename_i hg
    refine onTrack_need (h.gate hg) fun g _ => ?_
    split <;> exact moves h hs (by decide) (by simp) (by simp) rfl
  · exact moves h hs (by decide) (by simp) (by simp) rfl

theorem step16_tracks (h : Tracked i0 s.info) (hs : s.info.step = .s16) : OnTrack i0 (rank s.info) (step16 s) := by
  obtain ⟨hl, pr, src, t, md, slot⟩ := h.ready.atMoving (by simp [hs])
  have go : ∀ db key, OnTrack i0 (rank s.info) (goto .s17 (restoreDesignators s db key)) := fun db key =>
    moves h hs (by decide) (by simp) (by simp) (by simp [restoreDesignators])
  unfold step16
  split
  · rename_i hr
    exact onTrack_need (src.2.2.1 hr) fun f _ => go _ _
  · split
    · exact go _ _
    · refine onTrack_need pr fun p _ => onTrack_need md fun m _ => ?_
      split <;> exact moves h hs (by decide) (by simp) (by simp) (by simp)

theorem step17_tracks (h : Tracked i0 s.info) (hs : s.info.step = .s17) : OnTrack i0 (rank s.info) (step17 s) := by
  obtain ⟨ho, ha, hd, hc, hg, hr⟩ := h
  obtain ⟨hl, pr, src, t, md, slot⟩ := hr.atMoving (by simp [hs])
  refine onTrack_need src.2.1 fun off _ => onTrack_goto hs (by simp) (by decide) ?_
  simp only [setPc_info]
  refine ⟨ho, ha, hd, hc, hg, .binding (.inl rfl) (fun h => ?_) t slot fun _ => ⟨pr, md⟩⟩
  simp [Info.isLoad, show s.info.op = _ from h, kindIsLoad] at hl

theorem step18_tracks (h : Tracked i0 s.info) (hs : s.info.step = .s18) : OnTrack i0 (rank s.info) (step18 s) := by
  obtain ⟨ho, ha, hd, hc, hg, hr⟩ := h
  obtain ⟨lae, t, slot, tr⟩ := hr.atBinding (by simp [hs])
  refine onTrack_need slot fun k _ => onTrack_need t.2 fun n _ => ?_
  refine onTrack_goto hs (by rw [recordBinding_info]) (by decide) ?_
  rw [recordBinding_info]
  exact ⟨ho, ha, hd, hc, hg, .binding (.inr rfl) lae t slot tr⟩

theorem step19_tracks (h : Tracked i0 s.info) (hs : s.info.step = .s19) : OnTrack i0 (rank s.info) (step19 s) := by
  obtain ⟨ho, ha, hd, hc, hg, hr⟩ := h
  obtain ⟨lae, t, slot, tr⟩ := hr.atBinding (by simp [hs])
  have go : ∀ k r, OnTrack i0 (rank s.info) (goto (afterBind s.info) (s.setBreg k r)) := by
    intro k r
    unfold afterBind
    split
    · rename_i ht
      have hl : s.info.isLoad = false := by simpa [Info.isTransfer] using ht
      refine onTrack_goto hs (by simp) (by decide) ?_
      simp only [setBreg_info]
      exact ⟨ho, ha, hd, hc, hg, .toggling rfl hl t (tr hl).1 (tr hl).2⟩
    · refine onTrack_goto hs (by simp) (by decide) ?_
      simp only [setBreg_info]
      exact ⟨ho, ha, hd, hc, hg, .last rfl lae t⟩
  refine onTrack_need slot fun k _ => ?_
  split
  · exact go _ _
  · rename_i hv
    refine onTrack_need ?_ fun bd _ => go _ _
    rcases t.1 with hv' | ht
    · exact absurd hv' hv
    · exact ht

theorem step20_tracks (h : Tracked i0 s.info) (hs : s.info.step = .s20) : OnTrack i0 (rank s.info) (step20 s) := by
  obtain ⟨ho, ha, hd, hc, hg, hr⟩ := h
  obtain ⟨hl, t, pr, md⟩ := hr.at20 hs
  have go : ∀ u : State, u.info = s.info → OnTrack i0 (rank s.info) (goto .s21 u) := by
    intro u hu
    refine onTrack_goto hs (by rw [hu]) (by decide) ?_
    rw [hu]
    refine ⟨ho, ha, hd, hc, hg, .last rfl (fun h => ?_) t⟩
    simp [Info.isLoad, show s.info.op = _ from h, kindIsLoad] at hl
  refine onTrack_need ⟨_, ho⟩ fun op _ => onTrack_need pr fun p _ => onTrack_need md fun m _ => ?_
  split
  · exact go _ (by simp)
  · exact go s rfl

theorem step21_tracks (h : Tracked i0 s.info) (hs : s.info.step = .s21) : OnTrack i0 (rank s.info) (step21 s) := by
  obtain ⟨ho, ha, hd, hc, hg, hr⟩ := h
  obtain ⟨lae, t⟩ := hr.at21 hs
  refine onTrack_need ⟨_, ho⟩ fun op hop => onTrack_need t.2 fun n _ => ?_
  split
  · exact onTrack_raise ..
  · split
    · rename_i he
      subst he
      obtain ⟨k, hk, h1⟩ := lae hop
      refine onTrack_need ⟨k, hk⟩ fun k' hk' => ?_
      obtain rfl : k = k' := Option.some.inj (hk.symm.trans hk')
      split
      · rename_i hlt
        have hv : (k + 1).val = k.val + 1 := by
          rw [Fin.val_add]; exact Nat.mod_eq_of_lt (by simpa using by omega)
        refine .inl ⟨⟨ho, ha, hd, hc, hg, .source rfl (fun h => ?_) (fun h => ?_) fun _ => ⟨_, rfl, by omega⟩⟩, ?_⟩
        · simp [Info.isLxj, show s.info.op = _ from hop, kindIsLxj] at h
        · simp [Info.isLoad, show s.info.op = _ from hop, kindIsLoad] at h
        · simp only [rank, setInfo_info, hk, hs, pos, hv]
          omega
      · exact onTrack_end _ _
    · exact onTrack_end _ _

/-! ### The whole invocation -/

/-- R24: an engine step of an invocation in progress goes on, ends it, is refused at a library gate, or is stuck on
storage; it reads no unset field. -/
theorem step_tracks (W : Nat) (hw : i0.wf W = true) (h : Tracked i0 s.info) :
    OnTrack i0 (rank s.info) (engineStep s) := by
  unfold engineStep
  cases hs : s.info.step with
  | idle => exact absurd hs h.running
  | s1 => exact step1_tracks h hs
  | s2 => exact step2_tracks h hs
  | s3 => exact step3_tracks h hs W hw
  | s4 => exact step4_tracks h hs
  | s5 => exact step5_tracks h hs
  | s6 => exact step6_tracks h hs
  | s7 => exact step7_tracks h hs
  | s8 => exact step8_tracks h hs
  | s9 => exact step9_tracks h hs
  | s10 => exact step10_tracks h hs
  | s11 => exact step11_tracks h hs
  | s12 => exact step12_tracks h hs
  | s13 => exact step13_tracks h hs
  | s14 => exact step14_tracks h hs
  | s15 => exact step15_tracks h hs
  | s16 => exact step16_tracks h hs
  | s17 => exact step17_tracks h hs
  | s18 => exact step18_tracks h hs
  | s19 => exact step19_tracks h hs
  | s20 => exact step20_tracks h hs
  | s21 => exact step21_tracks h hs

end

/-- The record that a request starts with. -/
theorem startRequest_tracked (i0 : Instr) (s : State) : Tracked i0 (startRequest i0 s).info := by
  rw [startRequest_eq]
  exact ⟨rfl, rfl, rfl, rfl, fun h => by simp [startInvocation, Info.idle] at h, .start rfl rfl⟩

theorem rank_startRequest (i0 : Instr) (s : State) : rank (startRequest i0 s).info = 351 := by
  rw [startRequest_eq]; rfl

/-- How a run of an invocation in progress ends within more steps than its rank. -/
theorem engineSteps_track (i0 : Instr) (W : Nat) (hw : i0.wf W = true) (n : Nat) (s : State) (h : Tracked i0 s.info)
    (hr : rank s.info < n) :
    match engineSteps n s with
    | .next t => t.info = Info.idle ∧ t.result ≠ none
    | .fault f => f = .storageInaccessible
    | .refused r => r = .libraryGate := by
  induction n generalizing s with
  | zero => omega
  | succ n ih =>
    have hs := step_tracks W hw h
    simp only [engineSteps, h.running, if_false]
    cases he : engineStep s with
    | next t =>
      rw [he] at hs
      rcases hs with ⟨ht, hlt⟩ | ⟨hi, hne⟩
      · exact ih t ht (by omega)
      · simp only
        rw [engineSteps_idle _ _ (by rw [hi]; rfl)]
        exact ⟨hi, hne⟩
    | fault f => rw [he] at hs; exact hs
    | refused r => rw [he] at hs; exact hs

end Sys2Proof.Machine
end

