-- ==== Sys2Proof/Laws/Claims.lean ====
section
/-! SUPPORT. The claim vocabulary of Safety.lean against the steps: the caller's snapshot, the caller left behind, the
starts of the three shapes of invocation, the void bank at step 5, faults, and how a run that ends gives the engine's
answer. -/

namespace Sys2Proof.Machine

/-! ### The caller's snapshot -/

theorem lxjSel_none (s : State) (op : OpKind) (x : Word) (h : kindIsLxj op = false) :
    lxjSel s.params op x (db31 s.dr) = none := by
  cases op <;> simp_all [kindIsLxj, lxjSel]

theorem bmSelOf_bmSlot : ∀ k : BmSel, bmSelOf (bmSlot k) = some k := by decide

theorem mode_bm (s : State) (h : s.mode = .bm) : db16 s.dr = true := by
  change modeOf (db16 s.dr) = .bm at h
  cases hd : db16 s.dr
  · rw [hd] at h; cases h
  · rfl

/-- Who the caller is for a request that is no LxJ (R76). -/
theorem capture_plain (s : State) (op : OpKind) (h : kindIsLxj op = false) :
    (capturePrior s op 0).name = s.callerName ∧ (capturePrior s op 0).sel = s.callerSel ∧
      (capturePrior s op 0).slot = (if db16 s.dr then bmSlot s.codeSel else 0) := by
  simp only [capturePrior, callerOf, lxjSel_none s op 0 h, State.callerName, State.callerSel]
  cases db16 s.dr <;> exact ⟨rfl, rfl, rfl⟩

/-- Who the caller is for an LxJ (R76). -/
theorem capture_lxj (s : State) (op : OpKind) (x : Word) (k : BmSel) (h : lxjSel s.params op x (db31 s.dr) = some k)
    (hx : kindIsLxj op = true) :
    (capturePrior s op x).name = s.abtEntry k ∧ (capturePrior s op x).sel = k ∧
      (capturePrior s op x).slot = bmSlot k ∧ (capturePrior s op x).offset = s.par.pc + 1 := by
  have : op ≠ .int := by rintro rfl; simp [kindIsLxj] at hx
  simp only [capturePrior, callerOf, h, if_neg this]
  exact ⟨trivial, trivial, trivial, trivial⟩

/-- Step 11 leaves the caller as the claims say (R85). -/
theorem voidPrior_eq (u : State) (pr : Prior) (m : Mode) (k : BmSel) (h : pr.mode = .bm → pr.slot = bmSlot k) :
    voidPrior u pr m = leaveCaller u pr.mode m k := by
  unfold voidPrior leaveCaller
  cases hm : pr.mode <;> cases m
  · rfl
  · rfl
  · simp only [h hm, recordAbt, bmSelOf_bmSlot]; rfl
  · rfl

theorem voidPrior_plain (s u : State) (op : OpKind) (m : Mode) (h : kindIsLxj op = false) :
    voidPrior u (capturePrior s op 0) m = leaveCaller u s.mode m s.codeSel := by
  refine voidPrior_eq u _ m _ fun hb => ?_
  rw [(capture_plain s op h).2.2, mode_bm s hb]
  rfl

/-! ### What the shared changes leave alone -/

theorem leaveCaller_frame (u : State) (a b : Mode) (k : BmSel) :
    (leaveCaller u a b k).params = u.params ∧ (leaveCaller u a b k).dr = u.dr ∧ (leaveCaller u a b k).ikr = u.ikr ∧
      (leaveCaller u a b k).rcsp = u.rcsp ∧ (leaveCaller u a b k).memory = u.memory ∧
      (leaveCaller u a b k).par.pc = u.par.pc := by
  unfold leaveCaller; cases a <;> cases b <;> exact ⟨rfl, rfl, rfl, rfl, rfl, rfl⟩

theorem rcsPush_frame (s u : State) (f : Frame) (h : rcsPush s f = .ok u) :
    u.params = s.params ∧ u.dr = s.dr ∧ u.ikr = s.ikr ∧ u.par = s.par ∧ u.bregs = s.bregs ∧ u.abt = s.abt := by
  obtain ⟨_, _, _, _, _, _, _, e⟩ := rcsPush_ok _ _ _ h
  rw [e]; exact ⟨rfl, rfl, rfl, rfl, rfl, rfl⟩

theorem rcsPop_state (s u : State) (f : Frame) (h : rcsPop s = .ok (f, u)) : u = s.setRcsp (s.rcsp + 2) := by
  obtain ⟨_, _, _, _, _, _, _, e⟩ := rcsPop_ok _ _ _ h; exact e

theorem arrive_dr (u : State) (m : Mode) (slot : Slot) (n : BankName) (r : BaseRegister) :
    (arrive u m slot n r).dr = u.dr := by
  unfold arrive
  cases m
  · rfl
  · simp only [recordAbt]; cases bmSelOf slot <;> rfl

/-- The base registers above B15 have no ABT entry (R17, R92). -/
theorem recordAbt_high (s : State) (a : RegIndex) (n : BankName) : recordAbt s ⟨16 + a.val, by omega⟩ n = s := by
  have : bmSelOf ⟨16 + a.val, by omega⟩ = none := if_neg (by simp only [not_and, not_le]; omega)
  unfold recordAbt; rw [this]

theorem reaches_name (s : State) (n m : BankName) (bd : BankDescriptor) (h : Reaches s n m bd) :
    nameReservedOrVoid m = false := by
  rcases h with ⟨rfl, _, h⟩ | ⟨_, _, _, _, rfl, h⟩ <;> exact h.1

theorem returnBinds_setRcsp (s : State) (f : Frame) (r : BaseRegister) (p : BitVec 18) (h : ReturnBinds s f r) :
    ReturnBinds (s.setRcsp p) f r := by
  unfold ReturnBinds FindsBank at *
  simpa only [findBd_setRcsp] using h

/-! ### The classes of a record -/

theorem info_lxj (i : Info) (op : OpKind) (f : LxjForm) (ho : i.op = some op) (hx : kindIsLxj op = true)
    (hf : i.form = some f) :
    i.isLxj = true ∧ (∀ g, i.isLxjForm g = (f == g)) ∧ i.isInt = false ∧ i.isTransfer = true ∧
      (i.op == some .lbu) = false ∧ i.isReturn = (f == .ret) ∧ i.isReturnLike = (f == .ret) ∧
      i.isForward = (f == .normal || f == .call) ∧ i.isCall = (f == .call) := by
  have h1 : i.isLxj = true := by simp [Info.isLxj, ho, hx]
  have h2 : ∀ g, i.isLxjForm g = (f == g) := fun g => by
    simp only [Info.isLxjForm, h1, hf, Bool.true_and]
    cases f <;> cases g <;> rfl
  cases op <;> simp_all [kindIsLxj, Info.isInt, Info.isTransfer, Info.isLoad, kindIsLoad, Info.isReturn,
    Info.isReturnLike, Info.isForward, Info.isCall] <;> cases f <;> decide

theorem info_load (i : Info) (op : OpKind) (ho : i.op = some op) (h : op = .lae ∨ op = .lbe ∨ op = .lbu) :
    i.isLoad = true ∧ i.isInt = false ∧ i.isForward = false ∧ i.isReturnLike = false ∧ i.isTransfer = false ∧
      i.isLxj = false := by
  rcases h with rfl | rfl | rfl <;> simp [Info.isLoad, Info.isInt, Info.isForward, Info.isReturnLike, Info.isTransfer,
    Info.isReturn, Info.isLxjForm, Info.isLxj, ho, kindIsLoad, kindIsLxj]

/-! ### Starts -/

/-- The record of CALL and GOTO at step 3. -/
def callRecord (op : OpKind) (v : VA) (pr : Prior) : Info :=
  { Info.idle with step := .s3, op := some op, operand := .va v, prior := some pr }

/-- The record of an LxJ at step 3. -/
def lxjRecord (op : OpKind) (a : RegIndex) (d : BitVec 18) (x : Word) (f : LxjForm) (pr : Prior) : Info :=
  { callRecord op ⟨0, 0, 0⟩ pr with a := some a, operand := .offset d, xlink := some x, form := some f }

/-- Steps 1 to 3 of CALL and GOTO. -/
theorem leads_call (op : OpKind) (hop : op = .call ∨ op = .goto) (v : VA) (s : State) :
    Leads 3 (startInvocation op none (.va v) none s)
      (s.setInfo (sourced (callRecord op v (capturePrior s op 0)) v)) := by
  have e1 : kindIsLxj op = false := by rcases hop with rfl | rfl <;> rfl
  have e2 : kindIsLoad op = false := by rcases hop with rfl | rfl <;> rfl
  refine Leads.cons _ _ _ _ (by simp [startInvocation]) (leads1_transfer s _ op rfl rfl e1 e2) ?_
  refine Leads.cons _ _ _ _ (by simp) (leads2_transfer s _ op rfl rfl e1) ?_
  exact Leads.cons _ _ _ _ (by simp)
    (leads3_va s _ op v rfl rfl (by rcases hop with rfl | rfl <;> simp) rfl) (Leads.refl _)

/-- The kind, the start and the selected register of an LxJ request. -/
theorem lxj_kind (s : State) (i : Instr) (a : RegIndex) (d : BitVec 18) (k : BmSel) (h : LxjSelects s i a d k) :
    kindIsLxj i.kind = true ∧ startRequest i s = startInvocation i.kind (some a) (.offset d) none s ∧
      lxjSel s.params i.kind (s.gr (lxjRegister s a)) (db31 s.dr) = some k := by
  rcases h with ⟨rfl, rfl⟩ | ⟨rfl, rfl⟩ | ⟨rfl, rfl⟩ <;> exact ⟨rfl, rfl, rfl⟩

/-- Steps 1 and 2 of an LxJ with a valid reference. -/
theorem leads_lxj (s : State) (op : OpKind) (a : RegIndex) (d : BitVec 18) (f : LxjForm) (hx : kindIsLxj op = true)
    (hf : LxjHasForm s a f) :
    Leads 2 (startInvocation op (some a) (.offset d) none s)
      (s.setInfo (lxjRecord op a d (s.gr (lxjRegister s a)) f (capturePrior s op (s.gr (lxjRegister s a))))) := by
  obtain ⟨h3, rfl⟩ := hf
  refine Leads.cons _ _ _ _ (by simp [startInvocation]) (leads1_lxj s _ op a rfl rfl rfl hx h3) ?_
  exact Leads.cons _ _ _ _ (by simp) (leads2_lxj s _ op _ rfl rfl hx rfl) (Leads.refl _)

/-! ### Steps of returns and loads -/

section
variable (u : State) (i : Info)

/-- Step 5 of a return to the void bank in basic mode. -/
theorem leads5_return (f : Frame) (hs : i.step = .s5) (hv : i.src = some (frameVa f)) (hn : vaName (frameVa f) = ⟨0, 0⟩)
    (hp : i.popped = some f) (hd : frameDb16 f = true) (hint : i.isInt = false) (hl : i.isLoad = false)
    (hr : i.isReturnLike = true) :
    engineStep (u.setInfo i) =
      .next (u.setInfo { i with step := .s10, voidTarget := true, targetName := some voidName }) := by
  have h : engineStep (u.setInfo i) = step5 (u.setInfo i) := by simp only [engineStep, setInfo_info, hs]
  refine h.trans ((need_eq _ _ _ hv).trans ((if_pos ?_).trans ((if_neg ?_).trans ((if_neg ?_).trans ((if_pos ?_).trans
    ((need_eq _ _ _ hp).trans ((if_pos hd).trans rfl)))))))
  · rw [hn]; rfl
  · rw [setInfo_info, hint]; simp
  · rw [setInfo_info, hl]; simp
  · exact hr

/-- Step 5 of a load of the void bank. -/
theorem leads5_load (v : VA) (hs : i.step = .s5) (hv : i.src = some v) (hn : vaName v = ⟨0, 0⟩) (hint : i.isInt = false)
    (hl : i.isLoad = true) :
    engineStep (u.setInfo i) =
      .next (u.setInfo { i with step := .s10, voidTarget := true, targetName := some voidName }) := by
  have h : engineStep (u.setInfo i) = step5 (u.setInfo i) := by simp only [engineStep, setInfo_info, hs]
  refine h.trans ((need_eq _ _ _ hv).trans ((if_pos ?_).trans ((if_neg ?_).trans ((if_pos hl).trans rfl))))
  · rw [hn]; rfl
  · rw [setInfo_info, hint]; simp

/-- Step 7 of a return to a bank it may bind. -/
theorem leads7_return (bd : BankDescriptor) (f : Frame) (hs : i.step = .s7) (hb : i.srcBD = some bd)
    (hp : i.popped = some f) (hty : bd.bankType = .extendedMode ∨ (bd.bankType = .basicMode ∧ frameDb16 f = true))
    (hint : i.isInt = false) (hr : i.isReturnLike = true) (hfw : i.isForward = false) :
    engineStep (u.setInfo i) = .next (u.setInfo { i with step := .s10 }) := by
  have h : engineStep (u.setInfo i) = step7 (u.setInfo i) := by simp only [engineStep, setInfo_info, hs]
  refine h.trans ((need_eq _ _ _ hb).trans ?_)
  rcases hty with hty | ⟨hty, hd⟩
  · simp only [hty, enterThenBind, enterDenied, setInfo_info, hfw, Bool.false_and, Bool.false_eq_true, if_false]; rfl
  · rw [hty]
    refine (if_neg ?_).trans ((if_pos hr).trans ((need_eq _ _ _ hp).trans ((if_pos hd).trans rfl)))
    rw [setInfo_info, hint]; simp

/-- Step 3 of an LAE iteration. -/
theorem leads3_lae (vs : List VA) (k : Fin 16) (v : VA) (hs : i.step = .s3) (ho : i.op = some .lae)
    (hd : i.operand = .vas vs) (hl : i.laeI = some k) (hv : vs[k.val - 1]? = some v) :
    engineStep (u.setInfo i) = .next (u.setInfo (sourced i v)) := by
  have h : engineStep (u.setInfo i) = step3 (u.setInfo i) := by simp only [engineStep, setInfo_info, hs]
  refine h.trans ((need_eq _ _ _ ho).trans ?_)
  simp only [setInfo_info, hd]
  exact (need_eq _ _ _ hl).trans ((need_eq _ v _ hv).trans rfl)

/-- A fault of a request that is no interrupt entry. -/
theorem raise_at (e : EngineFault) (h : i.op ≠ some .int) : raise e (u.setInfo i) = .next (finished (.fault e) u) := by
  rw [raise_setInfo, if_neg h]

end

/-- A chain of steps whose next step ends the invocation is the engine's answer. -/
theorem runEngine_of_leads (n : Nat) (hn : n < engineFuel) (s t u : State) (h : Leads n s t) (ht : t.info.step ≠ .idle)
    (he : engineStep t = .next u) (hu : u.info.step = .idle) : runEngine s = .next u :=
  Ends.runs _ (Nat.succ_le_of_lt hn) _ _ (Leads.ends _ _ _ _ _ h (Ends.last _ _ ht he hu)) hu

end Sys2Proof.Machine
end

