-- ==== Sys2Proof/Laws/PerInstr.lean ====
section
/-! SUPPORT. The per-instruction family of LAWS.json: how many words a request has (30_encoding.md R50, R66). -/

namespace Sys2Proof.Laws

/-- R50, R66: a well-formed request has a header word and as many operand words as its kind takes. -/
def RequestLength.Statement (i : Instr) : Prop :=
  ∀ W : Nat, i.wf W = true → (encode i).length = operandCount i.kind + 1

theorem RequestLength.call (v : VA) : RequestLength.Statement (.call v) := fun _ _ => rfl
theorem RequestLength.goto (v : VA) : RequestLength.Statement (.goto v) := fun _ _ => rfl
theorem RequestLength.lae (vs : List VA) : RequestLength.Statement (.lae vs) := fun W h => by
  simp only [Instr.wf, beq_iff_eq] at h
  simp [encode, Instr.kind, operandCount, h]
theorem RequestLength.lbe (a : RegIndex) (v : VA) : RequestLength.Statement (.lbe a v) := fun _ _ => rfl
theorem RequestLength.lbu (a : RegIndex) (v : VA) : RequestLength.Statement (.lbu a v) := fun _ _ => rfl
theorem RequestLength.lbj (a : RegIndex) (d : BitVec 18) : RequestLength.Statement (.lbj a d) := fun _ _ => rfl
theorem RequestLength.ldj (a : RegIndex) (d : BitVec 18) : RequestLength.Statement (.ldj a d) := fun _ _ => rfl
theorem RequestLength.lij (a : RegIndex) (d : BitVec 18) : RequestLength.Statement (.lij a d) := fun _ _ => rfl
theorem RequestLength.rtn : RequestLength.Statement .rtn := fun _ _ => rfl
theorem RequestLength.ur (u : Frame) : RequestLength.Statement (.ur u) := fun _ _ => rfl
theorem RequestLength.int (cls : Nat) : RequestLength.Statement (.int cls) := fun _ _ => rfl

end Sys2Proof.Laws
end

