-- ==== Sys2Proof/Tests/Slice0.lean ====
section
/-! SUPPORT. Tests on fixed values: the WellFormed smoke test, decoding of words written out from the encoding tables, one or
two steps per request (expected results from 95_test_vectors.md), and a witness for each statement that has hypotheses. -/

namespace Sys2Proof.Tests

open Sys2Proof.Machine

/-! ### WellFormed -/

theorem test_wf_refuses_short_lae : (Instr.lae (List.replicate 14 ⟨0, 0, 0⟩)).wf 6 = false := by decide
theorem test_wf_refuses_long_lae : (Instr.lae (List.replicate 16 ⟨0, 0, 0⟩)).wf 6 = false := by decide
theorem test_wf_refuses_wide_class : (Instr.int 64).wf 6 = false := by decide
theorem test_wf_refuses_class_past_header : (Instr.int (2 ^ 28)).wf 40 = false := by decide

/-! ### Decoding: words written bit by bit from R49 to R52 and R60 (op in bits 3..0, a in bits 7..4, class from bit 8) -/

theorem test_decode_call : decode 6 [0b0000, 0o000050000100] = .request (.call ⟨0, 0o50, 0o100⟩) [] := by decide
theorem test_decode_goto : decode 6 [0b0001, 0o777777777777] = .request (.goto ⟨7, 0o77777, 0o777777⟩) [] := by decide
theorem test_decode_lae : decode 6 (0b0010 :: 0o100040000005 :: List.replicate 14 0o000041000000) =
    .request (.lae (⟨1, 0o40, 5⟩ :: List.replicate 14 ⟨0, 0o41, 0⟩)) [] := by decide
theorem test_decode_lbe : decode 6 [0b11110011, 0o400101000000] = .request (.lbe 15 ⟨4, 0o101, 0⟩) [] := by decide
theorem test_decode_lbu : decode 6 [0b11000100, 0o000051000000] = .request (.lbu 12 ⟨0, 0o51, 0⟩) [] := by decide
theorem test_decode_lbj : decode 6 [0b01010101, 0o777777002000] = .request (.lbj 5 0o2000) [] := by decide
theorem test_decode_ldj : decode 6 [0b01010110, 0o000000777777] = .request (.ldj 5 0o777777) [] := by decide
theorem test_decode_lij : decode 6 [0b11110111, 0o000000000001] = .request (.lij 15 1) [] := by decide
theorem test_decode_rtn : decode 6 [0o777777777770, 7] = .request .rtn [7] := by decide
/-- trap 1, reserved bit 34 set, sel 2, reserved bits set, db 0o52, ring 1, domain 5. -/
theorem test_decode_ur : decode 6 [0b1001, 0o300040000200, 0o737752200005] =
    .request (.ur ⟨3, 0o40, 0o200, true, 2, 0o52, ⟨1, 5⟩⟩) [] := by decide
theorem test_decode_int : decode 6 [0o777777777417] = .request (.int 0o77) [] ∧
    decode 6 [0o000000004017] = .request (.int 8) [] := by decide
theorem test_decode_reserved : ∀ k : Fin 5, decode 6 [BitVec.ofNat 36 (10 + k.val), 0, 0] =
    .rejected .reservedRequestCode := by decide

/-! ### A small machine (the layout of 95_test_vectors.md) -/

/-- Storage: interrupt vectors 8 to 11; descriptors 0o40 (ExtendedMode), 0o42 (Gate), 0o43 (ExtendedMode), 0o44 and 0o45
(Indirect, the second with G), 0o46 (Indirect to the gate), 0o47 (QueueRepository), 0o51 (BasicMode), 0o52 (Queue), 0o57
(BasicMode without execute), 0o60 (ExtendedMode); four gate records; a frame at 0o60776. -/
def cells : List Cell :=
  [(0o10, 0o000060000000), (0o11, 0o000051000000), (0o12, 0o000005000000), (0o13, 0o001000000000)] ++
  [(0o400, 0o670000000000), (0o401, 0o777), (0o403, 0o10000)] ++
  [(0o420, 0o440200000000), (0o421, 0o77), (0o423, 0o12000)] ++
  [(0o430, 0o440000000000), (0o431, 0o777), (0o433, 0o13000)] ++
  [(0o440, 0o000300000000), (0o444, 0o000040000000)] ++
  [(0o450, 0o000340000000), (0o454, 0o000040000000)] ++
  [(0o460, 0o000300000000), (0o464, 0o000042000000)] ++
  [(0o470, 0o000600000000), (0o471, 0o777), (0o473, 0o14000)] ++
  [(0o510, 0o440100000000), (0o511, 0o777), (0o513, 0o16000)] ++
  [(0o520, 0o660400000000), (0o521, 0o777), (0o523, 0o17000)] ++
  [(0o570, 0o330100000000), (0o571, 0o777), (0o573, 0o20000)] ++
  [(0o600, 0o440000000000), (0o601, 0o777), (0o603, 0o21000)] ++
  [(0o12000, 0o002100000000), (0o12001, 0o000043000200), (0o12002, 0o000004200007), (0o12003, 0o123),
    (0o12004, 0o456)] ++
  [(0o12010, 0o004000000000), (0o12011, 0o000043000200)] ++
  [(0o12020, 0o001700000000), (0o12021, 0o000051000300), (0o12022, 0o100077600003)] ++
  [(0o12031, 0o000005000000)] ++
  [(0o60776, 0o000040000101)]

/-- A bound base register over module 0. -/
def window (base lln uln : Nat) : BaseRegister :=
  .bound ⟨.extendedMode, ⟨0, base⟩, false, BitVec.ofNat 24 lln, BitVec.ofNat 33 uln, ⟨0, 0⟩, ⟨true, true, false⟩,
    ⟨true, true, false⟩, 0⟩

/-- The bank that a machine finds under a name; an empty bank where it finds none. -/
def bankOf (s : State) (n : BankName) : BankDescriptor :=
  match findBd s n with
  | .ok (some bd) => bd
  | _ => ⟨⟨false, false, false⟩, ⟨false, false, false⟩, .queue, false, false, false, ⟨0, 0⟩, 0, 0, 0, 0, 0, ⟨0, 0⟩, 0⟩

/-- The level-0 table in B16, an empty stack in B25. -/
def tables : State :=
  (((State.reset.setMemory ⟨cells⟩).setBreg 16 (window 0 0 0o7777)).setBreg 25 (window 0o60000 0 0o777)).setRcsp 0o1000

/-- Extended mode in bank 0o40. -/
def emState : State := (tables.setPar ⟨0, 0o40, 0o100⟩).setBreg 0 (makeBreg (bankOf tables ⟨0, 0o40⟩))

/-- Basic mode in bank 0o51, bound in B12. -/
def bmState : State :=
  (((tables.setPar ⟨0, 0, 0o1000⟩).setDr 0o2000000).setBreg 12 (makeBreg (bankOf tables ⟨0, 0o51⟩))).setAbtEntry 0 ⟨0, 0o51⟩

/-- A machine with X[user][5] set. -/
def withX (s : State) (w : Word) : State := s.setGr ⟨.x, .user, 5⟩ w

/-- The stack holds one frame. -/
def stacked (s : State) : State := s.setRcsp 0o776

/-- An outcome is a next state with a property. -/
def isNext (o : Out) (p : State → Bool) : Bool :=
  match o with
  | .next t => p t
  | .fault _ => false
  | .refused _ => false

theorem of_isNext {o : Out} {p : State → Bool} (h : isNext o p = true) : ∃ t, o = .next t ∧ p t = true := by
  cases o with
  | next t => exact ⟨t, rfl, h⟩
  | fault f => simp [isNext] at h
  | refused r => simp [isNext] at h

/-- The words in front of the port run and leave a state with a property. -/
def runs (s : State) (ws : List Word) (p : State → Bool) : Bool := isNext (step (s.setPort ws)) p

/-- The result of an invocation. -/
def ends (c : Completion) (t : State) : Bool := t.result == some c && t.port == []

theorem test_cells_canonical : (Memory.mk cells).wf = true := by decide

/-! ### One step per request (names of the vectors of 95_test_vectors.md in the comments) -/

/-- TR1. -/
theorem test_call_extended : runs emState [0, 0o000043000200] (fun t => ends .ok t && t.par == ⟨0, 0o43, 0o200⟩ &&
    t.rcsp == 0o776 && t.breg 0 == makeBreg (bankOf emState ⟨0, 0o43⟩) &&
    readWord t ⟨0, 0o60777⟩ == .ok 0) = true := by decide
/-- TR11. -/
theorem test_call_into_basic_mode : runs emState [0, 0o000051000000] (fun t => ends .ok t && t.par == ⟨0, 0, 0⟩ &&
    t.dr == 0o2000000 && t.breg 0 == .void && t.abtEntry 0 == ⟨0, 0o51⟩) = true := by decide
/-- GO1. -/
theorem test_goto_extended : runs emState [1, 0o000043000200] (fun t => ends .ok t && t.par == ⟨0, 0o43, 0o200⟩ &&
    t.rcsp == 0o1000) = true := by decide
/-- GT10. -/
theorem test_goto_inhibited : runs emState [1, 0o000042000000] (fun t =>
    ends (.fault (.addressing .enterAccessDenied)) t && t.dr == 0o4000000 && t.ikr == 0o200007 &&
    t.gr ⟨.r, .user, 0⟩ == 0o123 && t.gr ⟨.r, .user, 1⟩ == 0 && t.par == emState.par) = true := by decide
/-- LA2. -/
theorem test_lae_indirect : runs emState (2 :: 0o000040000000 :: 0o000051000000 :: 0o000044000000 :: List.replicate 12 0)
    (fun t => ends (.fault (.addressing .bdTypeInvalid)) t && t.breg 1 == makeBreg (bankOf emState ⟨0, 0o40⟩) &&
      t.breg 2 == makeBreg (bankOf emState ⟨0, 0o51⟩)) = true := by decide
/-- LE1. -/
theorem test_lbe_indirect : runs emState [0o43, 0o000044000000] (fun t => ends .ok t &&
    t.breg 18 == makeBreg (bankOf emState ⟨0, 0o40⟩) && t.abt == emState.abt) = true := by decide
/-- LU5 and LU9. -/
theorem test_lbu_substitutes : runs ((emState.setDr 0o14000000).setAbtEntry 0 ⟨0, 0o51⟩) [0o304, 0o000057000000]
    (fun t => ends .ok t && t.breg 12 == .void && t.abtEntry 0 == ⟨0, 0⟩) = true := by decide
/-- LU2. -/
theorem test_lbu_of_b1 : runs emState [0o24, 0o000040000000] (ends (.fault .invalidInstruction)) = true := by
  decide
/-- LJ1's shape: B = 1 selects B13. -/
theorem test_lbj_normal : runs (withX bmState 0o410051000000) [0o125, 0o2000] (fun t => ends .ok t &&
    t.par == ⟨0, 0, 0o2000⟩ && t.abtEntry 1 == ⟨0, 0o51⟩ && t.rcsp == 0o1000) = true := by decide
/-- LJ2. -/
theorem test_lbj_interface_three : runs (withX bmState 0o540000000000) [0o125, 0]
    (ends (.fault (.addressing .invalidISValue))) = true := by decide
/-- LJ8's shape: the call form of LDJ pushes, lands in B15 and flips DB31. -/
theorem test_ldj_call : runs (withX bmState 0o440051000000) [0o126, 0o500] (fun t => ends .ok t && t.rcsp == 0o776 &&
    t.dr == 0o2000020 && t.abtEntry 3 == ⟨0, 0o51⟩) = true := by decide
/-- LJ6's shape. -/
theorem test_lij_normal : runs (withX bmState 0o400051000000) [0o127, 0] (fun t => ends .ok t && t.dr == 0o2000020 &&
    t.abtEntry 2 == ⟨0, 0o51⟩) = true := by decide
/-- RT-1. -/
theorem test_rtn : runs (stacked emState) [0o10] (fun t => ends .ok t && t.par == ⟨0, 0o40, 0o101⟩ &&
    t.rcsp == 0o1000) = true := by decide
/-- UF3. -/
theorem test_rtn_underflow : runs (emState.setRcsp 0o777) [0o10] (ends (.fault (.stack .underflow 25 0o777))) = true := by
  decide
/-- UR3. -/
theorem test_ur_into_basic_mode : runs emState [0o11, 0o000051000050, 0o140002200001] (fun t => ends .ok t &&
    t.ikr == 0o200001 && t.dr == 0o2000000 && t.breg 0 == .void && t.abtEntry 3 == ⟨0, 0o51⟩) = true := by
  decide
/-- IN1. -/
theorem test_int_enters : runs emState [0o4017] (fun t => ends .ok t && t.par == ⟨0, 0o60, 0⟩ && t.dr == 0o1000000 &&
    readWord t ⟨0, 0o60776⟩ == .ok 0o000040000100 && readWord t ⟨0, 0o60777⟩ == .ok 0o400000000000) = true := by
  decide
/-- IN2. -/
theorem test_int_halts : runs emState [0o4417] (ends (.halt (.wrappedFault (.addressing .bdTypeInvalid)))) = true := by
  decide
/-- GT2: a library gate. -/
theorem test_call_library_gate :
    (match step (emState.setPort [0, 0o000042000010]) with
      | .refused r => r == .libraryGate | _ => false) = true := by decide

/-! ### Witnesses: a state and operands that meet the hypotheses of each statement -/

/-- The state of an access that succeeds. -/
def okState (x : Access State) : State :=
  match x with
  | .ok t => t
  | _ => State.reset

def isOk {α : Type} (x : Access α) : Bool :=
  match x with
  | .ok _ => true
  | _ => false

theorem ok_okState {x : Access State} (h : isOk x = true) : x = .ok (okState x) := by
  cases x <;> first | rfl | simp [isOk] at h

theorem isOk_ok {α : Type} {x : Access α} (h : isOk x = true) : ∃ a, x = .ok a := by
  cases x with
  | ok a => exact ⟨a, rfl⟩
  | raise f => simp [isOk] at h
  | halt e => simp [isOk] at h
  | stuck => simp [isOk] at h

/-- The machine finds a descriptor under a name. -/
def isFound (s : State) (n : BankName) : Bool :=
  match findBd s n with
  | .ok (some _) => true
  | _ => false

theorem finds (s : State) (n : BankName) (h1 : nameReservedOrVoid n = false) (h2 : isFound s n = true) :
    FindsBank s n (bankOf s n) := by
  refine ⟨h1, ?_⟩
  unfold isFound at h2
  unfold bankOf
  split at h2
  · rename_i h; rw [h]
  · simp at h2

/-- A name reaches its own bank. -/
theorem reaches_direct (s : State) (n : BankName) (h1 : nameReservedOrVoid n = false) (h2 : isFound s n = true)
    (h3 : (bankOf s n).bankType ≠ .indirect) : Reaches s n n (bankOf s n) := .inl ⟨rfl, h3, finds s n h1 h2⟩

/-- A name reaches the bank behind an Indirect descriptor. -/
theorem reaches_hop (s : State) (n m : BankName) (h1 : nameReservedOrVoid n = false) (h2 : isFound s n = true)
    (h3 : (bankOf s n).bankType = .indirect) (h4 : (bankOf s n).generalFault = false) (h5 : (bankOf s n).target = m)
    (h6 : nameReservedOrVoid m = false) (h7 : isFound s m = true) : Reaches s n m (bankOf s m) :=
  .inr ⟨bankOf s n, finds s n h1 h2, h3, h4, h5, finds s m h6 h7⟩

/-- The record of a gate read that succeeds. -/
def okGate (x : Access GateRecord) : GateRecord :=
  match x with
  | .ok g => g
  | _ => decodeGate #v[0, 0, 0, 0, 0]

theorem ok_okGate {x : Access GateRecord} (h : isOk x = true) : x = .ok (okGate x) := by
  cases x <;> first | rfl | simp [isOk] at h

/-- The gate record at an offset of bank 0o42. -/
def gateAt (s : State) (off : BitVec 18) : GateRecord := okGate (gateRead s (bankOf s ⟨0, 0o42⟩) off)

theorem reads_gate (s : State) (off : BitVec 18) (h1 : isFound s ⟨0, 0o42⟩ = true)
    (h2 : (bankOf s ⟨0, 0o42⟩).bankType = .gate ∧ (bankOf s ⟨0, 0o42⟩).generalFault = false ∧
      enter s.params (accessKey s.ikr) (bankOf s ⟨0, 0o42⟩) = true ∧
      (normalizedLower (bankOf s ⟨0, 0o42⟩)).toNat ≤ off.toNat ∧
      off.toNat + 4 ≤ (normalizedUpper (bankOf s ⟨0, 0o42⟩)).toNat ∧ off.toNat % s.params.gateAlign = 0)
    (h3 : isOk (gateRead s (bankOf s ⟨0, 0o42⟩) off) = true) : ReadsGate s ⟨0, 0o42, off⟩ (gateAt s off) := by
  have hr : Reaches s ⟨0, 0o42⟩ ⟨0, 0o42⟩ (bankOf s ⟨0, 0o42⟩) :=
    reaches_direct s ⟨0, 0o42⟩ (by decide) h1 (by rw [h2.1]; decide)
  have hg : gateRead s (bankOf s ⟨0, 0o42⟩) off = .ok (gateAt s off) := ok_okGate h3
  obtain ⟨a1, a2, a3, a4, a5, a6⟩ := h2
  generalize bankOf s ⟨0, 0o42⟩ = gb at *
  exact ⟨⟨0, 0o42⟩, gb, hr, a1, a2, a3, a4, a5, a6, hg⟩

theorem gate_leads (s : State) (off : BitVec 18) (h1 : nameReservedOrVoid (vaName (gateAt s off).target) = false)
    (h2 : isFound s (vaName (gateAt s off).target) = true)
    (h3 : (bankOf s (vaName (gateAt s off).target)).bankType = .extendedMode ∨
      (bankOf s (vaName (gateAt s off).target)).bankType = .basicMode) :
    GateLeads s (gateAt s off) (bankOf s (vaName (gateAt s off).target)) := ⟨finds s _ h1 h2, h3⟩

/-- A frame back to bank 0o40. -/
def frameTo40 : Frame := ⟨0, 0o40, 0o101, false, 0, 0, ⟨0, 0⟩⟩

/-- The bound window as its fields. -/
def windowFields (base lln uln : Nat) : Bound :=
  ⟨.extendedMode, ⟨0, base⟩, false, BitVec.ofNat 24 lln, BitVec.ofNat 33 uln, ⟨0, 0⟩, ⟨true, true, false⟩,
    ⟨true, true, false⟩, 0⟩

theorem witness_RequestDecodeOfEncode :
    (Instr.int 63).wf 6 = true ∧ (Instr.lae (List.replicate 15 ⟨7, 0o77777, 0o777777⟩)).wf 6 = true := by decide

theorem witness_RecordRoundTrips :
    (∃ bd, decodeBd #v[0o776440777777, 0o777777777777, 0o777777777777, 1, 2, 3, 4, 5] = some bd) ∧
    decodeBd #v[0o000500000000, 0, 0, 0, 0, 0, 0, 0] = none ∧ decodeBd #v[0o001700000000, 0, 0, 0, 0, 0, 0, 0] = none := by
  refine ⟨Option.isSome_iff_exists.mp (by decide), by decide, by decide⟩

theorem witness_OperandCountByOperation :
    decode 6 [0o11, 0o40, 0, 5] = .request (.ur ⟨0, 0, 0o40, false, 0, 0, ⟨0, 0⟩⟩) [5] ∧
    opKindOf (headerOp 2) = some .lae ∧ operandCount .lae ≤ (List.replicate 15 (0 : Word)).length := by decide

theorem witness_StoredRecordsAreRead :
    emState.params.lookup = .tableWalk ∧
    (emState.breg (bdtSlot emState.params 0) = .bound (windowFields 0 0 0o7777) ∧
      (windowFields 0 0 0o7777).lln.toNat ≤ 8 * 0o777 ∧ 8 * 0o777 + 7 ≤ (windowFields 0 0 0o7777).uln.toNat ∧
      ∀ k : Fin 8, readWord emState (addressPlus (relToAbs (windowFields 0 0 0o7777) (8 * (0o777#15).toNat : Nat)) k) =
        .ok (#v[0, 0, 0, 0, 0, 0, 0, 0] : Vector Word 8)[k]) ∧
    emState.breg (bdtSlot emState.params 1) = .void ∧
    ((windowFields 0 0 0o7777).uln.toNat < 8 * 0o1000 + 7 ∧ 8 * 0 < (windowFields 0 0o10 0o7777).lln.toNat) ∧
    (∀ k : Fin 5, readWord emState (addressPlus (relToAbs (boundOf (bankOf emState ⟨0, 0o42⟩)) (0o20#18).toNat) k) =
      .ok (#v[0o001700000000, 0o000051000300, 0o100077600003, 0, 0] : Vector Word 5)[k]) ∧
    readWord emState (relToAbs (windowFields 0 0 0o7777) (0o10 : Nat)) = .ok 0o000060000000 := by decide

theorem witness_StepRunsDecodedRequest :
    (emState.setPort [0, 0o000043000200, 0o10]).halted = false ∧
    (emState.setPort [0, 0o000043000200, 0o10]).info.step = .idle ∧
    (Instr.call ⟨0, 0o43, 0o200⟩).wf emState.params.intClassWidth = true ∧
    nextRequest (emState.setPort [0, 0o000043000200, 0o10]) = .request (.call ⟨0, 0o43, 0o200⟩) [0o10] := by decide

theorem witness_WordsThatAreNoRequest :
    emState.halted = false ∧ emState.info.step = .idle ∧ emState.port = [] ∧
    (headerOp 0o12).toNat = 10 ∧ (headerOp 0o16).toNat = 14 ∧
    opKindOf (headerOp 2) = some .lae ∧ (List.replicate 14 (0 : Word)).length < operandCount .lae := by decide

/-- A machine without an interrupt vector table. -/
def noTable : State := emState.setBreg 16 .void

theorem witness_HaltStopsProcessor :
    ∃ t, exec (.int 8) noTable = .next t ∧ (t.result == some (.halt (.vectorBaseVoid 8))) = true :=
  of_isNext (by decide)

theorem witness_ResetLeavesIdleEngine :
    ∃ t, resetAfter 9 (.call ⟨0, 0o51, 0⟩) emState = .next t ∧ (t.breg 0 == .void) = true := of_isNext (by decide)

theorem emState_inv : emState.Inv := ⟨by decide, by decide, by decide⟩

theorem witness_StepKeepsInvariant : (emState.setPort [0, 0o000051000000]).Inv ∧
    ∃ t, step (emState.setPort [0, 0o000051000000]) = .next t ∧ ends .ok t = true :=
  ⟨⟨by decide, by decide, by decide⟩, of_isNext (by decide)⟩

theorem witness_StepKeepsNamesUnreserved : emState.NamesUnreserved ∧ bmState.NamesUnreserved :=
  ⟨⟨by decide, by decide⟩, ⟨by decide, by decide⟩⟩

theorem witness_EveryRequestHasSpecOutcome : (Instr.int 63).wf emState.params.intClassWidth = true := by decide

theorem witness_InterruptPathHalts :
    (emState.setInfo { Info.idle with op := some .int }).info.op = some .int ∧ emState.info.op ≠ some .int ∧
    noTable.breg (bdtSlot noTable.params 0) = .void ∧
    (emState.setBreg 16 (window 0 9 9)).breg (bdtSlot emState.params 0) = .bound (windowFields 0 9 9) ∧
    (8 < (windowFields 0 9 9).lln.toNat ∧ (windowFields 0 9 9).uln.toNat < 10) ∧
    (∃ t, exec (.int 9) emState = .next t ∧ ends (.halt (.wrappedFault (.addressing .bdTypeInvalid))) t = true) ∧
    ∃ t, exec (.lbu 1 ⟨0, 0o40, 0⟩) emState = .next t ∧ ends (.fault .invalidInstruction) t = true :=
  ⟨by decide, by decide, by decide, by decide, by decide, of_isNext (by decide), of_isNext (by decide)⟩

/-- P_ACCESS_SELECT is an argument: one that compares rings alone, and R68's turned round. -/
theorem test_access_select :
    effectivePermissions { defaultParams with accessSelect := .eq .keyRing .lockRing } ⟨1, 5⟩ ⟨1, 3⟩
      ⟨false, true, false⟩ ⟨true, true, true⟩ = ⟨true, true, true⟩ ∧
    effectivePermissions { defaultParams with accessSelect := .not sourceAccessSelect } ⟨2, 5⟩ ⟨0, 3⟩
      ⟨false, true, false⟩ ⟨true, true, true⟩ = ⟨false, true, false⟩ := by decide

theorem witness_EffectivePermissionsSelect :
    emState.params.accessSelect = sourceAccessSelect ∧
    (3 : BitVec 16).toNat < (4 : BitVec 16).toNat ∧
    ¬((5 : BitVec 16).toNat < (5 : BitVec 16).toNat ∨ ((0 : BitVec 2) = 1 ∧ (5 : BitVec 16) = 5)) := by decide

theorem witness_LimitsNormalized :
    (normalizedUpper { bankOf emState ⟨0, 0o40⟩ with lowerLimit := 1, upperLimit := 511 }).toNat <
      (normalizedLower { bankOf emState ⟨0, 0o40⟩ with lowerLimit := 1, upperLimit := 511 }).toNat ∧
    (emState.setBreg 16 (window 0 9 8)).breg (bdtSlot emState.params 0) = .bound (windowFields 0 9 8) ∧
    (emState.setBreg 16 (window 0 9 8)).params.lookup = .tableWalk ∧
    (emState.setBreg 25 (window 0 9 8)).breg emState.params.rcsBreg = .bound (windowFields 0 9 8) ∧
    (windowFields 0 9 8).uln.toNat < (windowFields 0 9 8).lln.toNat := by decide

theorem witness_PopReadsFrame :
    (emState.setBreg 25 .void).breg emState.params.rcsBreg = .void ∧
    emState.breg emState.params.rcsBreg = .bound (windowFields 0o60000 0 0o777) ∧
    (windowFields 0o60000 0 0o777).uln.toNat < (emState.setRcsp 0o777).rcsp.toNat + 1 ∧
    (0o776#18).toNat < (windowFields 0o60000 0o777 0o1777).lln.toNat ∧
    ((stacked emState).rcsp.toNat + 1 ≤ (windowFields 0o60000 0 0o777).uln.toNat ∧
      readWord (stacked emState) (relToAbs (windowFields 0o60000 0 0o777) (stacked emState).rcsp.toNat) =
        .ok 0o000040000101 ∧
      readWord (stacked emState) (relToAbs (windowFields 0o60000 0 0o777) ((stacked emState).rcsp.toNat + 1)) =
        .ok 0) := by decide

theorem witness_PushStoresFrame :
    (emState.setRcsp 2).memory.wf = true ∧
    emState.breg emState.params.rcsBreg = .bound (windowFields 0o60000 0 0o777) ∧
    (((emState.setRcsp 1).rcsp.toNat : Int) - 2 < (windowFields 0o60000 0 0o777).lln.toNat ∧
      ((windowFields 0o60000 0 0o777).uln.toNat : Int) < ((emState.setRcsp 0o1001).rcsp.toNat : Int) - 1) ∧
    (((windowFields 0o60000 0 0o777).lln.toNat : Int) ≤ ((emState.setRcsp 2).rcsp.toNat : Int) - 2 ∧
      ((emState.setRcsp 2).rcsp.toNat : Int) - 1 ≤ (windowFields 0o60000 0 0o777).uln.toNat ∧
      readWord (emState.setRcsp 2) (relToAbs (windowFields 0o60000 0 0o777) (((emState.setRcsp 2).rcsp.toNat : Int) - 2)) =
        .ok 0 ∧
      readWord (emState.setRcsp 2) (relToAbs (windowFields 0o60000 0 0o777) (((emState.setRcsp 2).rcsp.toNat : Int) - 1)) =
        .ok 0) := by decide

theorem witness_PushThenPop : (emState.setRcsp 2).memory.wf = true ∧
    ∃ t, rcsPush (emState.setRcsp 2) frameTo40 = .ok t := ⟨by decide, isOk_ok (by decide)⟩

/-- The frame of a CALL. -/
def callFrame (s : State) : Frame := callerFrame s s.callerName s.callerSel (s.par.pc + 1) false

/-- The push of a CALL that lands in a bank. -/
def callPush (s : State) (bd : BankDescriptor) : Access State :=
  rcsPush (leaveCaller s s.mode (landingMode bd) s.codeSel) (callFrame s)

theorem witness_CallBindsBank :
    (Reaches emState ⟨0, 0o44⟩ ⟨0, 0o40⟩ (bankOf emState ⟨0, 0o40⟩) ∧ MayLand emState (bankOf emState ⟨0, 0o40⟩) ∧
      callPush emState (bankOf emState ⟨0, 0o40⟩) = .ok (okState (callPush emState (bankOf emState ⟨0, 0o40⟩)))) ∧
    (Reaches bmState ⟨0, 0o51⟩ ⟨0, 0o51⟩ (bankOf bmState ⟨0, 0o51⟩) ∧ MayLand bmState (bankOf bmState ⟨0, 0o51⟩) ∧
      callPush bmState (bankOf bmState ⟨0, 0o51⟩) = .ok (okState (callPush bmState (bankOf bmState ⟨0, 0o51⟩)))) :=
  ⟨⟨reaches_hop _ _ _ (by decide) (by decide) (by decide) (by decide) (by decide) (by decide) (by decide),
      ⟨.inl (by decide), by decide⟩, ok_okState (by decide)⟩,
    ⟨reaches_direct _ _ (by decide) (by decide) (by decide), ⟨.inr (by decide), by decide⟩, ok_okState (by decide)⟩⟩

theorem witness_GotoBindsBank :
    (Reaches emState ⟨0, 0o51⟩ ⟨0, 0o51⟩ (bankOf emState ⟨0, 0o51⟩) ∧ MayLand emState (bankOf emState ⟨0, 0o51⟩)) ∧
    (Reaches bmState ⟨0, 0o43⟩ ⟨0, 0o43⟩ (bankOf bmState ⟨0, 0o43⟩) ∧ MayLand bmState (bankOf bmState ⟨0, 0o43⟩)) :=
  ⟨⟨reaches_direct _ _ (by decide) (by decide) (by decide), .inr (by decide), by decide⟩,
    ⟨reaches_direct _ _ (by decide) (by decide) (by decide), .inl (by decide), by decide⟩⟩

/-- The push of a CALL through the gate record at an offset of bank 0o42. -/
def gatePush (s : State) (off : BitVec 18) : Access State :=
  rcsPush (leaveCaller (gateTransfers s (gateAt s off)) s.mode
    (landingMode (bankOf s (vaName (gateAt s off).target))) s.codeSel) (callFrame s)

theorem witness_CallThroughGate :
    ReadsGate emState ⟨0, 0o42, 0⟩ (gateAt emState 0) ∧ GateAdmits emState (gateAt emState 0) ∧
    GateLeads emState (gateAt emState 0) (bankOf emState (vaName (gateAt emState 0).target)) ∧
    gatePush emState 0 = .ok (okState (gatePush emState 0)) :=
  ⟨reads_gate _ _ (by decide) (by decide) (by decide), ⟨by decide, by decide⟩,
    gate_leads _ _ (by decide) (by decide) (.inl (by decide)), ok_okState (by decide)⟩

theorem witness_GotoThroughGate :
    ReadsGate emState ⟨0, 0o42, 0o20⟩ (gateAt emState 0o20) ∧ GateAdmits emState (gateAt emState 0o20) ∧
    GateLeads emState (gateAt emState 0o20) (bankOf emState (vaName (gateAt emState 0o20).target)) ∧
    (gateAt emState 0o20).gotoInhibited = false :=
  ⟨reads_gate _ _ (by decide) (by decide) (by decide), ⟨by decide, by decide⟩,
    gate_leads _ _ (by decide) (by decide) (.inr (by decide)), by decide⟩

/-- Basic mode with a normal-form and with a call-form reference to the gate bank in X(5). -/
def jumpNormal : State := withX bmState 0o400042000000
def jumpCall : State := withX bmState 0o440042000000

theorem witness_GotoInhibitedGateDenies :
    (GateAdmits emState (gateAt emState 0) ∧ (gateAt emState 0).gotoInhibited = true ∧
      ReadsGate emState ⟨0, 0o42, 0⟩ (gateAt emState 0)) ∧
    (LxjSelects jumpNormal (.lij 5 0) 5 0 2 ∧ LxjHasForm jumpNormal 5 .normal ∧
      lxjTarget jumpNormal 5 0 = ⟨0, 0o42, 0⟩ ∧ ReadsGate jumpNormal ⟨0, 0o42, 0⟩ (gateAt jumpNormal 0) ∧
      (gateAt jumpNormal 0).gotoInhibited = true) ∧
    (LxjSelects jumpCall (.lbj 5 0) 5 0 0 ∧ LxjHasForm jumpCall 5 .call ∧
      linkIs (jumpCall.gr (lxjRegister jumpCall 5)) = 1 ∧
      lxjTarget jumpCall 5 0 = ⟨0, 0o42, 0⟩ ∧ ReadsGate jumpCall ⟨0, 0o42, 0⟩ (gateAt jumpCall 0)) :=
  ⟨⟨⟨by decide, by decide⟩, by decide, reads_gate _ _ (by decide) (by decide) (by decide)⟩,
    ⟨.inr (.inr ⟨rfl, by decide⟩), ⟨by decide, by decide⟩, by decide,
      reads_gate _ _ (by decide) (by decide) (by decide), by decide⟩,
    ⟨.inl ⟨rfl, by decide⟩, ⟨by decide, by decide⟩, by decide, by decide,
      reads_gate _ _ (by decide) (by decide) (by decide)⟩⟩

/-- Bank 0o42 with another first word of its descriptor. -/
def withGateWord (w : Word) : State := emState.setMemory ⟨cellsWrite cells 0o420 w⟩

/-- The bank that the first gate record leads to has an invalid type code. -/
def deadTarget : State := emState.setMemory ⟨cellsWrite cells 0o430 0o000500000000⟩

theorem call_not_inhibited (s : State) (v : VA) : ¬GotoInhibitApplies s (.call v) := by
  simp [GotoInhibitApplies, LxjSelects, Instr.kind]

theorem ldj_call_not_inhibited (s : State) (a : RegIndex) (d : BitVec 18) (h : LxjHasForm s a .call) :
    ¬GotoInhibitApplies s (.ldj a d) := by
  rintro (h1 | ⟨b, e, k, hs, ⟨_, h2⟩ | ⟨h2, _⟩⟩)
  · cases h1
  · simp only [LxjSelects, Instr.ldj.injEq, reduceCtorEq, false_and, or_false, false_or] at hs
    obtain ⟨⟨rfl, _⟩, _⟩ := hs
    rw [h.2] at h2
    cases h2
  · cases h2

/-- The gate record's own lock is checked. -/
def lockChecked : State := { emState with params := { emState.params with gateRecordLockCheck := true } }

theorem witness_GateChecksInOrder :
    (ForwardFrom emState (.call ⟨0, 0o46, 0⟩) ⟨0, 0o46, 0⟩ ∧
      Reaches emState ⟨0, 0o46⟩ ⟨0, 0o42⟩ (bankOf emState ⟨0, 0o42⟩) ∧ (bankOf emState ⟨0, 0o42⟩).bankType = .gate) ∧
    (Reaches (withGateWord 0o440240000000) ⟨0, 0o42⟩ ⟨0, 0o42⟩ (bankOf (withGateWord 0o440240000000) ⟨0, 0o42⟩) ∧
      (bankOf (withGateWord 0o440240000000) ⟨0, 0o42⟩).generalFault = true) ∧
    (Reaches (withGateWord 0o040200000010) ⟨0, 0o42⟩ ⟨0, 0o42⟩ (bankOf (withGateWord 0o040200000010) ⟨0, 0o42⟩) ∧
      (bankOf (withGateWord 0o040200000010) ⟨0, 0o42⟩).generalFault = false ∧
      enter emState.params (accessKey emState.ikr) (bankOf (withGateWord 0o040200000010) ⟨0, 0o42⟩) = false) ∧
    ((normalizedUpper (bankOf emState ⟨0, 0o42⟩)).toNat < (0o74#18).toNat + 4 ∧
      (0o71#18).toNat % emState.params.gateAlign ≠ 0) ∧
    (ReadsGate emState ⟨0, 0o42, 0o10⟩ (gateAt emState 0o10) ∧ (gateAt emState 0o10).libraryGate = true) ∧
    (ReadsGate lockChecked ⟨0, 0o42, 0⟩ (gateAt lockChecked 0) ∧ (gateAt lockChecked 0).libraryGate = false ∧
      (effectivePermissions lockChecked.params (accessKey lockChecked.ikr) (gateAt lockChecked 0).lock
        (gateAt lockChecked 0).gap (gateAt lockChecked 0).sap).execute = false) ∧
    (ReadsGate emState ⟨0, 0o42, 0o30⟩ (gateAt emState 0o30) ∧ GateAdmits emState (gateAt emState 0o30) ∧
      (gateAt emState 0o30).gotoInhibited = false ∧ nameReservedOrVoid (vaName (gateAt emState 0o30).target) = true) ∧
    (ReadsGate deadTarget ⟨0, 0o42, 0⟩ (gateAt deadTarget 0) ∧ GateAdmits deadTarget (gateAt deadTarget 0) ∧
      (gateAt deadTarget 0).gotoInhibited = true ∧ ¬GotoInhibitApplies deadTarget (.call ⟨0, 0o42, 0⟩) ∧
      nameReservedOrVoid (vaName (gateAt deadTarget 0).target) = false ∧
      findBd deadTarget (vaName (gateAt deadTarget 0).target) = .ok none) :=
  ⟨⟨.inl rfl, reaches_hop _ _ _ (by decide) (by decide) (by decide) (by decide) (by decide) (by decide) (by decide),
      by decide⟩,
    ⟨reaches_direct _ _ (by decide) (by decide) (by decide), by decide⟩,
    ⟨reaches_direct _ _ (by decide) (by decide) (by decide), by decide, by decide⟩,
    by decide,
    ⟨reads_gate _ _ (by decide) (by decide) (by decide), by decide⟩,
    ⟨reads_gate _ _ (by decide) (by decide) (by decide), by decide, by decide⟩,
    ⟨reads_gate _ _ (by decide) (by decide) (by decide), ⟨by decide, by decide⟩, by decide, by decide⟩,
    ⟨reads_gate _ _ (by decide) (by decide) (by decide), ⟨by decide, by decide⟩, by decide, call_not_inhibited _ _,
      by decide, by decide⟩⟩

theorem witness_ForwardFailures :
    ForwardFrom jumpNormal (.ldj 5 0) ⟨0, 0o42, 0⟩ ∧
    ForwardFails emState ⟨0, 31⟩ .invalidSourceLevelBDI ∧ ForwardFails emState ⟨0, 0⟩ .invalidSourceLevelBDI ∧
    ForwardFails emState ⟨1, 1⟩ .fatalAddressingException ∧ ForwardFails emState ⟨0, 0o47⟩ .bdTypeInvalid ∧
    ForwardFails emState ⟨0, 0o45⟩ .gBitSetIndirect ∧ ForwardFails emState ⟨0, 0o52⟩ .bdTypeInvalid ∧
    ForwardFails (emState.setIkr 1) ⟨0, 0o57⟩ .enterAccessDenied :=
  ⟨.inr (.inr ⟨5, 0, 3, .normal, .inr (.inl ⟨rfl, by decide⟩), ⟨by decide, by decide⟩, by decide, by decide⟩),
    .inl ⟨by decide, rfl⟩, .inl ⟨by decide, rfl⟩, .inr (.inl ⟨by decide, by decide, rfl⟩),
    .inr (.inr (.inl ⟨_, finds _ _ (by decide) (by decide), by decide, rfl⟩)),
    .inr (.inr (.inr (.inl ⟨_, finds _ _ (by decide) (by decide), by decide, .inl ⟨by decide, rfl⟩⟩))),
    .inr (.inr (.inr (.inr ⟨_, _, reaches_direct _ _ (by decide) (by decide) (by decide), .inl ⟨by decide, rfl⟩⟩))),
    .inr (.inr (.inr (.inr ⟨_, _, reaches_direct _ _ (by decide) (by decide) (by decide),
      .inr ⟨.inr (by decide), by decide, by decide, rfl⟩⟩)))⟩

theorem witness_IndirectionTransparent :
    FindsBank emState ⟨0, 0o46⟩ (bankOf emState ⟨0, 0o46⟩) ∧ (bankOf emState ⟨0, 0o46⟩).bankType = .indirect ∧
    (bankOf emState ⟨0, 0o46⟩).generalFault = false ∧ (bankOf emState ⟨0, 0o46⟩).target = ⟨0, 0o42⟩ ∧
    ∀ bd, findBd emState ⟨0, 0o42⟩ = .ok (some bd) → bd.bankType ≠ .indirect ∧ bd.bankType ≠ .queueRepository := by
  refine ⟨finds _ _ (by decide) (by decide), by decide, by decide, by decide, fun bd h => ?_⟩
  rw [(finds emState ⟨0, 0o42⟩ (by decide) (by decide)).2] at h
  simp only [Access.ok.injEq, Option.some.injEq] at h
  subst h
  decide

/-- No room for a frame. -/
def noRoom : State := emState.setRcsp 1

/-- No room for a frame, and a call-form reference to bank 0o43, and to the gate bank, in X(5). -/
def jumpNoRoom : State := (withX bmState 0o440043000000).setRcsp 1
def jumpGateNoRoom : State := jumpCall.setRcsp 1

theorem witness_CallOverflowKeepsEarlierWrites :
    (Reaches noRoom ⟨0, 0o51⟩ ⟨0, 0o51⟩ (bankOf noRoom ⟨0, 0o51⟩) ∧ MayLand noRoom (bankOf noRoom ⟨0, 0o51⟩) ∧
      callPush noRoom (bankOf noRoom ⟨0, 0o51⟩) = .raise (.stack .overflow 25 0o777777)) ∧
    (ReadsGate noRoom ⟨0, 0o42, 0⟩ (gateAt noRoom 0) ∧ GateAdmits noRoom (gateAt noRoom 0) ∧
      GateLeads noRoom (gateAt noRoom 0) (bankOf noRoom (vaName (gateAt noRoom 0).target)) ∧
      gatePush noRoom 0 = .raise (.stack .overflow 25 0o777777)) ∧
    (LxjSelects jumpNoRoom (.lij 5 0o500) 5 0o500 2 ∧ LxjHasForm jumpNoRoom 5 .call ∧
      Reaches jumpNoRoom (vaName (lxjTarget jumpNoRoom 5 0o500)) ⟨0, 0o43⟩ (bankOf jumpNoRoom ⟨0, 0o43⟩) ∧
      MayLand jumpNoRoom (bankOf jumpNoRoom ⟨0, 0o43⟩) ∧
      rcsPush (leaveCaller jumpNoRoom jumpNoRoom.mode (landingMode (bankOf jumpNoRoom ⟨0, 0o43⟩)) 2)
        (callerFrame jumpNoRoom (jumpNoRoom.abtEntry 2) 2 (jumpNoRoom.par.pc + 1) false) =
          .raise (.stack .overflow 25 0o777777)) ∧
    (LxjSelects jumpGateNoRoom (.ldj 5 0) 5 0 3 ∧ LxjHasForm jumpGateNoRoom 5 .call ∧
      ReadsGate jumpGateNoRoom ⟨0, 0o42, 0⟩ (gateAt jumpGateNoRoom 0) ∧
      GateAdmits jumpGateNoRoom (gateAt jumpGateNoRoom 0) ∧
      GateLeads jumpGateNoRoom (gateAt jumpGateNoRoom 0)
        (bankOf jumpGateNoRoom (vaName (gateAt jumpGateNoRoom 0).target)) ∧
      (gateAt jumpGateNoRoom 0).gotoInhibited = true ∧ ¬GotoInhibitApplies jumpGateNoRoom (.ldj 5 0) ∧
      rcsPush (leaveCaller (gateTransfers jumpGateNoRoom (gateAt jumpGateNoRoom 0)) jumpGateNoRoom.mode
          (landingMode (bankOf jumpGateNoRoom (vaName (gateAt jumpGateNoRoom 0).target))) 3)
        (callerFrame jumpGateNoRoom (jumpGateNoRoom.abtEntry 3) 3 (jumpGateNoRoom.par.pc + 1) false) =
          .raise (.stack .overflow 25 0o777777)) :=
  ⟨⟨reaches_direct _ _ (by decide) (by decide) (by decide), ⟨.inr (by decide), by decide⟩, by decide⟩,
    ⟨reads_gate _ _ (by decide) (by decide) (by decide), ⟨by decide, by decide⟩,
      gate_leads _ _ (by decide) (by decide) (.inl (by decide)), by decide⟩,
    ⟨.inr (.inr ⟨rfl, by decide⟩), ⟨by decide, by decide⟩, reaches_direct jumpNoRoom ⟨0, 0o43⟩ (by decide) (by decide)
      (by decide), ⟨.inl (by decide), by decide⟩, by decide⟩,
    ⟨.inr (.inl ⟨rfl, by decide⟩), ⟨by decide, by decide⟩, reads_gate _ _ (by decide) (by decide) (by decide),
      ⟨by decide, by decide⟩, gate_leads _ _ (by decide) (by decide) (.inl (by decide)), by decide,
      ldj_call_not_inhibited _ _ _ ⟨by decide, by decide⟩, by decide⟩⟩

theorem witness_LbeBindsBank :
    LoadBinds emState true ⟨0, 0⟩ ⟨0, 0⟩ .void ∧
    LoadBinds emState true ⟨0, 0o44⟩ ⟨0, 0o40⟩ (makeBreg (bankOf emState ⟨0, 0o40⟩)) ∧
    LoadBinds emState true ⟨0, 0o52⟩ ⟨0, 0o52⟩ (makeBreg (bankOf emState ⟨0, 0o52⟩)) :=
  ⟨.inl ⟨rfl, rfl, rfl⟩,
    .inr ⟨_, reaches_hop _ _ _ (by decide) (by decide) (by decide) (by decide) (by decide) (by decide) (by decide), rfl,
      .inl (by decide)⟩,
    .inr ⟨_, reaches_direct _ _ (by decide) (by decide) (by decide), rfl, .inr (.inr (.inr (by decide)))⟩⟩

/-- Processor privilege 3. -/
def userState : State := emState.setDr 0o14000000

theorem witness_LbuBindsBank :
    LbuBinds userState ⟨0, 0o57⟩ ⟨0, 0⟩ .void ∧
    LbuBinds userState ⟨0, 0o51⟩ ⟨0, 0o51⟩ (makeBreg (bankOf userState ⟨0, 0o51⟩)) ∧ 2 ≤ (2 : RegIndex).val ∧
    2 ≤ (15 : RegIndex).val :=
  ⟨.inr ⟨_, _, reaches_direct _ _ (by decide) (by decide) (by decide), .inr (.inl (by decide)), by
      rw [if_pos (by decide)]; exact ⟨rfl, rfl⟩⟩,
    .inr ⟨_, _, reaches_direct _ _ (by decide) (by decide) (by decide), .inr (.inl (by decide)), by
      rw [if_neg (by decide)]; exact ⟨rfl, rfl⟩⟩,
    by decide, by decide⟩

/-- Bank 0o40 and fourteen void names. -/
def laeNames : List VA := ⟨0, 0o40, 0⟩ :: List.replicate 14 ⟨0, 0, 0⟩

/-- The states that an LAE of `laeNames` goes through. -/
def laeStates : Nat → State
  | 0 => emState
  | j + 1 =>
    if h : j < 15 then
      (recordAbt (laeStates j) ⟨j + 1, by omega⟩ (if j = 0 then ⟨0, 0o40⟩ else ⟨0, 0⟩)).setBreg ⟨j + 1, by omega⟩
        (if j = 0 then makeBreg (bankOf emState ⟨0, 0o40⟩) else .void)
    else laeStates j

theorem laeStates_binds (j : Nat) (h : j < 15) : ∃ v m r, laeNames[j]? = some v ∧
    LoadBinds (laeStates j) false (vaName v) m r ∧
    laeStates (j + 1) = (recordAbt (laeStates j) ⟨j + 1, by omega⟩ m).setBreg ⟨j + 1, by omega⟩ r := by
  cases j with
  | zero =>
    exact ⟨_, ⟨0, 0o40⟩, makeBreg (bankOf emState ⟨0, 0o40⟩), rfl,
      .inr ⟨_, ⟨rfl, finds emState ⟨0, 0o40⟩ (by decide) (by decide)⟩, rfl, .inl (by decide)⟩, rfl⟩
  | succ j =>
    refine ⟨⟨0, 0, 0⟩, ⟨0, 0⟩, .void, ?_, .inl ⟨rfl, rfl, rfl⟩, ?_⟩
    · simp only [laeNames, List.getElem?_cons_succ]
      rw [List.getElem?_replicate, if_pos (by omega)]
    · rw [laeStates, dif_pos h, if_neg (by omega), if_neg (by omega)]

theorem witness_LaeBindsAll : laeNames.length = 15 ∧ laeStates 0 = emState ∧
    ∀ j (h : j < 15), ∃ v m r, laeNames[j]? = some v ∧ LoadBinds (laeStates j) false (vaName v) m r ∧
      laeStates (j + 1) = (recordAbt (laeStates j) ⟨j + 1, by omega⟩ m).setBreg ⟨j + 1, by omega⟩ r :=
  ⟨rfl, rfl, laeStates_binds⟩

/-- The same names with a reserved one in place of the last. -/
def laeBadNames : List VA := ⟨0, 0o40, 0⟩ :: (List.replicate 13 ⟨0, 0, 0⟩ ++ [⟨0, 31, 0⟩])

theorem witness_LaeFaultKeepsEarlier : laeStates 0 = emState ∧
    (∀ j (h : j < 15), j < 14 → ∃ v m r, laeBadNames[j]? = some v ∧ LoadBinds (laeStates j) false (vaName v) m r ∧
      laeStates (j + 1) = (recordAbt (laeStates j) ⟨j + 1, by omega⟩ m).setBreg ⟨j + 1, by omega⟩ r) ∧
    laeBadNames[14]? = some ⟨0, 31, 0⟩ ∧ LoadFails (laeStates 14) false ⟨0, 31⟩ .invalidSourceLevelBDI := by
  refine ⟨rfl, fun j h hj => ?_, rfl, .inl ⟨by decide, rfl⟩⟩
  obtain ⟨v, m, r, hv, hl, he⟩ := laeStates_binds j h
  refine ⟨v, m, r, ?_, hl, he⟩
  rw [← hv]
  cases j with
  | zero => rfl
  | succ j =>
    simp only [laeNames, laeBadNames, List.getElem?_cons_succ]
    rw [List.getElem?_append_left (by simpa using by omega), List.getElem?_replicate, List.getElem?_replicate,
      if_pos (by omega), if_pos (by omega)]

theorem witness_LoadFailures :
    LoadFails emState true ⟨0, 1⟩ .invalidSourceLevelBDI ∧ LoadFails emState true ⟨0, 31⟩ .invalidSourceLevelBDI ∧
    LoadFails emState true ⟨0, 0o1000⟩ .fatalAddressingException ∧ LoadFails emState true ⟨0, 0o47⟩ .bdTypeInvalid ∧
    LoadFails emState true ⟨0, 0o45⟩ .gBitSetIndirect ∧ (1 : RegIndex).val ≤ 1 :=
  ⟨.inl ⟨by decide, rfl⟩, .inl ⟨by decide, rfl⟩, .inr (.inl ⟨by decide, by decide, rfl⟩),
    .inr (.inr ⟨_, finds _ _ (by decide) (by decide), .inl ⟨by decide, rfl⟩⟩),
    .inr (.inr ⟨_, finds _ _ (by decide) (by decide), .inr ⟨by decide, .inl ⟨by decide, rfl⟩⟩⟩), by decide⟩

theorem witness_LoadsLeaveControlState : IsLoad (.lbe 2 ⟨0, 0o44, 0⟩) ∧
    ∃ t, exec (.lbe 2 ⟨0, 0o44, 0⟩) emState = .next t ∧ ends .ok t = true := ⟨.inr (.inl rfl), of_isNext (by decide)⟩

/-- A machine whose storage array is absent. -/
def noStorage : State := { emState with params := { emState.params with storage := .listed [] } }

/-- An outcome is a storage fault. -/
def isStuck (o : Out) : Bool :=
  match o with
  | .fault f => f == .storageInaccessible
  | _ => false

theorem witness_LoadsIgnoreKey : IsLoad (.lbu 12 ⟨0, 0o51, 0⟩) ∧
    (∃ t, exec (.lbu 12 ⟨0, 0o51, 0⟩) emState = .next t ∧ ends .ok t = true) ∧
    isStuck (exec (.lbu 12 ⟨0, 0o51, 0⟩) noStorage) = true :=
  ⟨.inr (.inr rfl), of_isNext (by decide), by decide⟩

/-- X(5) names bank 0o51 in call form, and in return form. -/
def jumpTo51 : State := withX bmState 0o440051000000
def jumpBack : State := stacked (withX bmState 0o500000000000)

/-- The push of an LxJ call from B12 to bank 0o51. -/
def jumpPush : Access State :=
  rcsPush (leaveCaller jumpTo51 jumpTo51.mode (landingMode (bankOf jumpTo51 ⟨0, 0o51⟩)) 3)
    (callerFrame jumpTo51 (jumpTo51.abtEntry 3) 3 (jumpTo51.par.pc + 1) false)

theorem witness_LxjBindsBank :
    (LxjSelects jumpTo51 (.ldj 5 0o500) 5 0o500 3 ∧ LxjHasForm jumpTo51 5 .call ∧
      Reaches jumpTo51 (vaName (lxjTarget jumpTo51 5 0o500)) ⟨0, 0o51⟩ (bankOf jumpTo51 ⟨0, 0o51⟩) ∧
      MayLand jumpTo51 (bankOf jumpTo51 ⟨0, 0o51⟩) ∧ jumpPush = .ok (okState jumpPush)) ∧
    LxjHasForm jumpNormal 5 .normal :=
  ⟨⟨.inr (.inl ⟨rfl, by decide⟩), ⟨by decide, by decide⟩,
      reaches_direct jumpTo51 ⟨0, 0o51⟩ (by decide) (by decide) (by decide), ⟨.inr (by decide), by decide⟩,
      ok_okState (by decide)⟩,
    by decide, by decide⟩

theorem witness_LxjThroughGate :
    (LxjSelects jumpNormal (.lij 5 0o20) 5 0o20 2 ∧ LxjHasForm jumpNormal 5 .normal ∧
      lxjTarget jumpNormal 5 0o20 = ⟨0, 0o42, 0o20⟩ ∧
      ReadsGate jumpNormal ⟨0, 0o42, 0o20⟩ (gateAt jumpNormal 0o20) ∧ GateAdmits jumpNormal (gateAt jumpNormal 0o20) ∧
      GateLeads jumpNormal (gateAt jumpNormal 0o20) (bankOf jumpNormal (vaName (gateAt jumpNormal 0o20).target)) ∧
      (gateAt jumpNormal 0o20).gotoInhibited = false) ∧
    (LxjSelects jumpCall (.ldj 5 0) 5 0 3 ∧ LxjHasForm jumpCall 5 .call ∧
      ReadsGate jumpCall ⟨0, 0o42, 0⟩ (gateAt jumpCall 0) ∧ GateAdmits jumpCall (gateAt jumpCall 0) ∧
      GateLeads jumpCall (gateAt jumpCall 0) (bankOf jumpCall (vaName (gateAt jumpCall 0).target)) ∧
      (gateAt jumpCall 0).gotoInhibited = true ∧ (Instr.ldj 5 0).kind ≠ .lbj) :=
  ⟨⟨.inr (.inr ⟨rfl, by decide⟩), ⟨by decide, by decide⟩, by decide,
      reads_gate _ _ (by decide) (by decide) (by decide), ⟨by decide, by decide⟩,
      gate_leads _ _ (by decide) (by decide) (.inr (by decide)), by decide⟩,
    ⟨.inr (.inl ⟨rfl, by decide⟩), ⟨by decide, by decide⟩, reads_gate _ _ (by decide) (by decide) (by decide),
      ⟨by decide, by decide⟩, gate_leads _ _ (by decide) (by decide) (.inl (by decide)), by decide, by decide⟩⟩

theorem witness_LxjInvalidInterfaceSpec :
    LxjSelects (withX bmState 0o540000000000) (.lbj 5 0) 5 0 0 ∧
    linkIs ((withX bmState 0o540000000000).gr (lxjRegister (withX bmState 0o540000000000) 5)) = 3 :=
  ⟨.inl ⟨rfl, by decide⟩, by decide⟩

/-- What a pop from the stack of one frame answers. -/
theorem pops_frame (s : State) (h : (match rcsPop s with
    | .ok (f, _) => f == frameTo40
    | _ => false) = true) : ∃ s1, rcsPop s = .ok (frameTo40, s1) := by
  split at h
  · rename_i f s1 he
    simp only [beq_iff_eq] at h
    exact ⟨s1, by rw [he, h]⟩
  · simp at h

theorem returns_to_40 (s : State) (h : isFound s ⟨0, 0o40⟩ = true) (h2 : (bankOf s ⟨0, 0o40⟩).bankType = .extendedMode) :
    ReturnBinds s frameTo40 (makeBreg (bankOf s ⟨0, 0o40⟩)) :=
  .inr ⟨_, finds s ⟨0, 0o40⟩ (by decide) h, rfl, .inl h2⟩

theorem witness_LxjReturnsToFrame :
    LxjSelects jumpBack (.lbj 5 0) 5 0 0 ∧ LxjHasForm jumpBack 5 .ret ∧
    (∃ s1, rcsPop jumpBack = .ok (frameTo40, s1)) ∧
    ReturnBinds jumpBack frameTo40 (makeBreg (bankOf jumpBack ⟨0, 0o40⟩)) :=
  ⟨.inl ⟨rfl, by decide⟩, ⟨by decide, by decide⟩, pops_frame _ (by decide), returns_to_40 _ (by decide) (by decide)⟩

theorem witness_RtnReturnsToFrame :
    (∃ s1, rcsPop (stacked emState) = .ok (frameTo40, s1)) ∧
    ReturnBinds (stacked emState) frameTo40 (makeBreg (bankOf (stacked emState) ⟨0, 0o40⟩)) :=
  ⟨pops_frame _ (by decide), returns_to_40 _ (by decide) (by decide)⟩

theorem witness_UrReturnsToOperand :
    ReturnBinds bmState frameTo40 (makeBreg (bankOf bmState ⟨0, 0o40⟩)) ∧
    ReturnBinds emState ⟨0, 0, 0, false, 1, 0b000010, ⟨0, 0⟩⟩ .void :=
  ⟨returns_to_40 _ (by decide) (by decide), .inl ⟨by decide, by decide, rfl⟩⟩

theorem witness_ReturnFailures :
    ReturnFails emState ⟨0, 31, 0, false, 0, 0, ⟨0, 0⟩⟩ .invalidSourceLevelBDI ∧
    ReturnFails emState ⟨0, 0, 0, false, 0, 0, ⟨0, 0⟩⟩ .invalidSourceLevelBDI ∧
    ReturnFails emState ⟨0, 0o1000, 0, false, 0, 0, ⟨0, 0⟩⟩ .fatalAddressingException ∧
    ReturnFails emState ⟨0, 0o51, 0, false, 0, 0, ⟨0, 0⟩⟩ .bdTypeInvalid ∧
    (Pops jumpBack (.lij 5 0) ∧ Pops emState .rtn ∧ rcsPop emState = .raise (.stack .underflow 25 0o1000)) ∧
    (∃ s1, rcsPop (noTable.setRcsp 0o776) = .ok (frameTo40, s1)) ∧
    ReturnFails (noTable.setRcsp 0o776) frameTo40 .fatalAddressingException :=
  ⟨.inl ⟨by decide, rfl⟩, .inr (.inl ⟨by decide, by decide, rfl⟩), .inr (.inr (.inl ⟨by decide, by decide, rfl⟩)),
    .inr (.inr (.inr ⟨_, finds emState ⟨0, 0o51⟩ (by decide) (by decide), rfl, by decide, by decide⟩)),
    ⟨.inr ⟨5, 0, 2, .inr (.inr ⟨rfl, by decide⟩), by decide, by decide⟩, .inl rfl, by decide⟩,
    pops_frame _ (by decide), .inr (.inr (.inl ⟨by decide, by decide, rfl⟩))⟩

/-- The state of an outcome with a next state. -/
def nextState (o : Out) : State :=
  match o with
  | .next t => t
  | _ => State.reset

theorem nextState_eq {o : Out} (h : isNext o (fun _ => true) = true) : o = .next (nextState o) := by
  cases o with
  | next t => rfl
  | fault f => simp [isNext] at h
  | refused r => simp [isNext] at h

/-- The state after a CALL of bank 0o51. -/
def called : State := nextState (exec (.call ⟨0, 0o51, 0⟩) emState)

theorem witness_CallThenRtnRestoresCaller : emState.memory.wf = true ∧
    Reaches emState ⟨0, 0o51⟩ ⟨0, 0o51⟩ (bankOf emState ⟨0, 0o51⟩) ∧ MayLand emState (bankOf emState ⟨0, 0o51⟩) ∧
    callPush emState (bankOf emState ⟨0, 0o51⟩) = .ok (okState (callPush emState (bankOf emState ⟨0, 0o51⟩))) ∧
    exec (.call ⟨0, 0o51, 0⟩) emState = .next called ∧
    emState.params.rcsBreg ≠ callLanding emState (landingMode (bankOf emState ⟨0, 0o51⟩)) ∧
    ReturnBinds called (callFrame emState) (makeBreg (bankOf called ⟨0, 0o40⟩)) :=
  ⟨by decide, reaches_direct _ _ (by decide) (by decide) (by decide), ⟨.inr (by decide), by decide⟩, ok_okState (by decide),
    nextState_eq (by decide), by decide, .inr ⟨_, finds called ⟨0, 0o40⟩ (by decide) (by decide), rfl, .inl (by decide)⟩⟩

/-- The push of interrupt entry. -/
def interruptPush (s : State) : Access State :=
  rcsPush (leaveCaller s s.mode .em s.codeSel) (callerFrame s s.callerName s.callerSel s.par.pc true)

theorem witness_IntEntersHandler :
    vectorRead bmState 8 = .ok ⟨0, 0o60, 0⟩ ∧ FindsBank bmState ⟨0, 0o60⟩ (bankOf bmState ⟨0, 0o60⟩) ∧
    (bankOf bmState ⟨0, 0o60⟩).bankType = .extendedMode ∧ interruptPush bmState = .ok (okState (interruptPush bmState)) :=
  ⟨by decide, finds _ _ (by decide) (by decide), by decide, ok_okState (by decide)⟩

theorem witness_IntHaltsOnFailure :
    (vectorRead emState 10 = .ok ⟨0, 5, 0⟩ ∧ nameReservedOrVoid ⟨0, 5⟩ = true) ∧
    (vectorRead emState 11 = .ok ⟨0, 0o1000, 0⟩ ∧ nameReservedOrVoid ⟨0, 0o1000⟩ = false ∧
      findBd emState ⟨0, 0o1000⟩ = .ok none) ∧
    (vectorRead emState 9 = .ok ⟨0, 0o51, 0⟩ ∧ FindsBank emState ⟨0, 0o51⟩ (bankOf emState ⟨0, 0o51⟩) ∧
      (bankOf emState ⟨0, 0o51⟩).bankType ≠ .extendedMode) ∧
    (vectorRead noRoom 8 = .ok ⟨0, 0o60, 0⟩ ∧ FindsBank noRoom ⟨0, 0o60⟩ (bankOf noRoom ⟨0, 0o60⟩) ∧
      (bankOf noRoom ⟨0, 0o60⟩).bankType = .extendedMode ∧ noRoom.params.intPushesRcs = true ∧
      interruptPush noRoom = .raise (.stack .overflow 25 0o777777)) :=
  ⟨by decide, by decide, ⟨by decide, finds _ _ (by decide) (by decide), by decide⟩,
    ⟨by decide, finds _ _ (by decide) (by decide), by decide, by decide, by decide⟩⟩

/-- The state after an interrupt of class 8. -/
def interrupted : State := nextState (exec (.int 8) emState)

theorem witness_IntThenRtnResumes : emState.memory.wf = true ∧
    vectorRead emState 8 = .ok ⟨0, 0o60, 0⟩ ∧ FindsBank emState ⟨0, 0o60⟩ (bankOf emState ⟨0, 0o60⟩) ∧
    (bankOf emState ⟨0, 0o60⟩).bankType = .extendedMode ∧ emState.params.intPushesRcs = true ∧
    interruptPush emState = .ok (okState (interruptPush emState)) ∧ exec (.int 8) emState = .next interrupted ∧
    emState.params.rcsBreg ≠ emState.params.hardHeldSlot ∧
    ReturnBinds interrupted (callerFrame emState emState.callerName emState.callerSel emState.par.pc true)
      (makeBreg (bankOf interrupted ⟨0, 0o40⟩)) :=
  ⟨by decide, by decide, finds _ _ (by decide) (by decide), by decide, by decide, ok_okState (by decide),
    nextState_eq (by decide), by decide, .inr ⟨_, finds interrupted ⟨0, 0o40⟩ (by decide) (by decide), rfl, .inl (by decide)⟩⟩

/-- The frames `StorageWrittenByPushOnly`, `StackPointerMovesByFrames`, `DesignatorAndKeyFrame` and
`ParametersAndPortKept`: a request that pushes, one that pops and one that does neither go on to a next state. -/
theorem witness_frames :
    (∃ t, exec (.call ⟨0, 0o43, 0⟩) emState = .next t ∧ ends .ok t = true) ∧ Pushes emState (.call ⟨0, 0o43, 0⟩) ∧
    (∃ t, exec .rtn (stacked emState) = .next t ∧ ends .ok t = true) ∧ Pops (stacked emState) .rtn ∧
    (∃ t, exec (.goto ⟨0, 0o43, 0⟩) (emState.setBreg 25 .void) = .next t ∧ ends .ok t = true) ∧
    (emState.setBreg 25 .void).breg emState.params.rcsBreg = .void ∧
    emState.breg emState.params.rcsBreg = .bound (windowFields 0o60000 0 0o777) ∧
    emState.params.toggleDb31.contains .call = false :=
  ⟨of_isNext (by decide), .inl rfl, of_isNext (by decide), .inl rfl, of_isNext (by decide), by decide, by decide, by decide⟩

theorem witness_GeneralRegisterFrame :
    (∃ t, exec (.int 8) emState = .next t ∧ ends .ok t = true) ∧
    (∃ t, exec (.ldj 5 0o500) jumpTo51 = .next t ∧ ends .ok t = true) ∧ LxjSelects jumpTo51 (.ldj 5 0o500) 5 0o500 3 ∧
    (⟨.x, .user, 6⟩ : GrName) ≠ lxjRegister jumpTo51 5 ∧ (⟨.x, .user, 6⟩ : GrName) ≠ jumpTo51.params.linkGr ∧
    (⟨.x, .user, 6⟩ : GrName) ≠ jumpTo51.params.latentDest0 ∧ (⟨.x, .user, 6⟩ : GrName) ≠ jumpTo51.params.latentDest1 :=
  ⟨of_isNext (by decide), of_isNext (by decide), .inr (.inl ⟨rfl, by decide⟩), by decide, by decide, by decide, by decide⟩

theorem witness_BaseRegistersWrittenWhole :
    (startRequest (.call ⟨0, 0o51, 0⟩) emState).info.step ≠ .idle ∧
    ∃ t, engineStep (startRequest (.call ⟨0, 0o51, 0⟩) emState) = .next t ∧ (t.info.step == .s2) = true :=
  ⟨by decide, of_isNext (by decide)⟩

theorem witness_BindingFrame :
    (∃ t, exec (.lbe 15 ⟨0, 0o44, 0⟩) emState = .next t ∧ ends .ok t = true) ∧
    (∃ t, exec (.lbu 12 ⟨0, 0o51, 0⟩) emState = .next t ∧ ends .ok t = true) ∧
    (∃ t, exec (.lae laeNames) emState = .next t ∧ ends .ok t = true) ∧
    (∃ t, exec (.ur frameTo40) bmState = .next t ∧ ends .ok t = true) ∧ ¬IsLoad (.ur frameTo40) :=
  ⟨of_isNext (by decide), of_isNext (by decide), of_isNext (by decide), of_isNext (by decide), by
    simp [IsLoad, Instr.kind]⟩

theorem witness_ProgramCounterKeptOnFault :
    ∃ t, exec (.goto ⟨0, 0o42, 0⟩) emState = .next t ∧ (t.result != some .ok) = true := of_isNext (by decide)

/-- A caller in B12 with selector 0. -/
def prior (m : Mode) : Prior := ⟨m, 12, 0, ⟨0, 0o51⟩, 0o1001, 2, ⟨0, 0⟩, true, false, false⟩

/-- A record at a step. -/
def recordAt (n : StepNo) (k : OpKind) (source target : Mode) : Info :=
  { Info.idle with step := n, op := some k, prior := some (prior source), targetMode := some target }

theorem witness_StepElevenVoidsCaller :
    (recordAt .s11 .call .em .bm).step = .s11 ∧ (recordAt .s11 .call .em .bm).prior = some (prior .em) ∧
    (recordAt .s11 .call .em .bm).targetMode = some .bm ∧ (recordAt .s11 .call .bm .em).prior = some (prior .bm) ∧
    (recordAt .s11 .call .bm .em).targetMode = some .em ∧ (prior .em).mode = .em := by decide

theorem witness_StepSixteenRestores :
    (recordAt .s16 .rtn .em .bm).step = .s16 ∧ (recordAt .s16 .rtn .em .bm).isReturnLike = true ∧
    ({ recordAt .s16 .rtn .em .bm with popped := some frameTo40 }).popped = some frameTo40 ∧
    (recordAt .s16 .int .em .em).isReturnLike = false ∧ (recordAt .s16 .int .em .em).isInt = true ∧
    (recordAt .s16 .call .em .bm).isReturnLike = false ∧ (recordAt .s16 .call .em .bm).isInt = false := by decide

theorem witness_StepTwentyToggles :
    (recordAt .s20 .lij .bm .bm).step = .s20 ∧ (recordAt .s20 .lij .bm .bm).op = some .lij ∧
    (recordAt .s20 .lij .bm .bm).targetMode = some .bm ∧
    ({ recordAt .s20 .lij .bm .bm with form := some .normal }).isForward = true := by decide

end Sys2Proof.Tests
end

/-! SUPPORT. The proof that every well-formed request ends with an outcome the spec knows: the tracking of the record
(`engineSteps_track`) taken to the whole invocation, where the rank of a new record lies below the sequencer's fuel. -/

namespace Sys2Proof.Machine

/-- An invocation in progress whose rank lies below the steps of the run ends with an outcome the spec knows. -/
theorem specOutcome_engineSteps (i : Instr) (W n : Nat) (s : State) (hw : i.wf W = true) (h : Tracked i s.info)
    (hr : rank s.info < n) : SpecOutcome (engineSteps n s) := by
  have ht := engineSteps_track i W hw n s h hr
  cases he : engineSteps n s with
  | next t => rw [he] at ht; exact ht
  | fault f => rw [he] at ht; exact ht
  | refused r => rw [he] at ht; exact ht

/-- The sequencer adds no outcome: an engine that is idle within the fuel does not overrun. -/
theorem specOutcome_runEngine (s : State) (h : SpecOutcome (engineSteps engineFuel s)) : SpecOutcome (runEngine s) := by
  unfold runEngine
  cases he : engineSteps engineFuel s with
  | next t =>
    obtain ⟨hi, hne⟩ : t.info = Info.idle ∧ t.result ≠ none := by rw [he] at h; exact h
    have hidle : t.info.step = .idle := by rw [hi]; rfl
    simp only [hidle, if_true]
    exact ⟨hi, hne⟩
  | fault f => rw [he] at h; exact h
  | refused r => rw [he] at h; exact h

theorem rank_startRequest_lt_engineFuel (i : Instr) (s : State) : rank (startRequest i s).info < engineFuel := by
  rw [rank_startRequest]; decide

/-- Settles O13, by tracking which fields of the record are set: every engine step keeps the tracking and lowers the
rank, and a new record's rank is below the fuel. -/
theorem everyRequestHasSpecOutcome : Obligations.EveryRequestHasSpecOutcome := by
  intro i s hw
  rw [exec_eq_run]
  exact specOutcome_runEngine _ (specOutcome_engineSteps i s.params.intClassWidth engineFuel _ hw
    (startRequest_tracked i s) (rank_startRequest_lt_engineFuel i s))

end Sys2Proof.Machine

/-! SUPPORT. The rules of an engine step, one per field of the state: what each shared change leaves alone, and which
steps may write DR, IKR, RCSP, PAR, storage, the base registers and the general registers (read off `Effect`). -/

namespace Sys2Proof.Machine

/-! ### What the shared changes leave alone -/

/-- Recording a name writes at most one entry of the active base table. -/
theorem recordAbt_cases (s : State) (j : Slot) (n : BankName) :
    recordAbt s j n = s ∨ ∃ k, recordAbt s j n = s.setAbtEntry k n := by
  unfold recordAbt
  cases bmSelOf j with
  | none => exact .inl rfl
  | some k => exact .inr ⟨k, rfl⟩

@[simp] theorem recordAbt_params (s : State) (j : Slot) (n : BankName) : (recordAbt s j n).params = s.params := by
  rcases recordAbt_cases s j n with h | ⟨k, h⟩ <;> simp [h]
@[simp] theorem recordAbt_bregs (s : State) (j : Slot) (n : BankName) : (recordAbt s j n).bregs = s.bregs := by
  rcases recordAbt_cases s j n with h | ⟨k, h⟩ <;> simp [h]
@[simp] theorem recordAbt_breg (s : State) (j : Slot) (n : BankName) (k : Slot) :
    (recordAbt s j n).breg k = s.breg k := by
  simp [State.breg]
@[simp] theorem recordAbt_par (s : State) (j : Slot) (n : BankName) : (recordAbt s j n).par = s.par := by
  rcases recordAbt_cases s j n with h | ⟨k, h⟩ <;> simp [h]
@[simp] theorem recordAbt_dr (s : State) (j : Slot) (n : BankName) : (recordAbt s j n).dr = s.dr := by
  rcases recordAbt_cases s j n with h | ⟨k, h⟩ <;> simp [h]
@[simp] theorem recordAbt_ikr (s : State) (j : Slot) (n : BankName) : (recordAbt s j n).ikr = s.ikr := by
  rcases recordAbt_cases s j n with h | ⟨k, h⟩ <;> simp [h]
@[simp] theorem recordAbt_rcsp (s : State) (j : Slot) (n : BankName) : (recordAbt s j n).rcsp = s.rcsp := by
  rcases recordAbt_cases s j n with h | ⟨k, h⟩ <;> simp [h]
@[simp] theorem recordAbt_memory (s : State) (j : Slot) (n : BankName) : (recordAbt s j n).memory = s.memory := by
  rcases recordAbt_cases s j n with h | ⟨k, h⟩ <;> simp [h]
@[simp] theorem recordAbt_gr (s : State) (j : Slot) (n : BankName) (g : GrName) : (recordAbt s j n).gr g = s.gr g := by
  rcases recordAbt_cases s j n with h | ⟨k, h⟩ <;> simp [h]

@[simp] theorem voidPrior_params (s : State) (pr : Prior) (m : Mode) : (voidPrior s pr m).params = s.params := by
  unfold voidPrior; split <;> simp
@[simp] theorem voidPrior_dr (s : State) (pr : Prior) (m : Mode) : (voidPrior s pr m).dr = s.dr := by
  unfold voidPrior; split <;> simp
@[simp] theorem voidPrior_ikr (s : State) (pr : Prior) (m : Mode) : (voidPrior s pr m).ikr = s.ikr := by
  unfold voidPrior; split <;> simp
@[simp] theorem voidPrior_rcsp (s : State) (pr : Prior) (m : Mode) : (voidPrior s pr m).rcsp = s.rcsp := by
  unfold voidPrior; split <;> simp
@[simp] theorem voidPrior_memory (s : State) (pr : Prior) (m : Mode) : (voidPrior s pr m).memory = s.memory := by
  unfold voidPrior; split <;> simp
@[simp] theorem voidPrior_gr (s : State) (pr : Prior) (m : Mode) (g : GrName) : (voidPrior s pr m).gr g = s.gr g := by
  unfold voidPrior; split <;> simp

/-- Step 11 leaves a base register as it was or voids it (R85). -/
theorem voidPrior_breg (s : State) (pr : Prior) (m : Mode) (j : Slot) :
    (voidPrior s pr m).breg j = s.breg j ∨ (voidPrior s pr m).breg j = .void := by
  have voided : ∀ k : Slot, (if j = k then BaseRegister.void else s.breg j) = s.breg j ∨
      (if j = k then BaseRegister.void else s.breg j) = .void := fun k => by
    split
    · exact .inr rfl
    · exact .inl rfl
  unfold voidPrior
  split
  · simpa [setBreg_breg] using voided emCodeSlot
  · simpa [setBreg_breg] using voided pr.slot
  · exact .inl rfl
  · exact .inl rfl

@[simp] theorem recordBinding_params (s : State) (j : Slot) (n : BankName) :
    (recordBinding s j n).params = s.params := by
  unfold recordBinding; split <;> simp
@[simp] theorem recordBinding_breg (s : State) (j : Slot) (n : BankName) (k : Slot) :
    (recordBinding s j n).breg k = s.breg k := by
  unfold recordBinding; split <;> simp
@[simp] theorem recordBinding_dr (s : State) (j : Slot) (n : BankName) : (recordBinding s j n).dr = s.dr := by
  unfold recordBinding; split <;> simp
@[simp] theorem recordBinding_ikr (s : State) (j : Slot) (n : BankName) : (recordBinding s j n).ikr = s.ikr := by
  unfold recordBinding; split <;> simp
@[simp] theorem recordBinding_rcsp (s : State) (j : Slot) (n : BankName) : (recordBinding s j n).rcsp = s.rcsp := by
  unfold recordBinding; split <;> simp
@[simp] theorem recordBinding_memory (s : State) (j : Slot) (n : BankName) :
    (recordBinding s j n).memory = s.memory := by
  unfold recordBinding; split <;> simp
@[simp] theorem recordBinding_gr (s : State) (j : Slot) (n : BankName) (g : GrName) :
    (recordBinding s j n).gr g = s.gr g := by
  unfold recordBinding; split <;> simp

/-- Step 18 of a load records no name in PAR (R92). -/
theorem recordBinding_par_of_load (s : State) (j : Slot) (n : BankName) (h : s.info.isTransfer = false) :
    (recordBinding s j n).par = s.par := by
  unfold recordBinding
  rw [if_neg (by simp [h])]
  exact recordAbt_par s j n

@[simp] theorem gateTransfers_params (s : State) (g : GateRecord) : (gateTransfers s g).params = s.params :=
  (gateTransfers_frame s g).1
@[simp] theorem gateTransfers_bregs (s : State) (g : GateRecord) : (gateTransfers s g).bregs = s.bregs :=
  (gateTransfers_frame s g).2.1
@[simp] theorem gateTransfers_breg (s : State) (g : GateRecord) (j : Slot) : (gateTransfers s g).breg j = s.breg j := by
  simp [State.breg]
@[simp] theorem gateTransfers_par (s : State) (g : GateRecord) : (gateTransfers s g).par = s.par :=
  (gateTransfers_frame s g).2.2.2.1
@[simp] theorem gateTransfers_rcsp (s : State) (g : GateRecord) : (gateTransfers s g).rcsp = s.rcsp :=
  (gateTransfers_frame s g).2.2.2.2.1
@[simp] theorem gateTransfers_memory (s : State) (g : GateRecord) : (gateTransfers s g).memory = s.memory :=
  (gateTransfers_frame s g).2.2.2.2.2.1

/-- A gate writes DB12-17 of DR, where it does not inhibit that (R83). -/
theorem gateTransfers_dr (s : State) (g : GateRecord) :
    (gateTransfers s g).dr = if g.designatorBitsInhibited then s.dr else setDb12to17 s.dr g.db := by
  simp only [gateTransfers]
  split_ifs <;> simp

/-- A gate writes the key of IKR, where it does not inhibit that (R83). -/
theorem gateTransfers_ikr (s : State) (g : GateRecord) :
    (gateTransfers s g).ikr = if g.accessKeyInhibited then s.ikr else setAccessKey s.ikr g.key := by
  simp only [gateTransfers]
  split_ifs <;> simp

/-- A gate writes no general register but the two latent destinations (R83). -/
theorem gateTransfers_gr_other (s : State) (g : GateRecord) (r : GrName) (h0 : r ≠ s.params.latentDest0)
    (h1 : r ≠ s.params.latentDest1) : (gateTransfers s g).gr r = s.gr r := by
  simp only [gateTransfers]
  split_ifs <;> simp [setGr_gr, h0, h1]

/-! ### One rule per field -/

section Rules
variable {s s1 : State}

theorem Effect.params (h : Effect s s1) : s1.params = s.params := by
  cases h with
  | popped f _ _ h => rw [rcsPop_state _ _ _ h]; rfl
  | pushed pr _ _ _ _ h => exact (rcsPush_frame _ _ _ h).1
  | none | gate | voided | linked | linkedGr | restored | modeSet | counter | recorded | bound | flipped =>
    simp [restoreDesignators]

/-- Steps 11 and 19 alone write base registers, and write them whole (R14). -/
theorem Effect.breg (h : Effect s s1) (j : Slot) :
    s1.breg j = s.breg j ∨ ((s.info.step = .s11 ∨ s.info.step = .s19) ∧
      (s1.breg j = .void ∨ ∃ bd, s1.breg j = makeBreg bd)) := by
  cases h with
  | popped f _ _ h => rw [rcsPop_state _ _ _ h]; exact .inl rfl
  | pushed pr _ _ _ _ h => exact .inl (by simp [State.breg, (rcsPush_frame _ _ _ h).2.2.2.2.1])
  | voided pr m hs _ _ => exact (voidPrior_breg s pr m j).imp_right fun h => ⟨.inl hs, .inl h⟩
  | bound k r hs _ hr =>
    rw [setBreg_breg]
    split
    · exact .inr ⟨.inr hs, hr⟩
    · exact .inl rfl
  | none | gate | linked | linkedGr | restored | modeSet | counter | recorded | flipped => simp [restoreDesignators]

/-- A push alone writes storage (R35, R86). -/
theorem Effect.memory (h : Effect s s1) :
    s1.memory = s.memory ∨ (s.info.step = .s12 ∧ ∃ f, rcsPush s f = .ok s1) := by
  cases h with
  | popped f _ _ h => rw [rcsPop_state _ _ _ h]; exact .inl rfl
  | pushed pr _ hs _ _ h => exact .inr ⟨hs, _, h⟩
  | none | gate | voided | linked | linkedGr | restored | modeSet | counter | recorded | bound | flipped =>
    simp [restoreDesignators]

/-- A pop and a push alone move RCSP (R22). -/
theorem Effect.rcsp (h : Effect s s1) : s1.rcsp = s.rcsp ∨ (s.info.step = .s3 ∧ s1.rcsp = s.rcsp + 2) ∨
    (s.info.step = .s12 ∧ s.info.isCall = true ∧ s1.rcsp = s.rcsp - 2) := by
  cases h with
  | popped f _ hs h => exact .inr (.inl ⟨hs, by rw [rcsPop_state _ _ _ h]; rfl⟩)
  | pushed pr _ hs hc _ h =>
    obtain ⟨_, _, _, _, _, _, _, e⟩ := rcsPush_ok _ _ _ h
    exact .inr (.inr ⟨hs, hc, by rw [e]; rfl⟩)
  | none | gate | voided | linked | linkedGr | restored | modeSet | counter | recorded | bound | flipped =>
    simp [restoreDesignators]

/-- Step 9 and step 16 write DB12-17 or DB16, step 20 flips DB31 (R83, R90, R94). -/
theorem Effect.dr (h : Effect s s1) : s1.dr = s.dr ∨
    ((s.info.step = .s9 ∨ s.info.step = .s16) ∧
      ((∃ v, s1.dr = setDb12to17 s.dr v) ∨ ∃ b, s1.dr = setDb16 s.dr b)) ∨
    (s.info.step = .s20 ∧ s1.dr = flipDb31 s.dr) := by
  cases h with
  | popped f _ _ h => rw [rcsPop_state _ _ _ h]; exact .inl rfl
  | pushed pr _ _ _ _ h => exact .inl (rcsPush_frame _ _ _ h).2.1
  | gate g hs =>
    rw [gateTransfers_dr]
    split
    · exact .inl rfl
    · exact .inr (.inl ⟨.inl hs, .inl ⟨_, rfl⟩⟩)
  | restored db key hs => exact .inr (.inl ⟨.inr hs, .inl ⟨db, rfl⟩⟩)
  | modeSet b hs => exact .inr (.inl ⟨.inr hs, .inr ⟨b, rfl⟩⟩)
  | flipped hs => exact .inr (.inr ⟨hs, rfl⟩)
  | none | voided | linked | linkedGr | counter | recorded | bound => simp

/-- Step 9 and step 16 alone write IKR, and of it the key (R83, R90). -/
theorem Effect.ikr (h : Effect s s1) : s1.ikr = s.ikr ∨
    ((s.info.step = .s9 ∨ s.info.step = .s16) ∧ ∃ k, s1.ikr = setAccessKey s.ikr k) := by
  cases h with
  | popped f _ _ h => rw [rcsPop_state _ _ _ h]; exact .inl rfl
  | pushed pr _ _ _ _ h => exact .inl (rcsPush_frame _ _ _ h).2.2.1
  | gate g hs =>
    rw [gateTransfers_ikr]
    split
    · exact .inl rfl
    · exact .inr ⟨.inl hs, _, rfl⟩
  | restored db key hs => exact .inr ⟨.inr hs, key, rfl⟩
  | none | voided | linked | linkedGr | modeSet | counter | recorded | bound | flipped => simp

/-- PAR is written by step 11, by step 17, and by step 18 of a transfer (R85, R91, R92). -/
theorem Effect.par (h : Effect s s1) : s1.par = s.par ∨ s.info.step = .s11 ∨ s.info.step = .s17 ∨
    (s.info.step = .s18 ∧ s.info.isTransfer = true) := by
  cases h with
  | popped f _ _ h => rw [rcsPop_state _ _ _ h]; exact .inl rfl
  | pushed pr _ _ _ _ h => exact .inl (rcsPush_frame _ _ _ h).2.2.2.1
  | voided pr m hs _ _ => exact .inr (.inl hs)
  | counter off hs _ => exact .inr (.inr (.inl hs))
  | recorded j n hs _ _ =>
    cases ht : s.info.isTransfer with
    | true => exact .inr (.inr (.inr ⟨hs, rfl⟩))
    | false => exact .inl (recordBinding_par_of_load s j n ht)
  | none | gate | linked | linkedGr | restored | modeSet | bound | flipped => simp [restoreDesignators]

/-- General registers are written by step 9, by step 13 of an LxJ and by step 14 (R83, R87, R88). -/
theorem Effect.gr (h : Effect s s1) (g : GrName) : s1.gr g = s.gr g ∨
    (s.info.step = .s9 ∧ (g = s.params.latentDest0 ∨ g = s.params.latentDest1)) ∨
    (s.info.step = .s13 ∧ (s.info.isLxjForm .normal || s.info.isLxjForm .call) = true) ∨
    (s.info.step = .s14 ∧ (s.info.isForward || s.info.isLxjForm .normal) = true ∧ g = s.params.linkGr) := by
  cases h with
  | popped f _ _ h => rw [rcsPop_state _ _ _ h]; exact .inl rfl
  | pushed pr _ _ _ _ h =>
    obtain ⟨_, _, _, _, _, _, _, e⟩ := rcsPush_ok _ _ _ h
    rw [e]; exact .inl rfl
  | gate r hs =>
    by_cases hd : g = s.params.latentDest0 ∨ g = s.params.latentDest1
    · exact .inr (.inl ⟨hs, hd⟩)
    · obtain ⟨h0, h1⟩ := not_or.mp hd
      exact .inl (gateTransfers_gr_other s r g h0 h1)
  | linked pr a hs _ hf => exact .inr (.inr (.inl ⟨hs, hf⟩))
  | linkedGr pr hs _ hf =>
    rw [setGr_gr]
    split
    · rename_i hg; exact .inr (.inr (.inr ⟨hs, hf, hg⟩))
    · exact .inl rfl
  | none | voided | restored | modeSet | counter | recorded | bound | flipped => simp [restoreDesignators]

end Rules

/-- An engine step makes one of the changes of `Effect`, and otherwise writes the record and the result alone. -/
theorem engineStep_change (s t : State) (hs : s.info.step ≠ .idle) (h : engineStep s = .next t) :
    ∃ s1 j r, Effect s s1 ∧ t = (s1.setInfo j).setResult r := by
  obtain ⟨s1, he, hp⟩ := engineStep_effect s t hs h
  cases hp with
  | goes j _ _ => exact ⟨s1, j, s1.result, he, rfl⟩
  | ends c => exact ⟨s1, Info.idle, some c, he, rfl⟩

/-- Settles O54: of the changes an engine step can make, only those of steps 11 and 19 reach a base register. -/
theorem baseRegistersWrittenWhole : Obligations.BaseRegistersWrittenWhole := by
  intro s t j hs h
  obtain ⟨s1, i, r, he, rfl⟩ := engineStep_change s t hs h
  simp only [setResult_breg, setInfo_breg]
  rcases he.breg j with hj | ⟨hstep, hj⟩
  · exact ⟨fun _ _ => hj, .inl hj⟩
  · exact ⟨fun h11 h19 => absurd hstep (not_or.mpr ⟨h11, h19⟩), .inr hj⟩

end Sys2Proof.Machine

/-! SUPPORT. The step of the machine: it runs the request at the port, and it keeps the invariant. Storage and base
registers are kept by every engine step; the record is empty whenever the engine is idle. -/

namespace Sys2Proof.Machine

/-- Settles O6, by the definition of `step`: the engine is idle, so the step looks at the port. -/
theorem stepRunsDecodedRequest : Obligations.StepRunsDecodedRequest := by
  intro s i rest hrun hidle _ hreq
  simp [step, hrun, hidle, hreq]

/-- What a step that goes on has done: it ran an invocation, or it found an idle engine with an empty port. -/
theorem step_next (s t : State) (hidle : s.info.step = .idle) (h : step s = .next t) :
    t = s ∨ ∃ i rest, exec i (s.setPort rest) = .next t := by
  unfold step at h
  split at h
  · simp at h
  · rw [if_neg (by simp [hidle])] at h
    split at h
    · rename_i i rest _
      exact .inr ⟨i, rest, h⟩
    · rename_i e _
      cases e with
      | noRequest => exact .inl (by simpa [rejectRequest] using h.symm)
      | reservedRequestCode => simp [rejectRequest] at h
      | truncatedRequest => simp [rejectRequest] at h

/-- The invariant between engine steps: that of idle states, but that a running invocation has its record. -/
structure State.RunInv (s : State) : Prop where
  memory : s.memory.wf = true
  bregs : ∀ j : Slot, (s.breg j).wf = true
  idle : s.info.step = .idle → s.info = Info.idle

theorem Effect.memory_wf {s s1 : State} (h : Effect s s1) (hm : s.memory.wf = true) : s1.memory.wf = true := by
  rcases h.memory with e | ⟨_, f, hp⟩
  · rw [e]; exact hm
  · exact wf_rcsPush s s1 f hm hp

theorem Effect.breg_wf {s s1 : State} (h : Effect s s1) (j : Slot) (hb : (s.breg j).wf = true) :
    (s1.breg j).wf = true := by
  rcases h.breg j with e | ⟨_, e | ⟨bd, e⟩⟩
  · rw [e]; exact hb
  · rw [e]; rfl
  · rw [e]; exact makeBreg_wf bd

theorem engineStep_runInv (s t : State) (hi : s.RunInv) (hs : s.info.step ≠ .idle) (h : engineStep s = .next t) :
    t.RunInv := by
  obtain ⟨s1, he, hp⟩ := engineStep_effect s t hs h
  have hm := he.memory_wf hi.memory
  have hb := fun j => he.breg_wf j (hi.bregs j)
  cases hp with
  | goes j hj _ => exact ⟨hm, hb, fun e => absurd e hj⟩
  | ends c => exact ⟨hm, hb, fun _ => rfl⟩

theorem runEngine_inv (s t : State) (hi : s.RunInv) (h : runEngine s = .next t) : t.Inv := by
  obtain ⟨hrun, hidle⟩ := runEngine_next s t h
  obtain ⟨hm, hb, hinfo⟩ := engineSteps_inv State.RunInv engineStep_runInv _ s t hi hrun
  exact ⟨hm, hb, hinfo hidle⟩

/-- An invocation starts with the invariant of its state. -/
theorem startRequest_runInv (i : Instr) (s : State) (hm : s.memory.wf = true) (hb : ∀ j : Slot, (s.breg j).wf = true) :
    (startRequest i s).RunInv := by
  rw [startRequest_eq]
  exact ⟨hm, hb, fun e => by simp [startInvocation] at e⟩

/-- Settles O11: every engine step keeps `State.RunInv`, and a step of the machine is a run of engine steps. -/
theorem stepKeepsInvariant : Obligations.StepKeepsInvariant := by
  intro s t hi h
  rcases step_next s t (by rw [hi.idle]; rfl) h with rfl | ⟨i, rest, h⟩
  · exact hi
  · rw [exec_eq_run] at h
    exact runEngine_inv _ t (startRequest_runInv i (s.setPort rest) hi.memory hi.bregs) h

end Sys2Proof.Machine

/-! SUPPORT. The return control stack: the frame codec, two words written and read back, and the pop after a push. -/

namespace Sys2Proof.Machine

/-- The fields of a frame's second word stand where a decoder takes them from (R60). -/
theorem extract_encodeFrame1 (f : Frame) : (encodeFrame1 f).extractLsb' 0 18 = encodeKey f.key ∧
    (encodeFrame1 f).extractLsb' 18 6 = f.db ∧ (encodeFrame1 f).extractLsb' 32 2 = f.sel ∧
    (encodeFrame1 f).getLsbD 35 = f.trap := by
  simp only [encodeFrame1]
  refine ⟨?key, ?db, ?sel, ?trap⟩
  case key =>
    refine BitVec.eq_of_getLsbD_eq fun i hi => ?_
    simp only [BitVec.getLsbD_extractLsb', BitVec.getLsbD_cast, BitVec.getLsbD_append, hi, Nat.zero_add, if_true,
      decide_true, Bool.true_and]
  case db =>
    refine BitVec.eq_of_getLsbD_eq fun i hi => ?_
    have h18 : ¬18 + i < 18 := by omega
    simp only [BitVec.getLsbD_extractLsb', BitVec.getLsbD_cast, BitVec.getLsbD_append, hi, h18, Nat.add_sub_cancel_left,
      if_true, if_false, decide_true, Bool.true_and]
  case sel =>
    refine BitVec.eq_of_getLsbD_eq fun i hi => ?_
    have h18 : ¬32 + i < 18 := by omega
    have h24 : ¬32 + i - 18 < 6 := by omega
    have h32 : ¬32 + i - 18 - 6 < 8 := by omega
    have hpos : 32 + i - 18 - 6 - 8 = i := by omega
    simp only [BitVec.getLsbD_extractLsb', BitVec.getLsbD_cast, BitVec.getLsbD_append, hi, h18, h24, h32, hpos, if_true,
      if_false, decide_true, Bool.true_and]
  case trap =>
    simp only [BitVec.getLsbD_cast, BitVec.getLsbD_append]
    simp

/-- A frame decodes from its two words (R60, R64). -/
theorem decodeFrame_encodeFrame (f : Frame) : decodeFrame (encodeFrame0 f) (encodeFrame1 f) = f := by
  obtain ⟨hkey, hdb, hsel, htrap⟩ := extract_encodeFrame1 f
  simp only [decodeFrame, encodeFrame0, decodeVa_encodeVa, hkey, hdb, hsel, htrap, decodeKey_encodeKey]

/-- A read of two words is a read of each (R35). -/
theorem memRead_two (s : State) (a : AbsoluteAddress) (w0 w1 : Word) (h0 : readWord s a = .ok w0)
    (h1 : readWord s (addressPlus a 1) = .ok w1) : memRead s a 2 = .ok #v[w0, w1] := by
  have ha : addressPlus a 0 = a := by simp [addressPlus]
  simp [memRead, ha, h0, h1]

/-- The word after an address is at another address. -/
theorem addressPlus_one_ne (a : AbsoluteAddress) : a ≠ addressPlus a 1 := fun h => by
  have : a.offset = a.offset + (1 : Nat) := congrArg AbsoluteAddress.offset h
  omega

/-- Two words written read back, in canonical storage. -/
theorem memRead_memWrite2 (s t : State) (a : AbsoluteAddress) (v0 v1 : Word) (hm : s.memory.wf = true)
    (h : memWrite2 s a v0 v1 = .ok t) : memRead t a 2 = .ok #v[v0, v1] := by
  obtain ⟨u, hu, ht, _⟩ := memWrite2_ok s t a v0 v1 h
  have first : readWord t a = .ok v0 := by
    rw [readWord_writeWord_other u t _ a v1 (addressPlus_one_ne a) ht]
    exact readWord_writeWord_same s u a v0 hm hu
  have second : readWord t (addressPlus a 1) = .ok v1 :=
    readWord_writeWord_same u t _ v1 (wf_writeWord s u a v0 hm hu) ht
  exact memRead_two t a v0 v1 first second

/-- A pop whose two words lie inside the stack's bank (R41). -/
theorem rcsPop_of_memRead (s : State) (r : Bound) (w0 w1 : Word) (hb : s.breg s.params.rcsBreg = .bound r)
    (hl : r.lln.toNat ≤ s.rcsp.toNat) (hu : s.rcsp.toNat + 1 ≤ r.uln.toNat)
    (hw : memRead s (relToAbs r s.rcsp.toNat) 2 = .ok #v[w0, w1]) :
    rcsPop s = .ok (decodeFrame w0 w1, s.setRcsp (s.rcsp + 2)) := by
  have inside : ¬(r.uln.toNat < s.rcsp.toNat + 1 ∨ s.rcsp.toNat < r.lln.toNat) := by omega
  simp only [rcsPop, hb, if_neg inside, hw]
  rfl

/-- Where a frame fits, RCSP − 2 does not wrap around (R42). -/
theorem toNat_sub_two (p : BitVec 18) (h : (0 : Int) ≤ (p.toNat : Int) - 2) :
    ((p - 2).toNat : Int) = (p.toNat : Int) - 2 := by
  bv_omega

/-- Settles O20: the push stores the frame's two words where the pop reads them, and both words decode to the frame. -/
theorem pushThenPop : Obligations.PushThenPop := by
  intro s t f hm h
  obtain ⟨r, s1, hb, hl, hu, hw, ht, hframe⟩ := rcsPush_ok s t f h
  have hp : t.params = s.params := (rcsPush_frame s t f h).1
  have hbt : t.breg t.params.rcsBreg = .bound r := by
    rw [hp, hframe]
    exact hb
  have hrcsp : t.rcsp = s.rcsp - 2 := by rw [ht]; rfl
  have hnat : (t.rcsp.toNat : Int) = (s.rcsp.toNat : Int) - 2 := by
    rw [hrcsp]
    exact toNat_sub_two s.rcsp (by omega)
  have hread : memRead t (relToAbs r t.rcsp.toNat) 2 = .ok #v[encodeFrame0 f, encodeFrame1 f] := by
    rw [hnat, memRead_congr s1 t _ 2 (by rw [ht]; rfl) (by rw [ht]; rfl)]
    exact memRead_memWrite2 s s1 _ _ _ hm hw
  rw [rcsPop_of_memRead t r _ _ hbt (by omega) (by omega) hread, decodeFrame_encodeFrame, hrcsp, BitVec.sub_add_cancel]

end Sys2Proof.Machine

/-! SUPPORT. The order of the steps and what the record keeps from one to the next (R73): `engineStep_goes` says both
once, so that a statement about whole invocations can tell which steps a request passes. -/

namespace Sys2Proof.Machine

/-- The steps that may come after the step of a record (R73 to R96). -/
def Follows (i : Info) (n : StepNo) : Prop :=
  match i.step with
  | .idle => False
  | .s1 => n = if i.isLoad then .s3 else .s2
  | .s2 => n = .s3
  | .s3 => n = .s4
  | .s4 => n = .s5
  | .s5 => n = .s6 ∨ n = .s10
  | .s6 => n = .s7
  | .s7 => n = .s8 ∨ n = .s10 ∨ (n = .s9 ∧ i.isForward = true)
  | .s8 => n = .s10 ∨ (n = .s9 ∧ i.isForward = true)
  | .s9 => n = .s10
  | .s10 => n = if i.isLoad then .s18 else .s11
  | .s11 => n = .s12
  | .s12 => n = .s13
  | .s13 => n = .s14
  | .s14 => n = .s15
  | .s15 => n = .s16 ∨ n = .s17
  | .s16 => n = .s17
  | .s17 => n = .s18
  | .s18 => n = .s19
  | .s19 => n = afterBind i
  | .s20 => n = .s21
  | .s21 => n = .s3 ∧ i.op = some .lae

/-- Two records of one request: operation, a-field, form and the caller's snapshot are the same. -/
def SameRequest (i j : Info) : Prop := j.op = i.op ∧ j.a = i.a ∧ j.form = i.form ∧ j.prior = i.prior

theorem SameRequest.refl (i : Info) : SameRequest i i := ⟨rfl, rfl, rfl, rfl⟩

theorem SameRequest.of_eq {i j : Info} (h : j = i) : SameRequest i j := h ▸ SameRequest.refl i

/-- How a record goes on: the operation and the a-field stay, step 1 alone sets the form and step 2 alone the caller's
snapshot, and the next step is one that may follow. -/
structure Goes (i j : Info) : Prop where
  op : j.op = i.op
  a : j.a = i.a
  form : i.step ≠ .s1 → j.form = i.form
  prior : i.step ≠ .s2 → j.prior = i.prior
  next : Follows i j.step

/-- An answer of a step that ends the invocation or goes on with its record. -/
def Continues (s : State) (o : Out) : Prop := ∀ t, o = .next t → t.info = Info.idle ∨ Goes s.info t.info

section Continue
variable {s u : State}

theorem continues_need {α : Type} {o : Option α} {k : α → Out} (h : ∀ a, o = some a → Continues s (k a)) :
    Continues s (need o k) := fun t ht => by
  obtain ⟨a, ha, hk⟩ := need_next o k t ht
  exact h a ha t hk

theorem continues_stop (f : Fault) : Continues s (.fault f) := fun t ht => by simp at ht

theorem continues_refuse (r : Refusal) : Continues s (.refused r) := fun t ht => by simp at ht

theorem continues_end (c : Completion) : Continues s (endInvocation c u) := fun t ht => by
  simp only [endInvocation_eq, Host.Outcome.next.injEq] at ht
  exact .inl (ht ▸ rfl)

theorem continues_raise (f : EngineFault) : Continues s (raise f u) := by
  rw [raise_eq]
  exact continues_end _

theorem continues_access {α : Type} {x : Access α} {k : α → Out} (h : ∀ a, x = .ok a → Continues s (k a)) :
    Continues s (onAccess x u k) := fun t ht => by
  rcases onAccess_next x u t k ht with ⟨a, ha, hk⟩ | ⟨f, _, hk⟩ | ⟨e, _, rfl⟩
  · exact h a ha t hk
  · exact continues_raise f t hk
  · exact .inl rfl

theorem continues_goes {n : StepNo} (h : Goes s.info { u.info with step := n }) : Continues s (goto n u) :=
  fun t ht => by
  simp only [goto, Host.Outcome.next.injEq] at ht
  exact .inr (ht ▸ h)

/-- A step that goes on with the same request. -/
theorem continues_goto {n : StepNo} (hu : SameRequest s.info u.info) (hn : Follows s.info n) :
    Continues s (goto n u) :=
  continues_goes ⟨hu.1, hu.2.1, fun _ => hu.2.2.1, fun _ => hu.2.2.2, hn⟩

end Continue

/-! ### Each step -/

section Steps
variable {s : State}

theorem isLoad_of_op {i : Info} {op : OpKind} (h : i.op = some op) : i.isLoad = kindIsLoad op := by
  simp [Info.isLoad, h]

theorem isLxj_of_op {i : Info} {op : OpKind} (h : i.op = some op) : i.isLxj = kindIsLxj op := by
  simp [Info.isLxj, h]

theorem not_load_of_lxj {op : OpKind} (h : kindIsLxj op = true) : kindIsLoad op = false := by
  cases op with
  | lbj | ldj | lij => rfl
  | call | goto | lae | lbe | lbu | rtn | ur | int => simp [kindIsLxj] at h

/-- What step 1 of an LxJ finds and records (R75). -/
theorem step1Lxj_next (a : RegIndex) (t : State) (h : step1Lxj s a = .next t) :
    t.info = Info.idle ∨ (linkIs (s.gr (lxjRegister s a)) ≠ 3 ∧
      t.info = { s.info with step := .s2, xlink := some (s.gr (lxjRegister s a)),
                             form := some (formOf s.params (linkIs (s.gr (lxjRegister s a)))) }) := by
  simp only [step1Lxj] at h
  split at h
  · simp only [raiseAddressing, raise_eq, Host.Outcome.next.injEq] at h
    exact .inl (h ▸ rfl)
  · rename_i his
    simp only [goto, Host.Outcome.next.injEq] at h
    exact .inr ⟨his, h ▸ rfl⟩

theorem step1_continues (hs : s.info.step = .s1) : Continues s (step1 s) := by
  have load : ∀ u : State, SameRequest s.info u.info → s.info.isLoad = true → Continues s (goto .s3 u) := fun u hu hl =>
    continues_goto hu (by simp [Follows, hs, hl])
  refine continues_need fun op hop => ?_
  have hload := isLoad_of_op hop
  split
  · rename_i hlbu
    subst hlbu
    refine continues_need fun a _ => ?_
    split
    · exact continues_raise _
    · exact load s (.refl _) hload
  · split
    · rename_i hx
      refine continues_need fun a _ => fun t ht => ?_
      refine (step1Lxj_next a t ht).imp_right fun ⟨_, e⟩ => ?_
      rw [e]
      refine ⟨rfl, rfl, fun h => absurd hs h, fun _ => rfl, ?_⟩
      simp [Follows, hs, hload, not_load_of_lxj hx]
    · split
      · rename_i hlae
        subst hlae
        exact load _ ⟨rfl, rfl, rfl, rfl⟩ hload
      · split
        · rename_i hk
          exact load s (.refl _) (hload.trans hk)
        · rename_i hk
          exact continues_goto (.refl _) (by simp [Follows, hs, hload, hk])

/-- What step 2 records (R76). -/
theorem step2_next (t : State) (h : step2 s = .next t) :
    ∃ op x, t.info = { s.info with step := .s3, prior := some (capturePrior s op x) } := by
  obtain ⟨op, _, h⟩ := need_next _ _ t h
  split at h
  · obtain ⟨x, _, h⟩ := need_next _ _ t h
    simp only [goto, Host.Outcome.next.injEq] at h
    exact ⟨op, x, h ▸ rfl⟩
  · simp only [goto, Host.Outcome.next.injEq] at h
    exact ⟨op, 0, h ▸ rfl⟩

theorem step2_continues (hs : s.info.step = .s2) : Continues s (step2 s) := fun t ht => by
  obtain ⟨op, x, e⟩ := step2_next t ht
  rw [e]
  exact .inr ⟨rfl, rfl, fun _ => rfl, fun h => absurd hs h, by simp [Follows, hs]⟩

/-- Step 3 once the source is known. -/
theorem withSource_continues (hs : s.info.step = .s3) (v : VA) : Continues s (goto .s4 (withSource s v)) :=
  continues_goto (.refl _) (by simp [Follows, hs])

/-- Step 3 of a return whose frame is at hand. -/
theorem step3Frame_continues (hs : s.info.step = .s3) (u : State) (hu : SameRequest s.info u.info) (f : Frame) :
    Continues s (step3Frame u f) :=
  continues_goto hu (by simp [Follows, hs])

theorem step3Pop_continues (hs : s.info.step = .s3) :
    Continues s (onAccess (rcsPop s) s fun r => step3Frame r.2 r.1) :=
  continues_access fun r hr => step3Frame_continues hs r.2 (by rw [rcsPop_state s r.2 r.1 hr]; exact .refl _) r.1

theorem step3Lxj_continues (hs : s.info.step = .s3) : Continues s (step3Lxj s) := by
  refine continues_need fun f _ => ?_
  split
  · exact step3Pop_continues hs
  · refine continues_need fun x _ => ?_
    split
    · exact withSource_continues hs _
    · exact continues_stop _

theorem step3_continues (hs : s.info.step = .s3) : Continues s (step3 s) := by
  have source : ∀ v, Continues s (goto .s4 (withSource s v)) := withSource_continues hs
  refine continues_need fun op _ => ?_
  cases op with
  | int => exact continues_need fun c _ => continues_access fun v _ => source v
  | rtn => exact step3Pop_continues hs
  | lbj | ldj | lij => exact step3Lxj_continues hs
  | ur =>
    simp only
    split
    · exact step3Frame_continues hs s (.refl _) _
    · exact continues_stop _
  | lae =>
    simp only
    split
    · exact continues_need fun i _ => continues_need fun v _ => source v
    · exact continues_stop _
  | call | goto | lbe | lbu =>
    simp only
    split
    · exact source _
    · exact continues_stop _

theorem step4_continues (hs : s.info.step = .s4) : Continues s (step4 s) := by
  refine continues_need fun v _ => ?_
  split
  · exact continues_raise _
  · exact continues_goto (.refl _) (by simp [Follows, hs])

theorem step5_continues (hs : s.info.step = .s5) : Continues s (step5 s) := by
  have void : Continues s (goto .s10 (withVoidTarget s)) := continues_goto (.refl _) (by simp [Follows, hs])
  have on : Continues s (goto .s6 s) := continues_goto (.refl _) (by simp [Follows, hs])
  refine continues_need fun v _ => ?_
  split
  · split
    · exact continues_raise _
    · split
      · exact void
      · split
        · refine continues_need fun f _ => ?_
          split
          · exact void
          · exact continues_raise _
        · split
          · exact continues_raise _
          · exact on
  · exact on

theorem step6_continues (hs : s.info.step = .s6) : Continues s (step6 s) := by
  refine continues_need fun v _ => continues_access fun o _ => ?_
  cases o with
  | none => exact continues_raise _
  | some bd => exact continues_goto (.refl _) (by simp [Follows, hs])

/-- The end of steps 7 and 8 for a bank that may be bound, with or without the void substitution. -/
theorem enterThenBind_continues {u : State} (hu : SameRequest s.info u.info) (hn : Follows s.info .s10)
    (bd : BankDescriptor) : Continues s (enterThenBind u bd) := by
  unfold enterThenBind
  split
  · exact continues_raise _
  · exact continues_goto hu hn

theorem withSubstitution_sameRequest {u : State} (hu : SameRequest s.info u.info) (bd : BankDescriptor) :
    SameRequest s.info (withSubstitution u bd).info := by
  unfold withSubstitution
  split <;> exact hu

theorem step7_continues (hs : s.info.step = .s7) : Continues s (step7 s) := by
  have hn : Follows s.info .s10 := by simp [Follows, hs]
  have on : Continues s (goto .s10 s) := continues_goto (.refl _) hn
  refine continues_need fun bd _ => ?_
  split
  · exact enterThenBind_continues (.refl _) hn bd
  · split
    · exact continues_raise _
    · split
      · refine continues_need fun f _ => ?_
        split
        · exact on
        · exact continues_raise _
      · exact enterThenBind_continues (withSubstitution_sameRequest (.refl _) bd) hn bd
  · split
    · exact continues_raise _
    · split
      · rename_i hf
        exact continues_goto (.refl _) (by simp [Follows, hs, hf])
      · split
        · exact continues_raise _
        · exact on
  · split
    · exact continues_raise _
    · split
      · exact continues_goto (.refl _) (by simp [Follows, hs])
      · exact continues_raise _
  · exact continues_raise _
  · split
    · exact on
    · exact continues_raise _

/-- Step 8's dispatch; `u` holds the record with the indirect's target. -/
theorem step8Dispatch_continues (hs : s.info.step = .s8) {u : State} (hu : SameRequest s.info u.info)
    (t : BankDescriptor) : Continues s (step8Dispatch u t) := by
  have hn : Follows s.info .s10 := by simp [Follows, hs]
  have hf : u.info.isForward = s.info.isForward := by
    simp only [Info.isForward, Info.isLxjForm, Info.isLxj, hu.1, hu.2.2.1]
  unfold step8Dispatch
  split
  · exact enterThenBind_continues hu hn t
  · exact enterThenBind_continues (withSubstitution_sameRequest hu t) hn t
  · split
    · rename_i h
      exact continues_goto hu (by simp [Follows, hs, ← hf, h])
    · exact continues_goto hu hn
  · exact continues_raise _
  · exact continues_raise _
  · split
    · exact continues_goto hu hn
    · exact continues_raise _

theorem step8_continues (hs : s.info.step = .s8) : Continues s (step8 s) := by
  refine continues_need fun bd _ => ?_
  split
  · exact continues_raise _
  · split
    · exact continues_raise _
    · refine continues_access fun o _ => ?_
      cases o with
      | none => exact continues_raise _
      | some t =>
        refine step8Dispatch_continues hs ?_ t
        exact ⟨rfl, rfl, rfl, rfl⟩

theorem step9Target_continues (hs : s.info.step = .s9) {u : State} (hu : SameRequest s.info u.info) (g : GateRecord) :
    Continues s (step9Target u g) := by
  unfold step9Target
  split
  · exact continues_raise _
  · refine continues_access fun o _ => ?_
    cases o with
    | none => exact continues_raise _
    | some t =>
      simp only
      split
      · exact continues_goto hu (by simp [Follows, hs])
      · exact continues_raise _

theorem step9_continues (hs : s.info.step = .s9) : Continues s (step9 s) := by
  refine continues_need fun gb _ => continues_need fun v _ => ?_
  split
  · exact continues_raise _
  · split
    · exact continues_raise _
    · split
      · exact continues_raise _
      · refine continues_access fun g _ => ?_
        unfold step9Record
        split
        · exact continues_refuse _
        · split
          · exact continues_raise _
          · split
            · exact continues_raise _
            · exact step9Target_continues hs (.of_eq (gateTransfers_info s g)) g

theorem landIn_continues (hs : s.info.step = .s10) (hl : s.info.isLoad = false) (m : Mode) (slot : Slot) :
    Continues s (landIn s m slot) :=
  continues_goto ⟨rfl, rfl, rfl, rfl⟩ (by simp [Follows, hs, hl])

theorem loadInto_continues (hs : s.info.step = .s10) (hl : s.info.isLoad = true) (slot : Slot) :
    Continues s (loadInto s slot) :=
  continues_goto ⟨rfl, rfl, rfl, rfl⟩ (by simp [Follows, hs, hl])

theorem step10Return_continues (hs : s.info.step = .s10) (hl : s.info.isLoad = false) (slot : Slot) :
    Continues s (step10Return s slot) := by
  refine continues_need fun f _ => ?_
  split <;> exact landIn_continues hs hl _ _

theorem step10_continues (hs : s.info.step = .s10) : Continues s (step10 s) := by
  refine continues_need fun op hop => ?_
  have hload := isLoad_of_op hop
  cases op with
  | lae => exact continues_need fun i _ => loadInto_continues hs hload _
  | lbe => exact continues_need fun a _ => loadInto_continues hs hload _
  | lbu => exact continues_need fun a _ => loadInto_continues hs hload _
  | int => exact landIn_continues hs hload _ _
  | ur => exact step10Return_continues hs hload _
  | rtn => exact step10Return_continues hs hload _
  | lbj | ldj | lij =>
    simp only
    split
    · exact step10Return_continues hs hload _
    · exact continues_need fun t _ => continues_need fun pr _ => landIn_continues hs hload _ _
  | call | goto =>
    exact continues_need fun t _ => continues_need fun pr _ => continues_need fun slot _ =>
      landIn_continues hs hload _ _

theorem step11_continues (hs : s.info.step = .s11) : Continues s (step11 s) :=
  continues_need fun pr _ => continues_need fun m _ =>
    continues_goto (.of_eq (voidPrior_info s pr m)) (by simp [Follows, hs])

theorem step12_continues (hs : s.info.step = .s12) : Continues s (step12 s) := by
  have hn : Follows s.info .s13 := by simp [Follows, hs]
  unfold step12
  split
  · refine continues_need fun pr _ => continues_access fun u hu => continues_goto (.of_eq ?_) hn
    obtain ⟨_, _, _, _, _, _, _, e⟩ := rcsPush_ok _ _ _ hu
    rw [e]
    rfl
  · exact continues_goto (.refl _) hn

theorem step13_continues (hs : s.info.step = .s13) : Continues s (step13 s) := by
  have hn : Follows s.info .s14 := by simp [Follows, hs]
  unfold step13
  split
  · exact continues_need fun pr _ => continues_need fun a _ => continues_goto (.of_eq (setGr_info _ _ _)) hn
  · exact continues_goto (.refl _) hn

theorem step14_continues (hs : s.info.step = .s14) : Continues s (step14 s) := by
  have hn : Follows s.info .s15 := by simp [Follows, hs]
  refine continues_need fun pr _ => continues_need fun m _ => ?_
  split
  · exact continues_goto (.of_eq (setGr_info _ _ _)) hn
  · exact continues_goto (.refl _) hn

theorem step15_continues (hs : s.info.step = .s15) : Continues s (step15 s) := by
  unfold step15
  split
  · refine continues_need fun g _ => ?_
    split <;> exact continues_goto (.refl _) (by simp [Follows, hs])
  · exact continues_goto (.refl _) (by simp [Follows, hs])

theorem step16_continues (hs : s.info.step = .s16) : Continues s (step16 s) := by
  have on : ∀ u : State, u.info = s.info → Continues s (goto .s17 u) := fun u hu =>
    continues_goto (.of_eq hu) (by simp [Follows, hs])
  unfold step16
  split
  · exact continues_need fun f _ => on _ rfl
  · split
    · exact on _ rfl
    · refine continues_need fun pr _ => continues_need fun m _ => ?_
      split <;> exact on _ rfl

theorem step17_continues (hs : s.info.step = .s17) : Continues s (step17 s) :=
  continues_need fun off _ => continues_goto (.refl _) (by simp [Follows, hs])

theorem step18_continues (hs : s.info.step = .s18) : Continues s (step18 s) :=
  continues_need fun slot _ => continues_need fun n _ =>
    continues_goto (.of_eq (recordBinding_info _ _ _)) (by simp [Follows, hs])

theorem step19_continues (hs : s.info.step = .s19) : Continues s (step19 s) := by
  have on : ∀ k r, Continues s (goto (afterBind s.info) (s.setBreg k r)) := fun k r =>
    continues_goto (.refl _) (by simp [Follows, hs])
  refine continues_need fun slot _ => ?_
  split
  · exact on _ _
  · exact continues_need fun t _ => on _ _

theorem step20_continues (hs : s.info.step = .s20) : Continues s (step20 s) := by
  refine continues_need fun op _ => continues_need fun pr _ => continues_need fun m _ => ?_
  split <;> exact continues_goto (.refl _) (by simp [Follows, hs])

theorem step21_continues (hs : s.info.step = .s21) : Continues s (step21 s) := by
  refine continues_need fun op hop => continues_need fun n _ => ?_
  split
  · exact continues_raise _
  · split
    · rename_i hlae
      subst hlae
      refine continues_need fun i _ => ?_
      split
      · exact continues_goto (.refl _) (by simp [Follows, hs, hop])
      · exact continues_end _
    · exact continues_end _

end Steps

/-- R73: an engine step ends the invocation or goes on with its record, to a step that may follow. -/
theorem engineStep_goes (s t : State) (hs : s.info.step ≠ .idle) (h : engineStep s = .next t) :
    t.info = Info.idle ∨ Goes s.info t.info := by
  unfold engineStep at h
  cases hn : s.info.step with
  | idle => exact absurd hn hs
  | s1 => rw [hn] at h; exact step1_continues hn t h
  | s2 => rw [hn] at h; exact step2_continues hn t h
  | s3 => rw [hn] at h; exact step3_continues hn t h
  | s4 => rw [hn] at h; exact step4_continues hn t h
  | s5 => rw [hn] at h; exact step5_continues hn t h
  | s6 => rw [hn] at h; exact step6_continues hn t h
  | s7 => rw [hn] at h; exact step7_continues hn t h
  | s8 => rw [hn] at h; exact step8_continues hn t h
  | s9 => rw [hn] at h; exact step9_continues hn t h
  | s10 => rw [hn] at h; exact step10_continues hn t h
  | s11 => rw [hn] at h; exact step11_continues hn t h
  | s12 => rw [hn] at h; exact step12_continues hn t h
  | s13 => rw [hn] at h; exact step13_continues hn t h
  | s14 => rw [hn] at h; exact step14_continues hn t h
  | s15 => rw [hn] at h; exact step15_continues hn t h
  | s16 => rw [hn] at h; exact step16_continues hn t h
  | s17 => rw [hn] at h; exact step17_continues hn t h
  | s18 => rw [hn] at h; exact step18_continues hn t h
  | s19 => rw [hn] at h; exact step19_continues hn t h
  | s20 => rw [hn] at h; exact step20_continues hn t h
  | s21 => rw [hn] at h; exact step21_continues hn t h

end Sys2Proof.Machine

/-! SUPPORT. The course of an invocation: what the record of a request says about the request and the state it was made
in (`Course`), kept by every engine step. `exec_induct` is the induction over an invocation that the frames use. -/

namespace Sys2Proof.Machine

/-! ### The order of the steps -/

/-- The steps that no load passes (R75, R84, R93). -/
def transferOnly : StepNo → Bool
  | .s2 | .s11 | .s12 | .s13 | .s14 | .s15 | .s16 | .s17 | .s20 => true
  | .idle | .s1 | .s3 | .s4 | .s5 | .s6 | .s7 | .s8 | .s9 | .s10 | .s18 | .s19 | .s21 => false

section Order
variable {i : Info} {n : StepNo}

/-- A load goes on to no step of transfers from one that is not. -/
theorem Follows.not_transferOnly (h : Follows i n) (hl : i.isLoad = true) (hs : transferOnly i.step = false) :
    transferOnly n = false := by
  cases hi : i.step with
  | idle => simp [Follows, hi] at h
  | s1 | s3 | s4 | s6 | s9 | s10 | s18 | s19 | s21 =>
    simp_all [Follows, transferOnly, afterBind, Info.isTransfer]
  | s5 | s7 | s8 =>
    simp only [Follows, hi] at h
    rcases h with rfl | h
    · rfl
    · simp_all [transferOnly, not_forward_of_load i hl]
  | s2 | s11 | s12 | s13 | s14 | s15 | s16 | s17 | s20 => simp [hi, transferOnly] at hs

/-- Where the sequencer enters the first steps and step 9: no step leads to step 1, step 1 alone to step 2, and a
forward transfer alone to step 9 (R73, R75, R81, R82). -/
theorem Follows.enters (h : Follows i n) :
    n ≠ .s1 ∧ (n = .s2 → i.step = .s1) ∧ (n = .s9 → i.isForward = true) := by
  unfold Follows at h
  cases hi : i.step <;> simp only [hi] at h
  case s1 | s10 => split at h <;> simp [h]
  case s5 | s15 => rcases h with rfl | rfl <;> simp
  case s7 => rcases h with rfl | rfl | ⟨rfl, hf⟩ <;> simp [*]
  case s8 => rcases h with rfl | ⟨rfl, hf⟩ <;> simp [*]
  case s19 => unfold afterBind at h; split at h <;> simp [h]
  all_goals simp [h]

/-- The sequencer goes forward, but for the loop of LAE (R73, R96). -/
theorem Follows.pos_lt (h : Follows i n) (hl : i.op ≠ some .lae) : pos i.step < pos n := by
  unfold Follows at h
  cases hi : i.step <;> simp only [hi] at h
  case s5 => rcases h with rfl | rfl <;> decide
  case s7 => rcases h with rfl | rfl | ⟨rfl, _⟩ <;> decide
  case s8 => rcases h with rfl | ⟨rfl, _⟩ <;> decide
  case s15 => rcases h with rfl | rfl <;> decide
  case s21 => exact absurd h.2 hl
  case s1 => subst h; split <;> decide
  case s10 => subst h; split <;> decide
  case s19 => subst h; unfold afterBind; split <;> decide
  all_goals subst h; decide

end Order

/-! ### LxJ requests -/

/-- An LxJ request has one a-field. -/
theorem LxjSelects.a_unique {s : State} {i : Instr} {a b : RegIndex} {d e : BitVec 18} {k l : BmSel}
    (h : LxjSelects s i a d k) (h' : LxjSelects s i b e l) : a = b := by
  rcases h with ⟨rfl, _⟩ | ⟨rfl, _⟩ | ⟨rfl, _⟩ <;>
    simp only [LxjSelects, reduceCtorEq, false_and, or_false, false_or] at h'
  · exact (Instr.lbj.inj h'.1).1
  · exact (Instr.ldj.inj h'.1).1
  · exact (Instr.lij.inj h'.1).1

/-- An LxJ request has one form. -/
theorem lxjForm_unique {s : State} {i : Instr} {a b : RegIndex} {d e : BitVec 18} {k l : BmSel} {f g : LxjForm}
    (h : LxjSelects s i a d k) (hf : LxjHasForm s a f) (h' : LxjSelects s i b e l) (hg : LxjHasForm s b g) : f = g := by
  obtain rfl := h.a_unique h'
  exact hf.2.symm.trans hg.2

/-- Every LxJ request selects a register. -/
theorem exists_lxjSelects (s : State) (i : Instr) (h : kindIsLxj i.kind = true) :
    ∃ a d k, LxjSelects s i a d k ∧ aOf i = some a := by
  cases i with
  | lbj a d => exact ⟨a, d, _, .inl ⟨rfl, rfl⟩, rfl⟩
  | ldj a d => exact ⟨a, d, _, .inr (.inl ⟨rfl, rfl⟩), rfl⟩
  | lij a d => exact ⟨a, d, _, .inr (.inr ⟨rfl, rfl⟩), rfl⟩
  | call | goto | lae | lbe | lbu | rtn | ur | int => simp [Instr.kind, kindIsLxj] at h

/-- Step 1 of an LxJ sets the form of its reference, or the invocation ends (R75). -/
theorem step1_form {u t : State} {op : OpKind} {a : RegIndex} (hs : u.info.step = .s1) (ho : u.info.op = some op)
    (ha : u.info.a = some a) (hx : kindIsLxj op = true) (h : engineStep u = .next t) :
    t.info = Info.idle ∨ ∃ f, LxjHasForm u a f ∧ t.info.form = some f := by
  have e : engineStep u = step1Lxj u a := by
    simp only [engineStep, hs]
    refine (need_eq _ _ _ ho).trans ((if_neg ?_).trans ((if_pos hx).trans (need_eq _ _ _ ha)))
    rintro rfl
    simp [kindIsLxj] at hx
  rw [e] at h
  refine (step1Lxj_next a t h).imp_right fun ⟨h3, hi⟩ => ⟨_, ⟨h3, rfl⟩, by rw [hi]⟩

/-- Step 1 changes the record alone. -/
theorem Effect.eq_of_s1 {u v : State} (h : Effect u v) (hs : u.info.step = .s1) : v = u := by
  cases h with
  | none => rfl
  | popped _ _ hstep | gate _ hstep | voided _ _ hstep | pushed _ _ hstep | linked _ _ hstep | linkedGr _ hstep
  | restored _ _ hstep | modeSet _ hstep | counter _ hstep | recorded _ _ hstep | bound _ _ hstep | flipped hstep =>
    simp [hs] at hstep

/-! ### The course -/

/-- `u` is a state of the invocation of `i` that was made in `s`. -/
structure Course (i : Instr) (s u : State) : Prop where
  op : u.info.op = some i.kind
  a : u.info.a = aOf i
  params : u.params = s.params
  start : u.info.step = .s1 ∨ u.info.step = .s2 → u = s.setInfo u.info
  form : kindIsLxj i.kind = true → u.info.step ≠ .s1 →
    ∃ a d k f, LxjSelects s i a d k ∧ LxjHasForm s a f ∧ u.info.form = some f
  prior : ∀ pr, u.info.prior = some pr → pr.db17 = db17 s.dr
  load : u.info.isLoad = true → transferOnly u.info.step = false
  gate : u.info.step = .s9 → u.info.isForward = true

theorem startRequest_course (i : Instr) (s : State) : Course i s (startRequest i s) := by
  rw [startRequest_eq]
  exact ⟨rfl, rfl, rfl, fun _ => rfl, fun _ h => absurd rfl h, fun pr h => by simp [startInvocation, Info.idle] at h,
    fun _ => rfl, fun h => by simp [startInvocation] at h⟩

section
variable {i : Instr} {s u t : State}

/-- The form that step 1 has set by the next step, or that stays. -/
theorem Course.form_next (c : Course i s u) (g : Goes u.info t.info) (hi : t.info ≠ Info.idle)
    (h : engineStep u = .next t) (hx : kindIsLxj i.kind = true) :
    ∃ a d k f, LxjSelects s i a d k ∧ LxjHasForm s a f ∧ t.info.form = some f := by
  by_cases h1 : u.info.step = .s1
  · obtain ⟨a, d, k, hsel, ha⟩ := exists_lxjSelects s i hx
    obtain ⟨f, hf, hform⟩ := (step1_form h1 c.op (c.a.trans ha) hx h).resolve_left hi
    rw [c.start (.inl h1)] at hf
    exact ⟨a, d, k, f, hsel, hf, hform⟩
  · obtain ⟨a, d, k, f, hsel, hf, hform⟩ := c.form hx h1
    exact ⟨a, d, k, f, hsel, hf, (g.form h1).trans hform⟩

/-- The snapshot that step 2 has taken by the next step, or that stays. -/
theorem Course.prior_next (c : Course i s u) (g : Goes u.info t.info) (h : engineStep u = .next t) (pr : Prior)
    (hp : t.info.prior = some pr) : pr.db17 = db17 s.dr := by
  by_cases h2 : u.info.step = .s2
  · have h' : step2 u = .next t := by simpa only [engineStep, h2] using h
    obtain ⟨op, x, e⟩ := step2_next t h'
    rw [e] at hp
    rw [← Option.some.inj hp, c.start (.inr h2)]
    rfl
  · exact c.prior pr ((g.prior h2).symm.trans hp)

/-- An engine step keeps to the course of its invocation, or ends it. -/
theorem engineStep_course (c : Course i s u) (hs : u.info.step ≠ .idle) (h : engineStep u = .next t) :
    t.info = Info.idle ∨ Course i s t := by
  refine or_iff_not_imp_left.mpr fun hi => ?_
  have g := (engineStep_goes u t hs h).resolve_left hi
  have hparams : t.params = u.params := by
    obtain ⟨u1, j, r, he, rfl⟩ := engineStep_change u t hs h
    exact he.params
  have hload : t.info.isLoad = u.info.isLoad :=
    (isLoad_of_op (g.op.trans c.op)).trans (isLoad_of_op c.op).symm
  refine ⟨g.op.trans c.op, g.a.trans c.a, hparams.trans c.params, fun hstart => ?start,
    fun hx _ => c.form_next g hi h hx, c.prior_next g h, fun hl => ?load, fun h9 => ?gate⟩
  case start =>
    have h1 : u.info.step = .s1 := g.next.enters.2.1 (hstart.resolve_left g.next.enters.1)
    obtain ⟨v, hv, hp⟩ := engineStep_effect u t hs h
    obtain rfl := hv.eq_of_s1 h1
    cases hp with
    | goes j _ _ => rw [c.start (.inl h1)]; rfl
    | ends _ => exact absurd rfl hi
  case load =>
    rw [hload] at hl
    exact g.next.not_transferOnly hl (c.load hl)
  case gate =>
    have hn : Follows u.info .s9 := h9 ▸ g.next
    have h1 : u.info.step ≠ .s1 := fun h1 => by
      simp only [Follows, h1] at hn
      split at hn <;> simp at hn
    have e : t.info.isForward = u.info.isForward := by
      simp only [Info.isForward, Info.isLxjForm, Info.isLxj, g.op, g.form h1]
    exact e.trans (g.next.enters.2.2 h9)

/-- The induction over an invocation: a property of the states of its course, record aside at the start. -/
theorem exec_induct (i : Instr) (s : State) (P : State → Prop) (h0 : P (startRequest i s))
    (hstep : ∀ u t, Course i s u → u.info.step ≠ .idle → P u → engineStep u = .next t → P t) (t : State)
    (h : exec i s = .next t) : P t := by
  rw [exec_eq_run] at h
  have := engineSteps_inv (fun u => (u.info = Info.idle ∨ Course i s u) ∧ P u)
    (fun u v ⟨hc, hp⟩ hs he => by
      have c := hc.resolve_left fun hi => hs (by rw [hi]; rfl)
      exact ⟨engineStep_course c hs he, hstep u v c hs hp he⟩)
    _ _ t ⟨.inr (startRequest_course i s), h0⟩ (runEngine_next _ t h).1
  exact this.2

/-- The invocation of a forward transfer is that of CALL, GOTO or an LxJ of normal or call form (R12). -/
theorem Course.forwardFrom (c : Course i s u) (h1 : u.info.step ≠ .s1) (h : u.info.isForward = true) :
    ∃ v, ForwardFrom s i v := by
  by_cases hx : kindIsLxj i.kind = true
  · obtain ⟨a, d, k, f, hsel, hf, hform⟩ := c.form hx h1
    obtain ⟨-, -, -, -, -, -, -, hfw, -⟩ := info_lxj u.info i.kind f c.op hx hform
    refine ⟨_, .inr (.inr ⟨a, d, k, f, hsel, hf, ?_, rfl⟩)⟩
    rintro rfl
    simp [hfw] at h
  · cases i with
    | call v => exact ⟨v, .inl rfl⟩
    | goto v => exact ⟨v, .inr (.inl rfl)⟩
    | lbj | ldj | lij => exact absurd rfl hx
    | lae | lbe | lbu | rtn | ur | int =>
      simp [Info.isForward, Info.isLxjForm, Info.isLxj, c.op, Instr.kind, kindIsLxj] at h

/-- A return is RTN or an LxJ of return form (R12, R77). -/
theorem Course.pops (c : Course i s u) (h1 : u.info.step ≠ .s1) (h : u.info.isReturn = true) : Pops s i := by
  by_cases hx : kindIsLxj i.kind = true
  · obtain ⟨a, d, k, f, hsel, hf, hform⟩ := c.form hx h1
    obtain ⟨-, -, -, -, -, hret, -⟩ := info_lxj u.info i.kind f c.op hx hform
    obtain rfl : f = .ret := by simpa [hret] using h
    exact .inr ⟨a, d, k, hsel, hf⟩
  · cases i with
    | rtn => exact .inl rfl
    | lbj | ldj | lij => exact absurd rfl hx
    | call | goto | lae | lbe | lbu | ur | int =>
      simp [Info.isReturn, Info.isLxjForm, Info.isLxj, c.op, Instr.kind, kindIsLxj] at h

/-- A call-type operation is CALL, an LxJ of call form or interrupt entry (R12, R86). -/
theorem Course.pushes (c : Course i s u) (h1 : u.info.step ≠ .s1)
    (h : (u.info.isCall && (!u.info.isInt || u.params.intPushesRcs)) = true) : Pushes s i := by
  simp only [Bool.and_eq_true, Bool.or_eq_true, Bool.not_eq_true'] at h
  obtain ⟨hcall, hint⟩ := h
  by_cases hx : kindIsLxj i.kind = true
  · obtain ⟨a, d, k, f, hsel, hf, hform⟩ := c.form hx h1
    obtain ⟨-, -, -, -, -, -, -, -, hc⟩ := info_lxj u.info i.kind f c.op hx hform
    obtain rfl : f = .call := by simpa [hc] using hcall
    exact .inr (.inr ⟨a, d, k, hsel, hf⟩)
  · cases i with
    | call => exact .inl rfl
    | int =>
      have hi : u.info.isInt = true := by simp [Info.isInt, c.op, Instr.kind]
      exact .inr (.inl ⟨rfl, c.params ▸ hint.resolve_left (by simp [hi])⟩)
    | lbj | ldj | lij => exact absurd rfl hx
    | goto | lae | lbe | lbu | rtn | ur =>
      simp [Info.isCall, Info.isInt, Info.isLxjForm, Info.isLxj, c.op, Instr.kind, kindIsLxj] at hcall

end

end Sys2Proof.Machine

/-! SUPPORT. The frames of whole invocations: which requests move RCSP, write general registers, DR and IKR, and that a
load leaves all of these alone. Each rests on a rule for one engine step and on the course of the invocation. -/

namespace Sys2Proof.Machine

/-! ### The bits of DR and IKR -/

/-- Writing DB12-17 leaves every other bit of DR (R19). -/
theorem getLsbD_setDb12to17 (dr : Word) (v : BitVec 6) (j : Nat) (h : j < 18 ∨ 23 < j) :
    (setDb12to17 dr v).getLsbD j = dr.getLsbD j := by
  rw [setDb12to17, getLsbD_setField _ _ _ _ (by decide), if_neg (by omega)]

/-- Writing DB16 leaves every other bit of DR (R90). -/
theorem getLsbD_setDb16 (dr : Word) (b : Bool) (j : Nat) (h : j ≠ 19) : (setDb16 dr b).getLsbD j = dr.getLsbD j := by
  rw [setDb16, getLsbD_setField _ _ _ _ (by decide), if_neg (by omega)]

/-- Flipping DB31 leaves every other bit of DR (R94). -/
theorem getLsbD_flipDb31 (dr : Word) (j : Nat) (h : j ≠ 4) : (flipDb31 dr).getLsbD j = dr.getLsbD j := by
  rw [flipDb31, getLsbD_setField _ _ _ _ (by decide), if_neg (by omega)]

/-- Writing the key leaves the other bits of IKR (R20). -/
theorem getLsbD_setAccessKey (ikr : Word) (k : AccessKey) (j : Nat) (h : 18 ≤ j) :
    (setAccessKey ikr k).getLsbD j = ikr.getLsbD j := by
  rw [setAccessKey, getLsbD_setField _ _ _ _ (by decide), if_neg (by omega)]

/-! ### Rules that need the step itself -/

section
variable {s t : State}

theorem raise_rcsp {f : EngineFault} (h : raise f s = .next t) : t.rcsp = s.rcsp := by
  rw [raise_eq, Host.Outcome.next.injEq] at h
  exact h ▸ rfl

theorem goto_rcsp {n : StepNo} {u : State} (h : goto n u = .next t) : t.rcsp = u.rcsp := by
  rw [goto, Host.Outcome.next.injEq] at h
  exact h ▸ rfl

/-- Step 3 of an LxJ moves RCSP in the return form alone (R77). -/
theorem step3Lxj_rcsp (hx : s.info.isLxj = true) (h : step3Lxj s = .next t) :
    t.rcsp = s.rcsp ∨ s.info.isReturn = true := by
  obtain ⟨f, hf, h⟩ := need_next _ _ t h
  split at h
  · rename_i hret
    exact .inr (by simp [Info.isReturn, Info.isLxjForm, hx, hf, hret])
  · obtain ⟨x, _, h⟩ := need_next _ _ t h
    split at h
    · exact .inl ((goto_rcsp h).trans rfl)
    · simp at h

/-- Step 3 moves RCSP for a return alone (R77). -/
theorem step3_rcsp (h : step3 s = .next t) : t.rcsp = s.rcsp ∨ s.info.isReturn = true := by
  obtain ⟨op, hop, h⟩ := need_next _ _ t h
  have hlxj := isLxj_of_op hop
  cases op with
  | rtn => exact .inr (by simp [Info.isReturn, hop])
  | lbj | ldj | lij => exact step3Lxj_rcsp hlxj h
  | int =>
    obtain ⟨c, _, h⟩ := need_next _ _ t h
    rcases onAccess_next _ _ _ _ h with ⟨v, _, h⟩ | ⟨f, _, h⟩ | ⟨e, _, rfl⟩
    · exact .inl ((goto_rcsp h).trans rfl)
    · exact .inl (raise_rcsp h)
    · exact .inl rfl
  | lae =>
    simp only at h
    split at h
    · obtain ⟨i, _, h⟩ := need_next _ _ t h
      obtain ⟨v, _, h⟩ := need_next _ _ t h
      exact .inl ((goto_rcsp h).trans rfl)
    · simp at h
  | ur | call | goto | lbe | lbu =>
    simp only at h
    split at h
    · exact .inl ((goto_rcsp h).trans rfl)
    · simp at h

/-- Step 12 moves RCSP for a request that pushes alone (R86). -/
theorem step12_rcsp (hs : s.info.step = .s12) (h : engineStep s = .next t) :
    t.rcsp = s.rcsp ∨ (s.info.isCall && (!s.info.isInt || s.params.intPushesRcs)) = true := by
  cases hc : s.info.isCall && (!s.info.isInt || s.params.intPushesRcs) with
  | true => exact .inr rfl
  | false =>
    have e : engineStep s = .next (s.setInfo { s.info with step := .s13 }) := leads12_none s s.info hs hc
    rw [e, Host.Outcome.next.injEq] at h
    exact .inl (h ▸ rfl)

/-- Step 13 writes X(a) of the caller's register set alone (R87). -/
theorem step13_gr (hs : s.info.step = .s13) (h : engineStep s = .next t) (g : GrName) : t.gr g = s.gr g ∨
    ∃ pr a, s.info.prior = some pr ∧ s.info.a = some a ∧ g = ⟨.x, regSetOf pr.db17, a⟩ := by
  have h' : step13 s = .next t := by simpa only [engineStep, hs] using h
  unfold step13 at h'
  split at h'
  · obtain ⟨pr, hp, h'⟩ := need_next _ _ t h'
    obtain ⟨a, ha, h'⟩ := need_next _ _ t h'
    rw [goto, Host.Outcome.next.injEq] at h'
    rw [← h', setInfo_gr, setGr_gr]
    split
    · rename_i hg
      exact .inr ⟨pr, a, hp, ha, hg⟩
    · exact .inl rfl
  · rw [goto, Host.Outcome.next.injEq] at h'
    exact .inl (h' ▸ rfl)

/-- Step 20 writes DR for the operations of P_TOGGLE_DB31 alone (R94). -/
theorem step20_dr (hs : s.info.step = .s20) (h : engineStep s = .next t) :
    t.dr = s.dr ∨ ∃ op, s.info.op = some op ∧ s.params.toggleDb31.contains op = true := by
  have h' : step20 s = .next t := by simpa only [engineStep, hs] using h
  obtain ⟨op, hop, h'⟩ := need_next _ _ t h'
  obtain ⟨pr, _, h'⟩ := need_next _ _ t h'
  obtain ⟨m, _, h'⟩ := need_next _ _ t h'
  split at h'
  · rename_i hc
    simp only [Bool.and_eq_true] at hc
    obtain ⟨⟨⟨htoggle, _⟩, _⟩, _⟩ := hc
    exact .inr ⟨op, hop, htoggle⟩
  · rw [goto, Host.Outcome.next.injEq] at h'
    exact .inl (h' ▸ rfl)

end

/-! ### Rules along the course of an invocation -/

section
variable {i : Instr} {s u t : State}

/-- RCSP moves at the pop of a request that pops and at the push of one that pushes (R22). -/
theorem Course.rcsp (c : Course i s u) (hs : u.info.step ≠ .idle) (h : engineStep u = .next t) : t.rcsp = u.rcsp ∨
    (u.info.step = .s3 ∧ Pops s i ∧ t.rcsp = u.rcsp + 2) ∨ (u.info.step = .s12 ∧ Pushes s i ∧ t.rcsp = u.rcsp - 2) := by
  obtain ⟨u1, j, r, he, ht⟩ := engineStep_change u t hs h
  have hr : t.rcsp = u1.rcsp := by rw [ht]; rfl
  rcases he.rcsp with e | ⟨h3, e⟩ | ⟨h12, _, e⟩
  · exact .inl (hr.trans e)
  · have h' : step3 u = .next t := by simpa only [engineStep, h3] using h
    exact (step3_rcsp h').imp_right fun hret => .inl ⟨h3, c.pops (by simp [h3]) hret, hr.trans e⟩
  · exact (step12_rcsp h12 h).imp_right fun hc => .inr ⟨h12, c.pushes (by simp [h12]) hc, hr.trans e⟩

/-- A forward transfer alone writes general registers: the link register, the gate's two destinations and, for an LxJ,
X(a) (R21). -/
theorem Course.gr (c : Course i s u) (hs : u.info.step ≠ .idle) (h : engineStep u = .next t) (g : GrName) :
    t.gr g = u.gr g ∨ ((∃ v, ForwardFrom s i v) ∧
      (g = s.params.linkGr ∨ g = s.params.latentDest0 ∨ g = s.params.latentDest1 ∨
        ∃ a d k, LxjSelects s i a d k ∧ g = lxjRegister s a)) := by
  obtain ⟨u1, j, r, he, ht⟩ := engineStep_change u t hs h
  have hg : t.gr g = u1.gr g := by rw [ht]; rfl
  rcases he.gr g with e | ⟨h9, hd⟩ | ⟨h13, hf⟩ | ⟨h14, hf, hl⟩
  · exact .inl (hg.trans e)
  · refine .inr ⟨c.forwardFrom (by simp [h9]) (c.gate h9), .inr ?_⟩
    rw [← c.params]
    exact hd.imp_right .inl
  · refine (step13_gr h13 h g).imp_right fun ⟨pr, a, hp, ha, hreg⟩ =>
      ⟨c.forwardFrom (by simp [h13]) ?_, .inr (.inr (.inr ?_))⟩
    · simp only [Info.isForward, Bool.or_eq_true] at hf ⊢
      exact hf.imp_left .inr
    · have hx : kindIsLxj i.kind = true := by
        rw [← isLxj_of_op c.op]
        simp only [Info.isLxjForm, Bool.or_eq_true, Bool.and_eq_true] at hf
        exact hf.elim And.left And.left
      obtain ⟨b, d, k, hsel, hb⟩ := exists_lxjSelects s i hx
      obtain rfl : a = b := Option.some.inj ((ha.symm.trans c.a).trans hb)
      exact ⟨a, d, k, hsel, by rw [hreg, c.prior pr hp]; rfl⟩
  · refine .inr ⟨c.forwardFrom (by simp [h14]) ?_, .inl (by rw [hl, c.params])⟩
    simp only [Info.isForward, Bool.or_eq_true] at hf ⊢
    exact hf.elim id fun hn => .inl (.inr hn)

/-- DB31 is written for the requests of P_TOGGLE_DB31 alone (R19). -/
theorem Course.db31 (c : Course i s u) (hs : u.info.step ≠ .idle) (h : engineStep u = .next t)
    (htoggle : s.params.toggleDb31.contains i.kind = false) : Machine.db31 t.dr = Machine.db31 u.dr := by
  obtain ⟨u1, j, r, he, ht⟩ := engineStep_change u t hs h
  have hr : t.dr = u1.dr := by rw [ht]; rfl
  rcases he.dr with e | ⟨_, ⟨v, e⟩ | ⟨b, e⟩⟩ | ⟨h20, _⟩
  · rw [hr, e]
  · rw [hr, e, db31_setDb12to17]
  · rw [hr, e, db31_setDb16]
  · rcases step20_dr h20 h with e | ⟨op, hop, hc⟩
    · rw [e]
    · obtain rfl : op = i.kind := Option.some.inj (hop.symm.trans c.op)
      rw [c.params, htoggle] at hc
      cases hc

end

/-- An engine step leaves every bit of DR but DB12-17 and DB31 (R19). -/
theorem engineStep_dr_bits (u t : State) (hs : u.info.step ≠ .idle) (h : engineStep u = .next t) (j : Nat) (h4 : j ≠ 4)
    (hj : j < 18 ∨ 23 < j) : t.dr.getLsbD j = u.dr.getLsbD j := by
  obtain ⟨u1, i, r, he, rfl⟩ := engineStep_change u t hs h
  rw [setResult_dr, setInfo_dr]
  rcases he.dr with e | ⟨_, ⟨v, e⟩ | ⟨b, e⟩⟩ | ⟨_, e⟩ <;> rw [e]
  · exact getLsbD_setDb12to17 u.dr v j hj
  · exact getLsbD_setDb16 u.dr b j (by omega)
  · exact getLsbD_flipDb31 u.dr j h4

/-- An engine step leaves every bit of IKR but the key (R20). -/
theorem engineStep_ikr_bits (u t : State) (hs : u.info.step ≠ .idle) (h : engineStep u = .next t) (j : Nat)
    (hj : 18 ≤ j) : t.ikr.getLsbD j = u.ikr.getLsbD j := by
  obtain ⟨u1, i, r, he, rfl⟩ := engineStep_change u t hs h
  rw [setResult_ikr, setInfo_ikr]
  rcases he.ikr with e | ⟨_, k, e⟩ <;> rw [e]
  exact getLsbD_setAccessKey u.ikr k j hj

/-! ### The frames -/

/-- Settles O53, by induction over the invocation: of DR and IKR, an engine step writes the named fields alone. -/
theorem designatorAndKeyFrame : Obligations.DesignatorAndKeyFrame := by
  intro i s t h
  refine ⟨fun j _ h4 hj => ?dr, fun j hj => ?ikr, fun htoggle => ?db31⟩
  case dr =>
    refine exec_induct i s (fun u => u.dr.getLsbD j = s.dr.getLsbD j) (by rw [startRequest_eq]; rfl) ?_ t h
    exact fun u v _ hs hu hv => (engineStep_dr_bits u v hs hv j h4 hj).trans hu
  case ikr =>
    refine exec_induct i s (fun u => u.ikr.getLsbD j = s.ikr.getLsbD j) (by rw [startRequest_eq]; rfl) ?_ t h
    exact fun u v _ hs hu hv => (engineStep_ikr_bits u v hs hv j hj).trans hu
  case db31 =>
    refine exec_induct i s (fun u => db31 u.dr = db31 s.dr) (by rw [startRequest_eq]; rfl) ?_ t h
    exact fun u v c hs hu hv => (c.db31 hs hv htoggle).trans hu

/-- A request that is no forward transfer, or a register that none writes, keeps its value (R21). -/
theorem exec_gr (i : Instr) (s t : State) (g : GrName) (h : exec i s = .next t)
    (hg : ¬((∃ v, ForwardFrom s i v) ∧ (g = s.params.linkGr ∨ g = s.params.latentDest0 ∨ g = s.params.latentDest1 ∨
      ∃ a d k, LxjSelects s i a d k ∧ g = lxjRegister s a))) : t.gr g = s.gr g := by
  refine exec_induct i s (fun u => u.gr g = s.gr g) (by rw [startRequest_eq]; rfl) ?_ t h
  exact fun u v c hs hu hv => ((c.gr hs hv g).resolve_right hg).trans hu

/-- A load, a return and interrupt entry are no forward transfers (R12). -/
theorem not_forwardFrom {i : Instr} {s : State} {v : VA} (h : IsLoad i ∨ Pops s i ∨ i.kind = .ur ∨ i.kind = .int) :
    ¬ForwardFrom s i v := by
  rintro (rfl | rfl | ⟨a, d, k, f, hsel, hf, hret, -⟩)
  · simp [IsLoad, Pops, LxjSelects, Instr.kind] at h
  · simp [IsLoad, Pops, LxjSelects, Instr.kind] at h
  · have hx := (lxj_kind s i a d k hsel).1
    rcases h with (hk | hk | hk) | (rfl | ⟨b, e, l, hsel', hf'⟩) | hk | hk
    · simp [hk, kindIsLxj] at hx
    · simp [hk, kindIsLxj] at hx
    · simp [hk, kindIsLxj] at hx
    · simp [Instr.kind, kindIsLxj] at hx
    · exact hret (lxjForm_unique hsel hf hsel' hf')
    · simp [hk, kindIsLxj] at hx
    · simp [hk, kindIsLxj] at hx

/-- Settles O52, by induction over the invocation (`exec_gr`). -/
theorem generalRegisterFrame : Obligations.GeneralRegisterFrame := by
  intro i s t g h
  refine ⟨fun hclass => exec_gr i s t g h fun ⟨⟨v, hv⟩, _⟩ => not_forwardFrom hclass hv, fun hl h0 h1 => ?_⟩
  have other (hx : ∀ a d k, LxjSelects s i a d k → g ≠ lxjRegister s a) : t.gr g = s.gr g := by
    refine exec_gr i s t g h ?_
    rintro ⟨-, e | e | e | ⟨a, d, k, hsel, e⟩⟩
    exacts [hl e, h0 e, h1 e, hx a d k hsel e]
  refine ⟨fun hk => other fun a d k hsel => ?_, fun a d k hsel hne => other fun b e l hsel' => ?_⟩
  · have hx := (lxj_kind s i a d k hsel).1
    rcases hk with hk | hk <;> simp [hk, kindIsLxj] at hx
  · exact hsel.a_unique hsel' ▸ hne

/-- The invocation has ended or is past a step. -/
def Past (n : StepNo) (i : Info) : Prop := i.step = .idle ∨ pos n < pos i.step

/-- A request without the loop of LAE stays past a step (R73). -/
theorem Past.next {n : StepNo} {u t : State} (hn : pos n ≤ pos u.info.step) (hs : u.info.step ≠ .idle)
    (hl : u.info.op ≠ some .lae) (h : engineStep u = .next t) : Past n t.info := by
  rcases engineStep_goes u t hs h with e | g
  · exact .inl (by rw [e]; rfl)
  · exact .inr (Nat.lt_of_le_of_lt hn (g.next.pos_lt hl))

theorem Past.pos_lt {n : StepNo} {i : Info} (h : Past n i) (hs : i.step ≠ .idle) : pos n < pos i.step :=
  h.resolve_left hs

theorem Pops.ne_lae {s : State} {i : Instr} (h : Pops s i) : i.kind ≠ .lae := by
  rcases h with rfl | ⟨a, d, k, hsel, -⟩
  · simp [Instr.kind]
  · intro e
    simpa [e, kindIsLxj] using (lxj_kind s i a d k hsel).1

theorem Pushes.ne_lae {s : State} {i : Instr} (h : Pushes s i) : i.kind ≠ .lae := by
  rcases h with h | ⟨h, -⟩ | ⟨a, d, k, hsel, -⟩
  · simp [h]
  · simp [h]
  · intro e
    simpa [e, kindIsLxj] using (lxj_kind s i a d k hsel).1

/-- No request pops and pushes (R77, R86). -/
theorem Pops.not_pushes {s : State} {i : Instr} (h : Pops s i) : ¬Pushes s i := by
  rcases h with rfl | ⟨a, d, k, hsel, hf⟩
  · simp [Pushes, LxjSelects, Instr.kind]
  · have hx := (lxj_kind s i a d k hsel).1
    rintro (h | ⟨h, -⟩ | ⟨b, e, l, hsel', hf'⟩)
    · simp [h, kindIsLxj] at hx
    · simp [h, kindIsLxj] at hx
    · simpa using lxjForm_unique hsel hf hsel' hf'

/-- Where RCSP stands in the course of an invocation: moved by a pop after step 3, by a push after step 12 (R22). -/
def StackPointerAt (i : Instr) (s u : State) : Prop :=
  u.rcsp = s.rcsp ∨ (Pops s i ∧ u.rcsp = s.rcsp + 2 ∧ Past .s3 u.info) ∨
    (Pushes s i ∧ u.rcsp = s.rcsp - 2 ∧ Past .s12 u.info)

theorem Course.stackPointerAt {i : Instr} {s u t : State} (c : Course i s u) (hs : u.info.step ≠ .idle)
    (hu : StackPointerAt i s u) (h : engineStep u = .next t) : StackPointerAt i s t := by
  have past : ∀ n, pos n ≤ pos u.info.step → i.kind ≠ .lae → Past n t.info := fun n hn hl =>
    Past.next hn hs (by rw [c.op]; simpa using hl) h
  rcases hu with hu | ⟨hpop, hu, hp⟩ | ⟨hpush, hu, hp⟩
  · rcases c.rcsp hs h with e | ⟨h3, hpop, e⟩ | ⟨h12, hpush, e⟩
    · exact .inl (e.trans hu)
    · exact .inr (.inl ⟨hpop, by rw [e, hu], past .s3 (by rw [h3]) hpop.ne_lae⟩)
    · exact .inr (.inr ⟨hpush, by rw [e, hu], past .s12 (by rw [h12]) hpush.ne_lae⟩)
  · have hlt := hp.pos_lt hs
    rcases c.rcsp hs h with e | ⟨h3, -⟩ | ⟨-, hpush, -⟩
    · exact .inr (.inl ⟨hpop, e.trans hu, past .s3 hlt.le hpop.ne_lae⟩)
    · simp [h3] at hlt
    · exact absurd hpush hpop.not_pushes
  · have hlt := hp.pos_lt hs
    rcases c.rcsp hs h with e | ⟨-, hpop, -⟩ | ⟨h12, -⟩
    · exact .inr (.inr ⟨hpush, e.trans hu, past .s12 hlt.le hpush.ne_lae⟩)
    · exact absurd hpush hpop.not_pushes
    · simp [h12] at hlt

/-- Settles O51, by induction over the invocation: the steps that move RCSP are passed once, and no request
passes both. -/
theorem stackPointerMovesByFrames : Obligations.StackPointerMovesByFrames := by
  intro i s t h
  have ht : StackPointerAt i s t :=
    exec_induct i s (StackPointerAt i s) (.inl (by rw [startRequest_eq]; rfl))
      (fun u v c hs hu hv => c.stackPointerAt hs hu hv) t h
  exact ht.imp_right (Or.imp (fun ⟨hpop, e, _⟩ => ⟨hpop, e⟩) fun ⟨hpush, e, _⟩ => ⟨hpush, e⟩)

/-! ### Loads -/

/-- The parts of the state that a load may not write (R18): all but the base registers, the active base table and the
record. -/
structure SameControl (s u : State) : Prop where
  params : u.params = s.params
  par : u.par = s.par
  dr : u.dr = s.dr
  ikr : u.ikr = s.ikr
  rcsp : u.rcsp = s.rcsp
  gr : ∀ g, u.gr g = s.gr g
  memory : u.memory = s.memory

theorem SameControl.trans {s u t : State} (h : SameControl s u) (h' : SameControl u t) : SameControl s t :=
  ⟨h'.params.trans h.params, h'.par.trans h.par, h'.dr.trans h.dr, h'.ikr.trans h.ikr, h'.rcsp.trans h.rcsp,
    fun g => (h'.gr g).trans (h.gr g), h'.memory.trans h.memory⟩

/-- No step that a load passes writes the control state. -/
theorem Course.load_sameControl {i : Instr} {s u t : State} (c : Course i s u) (hl : IsLoad i)
    (hs : u.info.step ≠ .idle) (h : engineStep u = .next t) : SameControl u t := by
  have hload : u.info.isLoad = true := by
    rw [isLoad_of_op c.op]
    rcases hl with e | e | e <;> simp [e, kindIsLoad]
  have htr : u.info.isTransfer = false := by simp [Info.isTransfer, hload]
  have hno := c.load hload
  have h9 : u.info.step ≠ .s9 := fun h9 => by
    simpa [not_forward_of_load u.info hload] using c.gate h9
  have hrcsp : t.rcsp = u.rcsp := by
    rcases c.rcsp hs h with e | ⟨-, hpop, -⟩ | ⟨h12, -⟩
    · exact e
    · rcases hpop with rfl | ⟨a, d, k, hsel, -⟩
      · simp [IsLoad, Instr.kind] at hl
      · have hx := not_load_of_lxj (lxj_kind s i a d k hsel).1
        rw [isLoad_of_op c.op] at hload
        simp [hload] at hx
    · simp [h12, transferOnly] at hno
  obtain ⟨u1, j, r, he, rfl⟩ := engineStep_change u t hs h
  refine ⟨he.params, ?par, ?dr, ?ikr, hrcsp, ?gr, ?memory⟩
  case par =>
    rcases he.par with e | h11 | h17 | ⟨-, ht⟩
    · exact e
    · simp [h11, transferOnly] at hno
    · simp [h17, transferOnly] at hno
    · simp [htr] at ht
  case dr =>
    rcases he.dr with e | ⟨h9' | h16, -⟩ | ⟨h20, -⟩
    · exact e
    · exact absurd h9' h9
    · simp [h16, transferOnly] at hno
    · simp [h20, transferOnly] at hno
  case ikr =>
    rcases he.ikr with e | ⟨h9' | h16, -⟩
    · exact e
    · exact absurd h9' h9
    · simp [h16, transferOnly] at hno
  case gr =>
    intro g
    rcases he.gr g with e | ⟨h9', -⟩ | ⟨h13, -⟩ | ⟨h14, -⟩
    · exact e
    · exact absurd h9' h9
    · simp [h13, transferOnly] at hno
    · simp [h14, transferOnly] at hno
  case memory =>
    rcases he.memory with e | ⟨h12, -⟩
    · exact e
    · simp [h12, transferOnly] at hno

/-- Settles O36, by induction over the invocation: a load passes no step of transfers, no gate and no pop. -/
theorem loadsLeaveControlState : Obligations.LoadsLeaveControlState := by
  intro i s t hl h
  have ht : SameControl s t :=
    exec_induct i s (SameControl s) (by rw [startRequest_eq]; exact ⟨rfl, rfl, rfl, rfl, rfl, fun _ => rfl, rfl⟩)
      (fun u v c hs hu hv => hu.trans (c.load_sameControl hl hs hv)) t h
  exact ⟨ht.par, ht.dr, ht.ikr, ht.rcsp, ht.gr, fun a => readWord_congr s t a (by rw [ht.params]) ht.memory⟩

end Sys2Proof.Machine

/-! SUPPORT. A call-type request whose frame does not fit: from its source (step 4) to the push that overflows (step
12), direct or through a gate, with what steps 9 and 11 wrote left in place. -/

namespace Sys2Proof.Machine

/-- The operation is CALL, or an LxJ of call form. -/
def CallType (i : Info) (op : OpKind) : Prop :=
  i.op = some op ∧ (op = .call ∨ (kindIsLxj op = true ∧ i.form = some .call))

/-- The classes of a call-type record (R12). -/
theorem CallType.classes {i : Info} {op : OpKind} (h : CallType i op) :
    i.isForward = true ∧ i.isCall = true ∧ i.isInt = false ∧ i.isReturn = false ∧ i.isReturnLike = false ∧
      (i.op == some .lbu) = false ∧ i.op ≠ some .int := by
  obtain ⟨ho, rfl | ⟨hx, hf⟩⟩ := h
  · simp [Info.isForward, Info.isCall, Info.isInt, Info.isReturn, Info.isReturnLike, Info.isLxjForm, Info.isLxj, ho,
      kindIsLxj]
  · obtain ⟨-, -, hint, -, hlbu, hret, hretLike, hfw, hcall⟩ := info_lxj i op .call ho hx hf
    refine ⟨hfw, hcall, hint, hret, hretLike, hlbu, fun e => ?_⟩
    simp [Info.isInt, e] at hint

/-- The record of a call-type request at step 4: its source `v` and the caller's snapshot. -/
structure CallSourced (i : Info) (op : OpKind) (v : VA) (pr : Prior) : Prop where
  step : i.step = .s4
  type : CallType i op
  src : i.src = some v
  prior : i.prior = some pr
  gated : i.gated = false

section
variable (u : State) (i : Info)

/-- Step 10 of a call-type request finds a slot (R84). -/
theorem leads10_callType (op : OpKind) (t : BankDescriptor) (pr : Prior) (hs : i.step = .s10) (hc : CallType i op)
    (ht : i.target = some t) (hp : i.prior = some pr) (hg : i.gated = true → ∃ g, i.gate = some g) :
    ∃ slot, engineStep (u.setInfo i) = .next (u.setInfo (landed i (forwardMode t) slot)) := by
  obtain ⟨-, -, -, hret, -⟩ := hc.classes
  obtain ⟨ho, rfl | ⟨hx, -⟩⟩ := hc
  · obtain ⟨slot, hk⟩ := callSlot_some u.params i pr (forwardMode t) hg
    exact ⟨slot, leads10_call u i .call t pr slot hs ho (.inl rfl) ht hp hk⟩
  · exact ⟨_, leads10_lxj u i op t pr hs ho hx hret ht hp⟩

/-- Step 12 of a call-type request without room for its frame (R86). -/
theorem ends12_overflow (op : OpKind) (pr : Prior) (e : EngineFault) (hs : i.step = .s12) (hc : CallType i op)
    (hp : i.prior = some pr) (hpush : rcsPush u (returnFrame pr false) = .raise e) :
    engineStep (u.setInfo i) = .next (finished (.fault e) u) := by
  obtain ⟨-, hcall, hint, -, -, -, hni⟩ := hc.classes
  have h : engineStep (u.setInfo i) = step12 (u.setInfo i) := by simp only [engineStep, setInfo_info, hs]
  refine h.trans ((if_pos ?_).trans ((need_eq _ _ _ hp).trans ?_))
  · simp [hcall, hint]
  · rw [setInfo_info, hint, rcsPush_setInfo, hpush]
    exact raise_at u i e hni

/-- From step 10 a push that overflows ends the invocation after the effects of step 11 (R85, R86). -/
theorem ends_overflow (op : OpKind) (t : BankDescriptor) (pr : Prior) (e : EngineFault) (hs : i.step = .s10)
    (hc : CallType i op) (ht : i.target = some t) (hp : i.prior = some pr)
    (hg : i.gated = true → ∃ g, i.gate = some g)
    (hpush : rcsPush (voidPrior u pr (forwardMode t)) (returnFrame pr false) = .raise e) :
    Ends 3 (u.setInfo i) (finished (.fault e) (voidPrior u pr (forwardMode t))) := by
  obtain ⟨slot, h10⟩ := leads10_callType u i op t pr hs hc ht hp hg
  refine Ends.cons _ _ _ _ (by simp [hs]) h10 ?_
  refine Ends.cons _ _ _ _ (by simp [landed]) (leads11 u _ pr (forwardMode t) rfl hp rfl) ?_
  exact Ends.last _ _ (by simp) (ends12_overflow _ _ op pr e rfl hc hp hpush) rfl

/-- From step 4 to a bank that the source reaches directly or through one Indirect descriptor. -/
theorem ends_overflow_direct (op : OpKind) (v : VA) (pr : Prior) (n : BankName) (bd : BankDescriptor) (e : EngineFault)
    (hi : CallSourced i op v pr) (h : Reaches u (vaName v) n bd) (hl : MayLand u bd)
    (hpush : rcsPush (voidPrior u pr (forwardMode bd)) (returnFrame pr false) = .raise e) :
    ∃ k ≤ 9, Ends k (u.setInfo i) (finished (.fault e) (voidPrior u pr (forwardMode bd))) := by
  obtain ⟨hfw, -, hint, -, hret, hlbu, -⟩ := hi.type.classes
  obtain ⟨k, ib, hk, h10⟩ := leads_reaches u i v n bd hi.step hi.src h hl hfw hint hret hlbu
  refine ⟨k + 3, by omega, Leads.ends _ _ _ _ _ h10 (ends_overflow u _ op bd pr e rfl hi.type rfl hi.prior ?_ hpush)⟩
  intro hg
  cases hi.gated.symm.trans hg

/-- A gate record that a transfer reads lies inside its bank and is aligned (R83). -/
theorem gateOffsetOk_of (p : Params) (gb : BankDescriptor) (off : BitVec 18)
    (hlow : (normalizedLower gb).toNat ≤ off.toNat) (hup : off.toNat + 4 ≤ (normalizedUpper gb).toNat)
    (halign : off.toNat % p.gateAlign = 0) : gateOffsetOk p gb off = true := by
  simp only [gateOffsetOk, hlow, hup, halign, decide_true, Bool.true_and, Bool.and_true, decide_eq_true_eq]
  omega

/-- From step 4 through a gate that admits the request to the bank it leads to. -/
theorem ends_overflow_gated (op : OpKind) (v : VA) (pr : Prior) (g : GateRecord) (t : BankDescriptor) (e : EngineFault)
    (hi : CallSourced i op v pr) (hr : ReadsGate u v g) (ha : GateAdmits u g) (hl : GateLeads u g t)
    (hin : (g.gotoInhibited && gotoInhibitApplies i) = false)
    (hpush : rcsPush (voidPrior (gateTransfers u g) pr (forwardMode t)) (returnFrame pr false) = .raise e) :
    ∃ k ≤ 9, Ends k (u.setInfo i) (finished (.fault e) (voidPrior (gateTransfers u g) pr (forwardMode t))) := by
  obtain ⟨hfw, -, hint, -⟩ := hi.type.classes
  obtain ⟨n, gb, hreach, hgate, hgf, henter, hlow, hup, halign, hread⟩ := hr
  obtain ⟨k, ib, hk, h9⟩ := leads_reaches_gate u i v n gb hi.step hi.src hreach hgate hfw hint
  have hoff := gateOffsetOk_of u.params gb v.offset hlow hup halign
  refine ⟨k + 4, by omega, Leads.ends _ _ _ _ _ h9 (Ends.cons _ _ _ _ (by simp)
    (leads9 u _ v gb g t rfl hi.src rfl hgf henter hoff hread ha hin hl) ?_)⟩
  exact ends_overflow (gateTransfers u g) _ op t pr e rfl hi.type rfl hi.prior (fun _ => ⟨g, rfl⟩) hpush

end

/-- A request that leads to a record from which the run ends. -/
theorem exec_of_ends (i : Instr) (s t : State) (j : Info) (a b : Nat) (ha : a ≤ 3) (hb : b ≤ 9)
    (h : Leads a (startRequest i s) (s.setInfo j)) (he : Ends b (s.setInfo j) t) (ht : t.info.step = .idle) :
    exec i s = .next t := by
  have hfuel : a + b ≤ engineFuel := by unfold engineFuel; omega
  rw [exec_eq_run]
  exact Ends.runs (a + b) hfuel _ _ (Leads.ends _ _ _ _ _ h he) ht

/-! ### The frame and the caller of a request -/

/-- The frame of a CALL (R76, R86). -/
theorem returnFrame_call (s : State) : returnFrame (capturePrior s .call 0) false =
    callerFrame s s.callerName s.callerSel (s.par.pc + 1) false := by
  obtain ⟨hname, hsel, -⟩ := capture_plain s .call rfl
  simp only [returnFrame, hname, hsel]
  rfl

/-- The frame of an LxJ of call form (R76, R86). -/
theorem returnFrame_lxj (s : State) (op : OpKind) (x : Word) (k : BmSel) (hx : kindIsLxj op = true)
    (h : lxjSel s.params op x (db31 s.dr) = some k) : returnFrame (capturePrior s op x) false =
    callerFrame s (s.abtEntry k) k (s.par.pc + 1) false := by
  obtain ⟨hname, hsel, -, hoff⟩ := capture_lxj s op x k h hx
  simp only [returnFrame, hname, hsel, hoff]
  rfl

/-- What step 11 of an LxJ does to the caller (R85). -/
theorem voidPrior_lxj (s u : State) (op : OpKind) (x : Word) (m : Mode) (k : BmSel) (hx : kindIsLxj op = true)
    (h : lxjSel s.params op x (db31 s.dr) = some k) :
    voidPrior u (capturePrior s op x) m = leaveCaller u s.mode m k := by
  obtain ⟨-, -, hslot, -⟩ := capture_lxj s op x k h hx
  exact voidPrior_eq u _ m k fun _ => hslot

/-! ### CALL -/

theorem callSourced_call (s : State) (v : VA) :
    CallSourced (sourced (callRecord .call v (capturePrior s .call 0)) v) .call v (capturePrior s .call 0) :=
  ⟨rfl, ⟨rfl, .inl rfl⟩, rfl, rfl, rfl⟩

/-- A CALL whose frame does not fit (R97). -/
theorem exec_call_overflow (s : State) (v : VA) (n : BankName) (bd : BankDescriptor) (e : EngineFault)
    (h : Reaches s (vaName v) n bd) (hl : MayLand s bd)
    (hpush : rcsPush (leaveCaller s s.mode (landingMode bd) s.codeSel)
      (callerFrame s s.callerName s.callerSel (s.par.pc + 1) false) = .raise e) :
    exec (.call v) s = .next (finished (.fault e) (leaveCaller s s.mode (landingMode bd) s.codeSel)) := by
  rw [← voidPrior_plain s s .call (landingMode bd) rfl] at hpush ⊢
  rw [← returnFrame_call] at hpush
  obtain ⟨k, hk, he⟩ := ends_overflow_direct s _ .call v _ n bd e (callSourced_call s v) h hl hpush
  exact exec_of_ends (.call v) s _ _ 3 k le_rfl hk (leads_call .call (.inl rfl) v s) he rfl

/-- A CALL through a gate whose frame does not fit (R97). -/
theorem exec_call_gate_overflow (s : State) (v : VA) (g : GateRecord) (t : BankDescriptor) (e : EngineFault)
    (hr : ReadsGate s v g) (ha : GateAdmits s g) (hl : GateLeads s g t)
    (hpush : rcsPush (leaveCaller (gateTransfers s g) s.mode (landingMode t) s.codeSel)
      (callerFrame s s.callerName s.callerSel (s.par.pc + 1) false) = .raise e) :
    exec (.call v) s =
      .next (finished (.fault e) (leaveCaller (gateTransfers s g) s.mode (landingMode t) s.codeSel)) := by
  rw [← voidPrior_plain s (gateTransfers s g) .call (landingMode t) rfl] at hpush ⊢
  rw [← returnFrame_call] at hpush
  obtain ⟨k, hk, he⟩ := ends_overflow_gated s _ .call v _ g t e (callSourced_call s v) hr ha hl (by
    simp [gotoInhibitApplies, sourced, callRecord, Info.isLxjForm, Info.isLxj, kindIsLxj]) hpush
  exact exec_of_ends (.call v) s _ _ 3 k le_rfl hk (leads_call .call (.inl rfl) v s) he rfl

/-! ### LBJ, LDJ and LIJ of call form -/

section Lxj
variable {s : State} {i : Instr} {a : RegIndex} {d : BitVec 18} {k : BmSel}

/-- The record of an LxJ of call form at step 4. -/
def lxjCallRecord (s : State) (op : OpKind) (a : RegIndex) (d : BitVec 18) : Info :=
  sourced (lxjRecord op a d (s.gr (lxjRegister s a)) .call (capturePrior s op (s.gr (lxjRegister s a))))
    (lxjTarget s a d)

theorem callSourced_lxj (op : OpKind) (hx : kindIsLxj op = true) :
    CallSourced (lxjCallRecord s op a d) op (lxjTarget s a d) (capturePrior s op (s.gr (lxjRegister s a))) :=
  ⟨rfl, ⟨rfl, .inr ⟨hx, rfl⟩⟩, rfl, rfl, rfl⟩

/-- Steps 1 to 3 of an LxJ of call form. -/
theorem leads_lxj_call (hsel : LxjSelects s i a d k) (hf : LxjHasForm s a .call) :
    Leads 3 (startRequest i s) (s.setInfo (lxjCallRecord s i.kind a d)) := by
  obtain ⟨hx, hstart, -⟩ := lxj_kind s i a d k hsel
  rw [hstart]
  exact Leads.trans 2 1 _ _ _ (leads_lxj s i.kind a d .call hx hf)
    (Leads.step _ _ (by simp [lxjRecord, callRecord])
      (leads3_lxj s _ i.kind .call _ d rfl rfl hx rfl (by decide) rfl rfl))

/-- Where goto-inhibit does not apply to the request, it does not apply to its record (R83). -/
theorem gotoInhibitApplies_lxjCall (hsel : LxjSelects s i a d k) (h : ¬GotoInhibitApplies s i) :
    gotoInhibitApplies (lxjCallRecord s i.kind a d) = false := by
  have hx := (lxj_kind s i a d k hsel).1
  have hgoto : i.kind ≠ .goto := fun e => by simp [e, kindIsLxj] at hx
  have hlbj : i.kind = .lbj → linkIs (s.gr (lxjRegister s a)) ≠ 1 := fun e h1 =>
    h (.inr ⟨a, d, k, hsel, .inr ⟨e, h1⟩⟩)
  simpa [gotoInhibitApplies, lxjCallRecord, sourced, lxjRecord, callRecord, Info.isLxjForm, hgoto] using hlbj

/-- An LxJ of call form whose frame does not fit (R102). -/
theorem exec_lxj_overflow (n : BankName) (bd : BankDescriptor) (e : EngineFault) (hsel : LxjSelects s i a d k)
    (hf : LxjHasForm s a .call) (h : Reaches s (vaName (lxjTarget s a d)) n bd) (hl : MayLand s bd)
    (hpush : rcsPush (leaveCaller s s.mode (landingMode bd) k)
      (callerFrame s (s.abtEntry k) k (s.par.pc + 1) false) = .raise e) :
    exec i s = .next (finished (.fault e) (leaveCaller s s.mode (landingMode bd) k)) := by
  obtain ⟨hx, -, hk⟩ := lxj_kind s i a d k hsel
  rw [← voidPrior_lxj s s i.kind _ (landingMode bd) k hx hk] at hpush ⊢
  rw [← returnFrame_lxj s i.kind _ k hx hk] at hpush
  obtain ⟨b, hb, he⟩ := ends_overflow_direct s _ i.kind _ _ n bd e (callSourced_lxj i.kind hx) h hl hpush
  exact exec_of_ends i s _ _ 3 b le_rfl hb (leads_lxj_call hsel hf) he rfl

/-- An LxJ of call form through a gate whose frame does not fit (R102). -/
theorem exec_lxj_gate_overflow (g : GateRecord) (t : BankDescriptor) (e : EngineFault) (hsel : LxjSelects s i a d k)
    (hf : LxjHasForm s a .call) (hr : ReadsGate s (lxjTarget s a d) g) (ha : GateAdmits s g) (hl : GateLeads s g t)
    (hin : ¬(g.gotoInhibited = true ∧ GotoInhibitApplies s i))
    (hpush : rcsPush (leaveCaller (gateTransfers s g) s.mode (landingMode t) k)
      (callerFrame s (s.abtEntry k) k (s.par.pc + 1) false) = .raise e) :
    exec i s = .next (finished (.fault e) (leaveCaller (gateTransfers s g) s.mode (landingMode t) k)) := by
  obtain ⟨hx, -, hk⟩ := lxj_kind s i a d k hsel
  rw [← voidPrior_lxj s (gateTransfers s g) i.kind _ (landingMode t) k hx hk] at hpush ⊢
  rw [← returnFrame_lxj s i.kind _ k hx hk] at hpush
  have hin' : (g.gotoInhibited && gotoInhibitApplies (lxjCallRecord s i.kind a d)) = false := by
    cases hg : g.gotoInhibited with
    | false => rfl
    | true => exact gotoInhibitApplies_lxjCall hsel fun h => hin ⟨hg, h⟩
  obtain ⟨b, hb, he⟩ := ends_overflow_gated s _ i.kind _ _ g t e (callSourced_lxj i.kind hx) hr ha hl hin' hpush
  exact exec_of_ends i s _ _ 3 b le_rfl hb (leads_lxj_call hsel hf) he rfl

end Lxj

/-- Settles O30: each of the four requests runs to the push of step 12, which raises. -/
theorem callOverflowKeepsEarlierWrites : Obligations.CallOverflowKeepsEarlierWrites :=
  ⟨exec_call_overflow, exec_call_gate_overflow, fun _ _ _ _ _ => exec_lxj_overflow,
    fun _ _ _ _ _ => exec_lxj_gate_overflow⟩

end Sys2Proof.Machine

/-! SUPPORT. Storage records: a read of consecutive words is a read of each, so a record is decoded from the words that
stand in storage; the pop and the push of a frame word by word. -/

namespace Sys2Proof.Machine

/-! ### Addresses and single words -/

@[simp] theorem addressPlus_zero (a : AbsoluteAddress) : addressPlus a 0 = a := by simp [addressPlus]

/-- Offsets through one binding add up (R31). -/
theorem addressPlus_relToAbs (r : Bound) (rel : Int) (n : Nat) :
    addressPlus (relToAbs r rel) n = relToAbs r (rel + n) := by
  simp [addressPlus, relToAbs, Int.add_assoc]

/-- Consecutive words that can be read one by one are read together (R35). -/
theorem memRead_of_words (s : State) (a : AbsoluteAddress) {n : Nat} (w : Vector Word n)
    (h : ∀ k : Fin n, readWord s (addressPlus a k) = .ok w[k]) : memRead s a n = .ok w := by
  induction n with
  | zero => simp [memRead]
  | succ n ih =>
    have front : memRead s a n = .ok w.pop := ih w.pop fun k => by simpa using h k.castSucc
    have last : readWord s (addressPlus a n) = .ok w.back := h (Fin.last n)
    simp only [memRead, front, last, andThen_ok, Vector.push_pop_back]

@[simp] theorem readWord_setInfo (s : State) (i : Info) (a : AbsoluteAddress) :
    readWord (s.setInfo i) a = readWord s a := readWord_congr s (s.setInfo i) a rfl rfl

@[simp] theorem readWord_setResult (s : State) (r : Option Completion) (a : AbsoluteAddress) :
    readWord (s.setResult r) a = readWord s a := readWord_congr s (s.setResult r) a rfl rfl

@[simp] theorem readWord_setRcsp (s : State) (p : BitVec 18) (a : AbsoluteAddress) :
    readWord (s.setRcsp p) a = readWord s a := readWord_congr s (s.setRcsp p) a rfl rfl

/-- A word that can be read can be written: both ask whether the address has a storage key (R36). -/
theorem writeWord_of_readWord (s : State) (a : AbsoluteAddress) (v w : Word) (h : readWord s a = .ok w) :
    ∃ t, writeWord s a v = .ok t := by
  unfold readWord at h
  split at h
  · rename_i key hkey
    exact ⟨_, by rw [writeWord, hkey]⟩
  · simp at h

/-- Two words that can be read can be written. -/
theorem memWrite2_of_readWord (s : State) (a : AbsoluteAddress) (v0 v1 w0 w1 : Word) (h0 : readWord s a = .ok w0)
    (h1 : readWord s (addressPlus a 1) = .ok w1) : ∃ t, memWrite2 s a v0 v1 = .ok t := by
  obtain ⟨u, hu⟩ := writeWord_of_readWord s a v0 w0 h0
  have h1' : readWord u (addressPlus a 1) = .ok w1 := by
    rw [readWord_writeWord_other s u a _ v0 (addressPlus_one_ne a).symm hu, h1]
  obtain ⟨t, ht⟩ := writeWord_of_readWord u _ v1 w1 h1'
  exact ⟨t, by rw [memWrite2, hu, andThen_ok, ht]⟩

/-- A two-word write stores both words, in canonical storage. -/
theorem readWord_memWrite2 (s t : State) (a : AbsoluteAddress) (v0 v1 : Word) (hm : s.memory.wf = true)
    (h : memWrite2 s a v0 v1 = .ok t) : readWord t a = .ok v0 ∧ readWord t (addressPlus a 1) = .ok v1 := by
  obtain ⟨u, hu, ht, _⟩ := memWrite2_ok s t a v0 v1 h
  refine ⟨?_, readWord_writeWord_same u t _ v1 (wf_writeWord s u a v0 hm hu) ht⟩
  rw [readWord_writeWord_other u t _ a v1 (addressPlus_one_ne a) ht]
  exact readWord_writeWord_same s u a v0 hm hu

/-- A two-word write leaves every other word alone. -/
theorem readWord_memWrite2_other (s t : State) (a b : AbsoluteAddress) (v0 v1 : Word) (hb0 : b ≠ a)
    (hb1 : b ≠ addressPlus a 1) (h : memWrite2 s a v0 v1 = .ok t) : readWord t b = readWord s b := by
  obtain ⟨u, hu, ht, _⟩ := memWrite2_ok s t a v0 v1 h
  rw [readWord_writeWord_other u t _ b v1 hb1 ht, readWord_writeWord_other s u a b v0 hb0 hu]

/-! ### Descriptors, gate records and interrupt vectors -/

theorem tableLookup_void (s : State) (n : BankName) (hb : s.breg (bdtSlot s.params n.level) = .void) :
    tableLookup s n = .ok none := by
  simp only [tableLookup, hb]

theorem tableLookup_outside (s : State) (n : BankName) (r : Bound)
    (hb : s.breg (bdtSlot s.params n.level) = .bound r)
    (h : 8 * n.bdi.toNat < r.lln.toNat ∨ r.uln.toNat < 8 * n.bdi.toNat + 7) : tableLookup s n = .ok none := by
  simp only [tableLookup, hb, if_pos h]

/-- The BDT walk decodes the eight words at its entry (R39). -/
theorem tableLookup_of_memRead (s : State) (n : BankName) (r : Bound) (w : Vector Word 8)
    (hb : s.breg (bdtSlot s.params n.level) = .bound r) (hl : r.lln.toNat ≤ 8 * n.bdi.toNat)
    (hu : 8 * n.bdi.toNat + 7 ≤ r.uln.toNat)
    (hw : memRead s (relToAbs r (8 * n.bdi.toNat : Nat)) 8 = .ok w) : tableLookup s n = .ok (decodeBd w) := by
  have inside : ¬(8 * n.bdi.toNat < r.lln.toNat ∨ r.uln.toNat < 8 * n.bdi.toNat + 7) := by omega
  simp only [tableLookup, hb, if_neg inside, hw, andThen_ok]

theorem gateRead_of_memRead (s : State) (gb : BankDescriptor) (off : BitVec 18) (g : Vector Word 5)
    (hg : memRead s (relToAbs (boundOf gb) off.toNat) 5 = .ok g) : gateRead s gb off = .ok (decodeGate g) := by
  rw [gateRead, hg, andThen_ok]

theorem vectorRead_of_memRead (s : State) (c : Nat) (r : Bound) (w : Vector Word 1)
    (hb : s.breg (bdtSlot s.params 0) = .bound r) (hl : r.lln.toNat ≤ c) (hu : c ≤ r.uln.toNat)
    (hw : memRead s (relToAbs r c) 1 = .ok w) : vectorRead s c = .ok (decodeVa w[0]) := by
  have inside : ¬(c < r.lln.toNat ∨ r.uln.toNat < c) := by omega
  simp only [vectorRead, hb, if_neg inside, hw, andThen_ok]

/-- Settles O5: each record is decoded from a read of several words, which is a read of each word. -/
theorem storedRecordsAreRead : Obligations.StoredRecordsAreRead := by
  refine ⟨?found, ?void, ?outside, ?gate, ?vector⟩
  case found =>
    intro s n r w hwalk hb hl hu hw
    rw [findBd_tableWalk s n hwalk]
    exact tableLookup_of_memRead s n r w hb hl hu (memRead_of_words s _ w hw)
  case void =>
    intro s n hwalk hb
    rw [findBd_tableWalk s n hwalk, tableLookup_void s n hb]
  case outside =>
    intro s n r hwalk hb h
    rw [findBd_tableWalk s n hwalk, tableLookup_outside s n r hb h]
  case gate =>
    intro s gb off g hg
    exact gateRead_of_memRead s gb off g (memRead_of_words s _ g hg)
  case vector =>
    intro s c r w hb hl hu hw
    have hread : memRead s (relToAbs r c) 1 = .ok #v[w] := memRead_of_words s _ #v[w] fun k => by
      rw [Fin.fin_one_eq_zero k]
      simpa using hw
    exact vectorRead_of_memRead s c r #v[w] hb hl hu hread

/-! ### The pop of a frame -/

theorem rcsPop_void (s : State) (hb : s.breg s.params.rcsBreg = .void) :
    rcsPop s = .raise (.stack .underflow s.params.rcsBreg s.rcsp) := by
  simp only [rcsPop, hb]

theorem rcsPop_outside (s : State) (r : Bound) (hb : s.breg s.params.rcsBreg = .bound r)
    (h : r.uln.toNat < s.rcsp.toNat + 1 ∨ s.rcsp.toNat < r.lln.toNat) :
    rcsPop s = .raise (.stack .underflow s.params.rcsBreg s.rcsp) := by
  simp only [rcsPop, hb, if_pos h]

/-- Settles O18: the two words that the pop reads stand at RCSP and RCSP + 1. -/
theorem popReadsFrame : Obligations.PopReadsFrame := by
  refine ⟨rcsPop_void, rcsPop_outside, ?_⟩
  intro s r w0 w1 hb hu hl h0 h1
  have h1' : readWord s (addressPlus (relToAbs r s.rcsp.toNat) 1) = .ok w1 := by
    rw [addressPlus_relToAbs]
    exact h1
  exact rcsPop_of_memRead s r w0 w1 hb hl hu (memRead_two s _ w0 w1 h0 h1')

/-! ### The push of a frame -/

theorem rcsPush_void (s : State) (f : Frame) (hb : s.breg s.params.rcsBreg = .void) :
    rcsPush s f = .raise (.stack .overflow s.params.rcsBreg (s.rcsp - 2)) := by
  simp only [rcsPush, hb]

theorem rcsPush_outside (s : State) (f : Frame) (r : Bound) (hb : s.breg s.params.rcsBreg = .bound r)
    (h : (s.rcsp.toNat : Int) - 2 < r.lln.toNat ∨ (r.uln.toNat : Int) < (s.rcsp.toNat : Int) - 1) :
    rcsPush s f = .raise (.stack .overflow s.params.rcsBreg (s.rcsp - 2)) := by
  have outside : (s.rcsp.toNat : Int) - 2 < r.lln.toNat ∨ (r.uln.toNat : Int) < (s.rcsp.toNat : Int) - 2 + 1 := by
    omega
  simp only [rcsPush, hb, if_pos outside]

/-- A push whose frame fits and whose two words can be written (R42). -/
theorem rcsPush_of_memWrite2 (s u : State) (f : Frame) (r : Bound) (hb : s.breg s.params.rcsBreg = .bound r)
    (hl : (r.lln.toNat : Int) ≤ (s.rcsp.toNat : Int) - 2) (hu : (s.rcsp.toNat : Int) - 1 ≤ r.uln.toNat)
    (hw : memWrite2 s (relToAbs r ((s.rcsp.toNat : Int) - 2)) (encodeFrame0 f) (encodeFrame1 f) = .ok u) :
    rcsPush s f = .ok (u.setRcsp (s.rcsp - 2)) := by
  have inside : ¬((s.rcsp.toNat : Int) - 2 < r.lln.toNat ∨ (r.uln.toNat : Int) < (s.rcsp.toNat : Int) - 2 + 1) := by
    omega
  simp only [rcsPush, hb, if_neg inside, hw, andThen_ok]

/-- The second word of a frame below a stack pointer stands just below the pointer. -/
theorem addressPlus_below (r : Bound) (p : Int) : addressPlus (relToAbs r (p - 2)) 1 = relToAbs r (p - 1) := by
  rw [addressPlus_relToAbs]
  congr 1
  omega

/-- A push leaves every word of storage but the two below RCSP (R42). -/
theorem readWord_rcsPush_other (s t : State) (f : Frame) (r : Bound) (a : AbsoluteAddress)
    (hb : s.breg s.params.rcsBreg = .bound r) (h : rcsPush s f = .ok t)
    (h0 : a ≠ relToAbs r ((s.rcsp.toNat : Int) - 2)) (h1 : a ≠ relToAbs r ((s.rcsp.toNat : Int) - 1)) :
    readWord t a = readWord s a := by
  obtain ⟨r', u, hb', _, _, hw, rfl, _⟩ := rcsPush_ok s t f h
  obtain rfl : r = r' := by simpa [hb] using hb'
  rw [readWord_setRcsp]
  exact readWord_memWrite2_other s u _ a _ _ h0 (by rwa [addressPlus_below]) hw

/-- A push stores the frame's two words below RCSP, in canonical storage (R42). -/
theorem readWord_rcsPush (s t : State) (f : Frame) (r : Bound) (hm : s.memory.wf = true)
    (hb : s.breg s.params.rcsBreg = .bound r) (h : rcsPush s f = .ok t) :
    readWord t (relToAbs r ((s.rcsp.toNat : Int) - 2)) = .ok (encodeFrame0 f) ∧
      readWord t (relToAbs r ((s.rcsp.toNat : Int) - 1)) = .ok (encodeFrame1 f) := by
  obtain ⟨r', u, hb', _, _, hw, rfl, _⟩ := rcsPush_ok s t f h
  obtain rfl : r = r' := by simpa [hb] using hb'
  rw [readWord_setRcsp, readWord_setRcsp, ← addressPlus_below]
  exact readWord_memWrite2 s u _ _ _ hm hw

/-- Settles O19: a frame that fits is stored by two word writes, and the rules of a push say what they leave. -/
theorem pushStoresFrame : Obligations.PushStoresFrame := by
  refine ⟨rcsPush_void, rcsPush_outside, ?_⟩
  intro s f r w0 w1 hm hb hl hu h0 h1
  rw [← addressPlus_below] at h1
  obtain ⟨u, hw⟩ := memWrite2_of_readWord s _ (encodeFrame0 f) (encodeFrame1 f) w0 w1 h0 h1
  have hpush := rcsPush_of_memWrite2 s u f r hb hl hu hw
  obtain ⟨_, _, _, _, _, _, _, hframe⟩ := rcsPush_ok s _ f hpush
  obtain ⟨hfirst, hsecond⟩ := readWord_rcsPush s _ f r hm hb hpush
  exact ⟨_, hpush, hframe, hfirst, hsecond, fun a => readWord_rcsPush_other s _ f r a hb hpush⟩

end Sys2Proof.Machine

/-! SUPPORT. The storage frame of whole invocations: up to the push, RCSP and the stack's base register are those of the
state the request was made in, so the push writes the two words below that state's RCSP. -/

namespace Sys2Proof.Machine

/-- Before the binding of step 19 a step can only void a base register (R85). -/
theorem Effect.breg_kept_or_void {s s1 : State} (h : Effect s s1) (h19 : s.info.step ≠ .s19) (j : Slot) :
    s1.breg j = s.breg j ∨ s1.breg j = .void := by
  rcases h.breg j with e | ⟨h11 | h19', _⟩
  · exact .inl e
  · cases h with
    | voided pr m => exact voidPrior_breg s pr m j
    | none => exact .inl rfl
    | popped _ _ hstep | gate _ hstep | pushed _ _ hstep | linked _ _ hstep | linkedGr _ hstep | restored _ _ hstep
    | modeSet _ hstep | counter _ hstep | recorded _ _ hstep | bound _ _ hstep | flipped hstep => simp [h11] at hstep
  · exact absurd h19' h19

/-- Up to the push, the base registers are those of the state the request was made in, or voided. -/
def BregsUntilPush (s u : State) : Prop :=
  Past .s12 u.info ∨ ∀ j, u.breg j = s.breg j ∨ u.breg j = .void

/-- Every word that a push of the request cannot have written is as it was. -/
def WordsKept (i : Instr) (s u : State) : Prop :=
  ∀ a, (∀ r, Pushes s i → s.breg s.params.rcsBreg = .bound r →
      a ≠ relToAbs r ((s.rcsp.toNat : Int) - 2) ∧ a ≠ relToAbs r ((s.rcsp.toNat : Int) - 1)) →
    readWord u a = readWord s a

/-- What the induction over an invocation carries: where RCSP stands, the base registers up to the push, the words. -/
structure StorageAt (i : Instr) (s u : State) : Prop where
  pointer : StackPointerAt i s u
  bregs : Pushes s i → BregsUntilPush s u
  words : WordsKept i s u

section
variable {i : Instr} {s u t : State}

theorem Course.bregsUntilPush (c : Course i s u) (hpush : Pushes s i) (hs : u.info.step ≠ .idle)
    (hu : BregsUntilPush s u) (h : engineStep u = .next t) : BregsUntilPush s t := by
  have past (hn : pos .s12 ≤ pos u.info.step) : BregsUntilPush s t :=
    .inl (Past.next hn hs (by rw [c.op]; simpa using hpush.ne_lae) h)
  rcases hu with hp | hu
  · exact past (hp.pos_lt hs).le
  · by_cases h19 : u.info.step = .s19
    · exact past (by rw [h19]; decide)
    · obtain ⟨u1, j, r, he, rfl⟩ := engineStep_change u t hs h
      refine .inr fun k => ?_
      simp only [setResult_breg, setInfo_breg]
      rcases he.breg_kept_or_void h19 k with e | e
      · rw [e]
        exact hu k
      · exact .inr e

/-- A step that pushes belongs to a request that pushes. -/
theorem Course.pushes_of_rcsPush (c : Course i s u) (hs : u.info.step = .s12) {f : Frame} {u1 : State}
    (hpush : rcsPush u f = .ok u1) (h : engineStep u = .next t) (ht : t.rcsp = u1.rcsp) : Pushes s i := by
  obtain ⟨_, _, _, _, _, _, e, _⟩ := rcsPush_ok u u1 f hpush
  have hlow : t.rcsp = u.rcsp - 2 := by rw [ht, e]; rfl
  rcases c.rcsp (by simp [hs]) h with e | ⟨h3, _⟩ | ⟨_, hp, _⟩
  · bv_omega
  · simp [hs] at h3
  · exact hp

/-- At step 12 RCSP is where the request found it (R22). -/
theorem StackPointerAt.rcsp_of_s12 (hu : StackPointerAt i s u) (hs : u.info.step = .s12) (hpush : Pushes s i) :
    u.rcsp = s.rcsp := by
  rcases hu with e | ⟨hpop, _⟩ | ⟨_, _, hp⟩
  · exact e
  · exact absurd hpush hpop.not_pushes
  · simpa [hs] using hp.pos_lt (by simp [hs])

/-- At step 12 a stack's base register that is not Void is the one the request found. -/
theorem BregsUntilPush.bound_of_s12 (hu : BregsUntilPush s u) (hs : u.info.step = .s12) {j : Slot} {r : Bound}
    (hb : u.breg j = .bound r) : s.breg j = .bound r := by
  rcases hu with hp | hu
  · simpa [hs] using hp.pos_lt (by simp [hs])
  · rcases hu j with e | e
    · rw [← e, hb]
    · simp [hb] at e

/-- An engine step writes no word but the two that the request may push (R35, R86). -/
theorem Course.wordsKept (c : Course i s u) (hs : u.info.step ≠ .idle) (hu : StorageAt i s u)
    (h : engineStep u = .next t) : WordsKept i s t := by
  intro a ha
  rw [← hu.words a ha]
  obtain ⟨u1, j, q, he, rfl⟩ := engineStep_change u t hs h
  rw [readWord_setResult, readWord_setInfo]
  rcases he.memory with e | ⟨h12, f, hf⟩
  · exact readWord_congr u u1 a (by rw [he.params]) e
  · have hpush : Pushes s i := c.pushes_of_rcsPush h12 hf h rfl
    obtain ⟨r, _, hbound, _⟩ := rcsPush_ok u u1 f hf
    have hbound' : s.breg s.params.rcsBreg = .bound r := (hu.bregs hpush).bound_of_s12 h12 (c.params ▸ hbound)
    obtain ⟨h0, h1⟩ := ha r hpush hbound'
    rw [← hu.pointer.rcsp_of_s12 h12 hpush] at h0 h1
    exact readWord_rcsPush_other u u1 f r a hbound hf h0 h1

theorem startRequest_storageAt (i : Instr) (s : State) : StorageAt i s (startRequest i s) := by
  rw [startRequest_eq]
  exact ⟨.inl rfl, fun _ => .inr fun _ => .inl rfl, fun a _ => readWord_congr s _ a rfl rfl⟩

theorem Course.storageAt (c : Course i s u) (hs : u.info.step ≠ .idle) (hu : StorageAt i s u)
    (h : engineStep u = .next t) : StorageAt i s t :=
  ⟨c.stackPointerAt hs hu.pointer h, fun hpush => c.bregsUntilPush hpush hs (hu.bregs hpush) h, c.wordsKept hs hu h⟩

end

/-- An invocation writes no word but the two that its request may push. -/
theorem exec_wordsKept (i : Instr) (s t : State) (h : exec i s = .next t) : WordsKept i s t :=
  (exec_induct i s (StorageAt i s) (startRequest_storageAt i s) (fun _ _ c hs hu hv => c.storageAt hs hu hv) t h).words

/-- Settles O50, by induction over the invocation (`exec_wordsKept`). -/
theorem storageWrittenByPushOnly : Obligations.StorageWrittenByPushOnly := by
  intro i s t h
  have kept := exec_wordsKept i s t h
  refine ⟨fun hno a => kept a fun r hpush _ => absurd hpush hno, fun hvoid a => kept a fun r _ hb => ?_,
    fun r hb a h0 h1 => kept a fun r' _ hb' => ?_⟩
  · simp [hvoid] at hb
  · obtain rfl : r = r' := by simpa [hb] using hb'
    exact ⟨h0, h1⟩

end Sys2Proof.Machine

/-! SUPPORT. The request decoder: what the header's fields are after encoding, how many words each kind takes, and the
words that are no request. -/

namespace Sys2Proof.Machine

/-! ### Operation codes and the header (R49) -/

theorem opCodeOf_lt (k : OpKind) : opCodeOf k < 16 := by cases k <;> decide

theorem opKindOf_opCodeOf (k : OpKind) : opKindOf (BitVec.ofNat 4 (opCodeOf k)) = some k := by cases k <;> rfl

/-- Operation codes 10 to 14 have no kind. -/
theorem opKindOf_reserved (op : BitVec 4) (hl : 10 ≤ op.toNat) (hu : op.toNat ≤ 14) : opKindOf op = none := by
  revert op; decide

@[simp] theorem headerOp_encodeHeader (k : OpKind) (a cls : Nat) :
    headerOp (encodeHeader k a cls) = BitVec.ofNat 4 (opCodeOf k) := by
  apply BitVec.eq_of_toNat_eq
  simp only [headerOp, encodeHeader, BitVec.extractLsb'_toNat, BitVec.toNat_ofNat, Nat.shiftRight_zero]
  omega

/-- The a-field stands just above the operation code, which fits its four bits. -/
@[simp] theorem headerA_encodeHeader (k : OpKind) (a : RegIndex) (cls : Nat) : headerA (encodeHeader k a cls) = a := by
  have hk := opCodeOf_lt k
  have ha := a.isLt
  have hfield : ((encodeHeader k a cls).extractLsb' 4 4).toNat = a := by
    simp only [encodeHeader, BitVec.extractLsb'_toNat, BitVec.toNat_ofNat, Nat.shiftRight_eq_div_pow]
    omega
  exact Fin.ext hfield

/-- A class that fits the header and its field reads back. -/
theorem headerClass_encodeHeader (classWidth : Nat) (k : OpKind) (cls : Nat) (hw : cls < 2 ^ classWidth)
    (hh : cls < 2 ^ 28) : headerClass classWidth (encodeHeader k 0 cls) = cls := by
  have hk := opCodeOf_lt k
  have hdiv : (encodeHeader k 0 cls).toNat / 2 ^ 8 = cls := by
    simp only [encodeHeader, BitVec.toNat_ofNat]
    omega
  rw [headerClass, hdiv, Nat.mod_eq_of_lt hw]

/-! ### The operand words -/

/-- An LxJ offset survives the widening to its operand word. -/
@[simp] theorem extract_setWidth_offset (d : BitVec 18) : (d.setWidth 36 : Word).extractLsb' 0 18 = d := by
  apply BitVec.eq_of_toNat_eq
  have hd := d.isLt
  simp only [BitVec.extractLsb'_toNat, BitVec.toNat_setWidth, Nat.shiftRight_zero]
  omega

/-- Fifteen encoded addresses decode to themselves and leave the words after them. -/
theorem decodeLae_encodeVa (vs : List VA) (rest : List Word) (h : vs.length = 15) :
    decodeLae (vs.map encodeVa ++ rest) = .request (.lae vs) rest := by
  have hlen : (vs.map encodeVa).length = 15 := by rw [List.length_map, h]
  have htake : (vs.map encodeVa ++ rest).take 15 = vs.map encodeVa := List.take_left' hlen
  have hdrop : (vs.map encodeVa ++ rest).drop 15 = rest := List.drop_left' hlen
  have hback : decodeVa ∘ encodeVa = id := funext decodeVa_encodeVa
  rw [decodeLae, if_pos (by simp [h]), htake, hdrop, List.map_map, hback, List.map_id]

/-- After an encoded header the decoder reads the operands of that header's kind. -/
theorem decode_encodeHeader (classWidth : Nat) (k : OpKind) (a cls : Nat) (ws : List Word) :
    decode classWidth (encodeHeader k a cls :: ws) =
      decodeOperands classWidth (encodeHeader k a cls) ws k := by
  simp only [decode, headerOp_encodeHeader, opKindOf_opCodeOf]

/-- Settles O1: the header gives the kind back (`decode_encodeHeader`), and each kind's operands give its fields. -/
theorem requestDecodeOfEncode : Obligations.RequestDecodeOfEncode := by
  intro classWidth i rest hwf
  cases i with
  | lae vs =>
    have hlen : vs.length = 15 := by simpa [Instr.wf] using hwf
    simp only [encode, List.cons_append, decode_encodeHeader, decodeOperands, decodeLae_encodeVa vs rest hlen]
  | int cls =>
    obtain ⟨hw, hh⟩ : cls < 2 ^ classWidth ∧ cls < 2 ^ 28 := by simpa [Instr.wf] using hwf
    simp only [encode, List.cons_append, List.nil_append, decode_encodeHeader, decodeOperands,
      headerClass_encodeHeader classWidth .int cls hw hh]
  | ur u =>
    simp only [encode, List.cons_append, List.nil_append, decode_encodeHeader, decodeOperands, decodeUr,
      decodeFrame_encodeFrame]
  | rtn => simp only [encode, List.cons_append, List.nil_append, decode_encodeHeader, decodeOperands]
  | call v | goto v | lbe a v | lbu a v =>
    simp only [encode, List.cons_append, List.nil_append, decode_encodeHeader, decodeOperands, decodeOne,
      headerA_encodeHeader, decodeVa_encodeVa]
  | lbj a d | ldj a d | lij a d =>
    simp only [encode, List.cons_append, List.nil_append, decode_encodeHeader, decodeOperands, decodeOne,
      headerA_encodeHeader, extract_setWidth_offset]

/-! ### How many words a request takes (R50, R66) -/

/-- The operand words of a kind: with enough of them a request of that kind that takes just those, else the words are
cut short. -/
def TakesOperands (k : OpKind) (ws : List Word) (d : Decoded) : Prop :=
  (operandCount k ≤ ws.length ∧ ∃ i : Instr, i.kind = k ∧ d = .request i (ws.drop (operandCount k))) ∨
    (ws.length < operandCount k ∧ d = .rejected .truncatedRequest)

theorem TakesOperands.of_no_operand {k : OpKind} {i : Instr} (hk : operandCount k = 0) (hi : i.kind = k)
    (ws : List Word) : TakesOperands k ws (.request i ws) :=
  .inl ⟨by omega, i, hi, by rw [hk, List.drop_zero]⟩

theorem decodeOne_takesOperands {k : OpKind} {mk : Word → Instr} (hk : operandCount k = 1)
    (hmk : ∀ w, (mk w).kind = k) (ws : List Word) : TakesOperands k ws (decodeOne ws mk) := by
  cases ws with
  | nil => exact .inr ⟨by simp [hk], rfl⟩
  | cons w rest => exact .inl ⟨by simp [hk], mk w, hmk w, by simp [decodeOne, hk]⟩

theorem decodeUr_takesOperands (ws : List Word) : TakesOperands .ur ws (decodeUr ws) := by
  match ws with
  | [] | [_] => exact .inr ⟨by simp [operandCount], rfl⟩
  | u0 :: u1 :: rest => exact .inl ⟨by simp [operandCount], .ur (decodeFrame u0 u1), rfl, rfl⟩

theorem decodeLae_takesOperands (ws : List Word) : TakesOperands .lae ws (decodeLae ws) := by
  by_cases h : 15 ≤ ws.length
  · exact .inl ⟨h, _, rfl, by rw [decodeLae, if_pos h]; rfl⟩
  · exact .inr ⟨Nat.lt_of_not_le h, by rw [decodeLae, if_neg h]⟩

/-- The kind alone says how many words the operands take. -/
theorem decodeOperands_takesOperands (classWidth : Nat) (h : Word) (ws : List Word) (k : OpKind) :
    TakesOperands k ws (decodeOperands classWidth h ws k) := by
  cases k with
  | lae => exact decodeLae_takesOperands ws
  | ur => exact decodeUr_takesOperands ws
  | rtn | int => exact .of_no_operand (by rfl) (by rfl) ws
  | call | goto | lbe | lbu | lbj | ldj | lij => exact decodeOne_takesOperands (by rfl) (fun _ => by rfl) ws

/-- After a header with an operation code of R49 the decoder reads that kind's operands. -/
theorem decode_takesOperands (classWidth : Nat) (h : Word) (ws : List Word) (k : OpKind)
    (hk : opKindOf (headerOp h) = some k) : TakesOperands k ws (decode classWidth (h :: ws)) := by
  simp only [decode, hk]
  exact decodeOperands_takesOperands classWidth h ws k

theorem decode_reserved (classWidth : Nat) (h : Word) (ws : List Word) (hk : opKindOf (headerOp h) = none) :
    decode classWidth (h :: ws) = .rejected .reservedRequestCode := by
  simp only [decode, hk]

/-- Settles O3: a request comes from a header with a kind, and the kind says what it takes (`decode_takesOperands`). -/
theorem operandCountByOperation : Obligations.OperandCountByOperation := by
  refine ⟨fun classWidth h ws rest i hreq => ?count, fun classWidth h ws k hk hlen => ?enough⟩
  case count =>
    cases hk : opKindOf (headerOp h) with
    | none => simp [decode_reserved classWidth h ws hk] at hreq
    | some k =>
      rcases decode_takesOperands classWidth h ws k hk with ⟨hlen, j, rfl, hj⟩ | ⟨_, hcut⟩
      · obtain ⟨rfl, rfl⟩ : i = j ∧ rest = ws.drop (operandCount j.kind) := by simpa [hreq] using hj
        exact ⟨rfl, hlen, rfl⟩
      · simp [hreq] at hcut
  case enough =>
    rcases decode_takesOperands classWidth h ws k hk with ⟨_, i, hi, hreq⟩ | ⟨hshort, _⟩
    · exact ⟨i, _, hreq, hi⟩
    · omega

/-! ### Sample words and words that are no request -/

/-- Settles O4, by running the decoder on the six fixed requests. -/
theorem sampleWordsDecode : Obligations.SampleWordsDecode :=
  ⟨by decide, by decide, by decide, by decide, by decide, by decide⟩

/-- A running idle engine refuses what the decoder rejects. -/
theorem step_of_rejected (s : State) (e : DecodeError) (hrun : s.halted = false) (hidle : s.info.step = .idle)
    (h : nextRequest s = .rejected e) : step s = rejectRequest e s := by
  simp [step, hrun, hidle, h]

/-- Settles O7: each clause names what the decoder rejects the port's words for. -/
theorem wordsThatAreNoRequest : Obligations.WordsThatAreNoRequest := by
  refine ⟨fun s h ws hrun hidle hport hl hu => ?reserved, fun s hrun hidle hport => ?empty,
    fun s h ws k hrun hidle hport hk hshort => ?cut⟩
  case reserved =>
    refine step_of_rejected s .reservedRequestCode hrun hidle ?_
    rw [nextRequest, hport, decode_reserved _ h ws (opKindOf_reserved _ hl hu)]
  case empty =>
    refine step_of_rejected s .noRequest hrun hidle ?_
    rw [nextRequest, hport, decode]
  case cut =>
    refine step_of_rejected s .truncatedRequest hrun hidle ?_
    rw [nextRequest, hport]
    rcases decode_takesOperands s.params.intClassWidth h ws k hk with ⟨hlen, _⟩ | ⟨_, hcut⟩
    · omega
    · exact hcut

end Sys2Proof.Machine

/-! SUPPORT. Limits and base registers of a bank descriptor (R56 to R58). -/

namespace Sys2Proof.Machine

/-! ### The normalized limits (R56) -/

theorem normalizedLower_toNat (bd : BankDescriptor) :
    (normalizedLower bd).toNat = bd.lowerLimit.toNat * (if bd.largeBank then 32768 else 512) := by
  have hl := bd.lowerLimit.isLt
  simp only [normalizedLower, BitVec.toNat_shiftLeft, BitVec.toNat_setWidth, Nat.shiftLeft_eq]
  cases bd.largeBank <;> simp <;> omega

theorem normalizedUpper_toNat (bd : BankDescriptor) :
    (normalizedUpper bd).toNat = bd.upperLimit.toNat * (if bd.largeBank then 64 else 1) := by
  have hu := bd.upperLimit.isLt
  simp only [normalizedUpper, BitVec.toNat_shiftLeft, BitVec.toNat_setWidth, Nat.shiftLeft_eq]
  cases bd.largeBank <;> simp <;> omega

/-! ### A bank whose lower limit lies above its upper limit holds no address -/

theorem inside_of_empty (r : Bound) (rel : Int) (h : r.uln.toNat < r.lln.toNat) : inside (.bound r) rel = false := by
  simp only [inside, Bool.and_eq_false_iff, decide_eq_false_iff_not]
  omega

theorem gateOffsetOk_of_empty (p : Params) (bd : BankDescriptor) (off : BitVec 18)
    (h : (normalizedUpper bd).toNat < (normalizedLower bd).toNat) : gateOffsetOk p bd off = false := by
  simp only [gateOffsetOk, Bool.and_eq_false_iff, decide_eq_false_iff_not]
  omega

theorem vectorRead_outside (s : State) (c : Nat) (r : Bound) (hb : s.breg (bdtSlot s.params 0) = .bound r)
    (h : c < r.lln.toNat ∨ r.uln.toNat < c) : vectorRead s c = .halt (.vectorClassOutOfRange c) := by
  simp only [vectorRead, hb, if_pos h]

/-- Settles O16: no value lies between the limits of an empty bank, so each check takes its branch for an address
outside. -/
theorem limitsNormalized : Obligations.LimitsNormalized := by
  refine ⟨normalizedLower_toNat, normalizedUpper_toNat, fun bd rel => inside_of_empty (boundOf bd) rel,
    gateOffsetOk_of_empty, ?vector, ?table, ?stack⟩
  case vector =>
    intro s c r hb hempty
    exact vectorRead_outside s c r hb (by omega)
  case table =>
    intro s n r hwalk hb hempty
    rw [findBd_tableWalk s n hwalk]
    exact tableLookup_outside s n r hb (by omega)
  case stack =>
    intro s f r hb hempty
    exact ⟨rcsPop_outside s r hb (by omega), rcsPush_outside s f r hb (by omega)⟩

/-! ### The base register of a descriptor (R57, R58) -/

/-- The bank's first word lies below 2^54 and LLN below 2^24, so their difference fits 56 signed bits. -/
theorem baseAddr_offset_bounds (bd : BankDescriptor) :
    -(2 ^ 55 : Int) < (baseAddr bd).offset ∧ (baseAddr bd).offset < (2 ^ 55 : Int) := by
  have hsegment := bd.segment.isLt
  have hbase := bd.baseOffset.isLt
  have hlower := (normalizedLower bd).isLt
  simp only [baseAddr]
  omega

theorem baseAddr_offset_neg_iff (bd : BankDescriptor) : (baseAddr bd).offset < 0 ↔
    bd.segment.toNat * 2 ^ 36 + bd.baseOffset.toNat < (normalizedLower bd).toNat := by
  simp only [baseAddr]
  omega

/-- Settles O17: the offset's bounds are arithmetic, and the base register copies the fields that R58 names. -/
theorem baseRegisterFromDescriptor : Obligations.BaseRegisterFromDescriptor := by
  refine ⟨fun bd => ⟨rfl, rfl, ?_, ?_, baseAddr_offset_neg_iff bd⟩, fun _ => rfl, fun _ _ _ _ _ => rfl⟩
  · exact (baseAddr_offset_bounds bd).left
  · exact (baseAddr_offset_bounds bd).right

end Sys2Proof.Machine

/-! SUPPORT. The record codecs (R54, R59, R60, R64). A record's word is known by its fields: each encoded word has one
lemma that lists them, reserved fields included, and both round-trip laws read that list. -/

namespace Sys2Proof.Machine

/-! ### Fields of a word -/

/-- Two words agree on the fields of these widths, the first field from bit `lo` up. -/
def AgreeFrom {m : Nat} (x y : BitVec m) (lo : Nat) : List Nat → Prop
  | [] => True
  | n :: ns => x.extractLsb' lo n = y.extractLsb' lo n ∧ AgreeFrom x y (lo + n) ns

theorem AgreeFrom.extract_eq {m : Nat} {x y : BitVec m} {lo : Nat} {ns : List Nat} (h : AgreeFrom x y lo ns) :
    x.extractLsb' lo ns.sum = y.extractLsb' lo ns.sum := by
  induction ns generalizing lo with
  | nil => exact BitVec.eq_of_getLsbD_eq fun i hi => absurd hi (by simp)
  | cons n ns ih =>
    obtain ⟨first, others⟩ := h
    rw [List.sum_cons, Nat.add_comm n,
      ← BitVec.extractLsb'_append_extractLsb'_eq_extractLsb' (x := x) (start₂ := lo + n) rfl,
      ← BitVec.extractLsb'_append_extractLsb'_eq_extractLsb' (x := y) (start₂ := lo + n) rfl, first, ih others]

/-- Words that agree on fields that cover all their bits are equal. -/
theorem eq_of_fields {x y : Word} (ns : List Nat) (hsum : ns.sum = 36) (h : AgreeFrom x y 0 ns) : x = y := by
  have hwhole := h.extract_eq
  rwa [hsum, BitVec.extractLsb'_eq_self, BitVec.extractLsb'_eq_self] at hwhole

theorem getLsbD_of_extract {m i : Nat} {x : BitVec m} {b : Bool} (h : x.extractLsb' i 1 = BitVec.ofBool b) :
    x.getLsbD i = b := by
  rw [BitVec.getLsbD_eq_extractLsb', h]
  cases b <;> rfl

theorem ofBool_getLsbD {m : Nat} (x : BitVec m) (i : Nat) : BitVec.ofBool (x.getLsbD i) = x.extractLsb' i 1 := by
  rw [BitVec.getLsbD_eq_extractLsb']
  generalize x.extractLsb' i 1 = b
  revert b
  decide

/-- A field that a mask of reserved bits does not meet. -/
theorem extract_masked_kept (w mask : Word) (lo len : Nat) (h : (~~~mask).extractLsb' lo len = BitVec.allOnes len) :
    (w &&& ~~~mask).extractLsb' lo len = w.extractLsb' lo len := by
  rw [BitVec.extractLsb'_and, h, BitVec.and_allOnes]

/-- A field that a mask of reserved bits covers. -/
theorem extract_masked_cleared (w mask : Word) (lo len : Nat) (h : (~~~mask).extractLsb' lo len = 0#len) :
    (w &&& ~~~mask).extractLsb' lo len = 0#len := by
  rw [BitVec.extractLsb'_and, h, BitVec.and_zero]

/-! ### Permissions, bank types and virtual addresses -/

@[simp] theorem decodePermissions_encodePermissions (p : Permissions) :
    decodePermissions (encodePermissions p) = p := by
  obtain ⟨execute, read, write⟩ := p
  revert execute read write
  decide

@[simp] theorem encodePermissions_decodePermissions (c : BitVec 3) :
    encodePermissions (decodePermissions c) = c := by
  revert c
  decide

@[simp] theorem bankTypeOf_bankTypeCode (t : BankType) : bankTypeOf (bankTypeCode t) = some t := by
  cases t <;> rfl

theorem bankTypeCode_of_bankTypeOf (c : BitVec 4) (t : BankType) (h : bankTypeOf c = some t) : bankTypeCode t = c := by
  revert c
  cases t <;> decide

/-- The bank-type codes of R55 and no others are valid. -/
theorem bankTypeOf_eq_none_iff (c : BitVec 4) : bankTypeOf c = none ↔ c.toNat ∉ [0, 1, 2, 3, 4, 6] := by
  revert c
  decide

theorem encodeVa_fields (v : VA) :
    (encodeVa v).extractLsb' 0 18 = v.offset ∧ (encodeVa v).extractLsb' 18 15 = v.bdi ∧
    (encodeVa v).extractLsb' 33 3 = v.level := by
  have h : decodeVa (encodeVa v) = v := decodeVa_encodeVa v
  exact ⟨congrArg VA.offset h, congrArg VA.bdi h, congrArg VA.level h⟩

@[simp] theorem encodeVa_decodeVa (w : Word) : encodeVa (decodeVa w) = w := by
  obtain ⟨hoffset, hbdi, hlevel⟩ := encodeVa_fields (decodeVa w)
  refine eq_of_fields [18, 15, 3] rfl ?_
  simp only [AgreeFrom, Nat.reduceAdd, and_true, hoffset, hbdi, hlevel]
  exact ⟨rfl, rfl, rfl⟩

/-! ### Bank descriptors (R54) -/

/-- Word 0: G, L and U, the type and the permissions, with bits 18, 21, 22, 28 and 29 reserved. -/
theorem encodeBd_word0_fields (bd : BankDescriptor) :
    (encodeBd bd)[0].extractLsb' 0 18 = encodeKey bd.lock ∧
    (encodeBd bd)[0].extractLsb' 18 1 = 0#1 ∧
    (encodeBd bd)[0].extractLsb' 19 1 = BitVec.ofBool bd.upperLimitSuppression ∧
    (encodeBd bd)[0].extractLsb' 20 1 = BitVec.ofBool bd.largeBank ∧
    (encodeBd bd)[0].extractLsb' 21 2 = 0#2 ∧
    (encodeBd bd)[0].extractLsb' 23 1 = BitVec.ofBool bd.generalFault ∧
    (encodeBd bd)[0].extractLsb' 24 4 = bankTypeCode bd.bankType ∧
    (encodeBd bd)[0].extractLsb' 28 2 = 0#2 ∧
    (encodeBd bd)[0].extractLsb' 30 3 = encodePermissions bd.sap ∧
    (encodeBd bd)[0].extractLsb' 33 3 = encodePermissions bd.gap := by
  simp (disch := decide) only [encodeBd, Vector.getElem_mk, List.getElem_toArray, List.getElem_cons_zero,
    BitVec.extractLsb'_cast, BitVec.extractLsb'_append_eq_of_le,
    BitVec.extractLsb'_append_eq_of_add_le, Nat.reduceSub, BitVec.extractLsb'_eq_self, and_self]

/-- Word 1: the limits. -/
theorem encodeBd_word1_fields (bd : BankDescriptor) :
    (encodeBd bd)[1].extractLsb' 0 27 = bd.upperLimit ∧ (encodeBd bd)[1].extractLsb' 27 9 = bd.lowerLimit := by
  simp (disch := decide) only [encodeBd, Vector.getElem_mk, List.getElem_toArray, List.getElem_cons_zero,
    List.getElem_cons_succ, BitVec.extractLsb'_cast, BitVec.extractLsb'_append_eq_of_le,
    BitVec.extractLsb'_append_eq_of_add_le, Nat.reduceSub, BitVec.extractLsb'_eq_self, and_self]

/-- Word 2: the processor index and the segment, with bits 34 and 35 reserved. -/
theorem encodeBd_word2_fields (bd : BankDescriptor) :
    (encodeBd bd)[2].extractLsb' 0 18 = bd.segment ∧ (encodeBd bd)[2].extractLsb' 18 16 = bd.upi ∧
    (encodeBd bd)[2].extractLsb' 34 2 = 0#2 := by
  simp (disch := decide) only [encodeBd, Vector.getElem_mk, List.getElem_toArray, List.getElem_cons_zero,
    List.getElem_cons_succ, BitVec.extractLsb'_cast, BitVec.extractLsb'_append_eq_of_le,
    BitVec.extractLsb'_append_eq_of_add_le, Nat.reduceSub, BitVec.extractLsb'_eq_self, and_self]

/-- Word 4 has the layout of a virtual address. -/
theorem encodeBd_word4 (bd : BankDescriptor) :
    (encodeBd bd)[4] = encodeVa ⟨bd.target.level, bd.target.bdi, bd.displacement⟩ := rfl

theorem decodeBd_encodeBd (bd : BankDescriptor) : decodeBd (encodeBd bd) = some bd := by
  obtain ⟨hlock, _, hsuppress, hlarge, _, hfault, htype, _, hsap, hgap⟩ := encodeBd_word0_fields bd
  obtain ⟨hupper, hlower⟩ := encodeBd_word1_fields bd
  obtain ⟨hsegment, hupi, _⟩ := encodeBd_word2_fields bd
  obtain ⟨hdisplacement, hbdi, hlevel⟩ := encodeVa_fields ⟨bd.target.level, bd.target.bdi, bd.displacement⟩
  have hbase : (encodeBd bd)[3] = bd.baseOffset := rfl
  simp only [decodeBd, htype, bankTypeOf_bankTypeCode, hlock, hsap, hgap, hupper, hlower, hsegment, hupi, hbase,
    getLsbD_of_extract hsuppress, getLsbD_of_extract hlarge, getLsbD_of_extract hfault, encodeBd_word4, hdisplacement,
    hbdi, hlevel, decodeKey_encodeKey, decodePermissions_encodePermissions]

/-- A descriptor that decodes holds the type of its code and the fields of its words. -/
theorem decodeBd_eq_some (w : Vector Word 8) (bd : BankDescriptor) (h : decodeBd w = some bd) :
    bankTypeOf (w[0].extractLsb' 24 4) = some bd.bankType ∧
    bd.gap = decodePermissions (w[0].extractLsb' 33 3) ∧ bd.sap = decodePermissions (w[0].extractLsb' 30 3) ∧
    bd.generalFault = w[0].getLsbD 23 ∧ bd.largeBank = w[0].getLsbD 20 ∧
    bd.upperLimitSuppression = w[0].getLsbD 19 ∧ bd.lock = decodeKey (w[0].extractLsb' 0 18) ∧
    bd.lowerLimit = w[1].extractLsb' 27 9 ∧ bd.upperLimit = w[1].extractLsb' 0 27 ∧
    bd.upi = w[2].extractLsb' 18 16 ∧ bd.segment = w[2].extractLsb' 0 18 ∧ bd.baseOffset = w[3] ∧
    (⟨bd.target.level, bd.target.bdi, bd.displacement⟩ : VA) = decodeVa w[4] := by
  unfold decodeBd at h
  split at h
  · simp at h
  · rename_i t ht
    obtain rfl := Option.some.inj h
    exact ⟨ht, rfl, rfl, rfl, rfl, rfl, rfl, rfl, rfl, rfl, rfl, rfl, rfl⟩

theorem decodeBd_eq_none_iff (w : Vector Word 8) :
    decodeBd w = none ↔ bankTypeOf (w[0].extractLsb' 24 4) = none := by
  unfold decodeBd
  split
  next hnone => exact iff_of_true rfl hnone
  next hsome => simp [hsome]

/-- Encoding a decoded descriptor clears its reserved bits, those of word 0 and word 2 and the words 5 to 7. -/
theorem encodeBd_of_decodeBd (w : Vector Word 8) (bd : BankDescriptor) (h : decodeBd w = some bd) :
    encodeBd bd = #v[w[0] &&& ~~~0o006031000000, w[1], w[2] &&& ~~~0o600000000000, w[3], w[4], 0, 0, 0] := by
  obtain ⟨htype, hgap, hsap, hfault, hlarge, hsuppress, hlock, hlower, hupper, hupi, hsegment, hbase, hva⟩ :=
    decodeBd_eq_some w bd h
  have word0 : (encodeBd bd)[0] = w[0] &&& ~~~0o006031000000 := by
    obtain ⟨f0, f18, f19, f20, f21, f23, f24, f28, f30, f33⟩ := encodeBd_word0_fields bd
    refine eq_of_fields [18, 1, 1, 1, 2, 1, 4, 2, 3, 3] rfl ?_
    simp (disch := decide) only [AgreeFrom, Nat.reduceAdd, and_true,
      extract_masked_kept, extract_masked_cleared, f0, f18, f19, f20, f21, f23, f24, f28, f30, f33, hlock, hsuppress,
      hlarge, hfault, hsap, hgap, bankTypeCode_of_bankTypeOf _ _ htype, encodeKey_decodeKey, ofBool_getLsbD,
      encodePermissions_decodePermissions]
  have word1 : (encodeBd bd)[1] = w[1] := by
    obtain ⟨f0, f27⟩ := encodeBd_word1_fields bd
    refine eq_of_fields [27, 9] rfl ?_
    simp only [AgreeFrom, Nat.reduceAdd, and_true, f0, f27, hupper, hlower]
  have word2 : (encodeBd bd)[2] = w[2] &&& ~~~0o600000000000 := by
    obtain ⟨f0, f18, f34⟩ := encodeBd_word2_fields bd
    refine eq_of_fields [18, 16, 2] rfl ?_
    simp (disch := decide) only [AgreeFrom, Nat.reduceAdd, and_true,
      extract_masked_kept, extract_masked_cleared, f0, f18, f34, hsegment, hupi]
  have word4 : (encodeBd bd)[4] = w[4] := by rw [encodeBd_word4, hva, encodeVa_decodeVa]
  calc encodeBd bd
      = #v[(encodeBd bd)[0], (encodeBd bd)[1], (encodeBd bd)[2], bd.baseOffset, (encodeBd bd)[4], 0, 0, 0] := rfl
    _ = _ := by rw [word0, word1, word2, hbase, word4]

/-! ### Gate records (R59) -/

/-- Word 0: the lock, the flags and the permissions, with bits 18 to 23 reserved. -/
theorem encodeGate_word0_fields (g : GateRecord) :
    (encodeGate g)[0].extractLsb' 0 18 = encodeKey g.lock ∧
    (encodeGate g)[0].extractLsb' 18 6 = 0#6 ∧
    (encodeGate g)[0].extractLsb' 24 1 = BitVec.ofBool g.latentParam1Inhibited ∧
    (encodeGate g)[0].extractLsb' 25 1 = BitVec.ofBool g.latentParam0Inhibited ∧
    (encodeGate g)[0].extractLsb' 26 1 = BitVec.ofBool g.accessKeyInhibited ∧
    (encodeGate g)[0].extractLsb' 27 1 = BitVec.ofBool g.designatorBitsInhibited ∧
    (encodeGate g)[0].extractLsb' 28 1 = BitVec.ofBool g.gotoInhibited ∧
    (encodeGate g)[0].extractLsb' 29 1 = BitVec.ofBool g.libraryGate ∧
    (encodeGate g)[0].extractLsb' 30 3 = encodePermissions g.sap ∧
    (encodeGate g)[0].extractLsb' 33 3 = encodePermissions g.gap := by
  simp (disch := decide) only [encodeGate, Vector.getElem_mk, List.getElem_toArray, List.getElem_cons_zero,
    BitVec.extractLsb'_cast, BitVec.extractLsb'_append_eq_of_le,
    BitVec.extractLsb'_append_eq_of_add_le, Nat.reduceSub, BitVec.extractLsb'_eq_self, and_self]

/-- Word 2: the key, the designator bits and the selector, with bits 24 to 31, 34 and 35 reserved. -/
theorem encodeGate_word2_fields (g : GateRecord) :
    (encodeGate g)[2].extractLsb' 0 18 = encodeKey g.key ∧ (encodeGate g)[2].extractLsb' 18 6 = g.db ∧
    (encodeGate g)[2].extractLsb' 24 8 = 0#8 ∧ (encodeGate g)[2].extractLsb' 32 2 = g.sel ∧
    (encodeGate g)[2].extractLsb' 34 2 = 0#2 := by
  simp (disch := decide) only [encodeGate, Vector.getElem_mk, List.getElem_toArray, List.getElem_cons_zero,
    List.getElem_cons_succ, BitVec.extractLsb'_cast, BitVec.extractLsb'_append_eq_of_le,
    BitVec.extractLsb'_append_eq_of_add_le, Nat.reduceSub, BitVec.extractLsb'_eq_self, and_self]

theorem decodeGate_encodeGate (g : GateRecord) : decodeGate (encodeGate g) = g := by
  obtain ⟨hlock, _, hlatent1, hlatent0, hkeyInhibited, hdbInhibited, hgoto, hlibrary, hsap, hgap⟩ :=
    encodeGate_word0_fields g
  obtain ⟨hkey, hdb, _, hsel, _⟩ := encodeGate_word2_fields g
  have htarget : (encodeGate g)[1] = encodeVa g.target := rfl
  have hword3 : (encodeGate g)[3] = g.latent0 := rfl
  have hword4 : (encodeGate g)[4] = g.latent1 := rfl
  simp only [decodeGate, hlock, hsap, hgap, getLsbD_of_extract hlatent1, getLsbD_of_extract hlatent0,
    getLsbD_of_extract hkeyInhibited, getLsbD_of_extract hdbInhibited, getLsbD_of_extract hgoto,
    getLsbD_of_extract hlibrary, hkey, hdb, hsel, htarget, hword3, hword4, decodeKey_encodeKey, decodeVa_encodeVa,
    decodePermissions_encodePermissions]

/-- Encoding a decoded gate record clears the reserved bits of words 0 and 2. -/
theorem encodeGate_decodeGate (g : Vector Word 5) : encodeGate (decodeGate g) =
    #v[g[0] &&& ~~~0o000077000000, g[1], g[2] &&& ~~~0o637700000000, g[3], g[4]] := by
  have word0 : (encodeGate (decodeGate g))[0] = g[0] &&& ~~~0o000077000000 := by
    obtain ⟨f0, f18, f24, f25, f26, f27, f28, f29, f30, f33⟩ := encodeGate_word0_fields (decodeGate g)
    refine eq_of_fields [18, 6, 1, 1, 1, 1, 1, 1, 3, 3] rfl ?_
    simp (disch := decide) only [AgreeFrom, Nat.reduceAdd, and_true,
      extract_masked_kept, extract_masked_cleared, f0, f18, f24, f25, f26, f27, f28, f29, f30, f33]
    simp only [decodeGate, encodeKey_decodeKey, ofBool_getLsbD, encodePermissions_decodePermissions, and_self]
  have word2 : (encodeGate (decodeGate g))[2] = g[2] &&& ~~~0o637700000000 := by
    obtain ⟨f0, f18, f24, f32, f34⟩ := encodeGate_word2_fields (decodeGate g)
    refine eq_of_fields [18, 6, 8, 2, 2] rfl ?_
    simp (disch := decide) only [AgreeFrom, Nat.reduceAdd, and_true,
      extract_masked_kept, extract_masked_cleared, f0, f18, f24, f32, f34]
    simp only [decodeGate, encodeKey_decodeKey, and_self]
  calc encodeGate (decodeGate g)
      = #v[(encodeGate (decodeGate g))[0], encodeVa (decodeVa g[1]), (encodeGate (decodeGate g))[2], g[3], g[4]] := rfl
    _ = _ := by rw [word0, encodeVa_decodeVa, word2]

/-! ### Frames (R60) -/

/-- Bits 24 to 31 and 34 of a frame's second word are reserved (R60). -/
theorem encodeFrame1_reserved (f : Frame) :
    (encodeFrame1 f).extractLsb' 24 8 = 0#8 ∧ (encodeFrame1 f).extractLsb' 34 1 = 0#1 := by
  simp (disch := decide) only [encodeFrame1, BitVec.extractLsb'_cast, BitVec.extractLsb'_append_eq_of_le,
    BitVec.extractLsb'_append_eq_of_add_le, Nat.reduceSub, BitVec.extractLsb'_eq_self, and_self]

theorem encodeFrame0_decodeFrame (f0 f1 : Word) : encodeFrame0 (decodeFrame f0 f1) = f0 := encodeVa_decodeVa f0

/-- Encoding a decoded frame clears the reserved bits of its second word. -/
theorem encodeFrame1_decodeFrame (f0 f1 : Word) :
    encodeFrame1 (decodeFrame f0 f1) = f1 &&& ~~~0o237700000000 := by
  obtain ⟨hkey, hdb, hsel, htrap⟩ := extract_encodeFrame1 (decodeFrame f0 f1)
  obtain ⟨h24, h34⟩ := encodeFrame1_reserved (decodeFrame f0 f1)
  have h35 : (encodeFrame1 (decodeFrame f0 f1)).extractLsb' 35 1 = BitVec.ofBool (decodeFrame f0 f1).trap := by
    rw [← ofBool_getLsbD, htrap]
  refine eq_of_fields [18, 6, 8, 2, 1, 1] rfl ?_
  simp (disch := decide) only [AgreeFrom, Nat.reduceAdd, and_true,
    extract_masked_kept, extract_masked_cleared, hkey, hdb, h24, hsel, h34, h35]
  simp only [decodeFrame, encodeKey_decodeKey, ofBool_getLsbD, and_self]

/-- Settles O2, record by record: both round trips read the list of fields of each encoded word. -/
theorem recordRoundTrips : Obligations.RecordRoundTrips :=
  ⟨decodeBd_encodeBd, decodeGate_encodeGate, decodeFrame_encodeFrame, encodeBd_of_decodeBd, encodeGate_decodeGate,
    fun f0 f1 => ⟨encodeFrame0_decodeFrame f0 f1, encodeFrame1_decodeFrame f0 f1⟩,
    fun w => (decodeBd_eq_none_iff w).trans (bankTypeOf_eq_none_iff _)⟩

end Sys2Proof.Machine

/-! SUPPORT. Access control (R68 to R72): what the source's predicate selects, and that a load is blind to the key.
Each step that a load passes commutes with writing IKR (`engineStep_setIkr`); a load passes no other step. -/

namespace Sys2Proof.Machine

/-! ### The effective permissions (R68) -/

/-- By the source's predicate a key above the lock's domain, or equal to the lock, selects the special permissions. -/
theorem effectivePermissions_source (p : Params) (hp : p.accessSelect = sourceAccessSelect) (key lock : AccessKey)
    (general special : Permissions) : effectivePermissions p key lock general special =
      if lock.domain.toNat < key.domain.toNat ∨ (key.ring = lock.ring ∧ key.domain = lock.domain) then special
      else general := by
  cases key; cases lock
  simp only [effectivePermissions, hp, accessSelects_source, decide_eq_true_eq, AccessKey.mk.injEq]

/-- Settles O15, by the equation of the source's predicate. -/
theorem effectivePermissionsSelect : Obligations.EffectivePermissionsSelect := by
  intro p hp
  refine ⟨fun key lock general special => ⟨fun h => ?special, fun h => ?general⟩, ?workedExample⟩
  case special => rw [effectivePermissions_source p hp, if_pos h]
  case general => rw [effectivePermissions_source p hp, if_neg h]
  case workedExample => rw [effectivePermissions_source p hp, if_pos (.inl (by decide))]

/-! ### An outcome with another key -/

/-- The same outcome, with another IKR in its state. -/
def withKey (w : Word) : Out → Out
  | .next t => .next (t.setIkr w)
  | .fault f => .fault f
  | .refused r => .refused r

section
variable (w : Word) (s : State)

theorem withKey_ite (c : Prop) [Decidable c] (x y : Out) :
    withKey w (if c then x else y) = if c then withKey w x else withKey w y := apply_ite _ _ _ _

theorem withKey_need {α : Type} (o : Option α) (k : α → Out) :
    withKey w (need o k) = need o fun a => withKey w (k a) := by cases o <;> rfl

theorem withKey_goto (n : StepNo) : withKey w (goto n s) = goto n (s.setIkr w) := rfl

theorem withKey_endInvocation (c : Completion) : withKey w (endInvocation c s) = endInvocation c (s.setIkr w) := rfl

theorem withKey_raise (f : EngineFault) : withKey w (raise f s) = raise f (s.setIkr w) := by
  rw [raise_eq, raise_eq]; rfl

theorem withKey_raiseAddressing (r : AddressingReason) :
    withKey w (raiseAddressing r s) = raiseAddressing r (s.setIkr w) := withKey_raise w s _

theorem withKey_onAccess {α : Type} (x : Access α) (k : α → Out) :
    withKey w (onAccess x s k) = onAccess x (s.setIkr w) fun a => withKey w (k a) := by
  cases x with
  | raise f => exact withKey_raise w s f
  | ok | halt | stuck => rfl

/-! ### Operations that do not read the key -/

/-- FIND_BD is given no key (R39; of a substitute, log entry 15). -/
theorem findBd_setIkr (n : BankName) : findBd (s.setIkr w) n = findBd s n := findBd_congr s _ n rfl rfl rfl

theorem recordBinding_setIkr (j : Slot) (n : BankName) :
    recordBinding (s.setIkr w) j n = (recordBinding s j n).setIkr w := by
  simp only [recordBinding, recordAbt, apply_ite (State.setIkr · w)]
  cases bmSelOf j <;> rfl

/-- The void substitution of LBU looks at the privilege and the bank, not at the key (R70). -/
theorem withSubstitution_setIkr (bd : BankDescriptor) :
    withSubstitution (s.setIkr w) bd = (withSubstitution s bd).setIkr w := by
  simp only [withSubstitution, apply_ite (State.setIkr · w)]
  rfl

theorem withSubstitution_isLoad (bd : BankDescriptor) : (withSubstitution s bd).info.isLoad = s.info.isLoad := by
  obtain ⟨i, hi, hop⟩ := withSubstitution_eq s bd
  simp only [hi, setInfo_info, Info.isLoad, hop]

/-- The enter check, which reads the key, is not made for a load (R71, R81, R82). -/
theorem enterThenBind_of_load (bd : BankDescriptor) (hl : s.info.isLoad = true) : enterThenBind s bd = goto .s10 s := by
  simp [enterThenBind, enterDenied, not_forward_of_load s.info hl]

theorem enterThenBind_setIkr (bd : BankDescriptor) (hl : s.info.isLoad = true) :
    enterThenBind (s.setIkr w) bd = withKey w (enterThenBind s bd) := by
  rw [enterThenBind_of_load s bd hl, enterThenBind_of_load (s.setIkr w) bd hl, withKey_goto]

theorem enterThenBind_withSubstitution_setIkr (bd : BankDescriptor) (hl : s.info.isLoad = true) :
    enterThenBind (withSubstitution (s.setIkr w) bd) bd = withKey w (enterThenBind (withSubstitution s bd) bd) := by
  rw [withSubstitution_setIkr, enterThenBind_setIkr w _ bd (by rw [withSubstitution_isLoad, hl])]

/-! ### Each step of a load -/

theorem step1_setIkr : step1 (s.setIkr w) = withKey w (step1 s) := by
  simp only [step1, step1Lxj, withKey_need, withKey_ite, withKey_goto, withKey_raise, withKey_raiseAddressing]
  rfl

theorem step3_setIkr (hl : s.info.isLoad = true) : step3 (s.setIkr w) = withKey w (step3 s) := by
  simp only [step3, withKey_need, setIkr_info]
  cases hop : s.info.op with
  | none => rfl
  | some op =>
    rw [isLoad_of_op hop] at hl
    cases op with
    | lae =>
      cases s.info.operand with
      | vas vs => simp only [need_some, withKey_need, withKey_goto]; rfl
      | absent | va | offset | frame => rfl
    | lbe | lbu => cases s.info.operand <;> rfl
    | call | goto | lbj | ldj | lij | rtn | ur | int => simp [kindIsLoad] at hl

theorem step4_setIkr : step4 (s.setIkr w) = withKey w (step4 s) := by
  simp only [step4, withKey_need, withKey_ite, withKey_goto, withKey_raiseAddressing]
  rfl

theorem step5_setIkr : step5 (s.setIkr w) = withKey w (step5 s) := by
  simp only [step5, withKey_need, withKey_ite, withKey_goto, withKey_raiseAddressing]
  rfl

theorem step6_setIkr : step6 (s.setIkr w) = withKey w (step6 s) := by
  simp only [step6, withKey_need, withKey_onAccess, findBd_setIkr, setIkr_info]
  refine congrArg (need s.info.src) (funext fun v =>
    congrArg (onAccess (findBd s (vaName v)) (s.setIkr w)) (funext fun r => ?_))
  cases r with
  | none => exact (withKey_raiseAddressing w s _).symm
  | some bd => rfl

theorem step7_setIkr (hl : s.info.isLoad = true) : step7 (s.setIkr w) = withKey w (step7 s) := by
  simp only [step7, withKey_need, setIkr_info]
  refine congrArg (need s.info.srcBD) (funext fun bd => ?_)
  cases bd.bankType with
  | extendedMode => exact enterThenBind_setIkr w s bd hl
  | basicMode =>
    simp only [enterThenBind_withSubstitution_setIkr w s bd hl, withKey_need, withKey_ite, withKey_goto,
      withKey_raiseAddressing]
  | gate | indirect | queue =>
    simp only [withKey_ite, withKey_goto, withKey_raiseAddressing]
    rfl
  | queueRepository => exact (withKey_raiseAddressing w s _).symm

theorem step8Dispatch_setIkr (t : BankDescriptor) (hl : s.info.isLoad = true) :
    step8Dispatch (s.setIkr w) t = withKey w (step8Dispatch s t) := by
  unfold step8Dispatch
  cases t.bankType with
  | extendedMode => exact enterThenBind_setIkr w s t hl
  | basicMode => exact enterThenBind_withSubstitution_setIkr w s t hl
  | gate | queue =>
    simp only [withKey_ite, withKey_goto, withKey_raiseAddressing]
    rfl
  | indirect | queueRepository => exact (withKey_raiseAddressing w s _).symm

theorem step8_setIkr (hl : s.info.isLoad = true) : step8 (s.setIkr w) = withKey w (step8 s) := by
  simp only [step8, withKey_need, withKey_ite, withKey_onAccess, withKey_raiseAddressing, findBd_setIkr, setIkr_info]
  refine congrArg (need s.info.srcBD) (funext fun bd => if_congr Iff.rfl rfl (if_congr Iff.rfl rfl
    (congrArg (onAccess (findBd s bd.target) (s.setIkr w)) (funext fun r => ?_))))
  cases r with
  | none => exact (withKey_raiseAddressing w s _).symm
  | some t => exact step8Dispatch_setIkr w (s.setInfo _) t hl

theorem step10_setIkr (hl : s.info.isLoad = true) : step10 (s.setIkr w) = withKey w (step10 s) := by
  simp only [step10, withKey_need, setIkr_info]
  cases hop : s.info.op with
  | none => rfl
  | some op =>
    rw [isLoad_of_op hop] at hl
    cases op with
    | lae | lbe | lbu => simp only [need_some, withKey_need, loadInto, withKey_goto]; rfl
    | call | goto | lbj | ldj | lij | rtn | ur | int => simp [kindIsLoad] at hl

theorem step18_setIkr : step18 (s.setIkr w) = withKey w (step18 s) := by
  simp only [step18, withKey_need, withKey_goto, recordBinding_setIkr]
  rfl

theorem step19_setIkr : step19 (s.setIkr w) = withKey w (step19 s) := by
  simp only [step19, withKey_need, withKey_ite, withKey_goto]
  rfl

theorem step21_setIkr : step21 (s.setIkr w) = withKey w (step21 s) := by
  simp only [step21, withKey_need, withKey_ite, withKey_goto, withKey_raiseAddressing, withKey_endInvocation]
  rfl

/-- A step that a load passes does the same with another key. -/
theorem engineStep_setIkr (hl : s.info.isLoad = true) (ht : transferOnly s.info.step = false)
    (h9 : s.info.step ≠ .s9) : engineStep (s.setIkr w) = withKey w (engineStep s) := by
  simp only [engineStep, setIkr_info]
  cases hs : s.info.step with
  | idle => rfl
  | s1 => exact step1_setIkr w s
  | s3 => exact step3_setIkr w s hl
  | s4 => exact step4_setIkr w s
  | s5 => exact step5_setIkr w s
  | s6 => exact step6_setIkr w s
  | s7 => exact step7_setIkr w s hl
  | s8 => exact step8_setIkr w s hl
  | s9 => exact absurd hs h9
  | s10 => exact step10_setIkr w s hl
  | s18 => exact step18_setIkr w s
  | s19 => exact step19_setIkr w s
  | s21 => exact step21_setIkr w s
  | s2 | s11 | s12 | s13 | s14 | s15 | s16 | s17 | s20 => simp [hs, transferOnly] at ht

end

/-! ### The whole invocation of a load -/

section
variable {i : Instr} {s u : State}

theorem Course.isLoad (c : Course i s u) (hl : IsLoad i) : u.info.isLoad = true :=
  (info_load u.info i.kind c.op hl).1

/-- No load is at a gate (R81, R82). -/
theorem Course.not_s9_of_load (c : Course i s u) (hl : IsLoad i) : u.info.step ≠ .s9 := fun h9 => by
  simpa [not_forward_of_load u.info (c.isLoad hl)] using c.gate h9

theorem Course.engineStep_setIkr (c : Course i s u) (hl : IsLoad i) (w : Word) :
    engineStep (u.setIkr w) = withKey w (engineStep u) :=
  Machine.engineStep_setIkr w u (c.isLoad hl) (c.load (c.isLoad hl)) (c.not_s9_of_load hl)

theorem engineSteps_setIkr (hl : IsLoad i) (w : Word) (n : Nat) (u : State) (c : u.info = Info.idle ∨ Course i s u) :
    engineSteps n (u.setIkr w) = withKey w (engineSteps n u) := by
  induction n generalizing u with
  | zero => rfl
  | succ n ih =>
    by_cases hs : u.info.step = .idle
    · rw [engineSteps_idle _ u hs, engineSteps_idle _ (u.setIkr w) hs, withKey]
    · have c := c.resolve_left fun hi => hs (by rw [hi]; rfl)
      simp only [engineSteps, setIkr_info, if_neg hs, c.engineStep_setIkr hl w]
      cases he : engineStep u with
      | next t => exact ih t (engineStep_course c hs he)
      | fault f => rfl
      | refused r => rfl

/-- A load does the same with another key, whatever its outcome. -/
theorem exec_setIkr (hl : IsLoad i) (s : State) (w : Word) : exec i (s.setIkr w) = withKey w (exec i s) := by
  have hstart : startRequest i (s.setIkr w) = (startRequest i s).setIkr w := by
    rw [startRequest_eq, startRequest_eq]; rfl
  have hrun := engineSteps_setIkr hl w engineFuel (startRequest i s) (.inr (startRequest_course i s))
  rw [exec_eq_run, exec_eq_run, hstart]
  unfold runEngine
  rw [hrun]
  cases engineSteps engineFuel (startRequest i s) with
  | next t => exact (withKey_ite w (t.info.step = .idle) (.next t) (.fault .sequencerOverrun)).symm
  | fault f => rfl
  | refused r => rfl

end

/-- Settles O37: every step of a load commutes with writing IKR, and so does the invocation. -/
theorem loadsIgnoreKey : Obligations.LoadsIgnoreKey := by
  intro i s w hl
  exact ⟨fun t h => by rw [exec_setIkr hl, h]; rfl, fun f h => by rw [exec_setIkr hl, h]; rfl⟩

end Sys2Proof.Machine

/-! SUPPORT. What an engine step does to the record, said once (`engineStep_transits`): it ends the invocation with a
completion that the step may give, or it writes the fields that the step's rule names (R75 to R96) and goes on. -/

namespace Sys2Proof.Machine

/-- The slots that step 10 may select (R84). -/
inductive LandsAt (s : State) : Slot → Prop
  | lae (k : Fin 16) (ho : s.info.op = some .lae) (hk : s.info.laeI = some k) : LandsAt s ⟨k.val, by omega⟩
  | lbe (a : RegIndex) (ho : s.info.op = some .lbe) (ha : s.info.a = some a) : LandsAt s ⟨16 + a.val, by omega⟩
  | lbu (a : RegIndex) (ho : s.info.op = some .lbu) (ha : s.info.a = some a) : LandsAt s ⟨a.val, by omega⟩
  | emCode (hl : s.info.isLoad = false) : LandsAt s emCodeSlot
  | hardHeld (hl : s.info.isLoad = false) : LandsAt s s.params.hardHeldSlot
  | bmDefault (hl : s.info.isLoad = false) : LandsAt s s.params.emToBmDefaultSlot
  | selected (hl : s.info.isLoad = false) (k : BmSel) : LandsAt s (bmSlot k)
  | caller (hl : s.info.isLoad = false) (pr : Prior) (hp : s.info.prior = some pr) : LandsAt s pr.slot

/-- What an engine step writes into the record, the step number aside. -/
inductive RecordChange (s : State) : Info → Prop
  /-- Steps that only go on. -/
  | kept (hstep : s.info.step ≠ .s4) : RecordChange s s.info
  /-- Step 1 of LAE. -/
  | counted (hstep : s.info.step = .s1) : RecordChange s { s.info with laeI := some 1 }
  /-- Step 1 of an LxJ. -/
  | referred (x : Word) (f : LxjForm) (hstep : s.info.step = .s1) :
      RecordChange s { s.info with xlink := some x, form := some f }
  /-- Step 2. -/
  | captured (op : OpKind) (x : Word) (hstep : s.info.step = .s2) :
      RecordChange s { s.info with prior := some (capturePrior s op x) }
  /-- Step 3. -/
  | sourced (f : Option Frame) (v : VA) (hstep : s.info.step = .s3) :
      RecordChange s { s.info with popped := f, src := some v, finalOffset := some v.offset, voidTarget := false }
  /-- Step 4 lets no reserved name pass. -/
  | admitted (v : VA) (hstep : s.info.step = .s4) (hv : s.info.src = some v) (hr : nameReserved (vaName v) = false) :
      RecordChange s s.info
  /-- Step 5 of a void name. -/
  | void (hstep : s.info.step = .s5) : RecordChange s { s.info with voidTarget := true, targetName := some voidName }
  /-- Step 6. -/
  | found (v : VA) (bd : BankDescriptor) (hstep : s.info.step = .s6) (hv : s.info.src = some v) :
      RecordChange s { s.info with srcBD := some bd, target := some bd, targetName := some (vaName v) }
  /-- Step 7 where LBU substitutes a void target. -/
  | substituted (hstep : s.info.step = .s7) : RecordChange s { s.info with voidTarget := true }
  /-- Step 8. -/
  | hopped (bd : BankDescriptor) (n : BankName) (void : Bool) (hstep : s.info.step = .s8)
      (hn : nameReservedOrVoid n = false) :
      RecordChange s { s.info with target := some bd, targetName := some n, voidTarget := void }
  /-- Step 9. -/
  | gated (g : GateRecord) (bd : BankDescriptor) (hstep : s.info.step = .s9)
      (hn : nameReservedOrVoid (vaName g.target) = false) :
      RecordChange s { s.info with gated := true, gate := some g, target := some bd,
                                   targetName := some (vaName g.target), finalOffset := some g.target.offset }
  /-- Step 10. -/
  | landing (m : Option Mode) (k : Slot) (hstep : s.info.step = .s10) (hk : LandsAt s k) :
      RecordChange s { s.info with targetMode := m, slot := some k }
  /-- Step 21 of an LAE that goes on. -/
  | iterated (k : Fin 16) (hstep : s.info.step = .s21) (hk : s.info.laeI = some k) (hlt : k.val < 15) :
      RecordChange s { s.info with laeI := some (k + 1) }

/-- The result that a raised fault gives (R74). -/
def raised (i : Info) (f : EngineFault) : Completion := if i.op = some .int then .halt (.wrappedFault f) else .fault f

/-- The completions that an engine step may end its invocation with. -/
inductive Completes (s : State) : Completion → Prop
  | ok : Completes s .ok
  /-- A fault of steps 1 to 12, before the program counter is written. -/
  | early (f : EngineFault) (hstep : pos s.info.step < 17) : Completes s (raised s.info f)
  /-- The consistency check of step 21. -/
  | inconsistent (f : EngineFault) (n : BankName) (hn : s.info.targetName = some n) (hr : nameReserved n = true) :
      Completes s (raised s.info f)
  /-- The vector read of interrupt entry. -/
  | vector (h : Halt) (hstep : s.info.step = .s3) (hint : s.info.op = some .int) : Completes s (.halt h)

/-- An answer of a step that ends the invocation with one of its completions, or goes on with one of its changes of the
record. -/
def Transits (s : State) (o : Out) : Prop := ∀ t, o = .next t →
  (∃ c u, Completes s c ∧ t = finished c u) ∨ ∃ j n, RecordChange s j ∧ n ≠ .idle ∧ t.info = { j with step := n }

section
variable {s u : State}

theorem transits_need {α : Type} {o : Option α} {k : α → Out} (h : ∀ a, o = some a → Transits s (k a)) :
    Transits s (need o k) := fun t ht => by
  obtain ⟨a, ha, hk⟩ := need_next o k t ht
  exact h a ha t hk

theorem transits_stop (f : Fault) : Transits s (.fault f) := fun t ht => by simp at ht

theorem transits_refuse (r : Refusal) : Transits s (.refused r) := fun t ht => by simp at ht

theorem transits_ok : Transits s (endInvocation .ok u) := fun t ht => by
  simp only [endInvocation_eq, Host.Outcome.next.injEq] at ht
  exact .inl ⟨.ok, u, .ok, ht.symm⟩

/-- A fault raised with the operation's record. -/
theorem transits_raise {f : EngineFault} (hu : u.info.op = s.info.op) (h : Completes s (raised s.info f)) :
    Transits s (raise f u) := fun t ht => by
  rw [raise_eq, hu, Host.Outcome.next.injEq] at ht
  exact .inl ⟨_, u, h, ht.symm⟩

theorem transits_early {f : EngineFault} (hu : u.info.op = s.info.op) (hs : pos s.info.step < 17) :
    Transits s (raise f u) := transits_raise hu (.early f hs)

/-- An operation that reads or raises, in a step before the seventeenth. -/
theorem transits_access {α : Type} {x : Access α} {k : α → Out} (hu : u.info.op = s.info.op)
    (hs : pos s.info.step < 17) (hx : ∀ e, x ≠ .halt e) (h : ∀ a, x = .ok a → Transits s (k a)) :
    Transits s (onAccess x u k) := fun t ht => by
  rcases onAccess_next x u t k ht with ⟨a, ha, hk⟩ | ⟨f, _, hk⟩ | ⟨e, he, _⟩
  · exact h a ha t hk
  · exact transits_early hu hs t hk
  · exact absurd he (hx e)

theorem transits_goto {n : StepNo} (h : RecordChange s u.info) (hn : n ≠ .idle := by decide) :
    Transits s (goto n u) := fun t ht => by
  simp only [goto, Host.Outcome.next.injEq] at ht
  exact .inr ⟨u.info, n, h, hn, ht ▸ rfl⟩

/-- A step that goes on with its record. -/
theorem transits_keep {n : StepNo} (hs : s.info.step ≠ .s4) (hu : u.info = s.info) (hn : n ≠ .idle := by decide) :
    Transits s (goto n u) :=
  transits_goto (hu ▸ .kept hs) hn

theorem Access.reads.ne_halt {α : Type} {x : Access α} (h : x.reads) (e : Halt) : x ≠ .halt e := by
  rcases h with rfl | ⟨a, rfl⟩ <;> simp

theorem rcsPop_ne_halt (s : State) (e : Halt) : rcsPop s ≠ .halt e := by
  rcases rcsPop_cases s with h | h
  · simp [h]
  · exact h.ne_halt e

theorem rcsPush_ne_halt (s : State) (f : Frame) (e : Halt) : rcsPush s f ≠ .halt e := by
  rcases rcsPush_cases s f with h | h
  · simp [h]
  · exact h.ne_halt e

end

/-! ### Each step -/

section
variable {s : State}

theorem step1_transits (hs : s.info.step = .s1) : Transits s (step1 s) := by
  have early : pos s.info.step < 17 := by rw [hs]; decide
  have keep : ∀ n, n ≠ .idle → Transits s (goto n s) := fun _ hn => transits_keep (by simp [hs]) rfl hn
  refine transits_need fun op _ => ?_
  split
  · refine transits_need fun a _ => ?_
    split
    · exact transits_early rfl early
    · exact keep _ (by decide)
  · split
    · refine transits_need fun a _ => ?_
      simp only [step1Lxj]
      split
      · exact transits_early rfl early
      · exact transits_goto (.referred _ _ hs)
    · split
      · exact transits_goto (.counted hs)
      · split <;> exact keep _ (by decide)

theorem step2_transits (hs : s.info.step = .s2) : Transits s (step2 s) := by
  refine transits_need fun op _ => ?_
  split
  · exact transits_need fun x _ => transits_goto (.captured op x hs)
  · exact transits_goto (.captured op 0 hs)

theorem withSource_transits (hs : s.info.step = .s3) (v : VA) : Transits s (goto .s4 (withSource s v)) :=
  transits_goto (.sourced s.info.popped v hs)

theorem step3Frame_transits (hs : s.info.step = .s3) (u : State) (hu : u.info = s.info) (f : Frame) :
    Transits s (step3Frame u f) := by
  refine transits_goto ?_
  simp only [withSource, setInfo_info, hu]
  exact .sourced (some f) (frameVa f) hs

theorem step3Pop_transits (hs : s.info.step = .s3) :
    Transits s (onAccess (rcsPop s) s fun r => step3Frame r.2 r.1) :=
  transits_access rfl (by rw [hs]; decide) (rcsPop_ne_halt s) fun r hr =>
    step3Frame_transits hs r.2 (by rw [rcsPop_state s r.2 r.1 hr]; rfl) r.1

theorem step3Lxj_transits (hs : s.info.step = .s3) : Transits s (step3Lxj s) := by
  refine transits_need fun f _ => ?_
  split
  · exact step3Pop_transits hs
  · refine transits_need fun x _ => ?_
    split
    · exact withSource_transits hs _
    · exact transits_stop _

/-- Step 3 of interrupt entry: the vector read halts with its own codes (R38, R74). -/
theorem step3Vector_transits (hs : s.info.step = .s3) (ho : s.info.op = some .int) (c : Nat) :
    Transits s (onAccess (vectorRead s c) s fun v => goto .s4 (withSource s v)) := fun t ht => by
  rcases onAccess_next _ _ _ _ ht with ⟨v, _, h⟩ | ⟨f, _, h⟩ | ⟨e, _, h⟩
  · exact withSource_transits hs v t h
  · exact transits_early rfl (by rw [hs]; decide) t h
  · exact .inl ⟨_, s, .vector e hs ho, h⟩

theorem step3_transits (hs : s.info.step = .s3) : Transits s (step3 s) := by
  refine transits_need fun op hop => ?_
  cases op with
  | int => exact transits_need fun c _ => step3Vector_transits hs hop c
  | rtn => exact step3Pop_transits hs
  | lbj | ldj | lij => exact step3Lxj_transits hs
  | ur =>
    simp only
    split
    · exact step3Frame_transits hs s rfl _
    · exact transits_stop _
  | lae =>
    simp only
    split
    · exact transits_need fun i _ => transits_need fun v _ => withSource_transits hs v
    · exact transits_stop _
  | call | goto | lbe | lbu =>
    simp only
    split
    · exact withSource_transits hs _
    · exact transits_stop _

theorem step4_transits (hs : s.info.step = .s4) : Transits s (step4 s) := by
  refine transits_need fun v hv => ?_
  split
  · exact transits_early rfl (by rw [hs]; decide)
  · rename_i hr
    exact transits_goto (.admitted v hs hv (by simpa using hr))

theorem step5_transits (hs : s.info.step = .s5) : Transits s (step5 s) := by
  have early : ∀ f, Transits s (raise f s) := fun f => transits_early rfl (by rw [hs]; decide)
  have void : Transits s (goto .s10 (withVoidTarget s)) := transits_goto (.void hs)
  have keep : Transits s (goto .s6 s) := transits_keep (by simp [hs]) rfl
  refine transits_need fun v _ => ?_
  split
  · split
    · exact early _
    · split
      · exact void
      · split
        · refine transits_need fun f _ => ?_
          split
          · exact void
          · exact early _
        · split
          · exact early _
          · exact keep
  · exact keep

theorem step6_transits (hs : s.info.step = .s6) : Transits s (step6 s) := by
  have early : pos s.info.step < 17 := by rw [hs]; decide
  refine transits_need fun v hv => transits_access rfl early (findBd_reads s _).ne_halt fun o _ => ?_
  cases o with
  | none => exact transits_early rfl early
  | some bd => exact transits_goto (.found v bd hs hv)

/-- The end of steps 7 and 8 for a bank that may be bound. -/
theorem enterThenBind_transits {i : Info} (h : RecordChange s i) (hi : i.op = s.info.op) (hs : pos s.info.step < 17)
    (bd : BankDescriptor) : Transits s (enterThenBind (s.setInfo i) bd) := by
  unfold enterThenBind
  split
  · exact transits_early hi hs
  · exact transits_goto h

theorem step7_transits (hs : s.info.step = .s7) : Transits s (step7 s) := by
  have hpos : pos s.info.step < 17 := by rw [hs]; decide
  have early : ∀ f, Transits s (raise f s) := fun f => transits_early rfl hpos
  have kept : RecordChange s s.info := .kept (by simp [hs])
  have keep : ∀ n, n ≠ .idle → Transits s (goto n s) := fun _ hn => transits_goto kept hn
  refine transits_need fun bd _ => ?_
  split
  · exact enterThenBind_transits kept rfl hpos bd
  · split
    · exact early _
    · split
      · refine transits_need fun f _ => ?_
        split
        · exact keep _ (by decide)
        · exact early _
      · unfold withSubstitution
        split
        · exact enterThenBind_transits (.substituted hs) rfl hpos bd
        · exact enterThenBind_transits kept rfl hpos bd
  · split
    · exact early _
    · split
      · exact keep _ (by decide)
      · split
        · exact early _
        · exact keep _ (by decide)
  · split
    · exact early _
    · split
      · exact keep _ (by decide)
      · exact early _
  · exact early _
  · split
    · exact keep _ (by decide)
    · exact early _

/-- Step 8's dispatch on the indirect's target `t`, named `n`. -/
theorem step8Dispatch_transits (hs : s.info.step = .s8) (t : BankDescriptor) (n : BankName)
    (hn : nameReservedOrVoid n = false) :
    Transits s (step8Dispatch (s.setInfo { s.info with target := some t, targetName := some n }) t) := by
  have hpos : pos s.info.step < 17 := by rw [hs]; decide
  have hopped : RecordChange s { s.info with target := some t, targetName := some n } :=
    .hopped t n s.info.voidTarget hs hn
  have early : ∀ f j, j.op = s.info.op → Transits s (raise f (s.setInfo j)) := fun f j hj => transits_early hj hpos
  unfold step8Dispatch
  split
  · exact enterThenBind_transits hopped rfl hpos t
  · unfold withSubstitution
    split
    · exact enterThenBind_transits (.hopped t n true hs hn) rfl hpos t
    · exact enterThenBind_transits hopped rfl hpos t
  · split <;> exact transits_goto hopped
  · exact early _ _ rfl
  · exact early _ _ rfl
  · split
    · exact transits_goto hopped
    · exact early _ _ rfl

theorem step8_transits (hs : s.info.step = .s8) : Transits s (step8 s) := by
  have hpos : pos s.info.step < 17 := by rw [hs]; decide
  refine transits_need fun bd _ => ?_
  split
  · exact transits_early rfl hpos
  · split
    · exact transits_early rfl hpos
    · rename_i hn
      refine transits_access rfl hpos (findBd_reads s _).ne_halt fun o _ => ?_
      cases o with
      | none => exact transits_early rfl hpos
      | some t => exact step8Dispatch_transits hs t bd.target (by simpa using hn)

/-- Step 9's last part, in a state that holds the gate's transfers. -/
theorem step9Target_transits (hs : s.info.step = .s9) {u : State} (hu : u.info = s.info) (g : GateRecord) :
    Transits s (step9Target u g) := by
  have hpos : pos s.info.step < 17 := by rw [hs]; decide
  have early : ∀ f, Transits s (raise f u) := fun f => transits_early (by rw [hu]) hpos
  unfold step9Target
  split
  · exact early _
  · rename_i hn
    refine transits_access (by rw [hu]) hpos (findBd_reads u _).ne_halt fun o _ => ?_
    cases o with
    | none => exact early _
    | some t =>
      simp only
      split
      · refine transits_goto ?_
        rw [setInfo_info, hu]
        exact .gated g t hs (by simpa using hn)
      · exact early _

theorem step9_transits (hs : s.info.step = .s9) : Transits s (step9 s) := by
  have hpos : pos s.info.step < 17 := by rw [hs]; decide
  refine transits_need fun gb _ => transits_need fun v _ => ?_
  split
  · exact transits_early rfl hpos
  · split
    · exact transits_early rfl hpos
    · split
      · exact transits_early rfl hpos
      · refine transits_access rfl hpos (gateRead_reads s gb _).ne_halt fun g _ => ?_
        have hg := gateTransfers_info s g
        unfold step9Record
        split
        · exact transits_refuse _
        · split
          · exact transits_early rfl hpos
          · split
            · exact transits_early (by rw [hg]) hpos
            · exact step9Target_transits hs hg g

theorem landIn_transits (hs : s.info.step = .s10) (m : Mode) (k : Slot) (hk : LandsAt s k) :
    Transits s (landIn s m k) := transits_goto (.landing (some m) k hs hk)

theorem loadInto_transits (hs : s.info.step = .s10) (k : Slot) (hk : LandsAt s k) : Transits s (loadInto s k) :=
  transits_goto (.landing s.info.targetMode k hs hk)

theorem step10Return_transits (hs : s.info.step = .s10) (hl : s.info.isLoad = false) (k : Slot) (hk : LandsAt s k) :
    Transits s (step10Return s k) := by
  refine transits_need fun f _ => ?_
  split
  · exact landIn_transits hs _ _ (.selected hl f.sel)
  · exact landIn_transits hs _ _ hk

/-- The slots of CALL and GOTO (R84). -/
theorem callSlot_landsAt (hl : s.info.isLoad = false) {pr : Prior} {m : Mode} {k : Slot}
    (h : callSlot s.params s.info pr m = some k) : LandsAt s k := by
  unfold callSlot at h
  split at h
  · exact Option.some.inj h ▸ .emCode hl
  · split at h
    · obtain ⟨g, _, rfl⟩ := Option.map_eq_some_iff.mp h
      exact .selected hl g.sel
    · split at h
      · exact Option.some.inj h ▸ .bmDefault hl
      · exact Option.some.inj h ▸ .selected hl _

theorem step10_transits (hs : s.info.step = .s10) : Transits s (step10 s) := by
  refine transits_need fun op hop => ?_
  have hload := isLoad_of_op hop
  cases op with
  | lae => exact transits_need fun k hk => loadInto_transits hs _ (.lae k hop hk)
  | lbe => exact transits_need fun a ha => loadInto_transits hs _ (.lbe a hop ha)
  | lbu => exact transits_need fun a ha => loadInto_transits hs _ (.lbu a hop ha)
  | int => exact landIn_transits hs _ _ (.hardHeld hload)
  | ur => exact step10Return_transits hs hload _ (.hardHeld hload)
  | rtn => exact step10Return_transits hs hload _ (.emCode hload)
  | lbj | ldj | lij =>
    simp only
    split
    · exact step10Return_transits hs hload _ (.emCode hload)
    · refine transits_need fun t _ => transits_need fun pr hp => landIn_transits hs _ _ ?_
      split
      · exact .emCode hload
      · exact .caller hload pr hp
  | call | goto =>
    exact transits_need fun t _ => transits_need fun pr _ => transits_need fun k hk =>
      landIn_transits hs _ k (callSlot_landsAt hload hk)

theorem step11_transits (hs : s.info.step = .s11) : Transits s (step11 s) :=
  transits_need fun pr _ => transits_need fun m _ => transits_keep (by simp [hs]) (voidPrior_info s pr m)

theorem step12_transits (hs : s.info.step = .s12) : Transits s (step12 s) := by
  have keep : ∀ u : State, u.info = s.info → Transits s (goto .s13 u) := fun u hu => transits_keep (by simp [hs]) hu
  unfold step12
  split
  · refine transits_need fun pr _ => transits_access rfl (by rw [hs]; decide) (rcsPush_ne_halt s _) fun u hu => keep u ?_
    obtain ⟨_, _, _, _, _, _, _, e⟩ := rcsPush_ok _ _ _ hu
    rw [e]
    rfl
  · exact keep s rfl

theorem step13_transits (hs : s.info.step = .s13) : Transits s (step13 s) := by
  unfold step13
  split
  · exact transits_need fun pr _ => transits_need fun a _ => transits_keep (by simp [hs]) (setGr_info _ _ _)
  · exact transits_keep (by simp [hs]) rfl

theorem step14_transits (hs : s.info.step = .s14) : Transits s (step14 s) := by
  refine transits_need fun pr _ => transits_need fun m _ => ?_
  split
  · exact transits_keep (by simp [hs]) (setGr_info _ _ _)
  · exact transits_keep (by simp [hs]) rfl

theorem step15_transits (hs : s.info.step = .s15) : Transits s (step15 s) := by
  have keep : ∀ n, n ≠ .idle → Transits s (goto n s) := fun _ hn => transits_keep (by simp [hs]) rfl hn
  unfold step15
  split
  · refine transits_need fun g _ => ?_
    split <;> exact keep _ (by decide)
  · exact keep _ (by decide)

theorem step16_transits (hs : s.info.step = .s16) : Transits s (step16 s) := by
  have keep : ∀ u : State, u.info = s.info → Transits s (goto .s17 u) := fun u hu => transits_keep (by simp [hs]) hu
  unfold step16
  split
  · exact transits_need fun f _ => keep _ rfl
  · split
    · exact keep _ rfl
    · refine transits_need fun pr _ => transits_need fun m _ => ?_
      split <;> exact keep _ rfl

theorem step17_transits (hs : s.info.step = .s17) : Transits s (step17 s) :=
  transits_need fun off _ => transits_keep (by simp [hs]) rfl

theorem step18_transits (hs : s.info.step = .s18) : Transits s (step18 s) :=
  transits_need fun k _ => transits_need fun n _ => transits_keep (by simp [hs]) (recordBinding_info _ _ _)

theorem step19_transits (hs : s.info.step = .s19) : Transits s (step19 s) := by
  have hn : afterBind s.info ≠ .idle := by unfold afterBind; split <;> decide
  refine transits_need fun k _ => ?_
  split
  · exact transits_keep (by simp [hs]) rfl hn
  · exact transits_need fun t _ => transits_keep (by simp [hs]) rfl hn

theorem step20_transits (hs : s.info.step = .s20) : Transits s (step20 s) := by
  refine transits_need fun op _ => transits_need fun pr _ => transits_need fun m _ => ?_
  split <;> exact transits_keep (by simp [hs]) rfl

theorem step21_transits (hs : s.info.step = .s21) : Transits s (step21 s) := by
  refine transits_need fun op _ => transits_need fun n hn => ?_
  split
  · rename_i hr
    simp only [Bool.and_eq_true] at hr
    exact transits_raise rfl (.inconsistent _ n hn hr.right)
  · split
    · refine transits_need fun k hk => ?_
      split
      · rename_i hlt
        exact transits_goto (.iterated k hs hk hlt)
      · exact transits_ok
    · exact transits_ok

end

/-- Everything an engine step can do to the record and to the outcome; `engineStep_effect` says what it does to the rest
of the state, `engineStep_goes` which step comes next. -/
theorem engineStep_transits (s : State) (hs : s.info.step ≠ .idle) : Transits s (engineStep s) := by
  unfold engineStep
  cases hn : s.info.step with
  | idle => exact absurd hn hs
  | s1 => exact step1_transits hn
  | s2 => exact step2_transits hn
  | s3 => exact step3_transits hn
  | s4 => exact step4_transits hn
  | s5 => exact step5_transits hn
  | s6 => exact step6_transits hn
  | s7 => exact step7_transits hn
  | s8 => exact step8_transits hn
  | s9 => exact step9_transits hn
  | s10 => exact step10_transits hn
  | s11 => exact step11_transits hn
  | s12 => exact step12_transits hn
  | s13 => exact step13_transits hn
  | s14 => exact step14_transits hn
  | s15 => exact step15_transits hn
  | s16 => exact step16_transits hn
  | s17 => exact step17_transits hn
  | s18 => exact step18_transits hn
  | s19 => exact step19_transits hn
  | s20 => exact step20_transits hn
  | s21 => exact step21_transits hn

end Sys2Proof.Machine

/-! SUPPORT. The recorded names along an invocation: what steps 4, 8 and 9 check of a name is what step 18 records, so no
reserved name reaches PAR or the active base table. -/

namespace Sys2Proof.Machine

/-! ### The state's names -/

theorem nameReserved_voidName : nameReserved voidName = false := by decide

theorem State.NamesUnreserved.of_eq {s u : State} (h : s.NamesUnreserved) (hp : u.par = s.par) (ha : u.abt = s.abt) :
    u.NamesUnreserved := by
  refine ⟨?_, fun k => ?_⟩
  · rw [State.parName, hp]
    exact h.par
  · simp only [State.abtEntry, ha]
    exact h.abt k

theorem State.NamesUnreserved.setBreg {s : State} (h : s.NamesUnreserved) (j : Slot) (r : BaseRegister) :
    (s.setBreg j r).NamesUnreserved := h.of_eq rfl rfl

theorem State.NamesUnreserved.setAbtEntry {s : State} (h : s.NamesUnreserved) (k : BmSel) {n : BankName}
    (hn : nameReserved n = false) : (s.setAbtEntry k n).NamesUnreserved := by
  refine ⟨h.par, fun l => ?_⟩
  rw [setAbtEntry_abtEntry]
  split
  · exact hn
  · exact h.abt l

theorem State.NamesUnreserved.recordAbt {s : State} (h : s.NamesUnreserved) (j : Slot) {n : BankName}
    (hn : nameReserved n = false) : (Machine.recordAbt s j n).NamesUnreserved := by
  rcases recordAbt_cases s j n with e | ⟨k, e⟩ <;> rw [e]
  · exact h
  · exact h.setAbtEntry k hn

theorem State.NamesUnreserved.setParName {s : State} (h : s.NamesUnreserved) {n : BankName}
    (hn : nameReserved n = false) : (s.setParName n).NamesUnreserved := ⟨hn, h.abt⟩

theorem State.NamesUnreserved.recordBinding {s : State} (h : s.NamesUnreserved) (j : Slot) {n : BankName}
    (hn : nameReserved n = false) : (Machine.recordBinding s j n).NamesUnreserved := by
  unfold Machine.recordBinding
  split
  · exact h.setParName hn
  · exact h.recordAbt j hn

/-- Step 11 records the void bank's name alone (R85). -/
theorem State.NamesUnreserved.voidPrior {s : State} (h : s.NamesUnreserved) (pr : Prior) (m : Mode) :
    (Machine.voidPrior s pr m).NamesUnreserved := by
  unfold Machine.voidPrior
  split
  · exact (h.setBreg emCodeSlot .void).setParName nameReserved_voidName
  · exact (h.setBreg pr.slot .void).recordAbt pr.slot nameReserved_voidName
  · exact h
  · exact h

/-- A step records no reserved name where the record's target name is none. -/
theorem Effect.namesUnreserved {s s1 : State} (he : Effect s s1) (h : s.NamesUnreserved)
    (ht : ∀ n, s.info.targetName = some n → nameReserved n = false) : s1.NamesUnreserved := by
  cases he with
  | voided pr m => exact h.voidPrior pr m
  | recorded j n _ _ hn =>
    rcases hn with rfl | hn
    · exact h.recordBinding j nameReserved_voidName
    · exact h.recordBinding j (ht n hn)
  | popped f _ _ hp => rw [rcsPop_state _ _ _ hp]; exact h.of_eq rfl rfl
  | pushed pr _ _ _ _ hp =>
    obtain ⟨_, _, _, hpar, _, habt⟩ := rcsPush_frame _ _ _ hp
    exact h.of_eq hpar habt
  | counter off => exact ⟨h.par, h.abt⟩
  | gate g =>
    obtain ⟨_, _, habt, hpar, _⟩ := gateTransfers_frame s g
    exact h.of_eq hpar habt
  | none | linked | linkedGr | restored | modeSet | bound | flipped =>
    exact h.of_eq (by simp [restoreDesignators]) (by simp [restoreDesignators])

/-! ### The record's names -/

/-- The names of a record that have been checked: the source's from step 5 on, and the target's. -/
structure NamesChecked (i : Info) : Prop where
  src : i.step = .s5 ∨ i.step = .s6 → ∀ v, i.src = some v → nameReserved (vaName v) = false
  target : ∀ n, i.targetName = some n → nameReserved n = false

theorem namesChecked_idle : NamesChecked Info.idle := ⟨fun h => by simp [Info.idle] at h, fun n h => by simp [Info.idle] at h⟩

/-- The steps that lead to steps 5 and 6 (R73). -/
theorem Follows.enters_s5_s6 {i : Info} {n : StepNo} (h : Follows i n) :
    (n = .s5 → i.step = .s4) ∧ (n = .s6 → i.step = .s5) := by
  unfold Follows at h
  cases hi : i.step <;> simp only [hi] at h
  case s1 | s10 => split at h <;> simp [h]
  case s5 | s15 => rcases h with rfl | rfl <;> simp
  case s7 => rcases h with rfl | rfl | ⟨rfl, _⟩ <;> simp
  case s8 => rcases h with rfl | ⟨rfl, _⟩ <;> simp
  case s19 => unfold afterBind at h; split at h <;> simp [h]
  all_goals simp [h]

/-- A target name that a step sets has been checked: it is void, or it has passed step 4, 8 or 9 (R78, R79, R82, R83). -/
theorem RecordChange.target_checked {s : State} {j : Info} (hj : RecordChange s j) (h : NamesChecked s.info) (n : BankName)
    (hn : j.targetName = some n) : nameReserved n = false := by
  cases hj with
  | void => exact Option.some.inj hn ▸ nameReserved_voidName
  | found v bd hs hv => exact Option.some.inj hn ▸ h.src (.inr hs) v hv
  | hopped bd m b _ hm => exact Option.some.inj hn ▸ notReserved_of m hm
  | gated g bd _ hm => exact Option.some.inj hn ▸ notReserved_of _ hm
  | kept | counted | referred | captured | sourced | admitted | substituted | landing | iterated => exact h.target n hn

/-- The source's name is checked by step 4 and stays through step 5 (R78). -/
theorem RecordChange.src_checked {s : State} {j : Info} (hj : RecordChange s j) (h : NamesChecked s.info)
    (hs : s.info.step = .s4 ∨ s.info.step = .s5) (v : VA) (hv : j.src = some v) : nameReserved (vaName v) = false := by
  cases hj with
  | admitted w _ hw hr => exact Option.some.inj (hw.symm.trans hv) ▸ hr
  | kept h4 => exact h.src (.inl (hs.resolve_left h4)) v hv
  | void h5 => exact h.src (.inl h5) v hv
  | counted hstep | referred _ _ hstep | captured _ _ hstep | sourced _ _ hstep | found _ _ hstep | substituted hstep
  | hopped _ _ _ hstep | gated _ _ hstep | landing _ _ hstep | iterated _ hstep => simp [hstep] at hs

theorem engineStep_namesChecked (s t : State) (h : NamesChecked s.info) (hs : s.info.step ≠ .idle)
    (he : engineStep s = .next t) : NamesChecked t.info := by
  rcases engineStep_transits s hs t he with ⟨c, u, _, rfl⟩ | ⟨j, n, hj, _, ht⟩
  · exact namesChecked_idle
  · rcases engineStep_goes s t hs he with e | g
    · exact e ▸ namesChecked_idle
    · have hn : Follows s.info n := by simpa [ht] using g.next
      rw [ht]
      refine ⟨fun h56 v hv => hj.src_checked h ?_ v hv, fun m hm => hj.target_checked h m hm⟩
      exact h56.imp hn.enters_s5_s6.left hn.enters_s5_s6.right

theorem startRequest_namesChecked (i : Instr) (s : State) : NamesChecked (startRequest i s).info := by
  rw [startRequest_eq]
  exact ⟨fun h => by simp [startInvocation] at h, fun n h => by simp [startInvocation, Info.idle] at h⟩

/-- What an invocation keeps of the names: the recorded ones are unreserved, the record's are checked. -/
structure NamesKept (u : State) : Prop where
  state : u.NamesUnreserved
  record : NamesChecked u.info

theorem engineStep_namesKept (s t : State) (h : NamesKept s) (hs : s.info.step ≠ .idle) (he : engineStep s = .next t) :
    NamesKept t := by
  refine ⟨?_, engineStep_namesChecked s t h.record hs he⟩
  obtain ⟨s1, j, r, heff, rfl⟩ := engineStep_change s t hs he
  exact (heff.namesUnreserved h.state h.record.target).of_eq rfl rfl

theorem exec_namesUnreserved (i : Instr) (s t : State) (h : s.NamesUnreserved) (he : exec i s = .next t) :
    t.NamesUnreserved := by
  have hstart : NamesKept (startRequest i s) :=
    ⟨by rw [startRequest_eq]; exact h.of_eq rfl rfl, startRequest_namesChecked i s⟩
  exact (exec_induct i s NamesKept hstart (fun u v _ hs hu hv => engineStep_namesKept u v hu hs hv) t he).state

/-- Settles O12: every engine step keeps the recorded names unreserved together with the record's names checked, and a
step of the machine is a run of engine steps. -/
theorem stepKeepsNamesUnreserved : Obligations.StepKeepsNamesUnreserved := by
  intro s t hi hn h
  rcases step_next s t (by rw [hi.idle]; rfl) h with rfl | ⟨i, rest, h⟩
  · exact hn
  · exact exec_namesUnreserved i (s.setPort rest) t (hn.of_eq rfl rfl) h

end Sys2Proof.Machine

/-! SUPPORT. How an invocation ends: an interrupt entry never with a fault and the others never with a halt (R74), and not
with either once the program counter is written (R91, R114). -/

namespace Sys2Proof.Machine

/-! ### Faults and halts -/

/-- The completions that the invocation of a request may end with (R74). -/
structure MayReturn (i : Instr) (c : Completion) : Prop where
  int : i.kind = .int → ∀ f, c ≠ .fault f
  other : i.kind ≠ .int → ∀ h, c ≠ .halt h

theorem mayReturn_raised {i : Instr} {r : Info} (ho : r.op = some i.kind) (f : EngineFault) :
    MayReturn i (raised r f) := by
  simp only [raised, ho, Option.some.injEq]
  refine ⟨fun h => ?_, fun h => ?_⟩
  · simp [h]
  · simp [h]

theorem Completes.mayReturn {i : Instr} {u : State} {c : Completion} (hc : Completes u c)
    (ho : u.info.op = some i.kind) : MayReturn i c := by
  cases hc with
  | ok => exact ⟨fun _ => by simp, fun _ => by simp⟩
  | early f => exact mayReturn_raised ho f
  | inconsistent f => exact mayReturn_raised ho f
  | vector h _ hint => exact ⟨fun _ => by simp, fun hk => absurd (Option.some.inj (ho.symm.trans hint)) hk⟩

/-- Every invocation that ends has a result, and one that its request may return. -/
theorem exec_mayReturn (i : Instr) (s t : State) (h : exec i s = .next t) : ∃ c, t.result = some c ∧ MayReturn i c := by
  have ended : t.info.step = .idle → ∃ c, t.result = some c ∧ MayReturn i c := by
    refine exec_induct i s (fun u => u.info.step = .idle → ∃ c, u.result = some c ∧ MayReturn i c) ?_ ?_ t h
    · rw [startRequest_eq]
      exact fun hi => by simp [startInvocation] at hi
    · intro u v course hs _ hv hidle
      rcases engineStep_transits u hs v hv with ⟨c, w, hc, rfl⟩ | ⟨j, n, _, hn, hinfo⟩
      · exact ⟨c, rfl, hc.mayReturn course.op⟩
      · exact absurd (by simpa [hinfo] using hidle) hn
  rw [exec_eq_run] at h
  exact ended (runEngine_next _ t h).right

/-- Step 3 of interrupt entry whose vector read halts (R38). -/
theorem ends3_int (u : State) (i : Info) (c : Nat) (e : Halt) (hs : i.step = .s3) (ho : i.op = some .int)
    (hc : i.cls = some c) (hv : vectorRead u c = .halt e) :
    engineStep (u.setInfo i) = .next (finished (.halt e) u) := by
  have h : engineStep (u.setInfo i) = step3 (u.setInfo i) := by simp only [engineStep, setInfo_info, hs]
  refine h.trans ((need_eq _ _ _ ho).trans ((need_eq _ _ _ hc).trans ?_))
  rw [vectorRead_setInfo, hv]
  rfl

/-- The record of a transfer that is no LxJ at step 3. -/
def plainRecord (s : State) (i : Instr) : Info :=
  { Info.idle with step := .s3, op := some i.kind, a := aOf i, operand := operandOf i, cls := clsOf i,
                   prior := some (capturePrior s i.kind 0) }

/-- Steps 1 and 2 of a transfer that is no LxJ (R75, R76). -/
theorem leads_plain (s : State) (i : Instr) (hx : kindIsLxj i.kind = false) (hl : kindIsLoad i.kind = false) :
    Leads 2 (startRequest i s) (s.setInfo (plainRecord s i)) := by
  rw [startRequest_eq]
  refine Leads.cons _ _ _ _ (by simp [startInvocation]) (leads1_transfer s _ i.kind rfl rfl hx hl) ?_
  exact Leads.step _ _ (by simp) (leads2_transfer s _ i.kind rfl rfl hx)

/-- Interrupt entry whose vector read halts (R74, R108). -/
theorem exec_int_halts (s : State) (c : Nat) (e : Halt) (hv : vectorRead s c = .halt e) :
    exec (.int c) s = .next (finished (.halt e) s) := by
  rw [exec_eq_run]
  exact runEngine_of_leads 2 (by decide) _ _ _ (leads_plain s (.int c) rfl rfl) (by simp [plainRecord])
    (ends3_int s _ c e rfl rfl rfl hv) rfl

theorem vectorRead_void (s : State) (c : Nat) (hb : s.breg (bdtSlot s.params 0) = .void) :
    vectorRead s c = .halt (.vectorBaseVoid c) := by
  simp only [vectorRead, hb]

/-- Settles O14: a raise looks at the operation alone, the vector read halts at step 3, and no engine step ends an
invocation with anything else (`exec_mayReturn`). -/
theorem interruptPathHalts : Obligations.InterruptPathHalts := by
  refine ⟨fun f s hint => ?wrapped, fun f s hother => ?returned, fun s c hb => ?void, fun s c r hb hr => ?range,
    fun c s t f h hf => ?noFault, fun i s t e hk h he => ?noHalt⟩
  case wrapped => rw [raise_eq, if_pos hint]
  case returned => rw [raise_eq, if_neg hother]
  case void => exact exec_int_halts s c _ (vectorRead_void s c hb)
  case range => exact exec_int_halts s c _ (vectorRead_outside s c r hb hr)
  case noFault =>
    obtain ⟨d, hd, hret⟩ := exec_mayReturn _ s t h
    exact hret.int rfl f (Option.some.inj (hd.symm.trans hf))
  case noHalt =>
    obtain ⟨d, hd, hret⟩ := exec_mayReturn i s t h
    exact hret.other hk e (Option.some.inj (hd.symm.trans he))

/-! ### The program counter -/

/-- Step 17 alone writes PAR.PC (R91). -/
theorem Effect.pc {s s1 : State} (h : Effect s s1) : s1.par.pc = s.par.pc ∨ s.info.step = .s17 := by
  cases h with
  | counter off hs => exact .inr hs
  | voided pr m => unfold voidPrior; split <;> exact .inl (by simp)
  | recorded j n => unfold recordBinding; split <;> exact .inl (by simp)
  | popped f _ _ hp => rw [rcsPop_state _ _ _ hp]; exact .inl rfl
  | pushed pr _ _ _ _ hp =>
    obtain ⟨_, _, _, hpar, _⟩ := rcsPush_frame _ _ _ hp
    exact .inl (by rw [hpar])
  | none | gate | linked | linkedGr | restored | modeSet | bound | flipped => simp [restoreDesignators]

/-- From step 17 on no check fails: step 21 finds the target's name checked (R95). -/
theorem Completes.ok_of_late {u : State} {c : Completion} (hc : Completes u c) (hn : NamesChecked u.info)
    (hpos : 17 ≤ pos u.info.step) : c = .ok := by
  cases hc with
  | ok => rfl
  | early f hlt => omega
  | inconsistent f n hname hr => simp [hn.target n hname] at hr
  | vector h hs => simp [hs, pos] at hpos

/-- PAR.PC in the course of a transfer: as it was, or written by step 17, and then the invocation ends with `Ok`. -/
def CounterAt (s u : State) : Prop :=
  u.par.pc = s.par.pc ∨ (Past .s17 u.info ∧ (u.info.step = .idle → u.result = some .ok))

theorem Course.counterAt {i : Instr} {s u t : State} (c : Course i s u) (hl : i.kind ≠ .lae) (hs : u.info.step ≠ .idle)
    (hn : NamesChecked u.info) (hu : CounterAt s u) (h : engineStep u = .next t) : CounterAt s t := by
  have late (hpos : pos .s17 ≤ pos u.info.step) : CounterAt s t := by
    refine .inr ⟨Past.next hpos hs (by rw [c.op]; simpa using hl) h, fun hidle => ?_⟩
    rcases engineStep_transits u hs t h with ⟨d, w, hd, rfl⟩ | ⟨j, n, _, hne, hinfo⟩
    · exact congrArg some (hd.ok_of_late hn hpos)
    · exact absurd (by simpa [hinfo] using hidle) hne
  rcases hu with hu | ⟨hp, _⟩
  · obtain ⟨u1, j, r, he, ht⟩ := engineStep_change u t hs h
    rcases he.pc with e | h17
    · exact .inl (by rw [ht]; exact e.trans hu)
    · exact late (by rw [h17])
  · exact late (hp.pos_lt hs).le

/-- Settles O56: a load never writes PAR, and a transfer that has written PAR.PC passes every check left. -/
theorem programCounterKeptOnFault : Obligations.ProgramCounterKeptOnFault := by
  intro i s t h hres
  by_cases hload : IsLoad i
  · rw [(loadsLeaveControlState i s t hload h).left]
  · have hl : i.kind ≠ .lae := fun e => hload (.inl e)
    have hend : NamesChecked t.info ∧ CounterAt s t :=
      exec_induct i s (fun u => NamesChecked u.info ∧ CounterAt s u)
        ⟨startRequest_namesChecked i s, .inl (by rw [startRequest_eq]; rfl)⟩
        (fun u v c hs ⟨hn, hu⟩ hv => ⟨engineStep_namesChecked u v hn hs hv, c.counterAt hl hs hn hu hv⟩) t h
    rw [exec_eq_run] at h
    exact hend.right.resolve_right fun hok => hres (hok.right (runEngine_next _ t h).right)

end Sys2Proof.Machine

/-! SUPPORT. The base registers and the entries of the active base table that a request may write (R84, R85, R92, R93):
the slot that step 10 selects, and for a transfer the caller's. -/

namespace Sys2Proof.Machine

/-! ### Which slots an engine step writes -/

theorem bmSelOf_eq_some_iff : ∀ (j : Slot) (k : BmSel), bmSelOf j = some k ↔ j = bmSlot k := by decide

/-- Recording a name writes the entry of the slot, if it has one (R92). -/
theorem recordAbt_abtEntry (s : State) (j : Slot) (n : BankName) (k : BmSel) :
    (recordAbt s j n).abtEntry k = if j = bmSlot k then n else s.abtEntry k := by
  unfold recordAbt
  cases hj : bmSelOf j with
  | none =>
    have hne : j ≠ bmSlot k := fun e => by simp [(bmSelOf_eq_some_iff j k).mpr e] at hj
    simp only [if_neg hne]
  | some l =>
    obtain rfl := (bmSelOf_eq_some_iff j l).mp hj
    have hinj : bmSlot l = bmSlot k ↔ k = l := by
      rw [← bmSelOf_eq_some_iff, bmSelOf_bmSlot, Option.some.injEq, eq_comm]
    simp only [setAbtEntry_abtEntry, hinj]

/-- Step 11 writes no base register but B0 and the caller's (R85). -/
theorem voidPrior_breg_other (s : State) (pr : Prior) (m : Mode) (j : Slot) (h0 : j ≠ emCodeSlot) (hp : j ≠ pr.slot) :
    (voidPrior s pr m).breg j = s.breg j := by
  unfold voidPrior
  split <;> simp [setBreg_breg, h0, hp]

/-- A base register is written at step 11, where it is B0 or the caller's, or it is the slot that step 10 selected. -/
theorem Effect.breg_slot {s s1 : State} (h : Effect s s1) (j : Slot) : s1.breg j = s.breg j ∨
    (s.info.step = .s11 ∧ (j = emCodeSlot ∨ ∃ pr, s.info.prior = some pr ∧ j = pr.slot)) ∨ s.info.slot = some j := by
  cases h with
  | voided pr m hs hp _ =>
    by_cases h0 : j = emCodeSlot
    · exact .inr (.inl ⟨hs, .inl h0⟩)
    · by_cases hj : j = pr.slot
      · exact .inr (.inl ⟨hs, .inr ⟨pr, hp, hj⟩⟩)
      · exact .inl (voidPrior_breg_other s pr m j h0 hj)
  | bound k r _ hk _ =>
    rw [setBreg_breg]
    split
    · rename_i e
      exact .inr (.inr (e ▸ hk))
    · exact .inl rfl
  | popped f _ _ hp => rw [rcsPop_state _ _ _ hp]; exact .inl rfl
  | pushed pr _ _ _ _ hp =>
    obtain ⟨_, _, _, _, hb, _⟩ := rcsPush_frame _ _ _ hp
    exact .inl (by simp [State.breg, hb])
  | none | gate | linked | linkedGr | restored | modeSet | counter | recorded | flipped => simp [restoreDesignators]

/-- An entry of the active base table is written at step 11, or it is that of the slot that step 10 selected. -/
theorem Effect.abtEntry_slot {s s1 : State} (h : Effect s s1) (k : BmSel) :
    s1.abtEntry k = s.abtEntry k ∨ s.info.step = .s11 ∨ s.info.slot = some (bmSlot k) := by
  cases h with
  | voided pr m hs => exact .inr (.inl hs)
  | recorded j n _ hj _ =>
    unfold recordBinding
    split
    · exact .inl rfl
    · rw [recordAbt_abtEntry]
      split
      · rename_i e
        exact .inr (.inr (e ▸ hj))
      · exact .inl rfl
  | popped f _ _ hp => rw [rcsPop_state _ _ _ hp]; exact .inl rfl
  | pushed pr _ _ _ _ hp =>
    obtain ⟨_, _, _, _, _, ha⟩ := rcsPush_frame _ _ _ hp
    exact .inl (by simp [State.abtEntry, ha])
  | gate g =>
    obtain ⟨_, _, ha, _⟩ := gateTransfers_frame s g
    exact .inl (by simp [State.abtEntry, ha])
  | none | linked | linkedGr | restored | modeSet | counter | bound | flipped => simp [restoreDesignators]

/-! ### Which slots a request may bind -/

/-- The slots that a transfer may bind or void: B0, B12 to B15 and the two of the parameters (R84, R85). -/
def TransferSlot (s : State) (j : Slot) : Prop :=
  j = 0 ∨ (12 ≤ j.val ∧ j.val ≤ 15) ∨ j = s.params.hardHeldSlot ∨ j = s.params.emToBmDefaultSlot

/-- The slots that a request may bind or void. -/
def MayBind (i : Instr) (s : State) (j : Slot) : Prop :=
  match i with
  | .lbe a _ => j.val = 16 + a.val
  | .lbu a _ => j.val = a.val
  | .lae _ => 1 ≤ j.val ∧ j.val ≤ 15
  | .call _ | .goto _ | .lbj _ _ | .ldj _ _ | .lij _ _ | .rtn | .ur _ | .int _ => TransferSlot s j

theorem mayBind_transfer {i : Instr} {s : State} {j : Slot} (hl : kindIsLoad i.kind = false) (h : TransferSlot s j) :
    MayBind i s j := by
  cases i with
  | lae | lbe | lbu => simp [Instr.kind, kindIsLoad] at hl
  | call | goto | lbj | ldj | lij | rtn | ur | int => exact h

theorem mayBind_lae {i : Instr} {s : State} {j : Slot} (hk : i.kind = .lae) :
    MayBind i s j ↔ 1 ≤ j.val ∧ j.val ≤ 15 := by
  cases i with
  | lae => exact Iff.rfl
  | call | goto | lbe | lbu | lbj | ldj | lij | rtn | ur | int => simp [Instr.kind] at hk

theorem mayBind_lbe {i : Instr} {s : State} {j : Slot} {a : RegIndex} (hk : i.kind = .lbe) (ha : aOf i = some a) :
    MayBind i s j ↔ j.val = 16 + a.val := by
  cases i with
  | lbe => obtain rfl := Option.some.inj ha; exact Iff.rfl
  | call | goto | lae | lbu | lbj | ldj | lij | rtn | ur | int => simp [Instr.kind] at hk

theorem mayBind_lbu {i : Instr} {s : State} {j : Slot} {a : RegIndex} (hk : i.kind = .lbu) (ha : aOf i = some a) :
    MayBind i s j ↔ j.val = a.val := by
  cases i with
  | lbu => obtain rfl := Option.some.inj ha; exact Iff.rfl
  | call | goto | lae | lbe | lbj | ldj | lij | rtn | ur | int => simp [Instr.kind] at hk

theorem transferSlot_bmSlot (s : State) (k : BmSel) : TransferSlot s (bmSlot k) :=
  .inr (.inl ⟨Nat.le_add_right 12 _, by have := k.isLt; simp only [bmSlot]; omega⟩)

/-- The caller's slot is B0 or one of B12 to B15 (R76). -/
theorem capturePrior_slot (s : State) (op : OpKind) (x : Word) :
    (capturePrior s op x).slot = emCodeSlot ∨ ∃ k, (capturePrior s op x).slot = bmSlot k := by
  simp only [capturePrior, callerOf]
  split
  · exact .inr ⟨_, rfl⟩
  · split
    · exact .inr ⟨_, rfl⟩
    · exact .inl rfl

/-- What the record of an invocation says of slots. -/
structure SlotsAt (i : Instr) (s : State) (r : Info) : Prop where
  slot : ∀ k, r.slot = some k → MayBind i s k
  prior : ∀ pr, r.prior = some pr → TransferSlot s pr.slot
  counter : ∀ k, r.laeI = some k → 1 ≤ k.val

theorem slotsAt_idle (i : Instr) (s : State) : SlotsAt i s Info.idle :=
  ⟨fun _ h => by simp [Info.idle] at h, fun _ h => by simp [Info.idle] at h, fun _ h => by simp [Info.idle] at h⟩

section
variable {i : Instr} {s u t : State}

/-- Step 10 selects a slot that the request may bind. -/
theorem LandsAt.mayBind {k : Slot} (h : LandsAt u k) (c : Course i s u) (hu : SlotsAt i s u.info) : MayBind i s k := by
  have transfer {j : Slot} (hl : u.info.isLoad = false) (hj : TransferSlot s j) : MayBind i s j :=
    mayBind_transfer ((isLoad_of_op c.op).symm.trans hl) hj
  cases h with
  | lae k ho hk =>
    rw [mayBind_lae (Option.some.inj (c.op.symm.trans ho))]
    exact ⟨hu.counter k hk, Nat.le_of_lt_succ k.isLt⟩
  | lbe a ho ha => exact (mayBind_lbe (Option.some.inj (c.op.symm.trans ho)) (c.a.symm.trans ha)).mpr rfl
  | lbu a ho ha => exact (mayBind_lbu (Option.some.inj (c.op.symm.trans ho)) (c.a.symm.trans ha)).mpr rfl
  | emCode hl => exact transfer hl (.inl rfl)
  | hardHeld hl => exact transfer hl (.inr (.inr (.inl (by rw [c.params]))))
  | bmDefault hl => exact transfer hl (.inr (.inr (.inr (by rw [c.params]))))
  | selected hl k => exact transfer hl (transferSlot_bmSlot s k)
  | caller hl pr hp => exact transfer hl (hu.prior pr hp)

theorem RecordChange.slotsAt {j : Info} (hj : RecordChange u j) (c : Course i s u) (hu : SlotsAt i s u.info) :
    SlotsAt i s j := by
  cases hj with
  | landing m k _ hk => exact ⟨fun l hl => Option.some.inj hl ▸ hk.mayBind c hu, hu.prior, hu.counter⟩
  | captured op x =>
    refine ⟨hu.slot, fun pr hp => ?_, hu.counter⟩
    rw [← Option.some.inj hp]
    rcases capturePrior_slot u op x with e | ⟨k, e⟩ <;> rw [e]
    · exact .inl rfl
    · exact transferSlot_bmSlot s k
  | counted => exact ⟨hu.slot, hu.prior, fun k hk => Option.some.inj hk ▸ le_rfl⟩
  | iterated k _ _ hlt =>
    refine ⟨hu.slot, hu.prior, fun l hl => ?_⟩
    rw [← Option.some.inj hl, Fin.val_add_one_of_lt (Fin.lt_def.mpr hlt)]
    exact Nat.le_add_left 1 _
  | kept | referred | sourced | admitted | void | found | substituted | hopped | gated =>
    exact ⟨hu.slot, hu.prior, hu.counter⟩

/-- The bindings in the course of an invocation: every slot that the request may not bind is as it was, and so is its
entry of the active base table for a load. -/
structure BindingsAt (i : Instr) (s u : State) : Prop where
  slots : SlotsAt i s u.info
  breg : ∀ j, ¬MayBind i s j → u.breg j = s.breg j
  abt : IsLoad i → ∀ k, ¬MayBind i s (bmSlot k) → u.abtEntry k = s.abtEntry k

theorem startRequest_bindingsAt (i : Instr) (s : State) : BindingsAt i s (startRequest i s) := by
  rw [startRequest_eq]
  exact ⟨⟨(slotsAt_idle i s).slot, (slotsAt_idle i s).prior, (slotsAt_idle i s).counter⟩, fun _ _ => rfl,
    fun _ _ _ => rfl⟩

theorem engineStep_slotsAt (c : Course i s u) (hs : u.info.step ≠ .idle) (hu : SlotsAt i s u.info)
    (h : engineStep u = .next t) : SlotsAt i s t.info := by
  rcases engineStep_transits u hs t h with ⟨d, w, _, rfl⟩ | ⟨j, n, hj, _, hinfo⟩
  · exact slotsAt_idle i s
  · obtain ⟨hslot, hprior, hcounter⟩ := hj.slotsAt c hu
    rw [hinfo]
    exact ⟨hslot, hprior, hcounter⟩

/-- Step 11 is passed by transfers alone. -/
theorem Course.not_load_of_s11 (c : Course i s u) (h11 : u.info.step = .s11) : u.info.isLoad = false := by
  cases hl : u.info.isLoad with
  | false => rfl
  | true => simpa [h11, transferOnly] using c.load hl

theorem Course.bindingsAt (c : Course i s u) (hs : u.info.step ≠ .idle) (hu : BindingsAt i s u)
    (h : engineStep u = .next t) : BindingsAt i s t := by
  refine ⟨engineStep_slotsAt c hs hu.slots h, fun j hj => ?breg, fun hl k hk => ?abt⟩
  all_goals obtain ⟨u1, r, q, he, rfl⟩ := engineStep_change u t hs h
  case breg =>
    have transfer (h11 : u.info.step = .s11) (ht : TransferSlot s j) : False :=
      hj (mayBind_transfer ((isLoad_of_op c.op).symm.trans (c.not_load_of_s11 h11)) ht)
    rw [setResult_breg, setInfo_breg, ← hu.breg j hj]
    rcases he.breg_slot j with e | ⟨h11, e | ⟨pr, hp, e⟩⟩ | e
    · exact e
    · exact (transfer h11 (.inl e)).elim
    · exact (transfer h11 (e ▸ hu.slots.prior pr hp)).elim
    · exact absurd (hu.slots.slot j e) hj
  case abt =>
    rw [setResult_abtEntry, setInfo_abtEntry, ← hu.abt hl k hk]
    rcases he.abtEntry_slot k with e | h11 | e
    · exact e
    · simpa [c.isLoad hl] using c.not_load_of_s11 h11
    · exact absurd (hu.slots.slot _ e) hk

end

theorem exec_bindingsAt (i : Instr) (s t : State) (h : exec i s = .next t) : BindingsAt i s t :=
  exec_induct i s (BindingsAt i s) (startRequest_bindingsAt i s) (fun _ _ c hs hu hv => c.bindingsAt hs hu hv) t h

/-- The active base table is its four entries (R17). -/
theorem abt_ext {s t : State} (h : ∀ k, t.abtEntry k = s.abtEntry k) : t.abt = s.abt := by
  refine Vector.ext fun n hn => ?_
  have hk : (BitVec.ofNat 2 n).toNat = n := by simp only [BitVec.toNat_ofNat]; omega
  simpa only [State.abtEntry, hk] using h (BitVec.ofNat 2 n)

theorem bmSlot_val_le (k : BmSel) : (bmSlot k).val ≤ 15 := by
  have := k.isLt
  simp only [bmSlot]
  omega

/-- Settles O55: no engine step binds or voids a slot but one that the request may bind (`exec_bindingsAt`). -/
theorem bindingFrame : Obligations.BindingFrame := by
  intro i s t h
  obtain ⟨_, hbreg, habt⟩ := exec_bindingsAt i s t h
  refine ⟨?lbe, ?lbu, fun hk j hj => hbreg j ?lae, fun hl j h0 hbm hhard hdefault => hbreg j ?transfer⟩
  case lbe =>
    rintro a v rfl
    refine ⟨hbreg, abt_ext fun k => habt (.inr (.inl rfl)) k ?_⟩
    have := bmSlot_val_le k
    simp only [MayBind]
    omega
  case lbu =>
    rintro a v rfl
    exact ⟨hbreg, habt (.inr (.inr rfl))⟩
  case lae =>
    rw [mayBind_lae hk]
    omega
  case transfer =>
    have hno : ¬TransferSlot s j := by
      rintro (e | e | e | e)
      exacts [h0 e, by omega, hhard e, hdefault e]
    cases i with
    | lae | lbe | lbu => simp [IsLoad, Instr.kind] at hl
    | call | goto | lbj | ldj | lij | rtn | ur | int => exact hno

end Sys2Proof.Machine

/-! SUPPORT. Single steps: the interface spec at step 1, the caller at step 11, the designators at step 16, the toggle at
step 20, and what a gate transfers. -/

namespace Sys2Proof.Machine

/-! ### The gate's transfers -/

/-- A latent parameter is written where its flag does not inhibit it (R83). -/
theorem gr_transferred (s : State) (inhibited : Bool) (dest r : GrName) (w : Word) :
    (if inhibited then s else s.setGr dest w).gr r = if inhibited = false ∧ r = dest then w else s.gr r := by
  cases inhibited <;> simp [setGr_gr]

/-- What a general register holds after a gate's transfers: latent parameter 1 is written last (R83). -/
theorem gateTransfers_gr (s : State) (g : GateRecord) (r : GrName) : (gateTransfers s g).gr r =
    if g.latentParam1Inhibited = false ∧ r = s.params.latentDest1 then g.latent1
    else if g.latentParam0Inhibited = false ∧ r = s.params.latentDest0 then g.latent0 else s.gr r := by
  simp only [gateTransfers, gr_transferred]
  cases g.designatorBitsInhibited <;> cases g.accessKeyInhibited <;> cases g.latentParam0Inhibited <;> simp

/-- Settles O26, field by field. -/
theorem gateTransfersFollowInhibitFlags : Obligations.GateTransfersFollowInhibitFlags := by
  intro s g r
  obtain ⟨hparams, hbregs, habt, hpar, hrcsp, hmemory, hport, hresult⟩ := gateTransfers_frame s g
  exact ⟨gateTransfers_dr s g, gateTransfers_ikr s g, gateTransfers_gr s g r, hbregs, habt, hpar, hrcsp, hmemory, hparams,
    gateTransfers_info s g, hresult, hport⟩

/-! ### Step 1 -/

/-- Step 1 of an LxJ whose reference has interface spec 3 (R75). -/
theorem ends1_lxj (u : State) (i : Info) (op : OpKind) (a : RegIndex) (hs : i.step = .s1) (ho : i.op = some op)
    (ha : i.a = some a) (hx : kindIsLxj op = true) (his : linkIs (u.gr (lxjRegister u a)) = 3) :
    engineStep (u.setInfo i) = .next (finished (.fault (.addressing .invalidISValue)) u) := by
  have h : engineStep (u.setInfo i) = step1 (u.setInfo i) := by simp only [engineStep, setInfo_info, hs]
  have hlbu : op ≠ .lbu := by rintro rfl; simp [kindIsLxj] at hx
  have hint : i.op ≠ some .int := by rw [ho]; rintro ⟨⟩; simp [kindIsLxj] at hx
  exact h.trans ((need_eq _ _ _ ho).trans ((if_neg hlbu).trans ((if_pos hx).trans ((need_eq _ _ _ ha).trans
    ((if_pos his).trans (raise_at u i _ hint))))))

/-- Settles O40: step 1 is the first of the invocation, and it raises. -/
theorem lxjInvalidInterfaceSpec : Obligations.LxjInvalidInterfaceSpec := by
  intro s i a d k hsel his
  obtain ⟨hx, hstart, -⟩ := lxj_kind s i a d k hsel
  rw [exec_eq_run, hstart]
  exact runEngine_of_leads 0 (by decide) _ _ _ (Leads.refl _) (by simp [startInvocation])
    (ends1_lxj s _ i.kind a rfl rfl rfl hx his) rfl

/-! ### Step 11 -/

/-- Settles O58, by the three cases of the modes. -/
theorem stepElevenVoidsCaller : Obligations.StepElevenVoidsCaller := by
  intro s pr m hs hp hm
  refine ⟨_, leads11 s s.info pr m hs hp hm, rfl, fun hem hbm => ?leave, fun hbm hem => ?enter, fun heq => ?stay⟩
  case leave =>
    have e : voidPrior s pr m = (s.setBreg emCodeSlot .void).setParName voidName := by simp only [voidPrior, hem, hbm]
    refine ⟨?_, ?_, ?_, ?_, fun j hj => ?_⟩
    all_goals simp only [e, setInfo_breg, setInfo_parName, setInfo_par, setInfo_abt]
    · exact setBreg_breg_same s emCodeSlot .void
    · rfl
    · rfl
    · rfl
    · exact (setBreg_breg s emCodeSlot j .void).trans (if_neg hj)
  case enter =>
    have e : voidPrior s pr m = recordAbt (s.setBreg pr.slot .void) pr.slot voidName := by
      simp only [voidPrior, hem, hbm]
    refine ⟨?_, ?_, fun j hj => ?_, fun k => ?_⟩
    all_goals simp only [e, setInfo_breg, setInfo_par, setInfo_abtEntry, recordAbt_breg, recordAbt_par]
    · exact setBreg_breg_same s pr.slot .void
    · rfl
    · exact (setBreg_breg s pr.slot j .void).trans (if_neg hj)
    · exact (recordAbt_abtEntry _ pr.slot voidName k).trans (if_congr eq_comm rfl rfl)
  case stay =>
    have e : voidPrior s pr m = s := by subst heq; unfold voidPrior; cases pr.mode <;> rfl
    rw [e]
    exact ⟨rfl, rfl, rfl⟩

/-! ### Step 16 -/

/-- Step 16 writes DB12-17 and the key alone (R90). -/
theorem step16_bits (s t : State) (hs : s.info.step = .s16) (h : engineStep s = .next t) :
    (∀ j, j < 18 ∨ 23 < j → t.dr.getLsbD j = s.dr.getLsbD j) ∧
      ∀ j, 18 ≤ j → t.ikr.getLsbD j = s.ikr.getLsbD j := by
  have hrun : s.info.step ≠ .idle := by simp [hs]
  refine ⟨fun j hj => ?_, engineStep_ikr_bits s t hrun h⟩
  obtain ⟨s1, i, r, he, rfl⟩ := engineStep_change s t hrun h
  rw [setResult_dr, setInfo_dr]
  rcases he.dr with e | ⟨_, ⟨v, e⟩ | ⟨b, e⟩⟩ | ⟨h20, _⟩
  · rw [e]
  · rw [e, getLsbD_setDb12to17 s.dr v j hj]
  · rw [e, getLsbD_setDb16 s.dr b j (by omega)]
  · simp [hs] at h20

/-- Step 16 of an operation that neither returns nor is interrupt entry: DB16 of a forward transfer that changes the mode
(R90). -/
theorem leads16_other (s : State) (pr : Prior) (m : Mode) (hs : s.info.step = .s16) (hr : s.info.isReturnLike = false)
    (hi : s.info.isInt = false) (hp : s.info.prior = some pr) (hm : s.info.targetMode = some m) :
    engineStep s = .next ((if s.info.isForward = true ∧ pr.mode ≠ m then s.setDr (setDb16 s.dr (m == .bm)) else s).setInfo
      { s.info with step := .s17 }) := by
  have h : engineStep s = step16 s := by simp only [engineStep, hs]
  refine h.trans ((if_neg (by simp [hr])).trans ((if_neg (by simp [hi])).trans
    ((need_eq _ _ _ hp).trans ((need_eq _ _ _ hm).trans ?_))))
  have hcond : (s.info.isForward && pr.mode != m) = true ↔ s.info.isForward = true ∧ pr.mode ≠ m := by simp
  simp only [hcond]
  split <;> rfl

/-- Settles O59: the three branches of step 16 in their order, and what none of them writes. -/
theorem stepSixteenRestores : Obligations.StepSixteenRestores := by
  intro s hs
  refine ⟨fun f hr hp => ?ret, fun hr hi => ?int, fun pr m hr hi hp hm => ?other, fun t h => ?bits⟩
  case ret =>
    exact ⟨_, leads16_return s s.info f hs hr hp, rfl, db12to17_setDb12to17 _ _, accessKey_setAccessKey _ _⟩
  case int =>
    exact ⟨_, leads16_int s s.info hs hr hi, rfl, db12to17_setDb12to17 _ _, accessKey_setAccessKey _ _⟩
  case other =>
    refine ⟨_, leads16_other s pr m hs hr hi hp hm, rfl, ?_, ?_⟩
    · split <;> rfl
    · rw [setInfo_dr]
      split <;> rfl
  case bits =>
    obtain ⟨hdr, hikr⟩ := step16_bits s t hs h
    exact ⟨fun j _ hj => hdr j hj, hikr⟩

/-! ### Step 20 -/

/-- Settles O60, by the condition of step 20. -/
theorem stepTwentyToggles : Obligations.StepTwentyToggles := by
  intro s op pr m hs ho hp hm
  have hcond : (s.params.toggleDb31.contains op && s.info.isForward && pr.mode == .bm && m == .bm) = true ↔
      op ∈ s.params.toggleDb31 ∧ s.info.isForward = true ∧ pr.mode = .bm ∧ m = .bm := by
    simp only [Bool.and_eq_true, List.contains_iff_mem, beq_iff_eq, and_assoc]
  refine ⟨_, leads20 s s.info op pr m hs ho hp hm, rfl, ?_⟩
  simp only [hcond, setInfo_dr]
  split
  · exact ⟨db31_flipDb31 s.dr, fun j hj => getLsbD_flipDb31 s.dr j hj⟩
  · rfl

end Sys2Proof.Machine

/-! SUPPORT. From the source to a fault (steps 4 to 8): one lemma per check that fails, for every record that comes to it,
and from these the failures of forward transfers, loads and returns. -/

namespace Sys2Proof.Machine

/-! ### Runs that end soon -/

/-- The run from a record ends with `t` within the steps that come before a landing. -/
def Finishes (u : State) (i : Info) (t : State) : Prop := ∃ k ≤ 9, Ends k (u.setInfo i) t

/-- The run from a record ends with a fault returned and nothing changed. -/
def Faults (u : State) (i : Info) (e : AddressingReason) : Prop :=
  Finishes u i (finished (.fault (.addressing e)) u)

theorem Finishes.of_leads {u t : State} {i j : Info} {n : Nat} (hn : n ≤ 8) (h : Leads n (u.setInfo i) (u.setInfo j))
    (hj : j.step ≠ .idle) (he : engineStep (u.setInfo j) = .next t) (ht : t.info.step = .idle) : Finishes u i t :=
  ⟨n + 1, by omega, Leads.ends _ _ _ _ _ h (Ends.last _ _ hj he ht)⟩

/-- A request that leads to such a record. -/
theorem exec_of_finishes {i : Instr} {s u t : State} {j : Info} {n : Nat} (hn : n + 9 ≤ engineFuel)
    (h : Leads n (startRequest i s) (u.setInfo j)) (hf : Finishes u j t) (ht : t.info.step = .idle) :
    exec i s = .next t := by
  obtain ⟨k, hk, he⟩ := hf
  have hfuel : n + k ≤ engineFuel := by omega
  rw [exec_eq_run]
  exact Ends.runs (n + k) hfuel _ _ (Leads.ends _ _ _ _ _ h he) ht

theorem exec_of_faults {i : Instr} {s u : State} {j : Info} {n : Nat} {e : AddressingReason} (hn : n + 9 ≤ engineFuel)
    (h : Leads n (startRequest i s) (u.setInfo j)) (hf : Faults u j e) :
    exec i s = .next (finished (.fault (.addressing e)) u) := exec_of_finishes hn h hf rfl

/-! ### Names -/

/-- A name of level 0 up to BDI 31 is in the reserved range, or the void bank's (R65, R78). -/
theorem nameReservedOrVoid_cases {n : BankName} (h : nameReservedOrVoid n = true) :
    nameReserved n = true ∨ (nameReserved n = false ∧ n = ⟨0, 0⟩) := by
  obtain ⟨level, bdi⟩ := n
  simp only [nameReservedOrVoid, Bool.and_eq_true, beq_iff_eq, decide_eq_true_eq] at h
  obtain ⟨rfl, hle⟩ := h
  by_cases h0 : bdi = 0
  · subst h0
    exact .inr ⟨by decide, rfl⟩
  · have hpos : 1 ≤ bdi.toNat := by
      refine Nat.one_le_iff_ne_zero.mpr fun e => h0 (BitVec.eq_of_toNat_eq e)
    exact .inl (by simp [nameReserved, hpos, hle])

/-! ### Steps 4 to 6 -/

/-- A record at step 4 with its source, of a request that is no interrupt entry. -/
structure AtSource (i : Info) (v : VA) : Prop where
  step : i.step = .s4
  src : i.src = some v
  other : i.op ≠ some .int

/-- The record at step 7, with the descriptor that step 6 found. -/
def foundRecord (i : Info) (v : VA) (bd : BankDescriptor) : Info :=
  { i with step := .s7, srcBD := some bd, target := some bd, targetName := some (vaName v) }

/-- Step 5 of a forward transfer to the void bank. -/
theorem step5_forwardVoid (u : State) (i : Info) (v : VA) (hs : i.step = .s5) (hv : i.src = some v)
    (hn : vaName v = ⟨0, 0⟩) (hint : i.isInt = false) (hl : i.isLoad = false) (hr : i.isReturnLike = false)
    (hfw : i.isForward = true) :
    engineStep (u.setInfo i) = raiseAddressing .invalidSourceLevelBDI (u.setInfo i) := by
  have hvoid : nameIsVoid (vaName v) = true := by rw [hn]; decide
  simp [engineStep, hs, step5, hv, hvoid, hint, hl, hr, hfw]

section
variable {u : State} {i : Info} {v : VA}

/-- A reserved name fails at step 4 (R78). -/
theorem AtSource.faults_reserved (h : AtSource i v) (hr : nameReserved (vaName v) = true) :
    Faults u i .invalidSourceLevelBDI := by
  have he : engineStep (u.setInfo i) = step4 (u.setInfo i) := by simp only [engineStep, setInfo_info, h.step]
  refine Finishes.of_leads (Nat.zero_le 8) (Leads.refl _) (by simp [h.step]) (he.trans ((need_eq _ _ _ h.src).trans
    ((if_pos hr).trans (raise_at u i _ h.other)))) rfl

/-- Step 4 of a name that is not reserved. -/
theorem AtSource.leads_s5 (h : AtSource i v) (hr : nameReserved (vaName v) = false) :
    Leads 1 (u.setInfo i) (u.setInfo { i with step := .s5 }) :=
  Leads.step _ _ (by simp [h.step]) (leads4 u i v h.step h.src hr)

/-- The void bank is no destination of a forward transfer (R79). -/
theorem AtSource.faults_void (h : AtSource i v) (hv : vaName v = ⟨0, 0⟩) (hint : i.isInt = false)
    (hl : i.isLoad = false) (hr : i.isReturnLike = false) (hfw : i.isForward = true) :
    Faults u i .invalidSourceLevelBDI := by
  refine Finishes.of_leads (by decide) (h.leads_s5 (by rw [hv]; decide)) (by simp) ?_ rfl
  exact (step5_forwardVoid u { i with step := .s5 } v rfl h.src hv hint hl hr hfw).trans (raise_at u _ _ h.other)

/-- Steps 4 and 5 of a name that is neither reserved nor void. -/
theorem AtSource.leads_s6 (h : AtSource i v) (hn : nameReservedOrVoid (vaName v) = false) :
    Leads 2 (u.setInfo i) (u.setInfo { i with step := .s6 }) :=
  Leads.trans 1 1 _ _ _ (h.leads_s5 (notReserved_of _ hn))
    (Leads.step _ _ (by simp) (leads5 u _ v rfl h.src (notVoid_of _ hn)))

/-- A name that FIND_BD does not find fails at step 6 (R80). -/
theorem AtSource.faults_notFound (h : AtSource i v) (hn : nameReservedOrVoid (vaName v) = false)
    (hf : findBd u (vaName v) = .ok none) : Faults u i .fatalAddressingException := by
  refine Finishes.of_leads (by decide) (h.leads_s6 hn) (by simp) ?_ rfl
  have he : engineStep (u.setInfo { i with step := .s6 }) = step6 (u.setInfo { i with step := .s6 }) := rfl
  refine he.trans ((need_eq _ _ _ h.src).trans ?_)
  rw [findBd_setInfo, hf]
  exact raise_at u _ _ h.other

/-- Steps 4 to 6 of a name that FIND_BD finds. -/
theorem AtSource.leads_s7 (h : AtSource i v) {bd : BankDescriptor} (hf : FindsBank u (vaName v) bd) :
    Leads 3 (u.setInfo i) (u.setInfo (foundRecord i v bd)) :=
  Leads.trans 2 1 _ _ _ (h.leads_s6 hf.1) (Leads.step _ _ (by simp) (leads6 u _ v bd rfl h.src hf.2))

/-- A bank that step 7 rejects. -/
theorem AtSource.faults_s7 (h : AtSource i v) {bd : BankDescriptor} (hf : FindsBank u (vaName v) bd)
    (h7 : engineStep (u.setInfo (foundRecord i v bd)) =
      raiseAddressing .bdTypeInvalid (u.setInfo (foundRecord i v bd))) : Faults u i .bdTypeInvalid := by
  refine Finishes.of_leads (by decide) (h.leads_s7 hf) (by simp [foundRecord]) ?_ rfl
  exact h7.trans (raise_at u _ _ h.other)

end

/-! ### Steps 7 and 8 -/

/-- An operation that may take one hop of indirection: a forward transfer, LBE or LBU (R81). -/
structure Hops (i : Info) : Prop where
  may : (i.isForward || i.op == some .lbe || i.op == some .lbu) = true
  int : i.isInt = false
  ret : i.isReturnLike = false

section
variable (u : State) (i : Info) (bd : BankDescriptor)

/-- A QueueRepository is bound by no operation (R81). -/
theorem step7_queueRepository (hs : i.step = .s7) (hb : i.srcBD = some bd) (ht : bd.bankType = .queueRepository) :
    engineStep (u.setInfo i) = raiseAddressing .bdTypeInvalid (u.setInfo i) := by
  simp [engineStep, hs, step7, hb, ht]

/-- An Indirect descriptor for an operation that takes no hop (R81). -/
theorem step7_indirect (hs : i.step = .s7) (hb : i.srcBD = some bd) (ht : bd.bankType = .indirect)
    (hno : (i.isForward || i.op == some .lbe || i.op == some .lbu) = false) :
    engineStep (u.setInfo i) = raiseAddressing .bdTypeInvalid (u.setInfo i) := by
  simp only [engineStep, hs, step7, hb, ht, setInfo_info, need_some, hno, Bool.false_eq_true, if_false, ite_self]

/-- A record of another class than the loads has no load's operation. -/
theorem op_ne_load {i : Info} {op : OpKind} (h : i.isLoad = false) (hop : kindIsLoad op = true) :
    (i.op == some op) = false := by
  rw [beq_eq_false_iff_ne]
  intro e
  simp [Info.isLoad, e, hop] at h

/-- A return binds an ExtendedMode bank, or a BasicMode bank in basic mode, and no other (R81). -/
theorem step7_return (f : Frame) (hs : i.step = .s7) (hb : i.srcBD = some bd) (hp : i.popped = some f)
    (hr : i.isReturnLike = true) (hl : i.isLoad = false) (hint : i.isInt = false)
    (hem : bd.bankType ≠ .extendedMode) (hbm : bd.bankType = .basicMode → frameDb16 f = false) :
    engineStep (u.setInfo i) = raiseAddressing .bdTypeInvalid (u.setInfo i) := by
  have hfw := not_forward_of_returnLike i hr
  cases ht : bd.bankType with
  | extendedMode => exact absurd ht hem
  | basicMode => simp [engineStep, hs, step7, hb, ht, hint, hr, hp, hbm ht]
  | gate => simp [engineStep, hs, step7, hb, ht, hint, hr, hfw]
  | indirect => exact step7_indirect u i bd hs hb ht (by simp [hfw, op_ne_load (op := .lbe) hl rfl, op_ne_load (op := .lbu) hl rfl])
  | queue => simp [engineStep, hs, step7, hb, ht, hl]
  | queueRepository => exact step7_queueRepository u i bd hs hb ht

/-- Step 7 of a hopping operation does with a bank what step 8 does with an Indirect's target, where it is neither
Indirect nor a QueueRepository (R81, R82). -/
theorem step7_eq_dispatch (hs : i.step = .s7) (hb : i.srcBD = some bd) (hi : Hops i) (hni : bd.bankType ≠ .indirect)
    (hnq : bd.bankType ≠ .queueRepository) : engineStep (u.setInfo i) = step8Dispatch (u.setInfo i) bd := by
  cases ht : bd.bankType with
  | extendedMode | queue => simp [engineStep, hs, step7, step8Dispatch, hb, ht]
  | basicMode => simp [engineStep, hs, step7, step8Dispatch, hb, ht, hi.int, hi.ret]
  | gate => cases hfw : i.isForward <;> simp [engineStep, hs, step7, step8Dispatch, hb, ht, hi.int, hi.ret, hfw]
  | indirect => exact absurd ht hni
  | queueRepository => exact absurd ht hnq

/-- Step 8's dispatch of a second Indirect, and of a QueueRepository (R82). -/
theorem step8Dispatch_fatal (ht : bd.bankType = .indirect ∨ bd.bankType = .queueRepository) :
    step8Dispatch (u.setInfo i) bd = raiseAddressing .fatalAddressingException (u.setInfo i) := by
  rcases ht with ht | ht <;> simp only [step8Dispatch, ht]

/-- Step 8's dispatch of a Queue for a transfer (R82). -/
theorem step8Dispatch_queue (ht : bd.bankType = .queue) (hl : i.isLoad = false) :
    step8Dispatch (u.setInfo i) bd = raiseAddressing .bdTypeInvalid (u.setInfo i) := by
  simp [step8Dispatch, ht, hl]

/-- Step 8's dispatch of a bank that the key of a forward transfer may not enter (R69, R82). -/
theorem step8Dispatch_denied (ht : bd.bankType = .extendedMode ∨ bd.bankType = .basicMode) (hfw : i.isForward = true)
    (hlbu : (i.op == some .lbu) = false) (hc : u.params.directEnterCheck = true)
    (he : enter u.params (accessKey u.ikr) bd = false) :
    step8Dispatch (u.setInfo i) bd = raiseAddressing .enterAccessDenied (u.setInfo i) := by
  have hdenied : enterThenBind (u.setInfo i) bd = raiseAddressing .enterAccessDenied (u.setInfo i) := by
    simp [enterThenBind, enterDenied, hfw, hc, he]
  rcases ht with ht | ht
  · simp only [step8Dispatch, ht, hdenied]
  · simp only [step8Dispatch, ht, withSubstitution_of u i bd hlbu, hdenied]

end

section
variable {u : State} {i : Info} {v : VA}

/-- The record at step 8, behind an Indirect descriptor. -/
def hopRecord (i : Info) (v : VA) (ib : BankDescriptor) : Info := { foundRecord i v ib with step := .s8 }

/-- Steps 4 to 7 of an Indirect descriptor. -/
theorem AtSource.leads_s8 (h : AtSource i v) (hi : Hops i) {ib : BankDescriptor} (hf : FindsBank u (vaName v) ib)
    (hib : ib.bankType = .indirect) : Leads 4 (u.setInfo i) (u.setInfo (hopRecord i v ib)) :=
  Leads.trans 3 1 _ _ _ (h.leads_s7 hf)
    (Leads.step _ _ (by simp [foundRecord]) (leads7_indirect u _ ib rfl rfl hib hi.int hi.may))

/-- A hop of indirection that fails at step 8 (R82). -/
theorem AtSource.faults_hop (h : AtSource i v) (hi : Hops i) {ib : BankDescriptor} {e : AddressingReason}
    (hf : FindsBank u (vaName v) ib) (hib : ib.bankType = .indirect) (hfail : HopFails u ib e) : Faults u i e := by
  refine Finishes.of_leads (by decide) (h.leads_s8 hi hf hib) (by simp [hopRecord]) ?_ rfl
  have raised : ∀ j, j.op = i.op → ∀ e, raiseAddressing e (u.setInfo j) =
      .next (finished (.fault (.addressing e)) u) := fun j hj e => raise_at u j _ (hj ▸ h.other)
  have he : engineStep (u.setInfo (hopRecord i v ib)) = step8 (u.setInfo (hopRecord i v ib)) := rfl
  rcases hfail with ⟨hg, rfl⟩ | ⟨hg, ⟨hn, rfl⟩ | ⟨hn, hnone, rfl⟩ | ⟨bd, ⟨hn, hbd⟩, hty, rfl⟩⟩
  · exact he.trans ((if_pos hg).trans (raised _ rfl _))
  · exact he.trans ((if_neg (by simp [hg])).trans ((if_pos hn).trans (raised _ rfl _)))
  · refine he.trans ((if_neg (by simp [hg])).trans ((if_neg (by simp [hn])).trans ?_))
    rw [findBd_setInfo, hnone]
    exact raised _ rfl _
  · rw [step8_found u _ ib bd rfl rfl hg hn hbd, step8Dispatch_fatal u _ bd hty]
    exact raised _ rfl _

/-- A bank that a hopping operation reaches, directly or behind an Indirect descriptor, comes to step 8's dispatch. -/
theorem AtSource.reaches_dispatch (h : AtSource i v) (hi : Hops i) {m : BankName} {bd : BankDescriptor}
    (hr : Reaches u (vaName v) m bd) (hnq : bd.bankType ≠ .queueRepository) :
    ∃ n ≤ 4, ∃ j k, j.step ≠ .idle ∧ k.op = i.op ∧ k.form = i.form ∧ Leads n (u.setInfo i) (u.setInfo j) ∧
      engineStep (u.setInfo j) = step8Dispatch (u.setInfo k) bd := by
  rcases hr with ⟨rfl, hni, hf⟩ | ⟨ib, hf, hib, hg, rfl, hn, hbd⟩
  · exact ⟨3, by decide, _, foundRecord i v bd, by simp [foundRecord], rfl, rfl, h.leads_s7 hf,
      step7_eq_dispatch u _ bd rfl rfl ⟨hi.may, hi.int, hi.ret⟩ hni hnq⟩
  · exact ⟨4, by decide, _, { hopRecord i v ib with target := some bd, targetName := some ib.target },
      by simp [hopRecord], rfl, rfl, h.leads_s8 hi hf hib,
      step8_found u (hopRecord i v ib) ib bd rfl rfl hg hn hbd⟩

/-- A fault of step 8's dispatch on a bank that the source reaches. -/
theorem AtSource.faults_dispatch (h : AtSource i v) (hi : Hops i) {m : BankName} {bd : BankDescriptor}
    {e : AddressingReason} (hr : Reaches u (vaName v) m bd) (hnq : bd.bankType ≠ .queueRepository)
    (hd : ∀ k : Info, k.op = i.op → k.form = i.form →
      step8Dispatch (u.setInfo k) bd = raiseAddressing e (u.setInfo k)) : Faults u i e := by
  obtain ⟨n, hn, j, k, hj, hop, hform, hlead, hstep⟩ := h.reaches_dispatch hi hr hnq
  refine Finishes.of_leads (by omega) hlead hj ?_ rfl
  rw [hstep, hd k hop hform]
  exact raise_at u k _ (hop ▸ h.other)

end

/-! ### Forward transfers -/

/-- The record of a forward transfer at step 4, with its source. -/
structure ForwardRecord (s : State) (i : Instr) (v : VA) (j : Info) : Prop where
  step : j.step = .s4
  src : j.src = some v
  forward : j.isForward = true
  int : j.isInt = false
  ret : j.isReturnLike = false
  load : j.isLoad = false
  inhibit : gotoInhibitApplies j = true ↔ GotoInhibitApplies s i

theorem not_isLoad_of_isForward {i : Info} (h : i.isForward = true) : i.isLoad = false := by
  cases hl : i.isLoad with
  | false => rfl
  | true => simp [not_forward_of_load i hl] at h

namespace ForwardRecord
variable {s : State} {i : Instr} {v : VA} {j : Info}

theorem lbu (h : ForwardRecord s i v j) : (j.op == some .lbu) = false := op_ne_load h.load rfl

theorem atSource (h : ForwardRecord s i v j) : AtSource j v :=
  ⟨h.step, h.src, fun e => by simpa [Info.isInt, e] using h.int⟩

theorem hops (h : ForwardRecord s i v j) : Hops j := ⟨by simp [h.forward], h.int, h.ret⟩

end ForwardRecord

/-- Steps 1 to 3 of CALL and GOTO. -/
theorem forwardRecord_call (s : State) (v : VA) :
    ForwardRecord s (.call v) v (sourced (callRecord .call v (capturePrior s .call 0)) v) where
  step := rfl
  src := rfl
  forward := rfl
  int := rfl
  ret := rfl
  load := rfl
  inhibit := by
    simp [gotoInhibitApplies, sourced, callRecord, Info.isLxjForm, Info.isLxj, kindIsLxj, GotoInhibitApplies, Instr.kind,
      LxjSelects]

theorem forwardRecord_goto (s : State) (v : VA) :
    ForwardRecord s (.goto v) v (sourced (callRecord .goto v (capturePrior s .goto 0)) v) where
  step := rfl
  src := rfl
  forward := rfl
  int := rfl
  ret := rfl
  load := rfl
  inhibit := ⟨fun _ => .inl rfl, fun _ => rfl⟩

/-- The record of an LxJ of normal or call form at step 4. -/
def lxjForwardRecord (s : State) (op : OpKind) (a : RegIndex) (d : BitVec 18) (f : LxjForm) : Info :=
  sourced (lxjRecord op a d (s.gr (lxjRegister s a)) f (capturePrior s op (s.gr (lxjRegister s a)))) (lxjTarget s a d)

section
variable {s : State} {i : Instr} {a : RegIndex} {d : BitVec 18} {k : BmSel} {f : LxjForm}

/-- Steps 1 to 3 of an LxJ of normal or call form. -/
theorem leads_lxj_forward (hsel : LxjSelects s i a d k) (hf : LxjHasForm s a f) (hret : f ≠ .ret) :
    Leads 3 (startRequest i s) (s.setInfo (lxjForwardRecord s i.kind a d f)) := by
  obtain ⟨hx, hstart, -⟩ := lxj_kind s i a d k hsel
  rw [hstart]
  exact Leads.trans 2 1 _ _ _ (leads_lxj s i.kind a d f hx hf)
    (Leads.step _ _ (by simp [lxjRecord, callRecord]) (leads3_lxj s _ i.kind f _ d rfl rfl hx rfl hret rfl rfl))

/-- Goto-inhibit applies to an LxJ of normal form, and to LBJ with IS = 1 (R83, R102, R103). -/
theorem gotoInhibitApplies_lxj_iff (hsel : LxjSelects s i a d k) (hf : LxjHasForm s a f) :
    GotoInhibitApplies s i ↔ f = .normal ∨ (i.kind = .lbj ∧ linkIs (s.gr (lxjRegister s a)) = 1) := by
  constructor
  · rintro (hgoto | ⟨b, e, l, hsel', h⟩)
    · have hx := (lxj_kind s i a d k hsel).1
      simp [hgoto, kindIsLxj] at hx
    · obtain rfl := hsel.a_unique hsel'
      exact h.imp_left fun hn => lxjForm_unique hsel hf hsel' hn
  · exact fun h => .inr ⟨a, d, k, hsel, h.imp_left fun (hn : f = .normal) => hn ▸ hf⟩

theorem forwardRecord_lxj (hsel : LxjSelects s i a d k) (hf : LxjHasForm s a f) (hret : f ≠ .ret) :
    ForwardRecord s i (lxjTarget s a d) (lxjForwardRecord s i.kind a d f) := by
  have hx := (lxj_kind s i a d k hsel).1
  obtain ⟨hlxj, hform, hint, -, -, -, hretLike, hfw, -⟩ := info_lxj (lxjForwardRecord s i.kind a d f) i.kind f rfl hx rfl
  have hforward : (lxjForwardRecord s i.kind a d f).isForward = true := by
    rw [hfw]
    cases f with
    | normal | call => rfl
    | ret => exact absurd rfl hret
  refine ⟨rfl, rfl, hforward, hint, ?_, not_isLoad_of_isForward hforward, ?_⟩
  · rw [hretLike]
    simpa using hret
  · have hgoto : i.kind ≠ .goto := fun e => by simp [e, kindIsLxj] at hx
    rw [gotoInhibitApplies_lxj_iff hsel hf, gotoInhibitApplies, hform]
    simp [lxjForwardRecord, sourced, lxjRecord, callRecord, hgoto]

end

/-- Steps 1 to 3 of a forward transfer (R75 to R77). -/
theorem leads_forward {s : State} {i : Instr} {v : VA} (h : ForwardFrom s i v) :
    ∃ j, ForwardRecord s i v j ∧ Leads 3 (startRequest i s) (s.setInfo j) := by
  rcases h with rfl | rfl | ⟨a, d, k, f, hsel, hf, hret, rfl⟩
  · exact ⟨_, forwardRecord_call s v, leads_call .call (.inl rfl) v s⟩
  · exact ⟨_, forwardRecord_goto s v, leads_call .goto (.inr rfl) v s⟩
  · exact ⟨_, forwardRecord_lxj hsel hf hret, leads_lxj_forward hsel hf hret⟩

/-- A record keeps its class with its operation and form. -/
theorem isForward_congr {i j : Info} (hop : j.op = i.op) (hform : j.form = i.form) : j.isForward = i.isForward := by
  simp only [Info.isForward, Info.isLxjForm, Info.isLxj, hop, hform]

theorem isLoad_congr {i j : Info} (hop : j.op = i.op) : j.isLoad = i.isLoad := by simp only [Info.isLoad, hop]

/-- The checks of steps 4 to 8 that a forward transfer may fail. -/
theorem ForwardRecord.faults {s : State} {i : Instr} {v : VA} {j : Info} {e : AddressingReason}
    (h : ForwardRecord s i v j) (hfail : ForwardFails s (vaName v) e) : Faults s j e := by
  have hsrc := h.atSource
  rcases hfail with ⟨hn, rfl⟩ | ⟨hn, hnone, rfl⟩ | ⟨bd, hf, hq, rfl⟩ | ⟨ib, hf, hib, hhop⟩ | ⟨m, bd, hr, hbank⟩
  · rcases nameReservedOrVoid_cases hn with hr | ⟨hr, hvoid⟩
    · exact hsrc.faults_reserved hr
    · exact hsrc.faults_void hvoid h.int h.load h.ret h.forward
  · exact hsrc.faults_notFound hn hnone
  · exact hsrc.faults_s7 hf (step7_queueRepository s _ bd rfl rfl hq)
  · exact hsrc.faults_hop h.hops hf hib hhop
  · rcases hbank with ⟨hq, rfl⟩ | ⟨hty, hc, he, rfl⟩
    · exact hsrc.faults_dispatch h.hops hr (by simp [hq]) fun k hop _ =>
        step8Dispatch_queue s k bd hq ((isLoad_congr hop).trans h.load)
    · refine hsrc.faults_dispatch h.hops hr (by rcases hty with e | e <;> simp [e]) fun k hop hform =>
        step8Dispatch_denied s k bd hty ((isForward_congr hop hform).trans h.forward) ?_ hc he
      rw [hop]
      exact h.lbu

/-- Settles O28: steps 1 to 3 lead to the source, and each check from there raises. -/
theorem forwardFailures : Obligations.ForwardFailures := by
  intro s i v e hfrom hfail
  obtain ⟨j, hj, hlead⟩ := leads_forward hfrom
  exact exec_of_faults (by decide) hlead (hj.faults hfail)

end Sys2Proof.Machine

/-! SUPPORT. Gate processing (step 9) in its order: one lemma per check that fails, for a record that has reached a gate
bank. -/

namespace Sys2Proof.Machine

/-- A record at step 9, with the gate bank and the source that step 9 reads. -/
structure AtGate (i : Info) (v : VA) (gb : BankDescriptor) : Prop where
  step : i.step = .s9
  target : i.target = some gb
  src : i.src = some v
  other : i.op ≠ some .int

section
variable {u : State} {i : Info} {v : VA} {gb : BankDescriptor} {g : GateRecord}

theorem AtGate.step9_eq (h : AtGate i v gb) : engineStep (u.setInfo i) = step9 (u.setInfo i) := by
  simp only [engineStep, setInfo_info, h.step]

/-- A gate bank with its G bit set (R83). -/
theorem AtGate.step9_gBit (h : AtGate i v gb) (hg : gb.generalFault = true) :
    engineStep (u.setInfo i) = raiseAddressing .gBitSetIndirect (u.setInfo i) :=
  h.step9_eq.trans ((need_eq _ _ _ h.target).trans ((need_eq _ _ _ h.src).trans (if_pos hg)))

/-- A gate bank that the key may not enter (R83). -/
theorem AtGate.step9_enter (h : AtGate i v gb) (hg : gb.generalFault = false)
    (he : enter u.params (accessKey u.ikr) gb = false) :
    engineStep (u.setInfo i) = raiseAddressing .enterAccessDenied (u.setInfo i) := by
  have hdenied : (!enter u.params (accessKey u.ikr) gb) = true := by simp [he]
  exact h.step9_eq.trans ((need_eq _ _ _ h.target).trans ((need_eq _ _ _ h.src).trans ((if_neg (by simp [hg])).trans
    (if_pos hdenied))))

/-- An offset outside the gate bank, or one that is not aligned, or whose record does not fit (R83). -/
theorem AtGate.step9_offset (h : AtGate i v gb) (hg : gb.generalFault = false)
    (he : enter u.params (accessKey u.ikr) gb = true) (ho : gateOffsetOk u.params gb v.offset = false) :
    engineStep (u.setInfo i) = raiseAddressing .gateBankBoundaryViolation (u.setInfo i) := by
  have hpass : ¬(!enter u.params (accessKey u.ikr) gb) = true := by simp [he]
  have hbad : (!gateOffsetOk u.params gb v.offset) = true := by simp [ho]
  exact h.step9_eq.trans ((need_eq _ _ _ h.target).trans ((need_eq _ _ _ h.src).trans ((if_neg (by simp [hg])).trans
    ((if_neg hpass).trans (if_pos hbad)))))

/-- A gate record whose lock does not agree (R83). -/
theorem step9Record_locked (hlib : g.libraryGate = false) (hcheck : u.params.gateRecordLockCheck = true)
    (hx : (effectivePermissions u.params (accessKey u.ikr) g.lock g.gap g.sap).execute = false) :
    step9Record (u.setInfo i) g = raiseAddressing .enterAccessDenied (u.setInfo i) := by
  simp [step9Record, hlib, hcheck, hx]

/-- A gate that admits its caller denies where it inhibits the request, and goes on to its target elsewhere (R83). -/
theorem step9Record_admitted (ha : GateAdmits u g) : step9Record (u.setInfo i) g =
    if g.gotoInhibited && gotoInhibitApplies i
      then raiseAddressing .enterAccessDenied ((gateTransfers u g).setInfo i)
      else step9Target ((gateTransfers u g).setInfo i) g := by
  obtain ⟨hlib, hlock⟩ := ha
  have hadmit : (u.params.gateRecordLockCheck &&
      !(effectivePermissions u.params (accessKey u.ikr) g.lock g.gap g.sap).execute) = false := by
    cases hc : u.params.gateRecordLockCheck with
    | false => rfl
    | true => simp [hlock hc]
  simp only [step9Record, hlib, setInfo_params, setInfo_ikr, hadmit, gateTransfers_setInfo, setInfo_info,
    Bool.false_eq_true, if_false]

/-- A gate's target that is reserved, not found, or neither ExtendedMode nor BasicMode (R83). -/
theorem step9Target_fatal (h : nameReservedOrVoid (vaName g.target) = true ∨
      (nameReservedOrVoid (vaName g.target) = false ∧ findBd u (vaName g.target) = .ok none) ∨
      ∃ t, FindsBank u (vaName g.target) t ∧ t.bankType ≠ .extendedMode ∧ t.bankType ≠ .basicMode) :
    step9Target (u.setInfo i) g = raiseAddressing .fatalAddressingException (u.setInfo i) := by
  rcases h with hr | ⟨hn, hnone⟩ | ⟨t, ⟨hn, ht⟩, hem, hbm⟩
  · simp [step9Target, hr]
  · simp [step9Target, hn, hnone]
  · simp [step9Target, hn, ht, hem, hbm]

end

/-! ### From the source to the gate -/

/-- The checks of step 9 on the offset fail where one of its three conditions fails (R83). -/
theorem gateOffsetOk_eq_false {p : Params} {gb : BankDescriptor} {off : BitVec 18}
    (h : off.toNat < (normalizedLower gb).toNat ∨ (normalizedUpper gb).toNat < off.toNat + 4 ∨
      off.toNat % p.gateAlign ≠ 0) : gateOffsetOk p gb off = false := by
  rcases h with h | h | h <;> simp [gateOffsetOk, h]

/-- A forward transfer that reaches a gate bank comes to step 9 with it. -/
theorem ForwardRecord.leads_gate {s : State} {i : Instr} {v : VA} {j : Info} {m : BankName} {gb : BankDescriptor}
    (h : ForwardRecord s i v j) (hr : Reaches s (vaName v) m gb) (ht : gb.bankType = .gate) :
    ∃ k l, k ≤ 5 ∧ AtGate l v gb ∧ gotoInhibitApplies l = gotoInhibitApplies j ∧
      Leads k (s.setInfo j) (s.setInfo l) := by
  obtain ⟨k, ib, hk, hlead⟩ := leads_reaches_gate s j v m gb h.step h.src hr ht h.forward h.int
  exact ⟨k, { j with step := .s9, srcBD := some ib, target := some gb, targetName := some m }, hk,
    ⟨rfl, rfl, h.src, h.atSource.other⟩, rfl, hlead⟩

/-- The run of a forward transfer to step 9. -/
theorem leads_gate {s : State} {i : Instr} {v : VA} {m : BankName} {gb : BankDescriptor} (hfrom : ForwardFrom s i v)
    (hr : Reaches s (vaName v) m gb) (ht : gb.bankType = .gate) :
    ∃ k l, k ≤ 8 ∧ AtGate l v gb ∧ (gotoInhibitApplies l = true ↔ GotoInhibitApplies s i) ∧
      Leads k (startRequest i s) (s.setInfo l) := by
  obtain ⟨j, hj, hstart⟩ := leads_forward hfrom
  obtain ⟨k, l, hk, hl, hinhibit, hlead⟩ := hj.leads_gate hr ht
  exact ⟨3 + k, l, by omega, hl, by rw [hinhibit]; exact hj.inhibit, Leads.trans _ _ _ _ _ hstart hlead⟩

/-- The run of a forward transfer to the gate record that it reads (R83). -/
theorem leads_record {s : State} {i : Instr} {v : VA} {g : GateRecord} (hfrom : ForwardFrom s i v)
    (hr : ReadsGate s v g) :
    ∃ k l, k ≤ 8 ∧ l.step ≠ .idle ∧ l.op ≠ some .int ∧ (gotoInhibitApplies l = true ↔ GotoInhibitApplies s i) ∧
      Leads k (startRequest i s) (s.setInfo l) ∧ engineStep (s.setInfo l) = step9Record (s.setInfo l) g := by
  obtain ⟨m, gb, hreach, ht, hg, he, hlo, hup, halign, hread⟩ := hr
  obtain ⟨k, l, hk, hl, hinhibit, hlead⟩ := leads_gate hfrom hreach ht
  exact ⟨k, l, hk, by simp [hl.step], hl.other, hinhibit, hlead,
    step9_reads s l v gb g hl.step hl.src hl.target hg he (gateOffsetOk_of s.params gb v.offset hlo hup halign) hread⟩

/-- A step that raises ends the request with the fault, and with the state that the step raises it in. -/
theorem exec_of_raise {i : Instr} {s u : State} {j l : Info} {k : Nat} {e : AddressingReason} (hk : k ≤ 8)
    (hlead : Leads k (startRequest i s) (s.setInfo j)) (hj : j.step ≠ .idle) (hop : l.op ≠ some .int)
    (he : engineStep (s.setInfo j) = raiseAddressing e (u.setInfo l)) :
    exec i s = .next (finished (.fault (.addressing e)) u) := by
  rw [exec_eq_run]
  exact runEngine_of_leads k (by unfold engineFuel; omega) _ _ _ hlead hj (he.trans (raise_at u l _ hop)) rfl

/-- A goto-inhibited gate denies a request that it inhibits, after its transfers (R83). -/
theorem exec_inhibited {s : State} {i : Instr} {v : VA} {g : GateRecord} (hfrom : ForwardFrom s i v)
    (hr : ReadsGate s v g) (ha : GateAdmits s g) (hg : g.gotoInhibited = true) (hi : GotoInhibitApplies s i) :
    exec i s = .next (finished (.fault (.addressing .enterAccessDenied)) (gateTransfers s g)) := by
  obtain ⟨k, l, hk, hl, hop, hinhibit, hlead, hstep⟩ := leads_record hfrom hr
  refine exec_of_raise hk hlead hl hop (hstep.trans ((step9Record_admitted ha).trans (if_pos ?_)))
  rw [hg, hinhibit.mpr hi]
  rfl

/-- Settles O25: CALL and most LxJ of call form are the requests to which goto-inhibit does not apply. -/
theorem gotoInhibitedGateDenies : Obligations.GotoInhibitedGateDenies := by
  intro s g ha hg
  refine ⟨fun v hr => ?_, fun i a d k f hsel hform hf hr => ?_⟩
  · exact exec_inhibited (.inr (.inl rfl)) hr ha hg (.inl rfl)
  · have hret : f ≠ .ret := by rcases hf with rfl | ⟨rfl, -⟩ <;> decide
    refine exec_inhibited (.inr (.inr ⟨a, d, k, f, hsel, hform, hret, rfl⟩)) hr ha hg ?_
    exact (gotoInhibitApplies_lxj_iff hsel hform).mpr (hf.imp_right And.right)

/-- A library gate is refused (R83). -/
theorem exec_libraryGate {s : State} {i : Instr} {v : VA} {g : GateRecord} (hfrom : ForwardFrom s i v)
    (hr : ReadsGate s v g) (hlib : g.libraryGate = true) : exec i s = .refused .libraryGate := by
  obtain ⟨k, l, hk, hl, -, -, hlead, hstep⟩ := leads_record hfrom hr
  rw [exec_eq_run]
  exact Leads.refuses k (by unfold engineFuel; omega) _ _ _ hlead hl (hstep.trans (if_pos hlib))

/-- A gate record whose lock does not agree denies before its transfers (R83). -/
theorem exec_locked {s : State} {i : Instr} {v : VA} {g : GateRecord} (hfrom : ForwardFrom s i v)
    (hr : ReadsGate s v g) (hlib : g.libraryGate = false) (hcheck : s.params.gateRecordLockCheck = true)
    (hx : (effectivePermissions s.params (accessKey s.ikr) g.lock g.gap g.sap).execute = false) :
    exec i s = .next (finished (.fault (.addressing .enterAccessDenied)) s) := by
  obtain ⟨k, l, hk, hl, hop, -, hlead, hstep⟩ := leads_record hfrom hr
  exact exec_of_raise hk hlead hl hop (hstep.trans (step9Record_locked hlib hcheck hx))

/-- A gate that leads nowhere is fatal after its transfers (R83). -/
theorem exec_gateTarget_fatal {s : State} {i : Instr} {v : VA} {g : GateRecord} (hfrom : ForwardFrom s i v)
    (hr : ReadsGate s v g) (ha : GateAdmits s g) (hinh : ¬(g.gotoInhibited = true ∧ GotoInhibitApplies s i))
    (ht : nameReservedOrVoid (vaName g.target) = true ∨
      (nameReservedOrVoid (vaName g.target) = false ∧ findBd s (vaName g.target) = .ok none) ∨
      ∃ t, FindsBank s (vaName g.target) t ∧ t.bankType ≠ .extendedMode ∧ t.bankType ≠ .basicMode) :
    exec i s = .next (finished (.fault (.addressing .fatalAddressingException)) (gateTransfers s g)) := by
  obtain ⟨k, l, hk, hl, hop, hinhibit, hlead, hstep⟩ := leads_record hfrom hr
  have hpass : ¬(g.gotoInhibited && gotoInhibitApplies l) = true := by
    rwa [Bool.and_eq_true, hinhibit]
  refine exec_of_raise hk hlead hl hop (hstep.trans ((step9Record_admitted ha).trans ((if_neg hpass).trans ?_)))
  refine step9Target_fatal ?_
  simpa only [FindsBank, findBd_gateTransfers] using ht

/-- Settles O27: each clause is one check of step 9. -/
theorem gateChecksInOrder : Obligations.GateChecksInOrder := by
  intro s i v m gb hfrom hreach ht
  obtain ⟨k, l, hk, hl, -, hlead⟩ := leads_gate hfrom hreach ht
  have hrun : l.step ≠ .idle := by simp [hl.step]
  refine ⟨fun hg => ?_, fun hg he => ?_, fun hg he hoff => ?_, fun g hr => ⟨?_, ?_, ?_⟩⟩
  · exact exec_of_raise hk hlead hrun hl.other (hl.step9_gBit hg)
  · exact exec_of_raise hk hlead hrun hl.other (hl.step9_enter hg he)
  · exact exec_of_raise hk hlead hrun hl.other (hl.step9_offset hg he (gateOffsetOk_eq_false hoff))
  · exact exec_libraryGate hfrom hr
  · exact exec_locked hfrom hr
  · exact exec_gateTarget_fatal hfrom hr

end Sys2Proof.Machine

/-! SUPPORT. Why LBE and LBU fail, from their steps 1 and 3 and the checks of steps 4 to 8. -/

namespace Sys2Proof.Machine

/-- The record of LBE and LBU at step 3. -/
def loadRecord (op : OpKind) (a : RegIndex) (v : VA) : Info :=
  { Info.idle with step := .s3, op := some op, a := some a, operand := .va v }

/-- The record of LBE and LBU at step 4, with their source. -/
def loadSourced (op : OpKind) (a : RegIndex) (v : VA) : Info := sourced (loadRecord op a v) v

section
variable {op : OpKind} {a : RegIndex} {v : VA} {s : State} {e : AddressingReason}

/-- Steps 1 and 3 of LBE, and of LBU with a register it may load. -/
theorem leads_load (hop : op = .lbe ∨ (op = .lbu ∧ 2 ≤ a.val)) :
    Leads 2 (startInvocation op (some a) (.va v) none s) (s.setInfo (loadSourced op a v)) := by
  have h1 := leads1_load s { Info.idle with step := .s1, op := some op, a := some a, operand := .va v } op rfl rfl
    (hop.imp_right fun ⟨hlbu, h2⟩ => ⟨hlbu, a, rfl, h2⟩)
  have h3 := leads3_va s (loadRecord op a v) op v rfl rfl (.inr (.inr (hop.imp_right And.left))) rfl
  exact Leads.cons _ _ _ _ (by simp [startInvocation]) h1 (Leads.step _ _ (by simp) h3)

theorem loadSourced_atSource (hop : op = .lbe ∨ op = .lbu) : AtSource (loadSourced op a v) v :=
  ⟨rfl, rfl, by rcases hop with rfl | rfl <;> simp [loadSourced, sourced, loadRecord]⟩

theorem loadSourced_hops (hop : op = .lbe ∨ op = .lbu) : Hops (loadSourced op a v) := by
  obtain ⟨-, hint, -, hret, -, -⟩ := info_load (loadSourced op a v) op rfl (.inr hop)
  exact ⟨by rcases hop with rfl | rfl <;> simp [loadSourced, sourced, loadRecord], hint, hret⟩

/-- The checks of steps 4 to 8 that LBE and LBU may fail. -/
theorem faults_load (hop : op = .lbe ∨ op = .lbu) (hfail : LoadFails s true (vaName v) e) :
    Faults s (loadSourced op a v) e := by
  have hsrc : AtSource (loadSourced op a v) v := loadSourced_atSource hop
  rcases hfail with ⟨hr, rfl⟩ | ⟨hn, hnone, rfl⟩ | ⟨bd, hf, ⟨hq, rfl⟩ | ⟨hib, hhop⟩⟩
  · exact hsrc.faults_reserved hr
  · exact hsrc.faults_notFound hn hnone
  · exact hsrc.faults_s7 hf (step7_queueRepository s _ bd rfl rfl hq)
  · exact hsrc.faults_hop (loadSourced_hops hop) hf hib hhop

/-- Step 1 of an LBU that names B0 or B1 (R75). -/
theorem exec_lbu_low (ha : a.val ≤ 1) : exec (.lbu a v) s = .next (finished (.fault .invalidInstruction) s) := by
  rw [exec_eq_run]
  refine runEngine_of_leads 0 (by decide) _ _ _ (Leads.refl _) (by simp [startRequest, startInvocation]) ?_ rfl
  exact (if_pos ha).trans (raise_at s _ _ (by simp))

end

/-- Settles O35: LBU differs from LBE by its step 1 alone. -/
theorem loadFailures : Obligations.LoadFailures := by
  refine ⟨fun s a v e hfail => ⟨?_, fun h2 => ?_⟩, fun s a v ha => exec_lbu_low ha⟩
  · exact exec_of_faults (by decide) (leads_load (.inl rfl)) (faults_load (.inl rfl) hfail)
  · exact exec_of_faults (by decide) (leads_load (.inr ⟨rfl, h2⟩)) (faults_load (.inr rfl) hfail)

end Sys2Proof.Machine

/-! SUPPORT. Returns: the record from which UR, RTN and an LxJ of return form look for their bank, why the lookup fails, and
the whole run of UR. -/

namespace Sys2Proof.Machine

/-- The record of a return at step 4, with its frame. -/
structure ReturnRecord (i : Info) (f : Frame) : Prop where
  step : i.step = .s4
  src : i.src = some (frameVa f)
  popped : i.popped = some f
  ret : i.isReturnLike = true
  load : i.isLoad = false
  int : i.isInt = false

/-- Step 5 of a return to the void bank in extended mode. -/
theorem step5_returnVoid (u : State) (i : Info) (f : Frame) (hs : i.step = .s5) (hv : i.src = some (frameVa f))
    (hp : i.popped = some f) (hn : vaName (frameVa f) = ⟨0, 0⟩) (hd : frameDb16 f = false) (hint : i.isInt = false)
    (hl : i.isLoad = false) (hr : i.isReturnLike = true) :
    engineStep (u.setInfo i) = raiseAddressing .invalidSourceLevelBDI (u.setInfo i) := by
  have hvoid : nameIsVoid (vaName (frameVa f)) = true := by rw [hn]; decide
  simp [engineStep, hs, step5, hv, hvoid, hint, hl, hr, hp, hd]

section
variable {u : State} {i : Info} {f : Frame}

theorem ReturnRecord.atSource (h : ReturnRecord i f) : AtSource i (frameVa f) :=
  ⟨h.step, h.src, fun e => by simpa [Info.isInt, e] using h.int⟩

/-- The checks of steps 4 to 7 that a return may fail. -/
theorem ReturnRecord.faults {e : AddressingReason} (h : ReturnRecord i f) (hfail : ReturnFails u f e) :
    Faults u i e := by
  have hsrc := h.atSource
  rcases hfail with ⟨hr, rfl⟩ | ⟨hv, hd, rfl⟩ | ⟨hn, hnone, rfl⟩ | ⟨bd, hf, rfl, hem, hbm⟩
  · exact hsrc.faults_reserved hr
  · refine Finishes.of_leads (by decide) (hsrc.leads_s5 (by rw [hv]; decide)) (by simp) ?_ rfl
    exact (step5_returnVoid u { i with step := .s5 } f rfl h.src h.popped hv hd h.int h.load h.ret).trans
      (raise_at u _ _ hsrc.other)
  · exact hsrc.faults_notFound hn hnone
  · exact hsrc.faults_s7 hf
      (step7_return u (foundRecord i (frameVa f) bd) bd f rfl rfl h.popped h.ret h.load h.int hem hbm)

end

/-! ### The failures of returns -/

/-- The record of UR at step 4. -/
def urRecord (s : State) (f : Frame) : Info := sourcedFrame (plainRecord s (.ur f)) f

/-- Steps 1 to 3 of UR. -/
theorem leads_ur (s : State) (f : Frame) : Leads 3 (startRequest (.ur f) s) (s.setInfo (urRecord s f)) :=
  Leads.trans 2 1 _ _ _ (leads_plain s (.ur f) rfl rfl)
    (Leads.step _ _ (by simp [plainRecord]) (leads3_ur s (plainRecord s (.ur f)) f rfl rfl rfl))

theorem urRecord_returnRecord (s : State) (f : Frame) : ReturnRecord (urRecord s f) f := ⟨rfl, rfl, rfl, rfl, rfl, rfl⟩

/-- A record of RTN or an LxJ of return form at step 3. -/
structure PopRecord (i : Info) : Prop where
  step : i.step = .s3
  op : ∃ op, i.op = some op ∧ (op = .rtn ∨ (kindIsLxj op = true ∧ i.form = some .ret))

/-- Steps 1 and 2 of a request that pops. -/
theorem leads_pops {s : State} {i : Instr} (h : Pops s i) :
    ∃ j, PopRecord j ∧ Leads 2 (startRequest i s) (s.setInfo j) := by
  rcases h with rfl | ⟨a, d, k, hsel, hf⟩
  · exact ⟨_, ⟨rfl, _, rfl, .inl rfl⟩, leads_plain s .rtn rfl rfl⟩
  · obtain ⟨hx, hstart, -⟩ := lxj_kind s i a d k hsel
    rw [hstart]
    exact ⟨_, ⟨rfl, _, rfl, .inr ⟨hx, rfl⟩⟩, leads_lxj s i.kind a d .ret hx hf⟩

section
variable {u : State} {i : Info} {f : Frame}

/-- The classes of a request that pops. -/
theorem PopRecord.classes (h : PopRecord i) : i.isReturnLike = true ∧ i.isLoad = false ∧ i.isInt = false := by
  obtain ⟨op, ho, rfl | ⟨hx, hf⟩⟩ := h.op
  · simp [Info.isReturnLike, Info.isReturn, Info.isLoad, Info.isInt, ho, kindIsLoad]
  · obtain ⟨-, -, hint, -, -, -, hret, -, -⟩ := info_lxj i op .ret ho hx hf
    exact ⟨hret, by simp [Info.isLoad, ho, not_load_of_lxj hx], hint⟩

theorem PopRecord.returnRecord (h : PopRecord i) : ReturnRecord (sourcedFrame i f) f := by
  obtain ⟨hret, hl, hint⟩ := h.classes
  exact ⟨rfl, rfl, rfl, hret, hl, hint⟩

/-- Step 3 of a request that pops a frame. -/
theorem PopRecord.leads_s4 (h : PopRecord i) {w : State} (hp : rcsPop u = .ok (f, w)) :
    Leads 1 (u.setInfo i) (w.setInfo (sourcedFrame i f)) := by
  obtain ⟨op, ho, hop⟩ := h.op
  exact Leads.step _ _ (by simp [h.step]) (leads3_pop u i op f w h.step ho hop hp)

/-- Step 3 of a request whose pop raises (R26, R41). -/
theorem PopRecord.step3_raises (h : PopRecord i) {e : EngineFault} (hp : rcsPop u = .raise e) :
    engineStep (u.setInfo i) = raise e (u.setInfo i) := by
  obtain ⟨op, ho, hop⟩ := h.op
  have hpop : engineStep (u.setInfo i) =
      onAccess (rcsPop (u.setInfo i)) (u.setInfo i) fun r => step3Frame r.2 r.1 := by
    rcases hop with rfl | ⟨hx, hf⟩
    · simp only [engineStep, setInfo_info, h.step, step3, ho, need_some]
    · have hlxj : engineStep (u.setInfo i) = step3Lxj (u.setInfo i) := by
        cases op <;> simp [kindIsLxj] at hx <;> simp only [engineStep, setInfo_info, h.step, step3, ho, need_some]
      exact hlxj.trans ((need_eq _ _ _ hf).trans (if_pos rfl))
  rw [hpop, rcsPop_setInfo, hp]
  rfl

theorem PopRecord.other (h : PopRecord i) : i.op ≠ some .int := fun e => by
  obtain ⟨-, -, hint⟩ := h.classes
  simp [Info.isInt, e] at hint

end

/-- A failing return fails in the same way with another RCSP. -/
theorem returnFails_setRcsp {s : State} {f : Frame} {e : AddressingReason} (p : BitVec 18) (h : ReturnFails s f e) :
    ReturnFails (s.setRcsp p) f e := by
  unfold ReturnFails FindsBank at *
  simpa only [findBd_setRcsp] using h

/-- Settles O44: the frame is at hand at step 3, and each check from there raises. -/
theorem returnFailures : Obligations.ReturnFailures := by
  refine ⟨fun s f e hfail => ?_, fun s s1 i f e hpops hpop hfail => ?_, fun s i e hpops hraise => ?_⟩
  · exact exec_of_faults (by decide) (leads_ur s f) ((urRecord_returnRecord s f).faults hfail)
  · obtain ⟨j, hj, hlead⟩ := leads_pops hpops
    obtain rfl := rcsPop_state s s1 f hpop
    exact exec_of_faults (by decide) (Leads.trans 2 1 _ _ _ hlead (hj.leads_s4 hpop))
      (hj.returnRecord.faults (returnFails_setRcsp _ hfail))
  · obtain ⟨j, hj, hlead⟩ := leads_pops hpops
    rw [exec_eq_run]
    exact runEngine_of_leads 2 (by decide) _ _ _ hlead (by simp [hj.step])
      ((hj.step3_raises hraise).trans (raise_at s j e hj.other)) rfl

/-! ### The run of UR -/

/-- The classes of UR. -/
theorem info_ur (i : Info) (ho : i.op = some .ur) :
    i.isReturnLike = true ∧ i.isForward = false ∧ i.isInt = false ∧ i.isTransfer = true ∧ i.isCall = false ∧
      ∀ f, i.isLxjForm f = false := by
  simp [Info.isReturnLike, Info.isForward, Info.isInt, Info.isTransfer, Info.isLoad, Info.isCall, Info.isReturn,
    Info.isLxjForm, Info.isLxj, ho, kindIsLoad, kindIsLxj]

/-- The record of UR at step 10, with what it binds. -/
structure UrBinds (s : State) (i : Info) (f : Frame) (r : BaseRegister) : Prop where
  step : i.step = .s10
  op : i.op = some .ur
  popped : i.popped = some f
  prior : i.prior = some (capturePrior s .ur 0)
  gated : i.gated = false
  offset : i.finalOffset = some f.offset
  name : i.targetName = some (vaName (frameVa f))
  binds : (i.voidTarget = true ∧ vaName (frameVa f) = voidName ∧ r = .void) ∨
    (i.voidTarget = false ∧ nameReserved (vaName (frameVa f)) = false ∧ ∃ bd, i.target = some bd ∧ r = makeBreg bd)

/-- Steps 4 to 10 of UR: the void bank in basic mode, or a bank that a return binds. -/
theorem leads_urBinds {s : State} {f : Frame} {r : BaseRegister} (h : ReturnBinds s f r) :
    ∃ n i, n ≤ 4 ∧ UrBinds s i f r ∧ Leads n (s.setInfo (urRecord s f)) (s.setInfo i) := by
  have hrec := urRecord_returnRecord s f
  rcases h with ⟨hv, hd, rfl⟩ | ⟨bd, hf, rfl, hty⟩
  · have h5 := leads5_return s { urRecord s f with step := .s5 } f rfl rfl hv rfl hd rfl rfl rfl
    exact ⟨2, { urRecord s f with step := .s10, voidTarget := true, targetName := some voidName }, by decide,
      ⟨rfl, rfl, rfl, rfl, rfl, rfl, congrArg some hv.symm, .inl ⟨rfl, hv, rfl⟩⟩,
      Leads.trans 1 1 _ _ _ (hrec.atSource.leads_s5 (by rw [hv]; decide)) (Leads.step _ _ (by simp) h5)⟩
  · have h7 := leads7_return s (foundRecord (urRecord s f) (frameVa f) bd) bd f rfl rfl rfl hty rfl rfl rfl
    exact ⟨4, { foundRecord (urRecord s f) (frameVa f) bd with step := .s10 }, by decide,
      ⟨rfl, rfl, rfl, rfl, rfl, rfl, rfl, .inr ⟨rfl, notReserved_of _ hf.1, bd, rfl, rfl⟩⟩,
      Leads.trans 3 1 _ _ _ (hrec.atSource.leads_s7 hf) (Leads.step _ _ (by simp [foundRecord]) h7)⟩

/-- The state after step 17 of UR, written as the claims write it. -/
theorem returned_ur (s : State) (f : Frame) (r : BaseRegister) : returned s f s.codeSel s.params.hardHeldSlot r =
    arrive ((restoreDesignators (leaveCaller s s.mode (modeOf (frameDb16 f)) s.codeSel) f.db f.key).setPc f.offset)
      (modeOf (frameDb16 f)) (if frameDb16 f then bmSlot f.sel else s.params.hardHeldSlot) (vaName (frameVa f)) r := by
  obtain ⟨-, hdr, hikr, -, -, -⟩ := leaveCaller_frame s s.mode (modeOf (frameDb16 f)) s.codeSel
  rw [restoreDesignators, hdr, hikr]
  rfl

/-- Steps 10 to 21 of UR. -/
theorem UrBinds.ends {s : State} {i : Info} {f : Frame} {r : BaseRegister} (h : UrBinds s i f r) :
    Ends 12 (s.setInfo i) (finished .ok (returned s f s.codeSel s.params.hardHeldSlot r)) := by
  obtain ⟨hret, hfw, hint, htr, hcall, hlxj⟩ := info_ur i h.op
  refine Ends.cons _ _ _ _ (by simp [h.step]) (leads10_return s i .ur f h.step h.op (.inr (.inl rfl)) h.popped) ?_
  refine Ends.cons _ _ _ _ (by simp [landed]) (leads11 s _ _ _ rfl h.prior rfl) ?_
  rw [voidPrior_plain s s .ur _ rfl]
  refine Ends.cons _ _ _ _ (by simp) (leads12_none _ _ rfl ?_) ?_
  · show (i.isCall && _) = false
    rw [hcall]
    rfl
  refine Ends.cons _ _ _ _ (by simp) (leads13_none _ _ rfl ?_) ?_
  · show (i.isLxjForm .normal || i.isLxjForm .call) = false
    simp [hlxj]
  exact ends_return _ { landed i (modeOf (frameDb16 f)) _ with step := .s14 } .ur _ (modeOf (frameDb16 f)) _ r
    (vaName (frameVa f)) f rfl h.op h.prior rfl rfl h.name h.binds htr h.gated h.offset hfw (hlxj _) hret h.popped _
    (returned_ur s f r)

/-- UR to a frame that a return binds (R107). -/
theorem exec_ur_returns {s : State} {f : Frame} {r : BaseRegister} (h : ReturnBinds s f r) :
    exec (.ur f) s = .next (finished .ok (returned s f s.codeSel s.params.hardHeldSlot r)) := by
  obtain ⟨n, i, hn, hi, hlead⟩ := leads_urBinds h
  rw [exec_eq_run]
  refine Ends.runs (3 + n + 12) (by unfold engineFuel; omega) _ _ ?_ rfl
  exact Leads.ends _ _ _ _ _ (Leads.trans _ _ _ _ _ (leads_ur s f) hlead) hi.ends

/-- A run that leads to a step that is stuck. -/
theorem exec_of_stuck {i : Instr} {s t : State} {k : Nat} {e : Fault} (hk : k < engineFuel)
    (hlead : Leads k (startRequest i s) t) (ht : t.info.step ≠ .idle) (he : engineStep t = .fault e) :
    exec i s = .fault e := by
  obtain ⟨m, hm⟩ := Nat.exists_eq_add_of_le (Nat.succ_le_of_lt hk)
  have hsteps : engineSteps engineFuel (startRequest i s) = .fault e := by
    rw [hm, show k + 1 + m = k + (m + 1) by omega, hlead (m + 1)]
    simp [engineSteps, ht, he]
  simp [exec_eq_run, runEngine, hsteps]

/-- UR to a name whose lookup is stuck. -/
theorem exec_ur_stuck {s : State} {f : Frame} (hn : nameReservedOrVoid (vaName (frameVa f)) = false)
    (hf : findBd s (vaName (frameVa f)) = .stuck) : exec (.ur f) s = .fault .storageInaccessible := by
  have h6 := (urRecord_returnRecord s f).atSource.leads_s6 (u := s) hn
  refine exec_of_stuck (k := 3 + 2) (by decide) (Leads.trans _ _ _ _ _ (leads_ur s f) h6) (by simp) ?_
  show step6 _ = _
  refine (need_eq _ _ _ rfl).trans ?_
  rw [findBd_setInfo, hf]
  rfl

/-- A frame binds, fails, or names a bank whose lookup is stuck (R78 to R81). -/
theorem return_cases (s : State) (f : Frame) : (∃ r, ReturnBinds s f r) ∨ (∃ e, ReturnFails s f e) ∨
    (nameReservedOrVoid (vaName (frameVa f)) = false ∧ findBd s (vaName (frameVa f)) = .stuck) := by
  cases hn : nameReservedOrVoid (vaName (frameVa f)) with
  | true =>
    rcases nameReservedOrVoid_cases hn with hr | ⟨-, hv⟩
    · exact .inr (.inl ⟨_, .inl ⟨hr, rfl⟩⟩)
    · cases hd : frameDb16 f with
      | true => exact .inl ⟨_, .inl ⟨hv, hd, rfl⟩⟩
      | false => exact .inr (.inl ⟨_, .inr (.inl ⟨hv, hd, rfl⟩)⟩)
  | false =>
    rcases findBd_reads s (vaName (frameVa f)) with hf | ⟨_ | bd, hf⟩
    · exact .inr (.inr ⟨rfl, hf⟩)
    · exact .inr (.inl ⟨_, .inr (.inr (.inl ⟨hn, hf, rfl⟩))⟩)
    · by_cases hty : bd.bankType = .extendedMode ∨ (bd.bankType = .basicMode ∧ frameDb16 f = true)
      · exact .inl ⟨_, .inr ⟨bd, ⟨hn, hf⟩, rfl, hty⟩⟩
      · rw [not_or, not_and, Bool.not_eq_true] at hty
        exact .inr (.inl ⟨_, .inr (.inr (.inr ⟨bd, ⟨hn, hf⟩, rfl, hty.1, hty.2⟩))⟩)

/-- Settles O45: whatever UR does is told by `ReturnBinds`, `ReturnFails` and `returned`, and they do not read the bit. -/
theorem urIgnoresTrapBit : Obligations.UrIgnoresTrapBit := by
  intro s f b
  rcases return_cases s f with ⟨r, hbinds⟩ | ⟨e, hfails⟩ | ⟨hn, hstuck⟩
  · have hbinds' : ReturnBinds s { f with trap := b } r := hbinds
    rw [exec_ur_returns hbinds, exec_ur_returns hbinds']
    rfl
  · have hfails' : ReturnFails s { f with trap := b } e := hfails
    rw [returnFailures.1 s _ e hfails, returnFailures.1 s _ e hfails']
  · rw [exec_ur_stuck hn hstuck, exec_ur_stuck (f := { f with trap := b }) hn hstuck]

end Sys2Proof.Machine

/-! SUPPORT. LAE: one iteration from step 3 to step 21, the iterations before the k-th, and how the last one ends. -/

namespace Sys2Proof.Machine

/-- The record of LAE at step 3 of its iteration `k`. -/
structure LaeAt (vs : List VA) (k : Fin 16) (i : Info) : Prop where
  step : i.step = .s3
  op : i.op = some .lae
  operand : i.operand = .vas vs
  iteration : i.laeI = some k

/-- The record of LAE within its iteration `k`, with the name and the register that the iteration binds. -/
structure LaeBinds (vs : List VA) (k : Fin 16) (m : BankName) (r : BaseRegister) (i : Info) : Prop where
  op : i.op = some .lae
  operand : i.operand = .vas vs
  iteration : i.laeI = some k
  name : i.targetName = some m
  binds : (i.voidTarget = true ∧ m = voidName ∧ r = .void) ∨
    (i.voidTarget = false ∧ nameReserved m = false ∧ ∃ bd, i.target = some bd ∧ r = makeBreg bd)

/-- The register of an iteration. -/
def laeSlot (k : Fin 16) : Slot := ⟨k.val, by omega⟩

/-- What an iteration binds (R92, R93). -/
def laeBound (u : State) (k : Fin 16) (m : BankName) (r : BaseRegister) : State :=
  (recordAbt u (laeSlot k) m).setBreg (laeSlot k) r

/-- Step 7 of LAE with a bank that it binds. -/
theorem leads7_lae (u : State) (i : Info) (bd : BankDescriptor) (hs : i.step = .s7) (ho : i.op = some .lae)
    (hb : i.srcBD = some bd)
    (ht : bd.bankType = .extendedMode ∨ bd.bankType = .basicMode ∨ bd.bankType = .gate ∨ bd.bankType = .queue) :
    engineStep (u.setInfo i) = .next (u.setInfo { i with step := .s10 }) := by
  obtain ⟨hload, hint, hfw, hret, -, -⟩ := info_load i .lae ho (.inl rfl)
  have hlbu : (i.op == some .lbu) = false := by simp [ho]
  have henter : enterThenBind (u.setInfo i) bd = .next (u.setInfo { i with step := .s10 }) := by
    simp [enterThenBind, enterDenied, hfw, goto]
  rcases ht with ht | ht | ht | ht
  · simp [engineStep, hs, step7, hb, ht, henter]
  · simp [engineStep, hs, step7, hb, ht, hint, hret, withSubstitution_of u i bd hlbu, henter]
  · simp [engineStep, hs, step7, hb, ht, hint, hret, hfw, goto]
  · simp [engineStep, hs, step7, hb, ht, hload, goto]

section
variable {u : State} {vs : List VA} {k : Fin 16} {i : Info} {v : VA} {m : BankName} {r : BaseRegister}

theorem LaeAt.leads_s4 (h : LaeAt vs k i) (hv : vs[k.val - 1]? = some v) :
    Leads 1 (u.setInfo i) (u.setInfo (sourced i v)) :=
  Leads.step _ _ (by simp [h.step]) (leads3_lae u i vs k v h.step h.op h.operand h.iteration hv)

theorem LaeAt.atSource (h : LaeAt vs k i) : AtSource (sourced i v) v := ⟨rfl, rfl, by simp [sourced, h.op]⟩

/-- Steps 3 to 7 of an iteration that binds. -/
theorem LaeAt.leads_s10 (h : LaeAt vs k i) (hv : vs[k.val - 1]? = some v)
    (hb : LoadBinds u false (vaName v) m r) :
    ∃ n j, n ≤ 5 ∧ j.step = .s10 ∧ LaeBinds vs k m r j ∧ Leads n (u.setInfo i) (u.setInfo j) := by
  have hsrc : AtSource (sourced i v) v := h.atSource
  obtain ⟨hload, hint, -, -, -, -⟩ := info_load (sourced i v) .lae h.op (.inl rfl)
  rcases hb with ⟨hvoid, rfl, rfl⟩ | ⟨bd, ⟨rfl, hf⟩, rfl, hty⟩
  · have h5 := leads5_load u { sourced i v with step := .s5 } v rfl rfl hvoid hint hload
    exact ⟨3, { sourced i v with step := .s10, voidTarget := true, targetName := some voidName }, by decide, rfl,
      ⟨h.op, h.operand, h.iteration, rfl, .inl ⟨rfl, rfl, rfl⟩⟩,
      Leads.trans 1 2 _ _ _ (h.leads_s4 hv) (Leads.trans 1 1 _ _ _ (hsrc.leads_s5 (by rw [hvoid]; decide))
        (Leads.step _ _ (by simp) h5))⟩
  · have h7 := leads7_lae u (foundRecord (sourced i v) v bd) bd rfl h.op rfl hty
    exact ⟨5, { foundRecord (sourced i v) v bd with step := .s10 }, by decide, rfl,
      ⟨h.op, h.operand, h.iteration, rfl, .inr ⟨rfl, notReserved_of _ hf.1, bd, rfl, rfl⟩⟩,
      Leads.trans 1 4 _ _ _ (h.leads_s4 hv) (Leads.trans 3 1 _ _ _ (hsrc.leads_s7 hf)
        (Leads.step _ _ (by simp [foundRecord]) h7))⟩

/-- Steps 10, 18 and 19 of an iteration. -/
theorem LaeBinds.leads_s21 (h : LaeBinds vs k m r i) (hs : i.step = .s10) :
    ∃ j, j.step = .s21 ∧ LaeBinds vs k m r j ∧ Leads 3 (u.setInfo i) ((laeBound u k m r).setInfo j) := by
  obtain ⟨-, -, -, -, htr, -⟩ := info_load i .lae h.op (.inl rfl)
  have h10 := leads10_load u i .lae (laeSlot k) hs h.op (.inr (.inr ⟨rfl, k, h.iteration, rfl⟩))
  have h18 := leads18_abt u { i with step := .s18, slot := some (laeSlot k) } (laeSlot k) m rfl rfl h.name (by
    show (i.isTransfer && _) = false
    rw [htr]
    rfl)
  have hname : (if i.voidTarget = true then voidName else m) = m := by
    rcases h.binds with ⟨-, rfl, -⟩ | ⟨hv, -⟩
    · exact ite_self _
    · simp [hv]
  have hafter : afterBind { i with step := .s19, slot := some (laeSlot k) } = .s21 := by
    show (if i.isTransfer = true then _ else _) = _
    simp [htr]
  have h19 : ∀ w : State, engineStep (w.setInfo { i with step := .s19, slot := some (laeSlot k) }) =
      .next ((w.setBreg (laeSlot k) r).setInfo { i with step := .s21, slot := some (laeSlot k) }) := fun w => by
    rw [← hafter]
    rcases h.binds with ⟨hv, -, rfl⟩ | ⟨hv, -, bd, ht, rfl⟩
    · exact leads19_void w { i with step := .s19, slot := some (laeSlot k) } _ rfl rfl hv
    · exact leads19_bound w { i with step := .s19, slot := some (laeSlot k) } _ bd rfl rfl ht hv
  refine ⟨{ i with step := .s21, slot := some (laeSlot k) }, rfl,
    ⟨h.op, h.operand, h.iteration, h.name, h.binds⟩, ?_⟩
  refine Leads.cons _ _ _ _ (by simp [hs]) h10 (Leads.cons _ _ _ _ (by simp) h18 ?_)
  show Leads 1 ((recordAbt u (laeSlot k) (if i.voidTarget = true then voidName else m)).setInfo _) _
  rw [hname]
  exact Leads.step _ _ (by simp) (h19 _)

/-- Steps 3 to 19 of an iteration that binds. -/
theorem LaeAt.leads_s21 (h : LaeAt vs k i) (hv : vs[k.val - 1]? = some v) (hb : LoadBinds u false (vaName v) m r) :
    ∃ n j, n ≤ 8 ∧ j.step = .s21 ∧ LaeBinds vs k m r j ∧
      Leads n (u.setInfo i) ((laeBound u k m r).setInfo j) := by
  obtain ⟨n, j, hn, hs, hj, hlead⟩ := h.leads_s10 hv hb
  obtain ⟨l, hl, hbinds, hlead'⟩ := hj.leads_s21 (u := u) hs
  exact ⟨n + 3, l, by omega, hl, hbinds, Leads.trans _ _ _ _ _ hlead hlead'⟩

/-- Step 21 accepts what an iteration binds. -/
theorem LaeBinds.accepted (h : LaeBinds vs k m r i) : (!i.voidTarget && nameReserved m) = false := by
  rcases h.binds with ⟨hv, -⟩ | ⟨-, hr, -⟩
  · simp [hv]
  · simp [hr]

/-- Step 21 of an iteration that is not the last. -/
theorem LaeBinds.leads_next (h : LaeBinds vs k m r i) (hs : i.step = .s21) (hk : k.val < 15) :
    ∃ j, LaeAt vs (k + 1) j ∧ Leads 1 (u.setInfo i) (u.setInfo j) :=
  ⟨{ i with step := .s3, laeI := some (k + 1) }, ⟨rfl, h.op, h.operand, rfl⟩,
    Leads.step _ _ (by simp [hs]) (leads21_lae u i k m hs h.op h.name h.accepted h.iteration hk)⟩

end

/-! ### The iterations of an LAE -/

/-- `f` gives the states after the first `k` iterations of an LAE, each of which binds (R96, R99). -/
def LaeIterates (vs : List VA) (f : Nat → State) (k : Nat) : Prop :=
  ∀ j (h : j < 15), j < k → ∃ v m r, vs[j]? = some v ∧ LoadBinds (f j) false (vaName v) m r ∧
    f (j + 1) = (recordAbt (f j) ⟨j + 1, by omega⟩ m).setBreg ⟨j + 1, by omega⟩ r

section
variable {s : State} {vs : List VA} {f : Nat → State} {k : Nat}

/-- Step 1 of LAE. -/
theorem leads_lae_start : ∃ i, LaeAt vs 1 i ∧ Leads 1 (startRequest (.lae vs) s) (s.setInfo i) := by
  refine ⟨{ Info.idle with step := .s3, op := some .lae, operand := .vas vs, laeI := some 1 }, ⟨rfl, rfl, rfl, rfl⟩, ?_⟩
  exact Leads.step _ _ (by simp [startRequest, startInvocation]) rfl

/-- Steps 3 to 19 of the iteration after the first `k`. -/
theorem LaeIterates.leads_s21 (hf : LaeIterates vs f (k + 1)) (hk : k < 15) {i : Info}
    (hi : LaeAt vs ⟨k + 1, by omega⟩ i) :
    ∃ n j m r, n ≤ 8 ∧ j.step = .s21 ∧ LaeBinds vs ⟨k + 1, by omega⟩ m r j ∧
      Leads n ((f k).setInfo i) ((f (k + 1)).setInfo j) := by
  obtain ⟨v, m, r, hv, hb, hnext⟩ := hf k hk (Nat.lt_succ_self k)
  obtain ⟨n, j, hn, hs, hj, hlead⟩ := hi.leads_s21 hv hb
  rw [hnext]
  exact ⟨n, j, m, r, hn, hs, hj, hlead⟩

/-- LAE comes to the iteration after the first `k` in the state that they leave. -/
theorem LaeIterates.leads (h0 : f 0 = s) (hk : k < 15) (hf : LaeIterates vs f k) :
    ∃ n i, n ≤ 1 + 9 * k ∧ LaeAt vs ⟨k + 1, by omega⟩ i ∧
      Leads n (startRequest (.lae vs) s) ((f k).setInfo i) := by
  induction k with
  | zero =>
    obtain ⟨i, hi, hlead⟩ := leads_lae_start (s := s) (vs := vs)
    exact ⟨1, i, le_rfl, hi, h0 ▸ hlead⟩
  | succ k ih =>
    obtain ⟨n, i, hn, hi, hlead⟩ := ih (by omega) fun j hj hjk => hf j hj (by omega)
    obtain ⟨n', j, m, r, hn', hs, hj, hlead'⟩ := hf.leads_s21 (by omega) hi
    obtain ⟨l, hl, hnext⟩ := hj.leads_next (u := f (k + 1)) hs (by simpa using hk)
    have hiter : (⟨k + 1, by omega⟩ + 1 : Fin 16) = ⟨k + 1 + 1, by omega⟩ := Fin.ext (by simp [Fin.val_add]; omega)
    exact ⟨n + n' + 1, l, by omega, hiter ▸ hl,
      Leads.trans _ _ _ _ _ (Leads.trans _ _ _ _ _ hlead hlead') hnext⟩

/-- The checks of steps 4 to 7 that an LAE iteration may fail. -/
theorem LaeAt.faults {u : State} {q : Fin 16} {i : Info} {v : VA} {e : AddressingReason} (h : LaeAt vs q i)
    (hfail : LoadFails u false (vaName v) e) : Faults u (sourced i v) e := by
  have hsrc : AtSource (sourced i v) v := h.atSource
  rcases hfail with ⟨hr, rfl⟩ | ⟨hn, hnone, rfl⟩ | ⟨bd, hf, ⟨hq, rfl⟩ | ⟨hib, rfl⟩⟩
  · exact hsrc.faults_reserved hr
  · exact hsrc.faults_notFound hn hnone
  · exact hsrc.faults_s7 hf (step7_queueRepository u _ bd rfl rfl hq)
  · obtain ⟨-, -, hfw, -, -, -⟩ := info_load (sourced i v) .lae h.op (.inl rfl)
    refine hsrc.faults_s7 hf (step7_indirect u (foundRecord (sourced i v) v bd) bd rfl rfl hib ?_)
    show ((sourced i v).isForward || i.op == some .lbe || i.op == some .lbu) = false
    simp [hfw, h.op]

end

/-- Settles O33: after 14 iterations, the last one ends the invocation. -/
theorem laeBindsAll : Obligations.LaeBindsAll := by
  intro s vs f _ h0 hbinds
  have hf : ∀ k, LaeIterates vs f k := fun k j hj _ => hbinds j hj
  obtain ⟨n, i, hn, hi, hlead⟩ := (hf 14).leads h0 (by decide)
  obtain ⟨n', j, m, r, hn', hs, hj, hlead'⟩ := (hf 15).leads_s21 (by decide) hi
  rw [exec_eq_run]
  exact runEngine_of_leads (n + n') (by unfold engineFuel; omega) _ _ _ (Leads.trans _ _ _ _ _ hlead hlead')
    (by simp [hs]) (ends21 _ j .lae m hs hj.op hj.name hj.accepted (.inr hj.iteration)) rfl

/-- Settles O34: the iteration that fails starts in the state that the earlier ones left. -/
theorem laeFaultKeepsEarlier : Obligations.LaeFaultKeepsEarlier := by
  intro s vs f k v e hk h0 hbinds hv hfail
  have hf : LaeIterates vs f k := hbinds
  obtain ⟨n, i, hn, hi, hlead⟩ := hf.leads h0 hk
  exact exec_of_faults (by unfold engineFuel; omega) (Leads.trans _ _ _ _ _ hlead (hi.leads_s4 hv)) (hi.faults hfail)

end Sys2Proof.Machine

/-! SUPPORT. The source of a request and its descriptor are read by steps 3 to 9 alone, and by step 9 only for the source's
offset: an engine without them does the same from step 9 on. So an Indirect descriptor is transparent: behind it the
records of the two requests differ in their source alone. -/

namespace Sys2Proof.Machine

/-! ### Records without their source -/

/-- The record with no more of its source than the offset. -/
def Info.withoutSource (i : Info) : Info :=
  { i with operand := .absent, src := i.src.map fun v => ⟨0, 0, v.offset⟩, srcBD := none }

def State.withoutSource (s : State) : State := s.setInfo s.info.withoutSource

/-- The same outcome, without the source in its record. -/
def forgetSource : Out → Out
  | .next t => .next t.withoutSource
  | .fault f => .fault f
  | .refused r => .refused r

/-- An ended invocation has no source to forget. -/
theorem withoutSource_of_idle {s : State} (h : s.info = Info.idle) : s.withoutSource = s := by
  obtain ⟨⟩ := s
  subst h
  rfl

section
variable (s : State)

theorem forgetSource_ite (c : Prop) [Decidable c] (x y : Out) :
    forgetSource (if c then x else y) = if c then forgetSource x else forgetSource y := apply_ite _ _ _ _

theorem forgetSource_need {α : Type} (o : Option α) (k : α → Out) :
    forgetSource (need o k) = need o fun a => forgetSource (k a) := by cases o <;> rfl

theorem forgetSource_goto (n : StepNo) : forgetSource (goto n s) = goto n s.withoutSource := rfl

theorem forgetSource_endInvocation (c : Completion) :
    forgetSource (endInvocation c s) = endInvocation c s.withoutSource := rfl

theorem forgetSource_raise (f : EngineFault) : forgetSource (raise f s) = raise f s.withoutSource := by
  rw [raise_eq, raise_eq]; rfl

theorem forgetSource_raiseAddressing (r : AddressingReason) :
    forgetSource (raiseAddressing r s) = raiseAddressing r s.withoutSource := forgetSource_raise s _

theorem forgetSource_onAccess {α : Type} (x : Access α) (k : α → Out) :
    forgetSource (onAccess x s k) = onAccess x s.withoutSource fun a => forgetSource (k a) := by
  cases x with
  | raise f => exact forgetSource_raise s f
  | ok | halt | stuck => rfl

/-! ### Each step from step 8's dispatch on -/

theorem enterThenBind_withoutSource (bd : BankDescriptor) :
    enterThenBind s.withoutSource bd = forgetSource (enterThenBind s bd) := by
  simp only [enterThenBind, forgetSource_ite, forgetSource_goto, forgetSource_raiseAddressing]
  rfl

theorem withSubstitution_withoutSource (bd : BankDescriptor) :
    withSubstitution s.withoutSource bd = (withSubstitution s bd).withoutSource := by
  simp only [withSubstitution, apply_ite State.withoutSource]
  rfl

theorem step8Dispatch_withoutSource (bd : BankDescriptor) :
    step8Dispatch s.withoutSource bd = forgetSource (step8Dispatch s bd) := by
  unfold step8Dispatch
  cases bd.bankType with
  | extendedMode => exact enterThenBind_withoutSource s bd
  | basicMode =>
    exact (congrArg (enterThenBind · bd) (withSubstitution_withoutSource s bd)).trans (enterThenBind_withoutSource _ bd)
  | gate | queue =>
    simp only [forgetSource_ite, forgetSource_goto, forgetSource_raiseAddressing]
    rfl
  | indirect | queueRepository => exact (forgetSource_raiseAddressing s _).symm

theorem gateTransfers_withoutSource (g : GateRecord) :
    gateTransfers s.withoutSource g = (gateTransfers s g).withoutSource := by
  unfold State.withoutSource
  rw [gateTransfers_setInfo, gateTransfers_info]

theorem step9Target_withoutSource (g : GateRecord) :
    step9Target s.withoutSource g = forgetSource (step9Target s g) := by
  simp only [step9Target, forgetSource_ite, forgetSource_onAccess, forgetSource_raiseAddressing]
  refine if_congr Iff.rfl rfl ?_
  show onAccess (findBd (s.setInfo _) _) _ _ = _
  rw [findBd_setInfo]
  refine congrArg (onAccess _ _) (funext fun r => ?_)
  cases r with
  | none => exact (forgetSource_raiseAddressing s _).symm
  | some t =>
    simp only [forgetSource_ite, forgetSource_goto, forgetSource_raiseAddressing]
    rfl

theorem step9Record_withoutSource (g : GateRecord) :
    step9Record s.withoutSource g = forgetSource (step9Record s g) := by
  simp only [step9Record, forgetSource_ite, forgetSource_raiseAddressing, gateTransfers_withoutSource,
    step9Target_withoutSource]
  rfl

theorem step9_withoutSource : step9 s.withoutSource = forgetSource (step9 s) := by
  simp only [step9, forgetSource_need, forgetSource_ite, forgetSource_onAccess, forgetSource_raiseAddressing]
  refine congrArg (need s.info.target) (funext fun gb => ?_)
  show need (s.info.src.map _) _ = _
  cases s.info.src with
  | none => rfl
  | some v =>
    have hread : gateRead s.withoutSource gb v.offset = gateRead s gb v.offset := gateRead_setInfo s _ gb v.offset
    simp only [Option.map_some, need_some, hread, step9Record_withoutSource]
    rfl

theorem landIn_withoutSource (m : Mode) (slot : Slot) :
    landIn s.withoutSource m slot = forgetSource (landIn s m slot) := rfl

theorem step10Return_withoutSource (slot : Slot) :
    step10Return s.withoutSource slot = forgetSource (step10Return s slot) := by
  simp only [step10Return, forgetSource_need, forgetSource_ite]
  rfl

theorem step10_withoutSource : step10 s.withoutSource = forgetSource (step10 s) := by
  simp only [step10, forgetSource_need]
  refine congrArg (need s.info.op) (funext fun op => ?_)
  cases op with
  | call | goto | lae | lbe | lbu =>
    simp only [forgetSource_need]
    rfl
  | int => rfl
  | ur | rtn => exact step10Return_withoutSource s _
  | lbj | ldj | lij =>
    simp only [forgetSource_need, forgetSource_ite, ← step10Return_withoutSource]
    rfl

theorem step11_withoutSource : step11 s.withoutSource = forgetSource (step11 s) := by
  simp only [step11, forgetSource_need, forgetSource_goto, State.withoutSource, voidPrior_setInfo, voidPrior_info]
  rfl

theorem step12_withoutSource : step12 s.withoutSource = forgetSource (step12 s) := by
  simp only [step12, forgetSource_need, forgetSource_ite, forgetSource_onAccess, forgetSource_goto]
  refine if_congr Iff.rfl (congrArg (need s.info.prior) (funext fun pr => ?_)) rfl
  show onAccess (rcsPush (s.setInfo _) _) _ _ = _
  rw [rcsPush_setInfo]
  show onAccess (Access.map _ (rcsPush s (returnFrame pr s.info.isInt))) _ _ = _
  cases hp : rcsPush s (returnFrame pr s.info.isInt) with
  | ok u =>
    obtain ⟨-, -, -, -, -, -, -, hu⟩ := rcsPush_ok _ _ _ hp
    have hinfo : u.info = s.info := by rw [hu]; rfl
    simp only [Access.map, onAccess_ok, State.withoutSource, hinfo]
  | raise | halt | stuck => rfl

theorem setGr_withoutSource (g : GrName) (w : Word) : s.withoutSource.setGr g w = (s.setGr g w).withoutSource := by
  unfold State.withoutSource
  rw [setGr_setInfo, setGr_info]

theorem step13_withoutSource : step13 s.withoutSource = forgetSource (step13 s) := by
  simp only [step13, forgetSource_need, forgetSource_ite, forgetSource_goto, ← setGr_withoutSource]
  rfl

theorem step14_withoutSource : step14 s.withoutSource = forgetSource (step14 s) := by
  simp only [step14, forgetSource_need, forgetSource_ite, forgetSource_goto, ← setGr_withoutSource]
  rfl

theorem step15_withoutSource : step15 s.withoutSource = forgetSource (step15 s) := by
  simp only [step15, forgetSource_need, forgetSource_ite, forgetSource_goto]
  rfl

theorem step16_withoutSource : step16 s.withoutSource = forgetSource (step16 s) := by
  simp only [step16, forgetSource_need, forgetSource_ite, forgetSource_goto]
  rfl

theorem step17_withoutSource : step17 s.withoutSource = forgetSource (step17 s) := by
  simp only [step17, forgetSource_need, forgetSource_goto]
  rfl

theorem recordBinding_withoutSource (slot : Slot) (n : BankName) :
    recordBinding s.withoutSource slot n = (recordBinding s slot n).withoutSource := by
  unfold State.withoutSource
  rw [recordBinding_info]
  simp only [recordBinding, recordAbt_setInfo, apply_ite (State.setInfo · s.info.withoutSource)]
  rfl

theorem step18_withoutSource : step18 s.withoutSource = forgetSource (step18 s) := by
  simp only [step18, forgetSource_need, forgetSource_goto, recordBinding_withoutSource]
  rfl

theorem step19_withoutSource : step19 s.withoutSource = forgetSource (step19 s) := by
  simp only [step19, forgetSource_need, forgetSource_ite, forgetSource_goto]
  rfl

theorem step20_withoutSource : step20 s.withoutSource = forgetSource (step20 s) := by
  simp only [step20, forgetSource_need, forgetSource_ite, forgetSource_goto]
  rfl

theorem step21_withoutSource : step21 s.withoutSource = forgetSource (step21 s) := by
  simp only [step21, forgetSource_need, forgetSource_ite, forgetSource_goto, forgetSource_raiseAddressing,
    forgetSource_endInvocation]
  rfl

/-- Every step after step 8 does the same without the source. -/
theorem engineStep_withoutSource (h : Past .s8 s.info) :
    engineStep s.withoutSource = forgetSource (engineStep s) := by
  have hstep : s.withoutSource.info.step = s.info.step := rfl
  simp only [engineStep, hstep]
  cases hs : s.info.step with
  | idle => rfl
  | s9 => exact step9_withoutSource s
  | s10 => exact step10_withoutSource s
  | s11 => exact step11_withoutSource s
  | s12 => exact step12_withoutSource s
  | s13 => exact step13_withoutSource s
  | s14 => exact step14_withoutSource s
  | s15 => exact step15_withoutSource s
  | s16 => exact step16_withoutSource s
  | s17 => exact step17_withoutSource s
  | s18 => exact step18_withoutSource s
  | s19 => exact step19_withoutSource s
  | s20 => exact step20_withoutSource s
  | s21 => exact step21_withoutSource s
  | s1 | s2 | s3 | s4 | s5 | s6 | s7 | s8 => simp [Past, hs, pos] at h

end

/-! ### Runs -/

/-- A request other than LAE that is past step 8, or at its end. -/
structure PastHop (i : Info) : Prop where
  past : Past .s8 i
  other : i.op ≠ some .lae

section
variable {u t : State}

/-- A request comes past step 8 from step 8, and stays there. -/
theorem PastHop.of_step (hn : pos .s8 ≤ pos u.info.step) (hs : u.info.step ≠ .idle) (hl : u.info.op ≠ some .lae)
    (h : engineStep u = .next t) : PastHop t.info := by
  refine ⟨Past.next hn hs hl h, ?_⟩
  rcases engineStep_goes u t hs h with hidle | hgoes
  · rw [hidle]
    decide
  · rw [hgoes.op]
    exact hl

theorem engineSteps_withoutSource (n : Nat) (u : State) (h : PastHop u.info) :
    engineSteps n u.withoutSource = forgetSource (engineSteps n u) := by
  induction n generalizing u with
  | zero => rfl
  | succ n ih =>
    by_cases hs : u.info.step = .idle
    · rw [engineSteps_idle _ u hs, engineSteps_idle _ u.withoutSource hs, forgetSource]
    · have hs' : u.withoutSource.info.step ≠ .idle := hs
      simp only [engineSteps, if_neg hs, if_neg hs', engineStep_withoutSource u h.past]
      cases he : engineStep u with
      | next t => exact ih t (PastHop.of_step (h.past.pos_lt hs).le hs h.other he)
      | fault f => rfl
      | refused r => rfl

/-- Two runs that differ in their source alone after a step, one of them past step 8 by it, end alike. -/
theorem engineSteps_alike {a b : State} (n : Nat) (ha : a.info.step ≠ .idle) (hb : b.info.step ≠ .idle)
    (h8 : pos .s8 ≤ pos a.info.step) (hl : a.info.op ≠ some .lae)
    (h : forgetSource (engineStep a) = forgetSource (engineStep b)) :
    forgetSource (engineSteps (n + 1) a) = forgetSource (engineSteps (n + 1) b) := by
  simp only [engineSteps, if_neg ha, if_neg hb]
  cases hea : engineStep a with
  | next t =>
    cases heb : engineStep b with
    | next t' =>
      have htt' : t.withoutSource = t'.withoutSource := by simpa [hea, heb, forgetSource] using h
      have ht : PastHop t.info := PastHop.of_step h8 ha hl hea
      have hinfo : t.info.withoutSource = t'.info.withoutSource := congrArg State.info htt'
      have hstep : t.info.step = t'.info.step := (congrArg Info.step hinfo :)
      have hop : t.info.op = t'.info.op := (congrArg Info.op hinfo :)
      have ht' : PastHop t'.info := ⟨by simpa only [Past, hstep] using ht.past, hop ▸ ht.other⟩
      show forgetSource (engineSteps n t) = forgetSource (engineSteps n t')
      rw [← engineSteps_withoutSource n t ht, htt', engineSteps_withoutSource n t' ht']
    | fault | refused => simp [hea, heb, forgetSource] at h
  | fault | refused => cases heb : engineStep b <;> simp_all [forgetSource]

/-- Outcomes that the spec knows and that differ in their source alone are the same. -/
theorem eq_of_forgetSource {x y : Out} (hx : SpecOutcome x) (hy : SpecOutcome y)
    (h : forgetSource x = forgetSource y) : x = y := by
  have keep : ∀ o, SpecOutcome o → forgetSource o = o := fun o ho => by
    cases o with
    | next t => exact congrArg _ (withoutSource_of_idle ho.1)
    | fault | refused => rfl
  rwa [keep x hx, keep y hy] at h

end

/-! ### The fuel -/

/-- More steps change nothing where a run has ended. -/
theorem engineSteps_stable (n m : Nat) (s : State)
    (h : ∀ t, engineSteps n s = .next t → t.info.step = .idle) : engineSteps (n + m) s = engineSteps n s := by
  induction n generalizing s with
  | zero => rw [engineSteps_idle _ s (h s rfl), engineSteps_idle _ s (h s rfl)]
  | succ n ih =>
    by_cases hs : s.info.step = .idle
    · rw [engineSteps_idle _ s hs, engineSteps_idle _ s hs]
    · rw [show n + 1 + m = (n + m) + 1 by omega]
      simp only [engineSteps, if_neg hs] at h ⊢
      cases he : engineStep s with
      | next t => exact ih t fun t' ht' => h t' (by rw [he]; exact ht')
      | fault | refused => rfl

/-- The engine's answer is that of any run of more steps than a request takes, up to the fuel. -/
theorem exec_eq_engineSteps {i : Instr} {W : Nat} (s : State) (n : Nat) (hw : i.wf W = true)
    (hn : 351 < n) (hfuel : n ≤ engineFuel) :
    exec i s = engineSteps n (startRequest i s) ∧ SpecOutcome (engineSteps n (startRequest i s)) := by
  have hspec : SpecOutcome (engineSteps n (startRequest i s)) := specOutcome_engineSteps i W n _ hw
    (startRequest_tracked i s) (by rwa [rank_startRequest])
  have hidle : ∀ t, engineSteps n (startRequest i s) = .next t → t.info.step = .idle := fun t ht => by
    rw [ht] at hspec
    rw [hspec.1]
    rfl
  obtain ⟨m, hm⟩ := Nat.exists_eq_add_of_le hfuel
  refine ⟨?_, hspec⟩
  rw [exec_eq_run, runEngine, hm, engineSteps_stable n m _ hidle]
  cases he : engineSteps n (startRequest i s) with
  | next t => exact if_pos (hidle t he)
  | fault | refused => rfl

/-! ### One hop of indirection -/

/-- Step 8's dispatch does not look at the step of the record. -/
theorem step8Dispatch_setStep (u : State) (i : Info) (n : StepNo) (bd : BankDescriptor) :
    step8Dispatch (u.setInfo { i with step := n }) bd = step8Dispatch (u.setInfo i) bd := by
  unfold step8Dispatch
  cases bd.bankType with
  | basicMode =>
    have hsame : substitutesVoid (u.setInfo { i with step := n }) bd = substitutesVoid (u.setInfo i) bd := rfl
    cases hsub : substitutesVoid (u.setInfo i) bd <;> simp only [withSubstitution, hsame, hsub] <;> rfl
  | extendedMode | gate | queue | indirect | queueRepository => rfl

/-- `v` names an Indirect descriptor whose target is the name of `w`, and that is no Indirect and no QueueRepository. -/
structure HopTo (s : State) (ib : BankDescriptor) (v w : VA) : Prop where
  finds : FindsBank s (vaName v) ib
  indirect : ib.bankType = .indirect
  noFault : ib.generalFault = false
  target : ib.target = vaName w
  named : nameReservedOrVoid (vaName w) = false
  dispatched : ∀ bd, findBd s (vaName w) = .ok (some bd) → bd.bankType ≠ .indirect ∧ bd.bankType ≠ .queueRepository

/-- The records of one request at step 4 with the sources `v` and `w`. -/
structure Twins (i j : Info) (v w : VA) : Prop where
  left : AtSource i v
  right : AtSource j w
  leftHops : Hops i
  rightHops : Hops j
  other : i.op ≠ some .lae
  same : i.withoutSource = j.withoutSource

section
variable {s : State} {p q : Instr} {i j : Info} {v w : VA} {ib : BankDescriptor} {k : Nat}

/-- The dispatch behind the hop and the dispatch of the target's own name differ in the source alone. -/
theorem Twins.dispatch (t : Twins i j v w) (h : HopTo s ib v w) {bd : BankDescriptor}
    (hbd : findBd s (vaName w) = .ok (some bd)) :
    forgetSource (engineStep (s.setInfo (hopRecord i v ib))) =
      forgetSource (engineStep (s.setInfo (foundRecord j w bd))) := by
  obtain ⟨hni, hnq⟩ := h.dispatched bd hbd
  have hsame : { (hopRecord i v ib).withoutSource with step := .s7, target := some bd, targetName := some (vaName w) } =
      (foundRecord j w bd).withoutSource :=
    congrArg (fun l : Info => { l with step := .s7, target := some bd, targetName := some (vaName w) }) t.same
  rw [step8_found s (hopRecord i v ib) ib bd rfl rfl h.noFault (h.target ▸ h.named) (h.target ▸ hbd), h.target,
    step7_eq_dispatch s (foundRecord j w bd) bd rfl rfl ⟨t.rightHops.may, t.rightHops.int, t.rightHops.ret⟩ hni hnq,
    ← step8Dispatch_withoutSource, ← step8Dispatch_withoutSource]
  refine (step8Dispatch_setStep s _ .s7 bd).symm.trans ?_
  exact congrArg (fun l => step8Dispatch (s.setInfo l) bd) hsame

/-- Two requests that differ by a hop of indirection answer alike (R82). -/
theorem Twins.exec_eq (t : Twins i j v w) (h : HopTo s ib v w) (hk : k ≤ 3) (hp : p.wf 0 = true) (hq : q.wf 0 = true)
    (hleadp : Leads k (startRequest p s) (s.setInfo i)) (hleadq : Leads k (startRequest q s) (s.setInfo j)) :
    exec p s = exec q s := by
  have hs8 : Leads (k + 4) (startRequest p s) (s.setInfo (hopRecord i v ib)) :=
    Leads.trans _ _ _ _ _ hleadp (t.left.leads_s8 t.leftHops h.finds h.indirect)
  rcases findBd_reads s (vaName w) with hstuck | ⟨_ | bd, hbd⟩
  · have hs6 := Leads.trans _ _ _ _ _ hleadq (t.right.leads_s6 (u := s) h.named)
    rw [exec_of_stuck (e := .storageInaccessible) (by unfold engineFuel; omega) hs8 (by simp [hopRecord]) ?hop,
      exec_of_stuck (e := .storageInaccessible) (by unfold engineFuel; omega) hs6 (by simp) ?own]
    case hop =>
      have hn : nameReservedOrVoid ib.target = false := h.target ▸ h.named
      have hf : findBd s ib.target = .stuck := h.target ▸ hstuck
      simp [engineStep, hopRecord, foundRecord, step8, h.noFault, hn, hf]
    case own => simp [engineStep, step6, t.right.src, hstuck]
  · have hfuel : k + 9 ≤ engineFuel := by unfold engineFuel; omega
    have hfail : HopFails s ib .fatalAddressingException :=
      .inr ⟨h.noFault, .inr (.inl ⟨h.target ▸ h.named, h.target ▸ hbd, rfl⟩)⟩
    rw [exec_of_faults hfuel hleadp (t.left.faults_hop t.leftHops h.finds h.indirect hfail),
      exec_of_faults hfuel hleadq (t.right.faults_notFound h.named hbd)]
  · have hs7 := Leads.trans _ _ _ _ _ hleadq (t.right.leads_s7 ⟨h.named, hbd⟩)
    obtain ⟨hexecp, hspecp⟩ := exec_eq_engineSteps (i := p) s (k + 4 + 361) hp (by omega) (by unfold engineFuel; omega)
    obtain ⟨hexecq, hspecq⟩ := exec_eq_engineSteps (i := q) s (k + 3 + 361) hq (by omega) (by unfold engineFuel; omega)
    rw [hexecp, hexecq]
    refine eq_of_forgetSource hspecp hspecq ?_
    rw [hs8 361, hs7 361]
    exact engineSteps_alike 360 (by simp [hopRecord]) (by simp [foundRecord]) le_rfl t.other (t.dispatch h hbd)

end

/-! ### CALL, GOTO, LBE and LBU -/

/-- The records of CALL, or of GOTO, with two sources of one offset. -/
theorem twins_call {s : State} {op : OpKind} (hop : op = .call ∨ op = .goto) (n m : BankName) (off : BitVec 18) :
    Twins (sourced (callRecord op ⟨n.level, n.bdi, off⟩ (capturePrior s op 0)) ⟨n.level, n.bdi, off⟩)
      (sourced (callRecord op ⟨m.level, m.bdi, off⟩ (capturePrior s op 0)) ⟨m.level, m.bdi, off⟩)
      ⟨n.level, n.bdi, off⟩ ⟨m.level, m.bdi, off⟩ := by
  rcases hop with rfl | rfl
  · exact ⟨(forwardRecord_call s _).atSource, (forwardRecord_call s _).atSource, (forwardRecord_call s _).hops,
      (forwardRecord_call s _).hops, by simp [sourced, callRecord], rfl⟩
  · exact ⟨(forwardRecord_goto s _).atSource, (forwardRecord_goto s _).atSource, (forwardRecord_goto s _).hops,
      (forwardRecord_goto s _).hops, by simp [sourced, callRecord], rfl⟩

/-- The records of LBE, or of LBU, with two sources of one offset. -/
theorem twins_load {op : OpKind} (hop : op = .lbe ∨ op = .lbu) (a : RegIndex) (n m : BankName) (off : BitVec 18) :
    Twins (loadSourced op a ⟨n.level, n.bdi, off⟩) (loadSourced op a ⟨m.level, m.bdi, off⟩) ⟨n.level, n.bdi, off⟩
      ⟨m.level, m.bdi, off⟩ :=
  ⟨loadSourced_atSource hop, loadSourced_atSource hop, loadSourced_hops hop, loadSourced_hops hop,
    by rcases hop with rfl | rfl <;> simp [loadSourced, sourced, loadRecord], rfl⟩

/-- Settles O29: behind the hop the records differ in the source alone, which no later step reads but for its offset. -/
theorem indirectionTransparent : Obligations.IndirectionTransparent := by
  rintro s n m ib off a hfinds hib hg rfl hn hdisp
  have hhop : HopTo s ib ⟨n.level, n.bdi, off⟩ ⟨ib.target.level, ib.target.bdi, off⟩ :=
    ⟨hfinds, hib, hg, rfl, hn, hdisp⟩
  refine ⟨?call, ?goto, ?lbe, ?lbu⟩
  case call =>
    exact (twins_call (.inl rfl) n ib.target off).exec_eq hhop le_rfl rfl rfl (leads_call .call (.inl rfl) _ s)
      (leads_call .call (.inl rfl) _ s)
  case goto =>
    exact (twins_call (.inr rfl) n ib.target off).exec_eq hhop le_rfl rfl rfl (leads_call .goto (.inr rfl) _ s)
      (leads_call .goto (.inr rfl) _ s)
  case lbe =>
    exact (twins_load (.inl rfl) a n ib.target off).exec_eq hhop (by decide) rfl rfl (leads_load (.inl rfl))
      (leads_load (.inl rfl))
  case lbu =>
    by_cases ha : a.val ≤ 1
    · rw [exec_lbu_low ha, exec_lbu_low ha]
    · have h2 : 2 ≤ a.val := by omega
      exact (twins_load (.inr rfl) a n ib.target off).exec_eq hhop (by decide) rfl rfl (leads_load (.inr ⟨rfl, h2⟩))
        (leads_load (.inr ⟨rfl, h2⟩))

end Sys2Proof.Machine

/-! SUPPORT. CALL and GOTO that land: one run for the four shapes (with and without the push, with and without a gate),
from the record at step 10. -/

namespace Sys2Proof.Machine

/-! ### The transfer's changes, as the claims write them -/

/-- The frame that a CALL made in state `s` pushes (R86). -/
abbrev pushedFrame (s : State) : Frame := callerFrame s s.callerName s.callerSel (s.par.pc + 1) false

/-- What step 12 of CALL and GOTO does: CALL pushes its frame, GOTO does nothing (R86, R98). -/
def StoresFrame (op : OpKind) (f : Frame) (u w : State) : Prop :=
  (op = .call ∧ rcsPush u f = .ok w) ∨ (op = .goto ∧ w = u)

/-- The state after CALL or GOTO without a gate, from the state `w` that step 12 leaves. -/
def enteredDirect (s : State) (op : OpKind) (n : BankName) (bd : BankDescriptor) (off : BitVec 18)
    (w : State) : State :=
  toggled s op (landingMode bd)
    (arrive ((crossDb16 s (landingMode bd) (crossLink s (landingMode bd) w)).setPc off)
      (landingMode bd) (callLanding s (landingMode bd)) n (makeBreg bd))

/-- The same through the gate `g`. -/
def enteredThroughGate (s : State) (op : OpKind) (g : GateRecord) (n : BankName) (bd : BankDescriptor)
    (off : BitVec 18) (w : State) : State :=
  toggled s op (landingMode bd)
    (arrive ((gateDb16 s g (landingMode bd) (crossLink s (landingMode bd) w)).setPc off)
      (landingMode bd) (gateLanding g (landingMode bd)) n (makeBreg bd))

theorem StoresFrame.kind {op : OpKind} {f : Frame} {u w : State} (h : StoresFrame op f u w) : op = .call ∨ op = .goto :=
  h.imp And.left And.left

theorem StoresFrame.params {op : OpKind} {f : Frame} {u w : State} (h : StoresFrame op f u w) :
    w.params = u.params := by
  rcases h with ⟨-, h⟩ | ⟨-, rfl⟩
  · exact (rcsPush_frame u w f h).1
  · rfl

@[simp] theorem leaveCaller_params (u : State) (a b : Mode) (k : BmSel) : (leaveCaller u a b k).params = u.params :=
  (leaveCaller_frame u a b k).1

@[simp] theorem crossLink_params (s : State) (m : Mode) (u : State) : (crossLink s m u).params = u.params := by
  unfold crossLink; split <;> simp

@[simp] theorem crossDb16_params (s : State) (m : Mode) (u : State) : (crossDb16 s m u).params = u.params := by
  unfold crossDb16; split <;> rfl

@[simp] theorem gateDb16_params (s : State) (g : GateRecord) (m : Mode) (u : State) :
    (gateDb16 s g m u).params = u.params := by
  unfold gateDb16; split <;> simp

/-- DB16 after a gate: written where the gate inhibits its designator bits and the mode changes (R89, R90). -/
theorem gateDb16_eq (s : State) (g : GateRecord) (m : Mode) (u : State) : gateDb16 s g m u =
    if g.designatorBitsInhibited = true ∧ s.mode ≠ m then u.setDr (setDb16 u.dr (m == .bm)) else u := by
  unfold gateDb16 crossDb16
  cases g.designatorBitsInhibited with
  | false => simp
  | true => by_cases hm : s.mode = m <;> simp [hm]

@[simp] theorem capturePrior_mode (s : State) (op : OpKind) (x : Word) : (capturePrior s op x).mode = s.mode := rfl

/-- The frame of CALL and GOTO's snapshot (R76, R86). -/
theorem returnFrame_plain (s : State) {op : OpKind} (hop : op = .call ∨ op = .goto) :
    returnFrame (capturePrior s op 0) false = pushedFrame s := by
  have hx : kindIsLxj op = false := by rcases hop with rfl | rfl <;> rfl
  have hint : op ≠ .int := by rcases hop with rfl | rfl <;> decide
  obtain ⟨hname, hsel, -⟩ := capture_plain s op hx
  simp only [returnFrame, pushedFrame, callerFrame, hname, hsel]
  simp only [capturePrior, if_neg hint]

/-- The slot of CALL and GOTO without a gate (R84). -/
theorem callSlot_direct (s u : State) (i : Info) (op : OpKind) (m : Mode) (hp : u.params = s.params)
    (hg : i.gated = false) : callSlot u.params i (capturePrior s op 0) m = some (callLanding s m) := by
  rw [hp]
  cases m with
  | em => rfl
  | bm =>
    cases hd : db16 s.dr <;> simp [callSlot, hg, callLanding, capturePrior, hd, modeOf, State.codeSel]

/-- The slot of CALL and GOTO through a gate (R84). -/
theorem callSlot_gated (p : Params) (i : Info) (pr : Prior) (g : GateRecord) (m : Mode) (hg : i.gated = true)
    (hgr : i.gate = some g) : callSlot p i pr m = some (gateLanding g m) := by
  cases m with
  | em => rfl
  | bm => simp [callSlot, hg, hgr, gateLanding]

/-! ### The record at step 10 -/

/-- The classes of CALL and GOTO (R12). -/
theorem info_call (i : Info) {op : OpKind} (ho : i.op = some op) (hop : op = .call ∨ op = .goto) :
    i.isForward = true ∧ i.isInt = false ∧ i.isReturnLike = false ∧ i.isTransfer = true ∧
      (∀ f, i.isLxjForm f = false) ∧ i.isCall = (op == .call) := by
  rcases hop with rfl | rfl <;> simp [Info.isForward, Info.isInt, Info.isReturnLike, Info.isReturn, Info.isTransfer,
    Info.isLoad, Info.isCall, Info.isLxjForm, Info.isLxj, ho, kindIsLoad, kindIsLxj]

/-- The record of CALL or GOTO at step 14. -/
def linking (i : Info) (m : Mode) (slot : Slot) : Info := { landed i m slot with step := .s14 }

/-- The record of CALL or GOTO at step 10: the caller's snapshot was taken in `s`, and the bank `bd`, named `n`, is
entered at `off`. -/
structure Entering (s : State) (op : OpKind) (i : Info) (n : BankName) (bd : BankDescriptor) (off : BitVec 18) :
    Prop where
  step : i.step = .s10
  code : i.op = some op
  prior : i.prior = some (capturePrior s op 0)
  target : i.target = some bd
  name : i.targetName = some n
  unreserved : nameReserved n = false
  bound : i.voidTarget = false
  offset : i.finalOffset = some off

section
variable {s u w : State} {op : OpKind} {i : Info} {n : BankName} {bd : BankDescriptor} {off : BitVec 18} {slot : Slot}

/-- Step 12 of CALL and GOTO. -/
theorem StoresFrame.leads12 (h : StoresFrame op (returnFrame (capturePrior s op 0) false) u w) (hs : i.step = .s12)
    (ho : i.op = some op) (hp : i.prior = some (capturePrior s op 0)) :
    engineStep (u.setInfo i) = .next (w.setInfo { i with step := .s13 }) := by
  obtain ⟨-, hint, -, -, -, hcall⟩ := info_call i ho h.kind
  rcases h with ⟨rfl, hpush⟩ | ⟨rfl, rfl⟩
  · exact leads12_push u i _ w hs hp (by simp [hcall, hint]) (by rw [hint]; exact hpush)
  · exact leads12_none w i hs (by simp [hcall])

/-- Steps 10 to 13: the landing, the caller left, and the frame (R84 to R87). -/
theorem Entering.leads_s14 (h : Entering s op i n bd off)
    (hk : callSlot u.params i (capturePrior s op 0) (landingMode bd) = some slot)
    (hframe : StoresFrame op (pushedFrame s) (leaveCaller u s.mode (landingMode bd) s.codeSel) w) :
    Leads 4 (u.setInfo i) (w.setInfo (linking i (landingMode bd) slot)) := by
  have hop := hframe.kind
  have hx : kindIsLxj op = false := by rcases hop with rfl | rfl <;> rfl
  obtain ⟨-, -, -, -, hlxj, -⟩ := info_call i h.code hop
  rw [← returnFrame_plain s hop, ← voidPrior_plain s u op _ hx] at hframe
  refine Leads.cons _ _ _ _ (by simp [h.step]) (leads10_call u i op bd _ slot h.step h.code hop h.target h.prior hk) ?_
  refine Leads.cons _ _ _ _ (by simp [landed]) (leads11 u _ _ _ rfl h.prior rfl) ?_
  refine Leads.cons _ _ _ _ (by simp)
    (hframe.leads12 (i := { landed i _ slot with step := .s12 }) rfl h.code h.prior) ?_
  refine Leads.cons _ _ _ _ (by simp) (leads13_none w _ rfl ?_) (Leads.refl _)
  show (i.isLxjForm .normal || i.isLxjForm .call) = false
  simp [hlxj]

/-- Step 14 of CALL and GOTO, as the claims write it (R88). -/
theorem linked_call (hfw : i.isForward = true) (hnorm : i.isLxjForm .normal = false) (hp : w.params = s.params)
    (m : Mode) : linked w i (capturePrior s op 0) m = crossLink s m w := by
  simp only [linked, crossLink, hfw, hnorm, hp, capturePrior_mode, Bool.true_and, Bool.or_false, bne_iff_ne, ite_not]
  rfl

/-- Step 20 of CALL and GOTO, as the claims write it (R94). -/
theorem toggle_call (hp : w.params = s.params) (m : Mode) (slot : Slot) (r : BaseRegister) :
    (if w.params.toggleDb31.contains op && (capturePrior s op 0).mode == .bm && m == .bm
      then (arrive w m slot n r).setDr (flipDb31 w.dr) else arrive w m slot n r) =
      toggled s op m (arrive w m slot n r) := by
  simp only [toggled, hp, capturePrior_mode, arrive_dr, Bool.and_eq_true, beq_iff_eq, and_assoc]

/-- CALL and GOTO without a gate, from step 10 (R84 to R95). -/
theorem Entering.finishes_direct (h : Entering s op i n bd off) (hp : u.params = s.params) (hg : i.gated = false)
    (hframe : StoresFrame op (pushedFrame s) (leaveCaller u s.mode (landingMode bd) s.codeSel) w) :
    Ends 12 (u.setInfo i) (finished .ok (enteredDirect s op n bd off w)) := by
  obtain ⟨hfw, hint, hret, htr, hlxj, -⟩ :=
    info_call (linking i (landingMode bd) (callLanding s (landingMode bd))) h.code hframe.kind
  have hw : w.params = s.params := by rw [hframe.params, leaveCaller_params, hp]
  refine Leads.ends 4 8 _ _ _ (h.leads_s14 (callSlot_direct s u i op _ hp hg) hframe) ?_
  refine ends_forward w (linking i (landingMode bd) _) op _ (landingMode bd) _ bd n off rfl h.code
    h.prior rfl rfl h.target h.name h.bound h.unreserved htr hg h.offset hfw hint hret _ _ ?_
    (toggle_call (by simp [hw]) _ _ _).symm
  rw [linked_call hfw (hlxj _) hw]
  rfl

/-- CALL and GOTO through a gate, from step 10 (R84 to R95); the gate's transfers have made `u` of `s`. -/
theorem Entering.finishes_gated {g : GateRecord} (h : Entering s op i n bd off) (hp : u.params = s.params)
    (hg : i.gated = true) (hgr : i.gate = some g)
    (hframe : StoresFrame op (pushedFrame s) (leaveCaller u s.mode (landingMode bd) s.codeSel) w) :
    Ends 12 (u.setInfo i) (finished .ok (enteredThroughGate s op g n bd off w)) := by
  obtain ⟨hfw, hint, hret, htr, hlxj, -⟩ :=
    info_call (linking i (landingMode bd) (gateLanding g (landingMode bd))) h.code hframe.kind
  have hw : w.params = s.params := by rw [hframe.params, leaveCaller_params, hp]
  refine Leads.ends 4 8 _ _ _ (h.leads_s14 (callSlot_gated u.params i _ g _ hg hgr) hframe) ?_
  refine ends_gated w (linking i (landingMode bd) _) op _ (landingMode bd) _ bd n
    off g rfl h.code h.prior rfl rfl h.target h.name h.bound h.unreserved htr hg hgr h.offset hfw hint hret _ _ ?_
    (toggle_call (by simp [hw]) _ _ _).symm
  rw [linked_call hfw (hlxj _) hw, gateDb16_eq]
  rfl

end

/-! ### From the request to step 10 -/

/-- A run that leads to step 10 of CALL or GOTO and ends from there. -/
theorem exec_of_landing {i : Instr} {s u t : State} {j : Info} {k : Nat} (hk : k ≤ 9)
    (hlead : Leads k (startRequest i s) (u.setInfo j)) (hend : Ends 12 (u.setInfo j) (finished .ok t)) :
    exec i s = .next (finished .ok t) := by
  rw [exec_eq_run]
  exact Ends.runs (k + 12) (by unfold engineFuel; omega) _ _ (Leads.ends _ _ _ _ _ hlead hend) rfl

section
variable {s w : State} {op : OpKind} {i : Instr} {v : VA}

/-- CALL or GOTO of a bank that it may enter, after the step that stores the frame. -/
theorem exec_direct {n : BankName} {bd : BankDescriptor}
    (hi : startRequest i s = startInvocation op none (.va v) none s)
    (hr : Reaches s (vaName v) n bd) (hl : MayLand s bd)
    (hframe : StoresFrame op (pushedFrame s) (leaveCaller s s.mode (landingMode bd) s.codeSel) w) :
    exec i s = .next (finished .ok (enteredDirect s op n bd v.offset w)) := by
  have hop := hframe.kind
  obtain ⟨hfw, hint, hret, -⟩ := info_call (sourced (callRecord op v (capturePrior s op 0)) v) rfl hop
  have hlbu : ((sourced (callRecord op v (capturePrior s op 0)) v).op == some .lbu) = false := by
    rcases hop with rfl | rfl <;> rfl
  obtain ⟨k, ib, hk, h10⟩ := leads_reaches s _ v n bd rfl rfl hr hl hfw hint hret hlbu
  refine exec_of_landing (k := 3 + k) (by omega) (hi ▸ Leads.trans 3 k _ _ _ (leads_call op hop v s) h10) ?_
  exact Entering.finishes_direct
    ⟨rfl, rfl, rfl, rfl, rfl, notReserved_of n (reaches_name s _ n bd hr), rfl, rfl⟩ rfl rfl hframe

/-- CALL or GOTO through a gate that does not inhibit it, after the step that stores the frame. -/
theorem exec_gated {g : GateRecord} {t : BankDescriptor}
    (hi : startRequest i s = startInvocation op none (.va v) none s)
    (hr : ReadsGate s v g) (ha : GateAdmits s g) (hl : GateLeads s g t) (hinh : op = .goto → g.gotoInhibited = false)
    (hframe : StoresFrame op (pushedFrame s) (leaveCaller (gateTransfers s g) s.mode (landingMode t) s.codeSel) w) :
    exec i s = .next (finished .ok (enteredThroughGate s op g (vaName g.target) t g.target.offset w)) := by
  have hop := hframe.kind
  obtain ⟨hfw, hint, -, -, -, -⟩ := info_call (sourced (callRecord op v (capturePrior s op 0)) v) rfl hop
  obtain ⟨n, gb, hreach, hgate, hgf, henter, hlow, hup, halign, hread⟩ := hr
  obtain ⟨k, ib, hk, h9⟩ := leads_reaches_gate s _ v n gb rfl rfl hreach hgate hfw hint
  have hoff := gateOffsetOk_of s.params gb v.offset hlow hup halign
  have hpass : (g.gotoInhibited && gotoInhibitApplies (sourced (callRecord op v (capturePrior s op 0)) v)) = false := by
    rcases hop with rfl | rfl
    · exact Bool.and_false _
    · rw [hinh rfl]; rfl
  have h10 := leads9 s { sourced (callRecord op v (capturePrior s op 0)) v with
      step := .s9, srcBD := some ib, target := some gb, targetName := some n }
    v gb g t rfl rfl rfl hgf henter hoff hread ha hpass hl
  refine exec_of_landing (k := 3 + (k + 1)) (by omega) (hi ▸ Leads.trans 3 _ _ _ _ (leads_call op hop v s)
    (Leads.trans k 1 _ _ _ h9 (Leads.step _ _ (by simp) h10))) ?_
  exact Entering.finishes_gated ⟨rfl, rfl, rfl, rfl, rfl, notReserved_of _ hl.1.1, rfl, rfl⟩ (gateTransfers_params s g)
    rfl rfl hframe

end

/-- Settles O21: CALL without a gate, with the push of its frame. -/
theorem callBindsBank : Obligations.CallBindsBank := fun _ _ _ _ _ hr hl hpush =>
  exec_direct rfl hr hl (.inl ⟨rfl, hpush⟩)

/-- Settles O22: GOTO without a gate stores no frame. -/
theorem gotoBindsBank : Obligations.GotoBindsBank := fun _ _ _ _ hr hl => exec_direct rfl hr hl (.inr ⟨rfl, rfl⟩)

/-- Settles O23: CALL through a gate; goto-inhibit concerns GOTO alone. -/
theorem callThroughGate : Obligations.CallThroughGate := fun _ _ _ _ _ hr ha hl hpush =>
  exec_gated rfl hr ha hl (fun e => nomatch e) (.inl ⟨rfl, hpush⟩)

/-- Settles O24: GOTO through a gate stores no frame. -/
theorem gotoThroughGate : Obligations.GotoThroughGate := fun _ _ _ _ hr ha hl hinh =>
  exec_gated rfl hr ha hl (fun _ => hinh) (.inr ⟨rfl, rfl⟩)

end Sys2Proof.Machine

/-! SUPPORT. Returns through the stack: the run of RTN and of an LxJ of return form from the popped frame, and RTN after
CALL. -/

namespace Sys2Proof.Machine

/-! ### The run of a request that pops -/

/-- The classes of RTN and of an LxJ of return form (R12). -/
theorem info_pops (i : Info) {op : OpKind} (ho : i.op = some op)
    (hop : op = .rtn ∨ (kindIsLxj op = true ∧ i.form = some .ret)) :
    i.isReturn = true ∧ i.isReturnLike = true ∧ i.isForward = false ∧ i.isInt = false ∧ i.isTransfer = true ∧
      i.isCall = false ∧ i.isLxjForm .normal = false ∧ i.isLxjForm .call = false := by
  rcases hop with rfl | ⟨hx, hf⟩
  · simp [Info.isReturn, Info.isReturnLike, Info.isForward, Info.isInt, Info.isTransfer, Info.isLoad, Info.isCall,
      Info.isLxjForm, Info.isLxj, ho, kindIsLoad, kindIsLxj]
  · obtain ⟨-, hlxj, hint, htr, -, hret, hretLike, hfw, hcall⟩ := info_lxj i op .ret ho hx hf
    exact ⟨hret, hretLike, hfw, hint, htr, hcall, hlxj .normal, hlxj .call⟩

/-- The record of such a request at step 10, with what it binds. -/
structure PopBinds (op : OpKind) (i : Info) (f : Frame) (r : BaseRegister) : Prop where
  step : i.step = .s10
  code : i.op = some op
  kind : op = .rtn ∨ (kindIsLxj op = true ∧ i.form = some .ret)
  popped : i.popped = some f
  gated : i.gated = false
  offset : i.finalOffset = some f.offset
  name : i.targetName = some (vaName (frameVa f))
  binds : (i.voidTarget = true ∧ vaName (frameVa f) = voidName ∧ r = .void) ∨
    (i.voidTarget = false ∧ nameReserved (vaName (frameVa f)) = false ∧ ∃ bd, i.target = some bd ∧ r = makeBreg bd)

section
variable {u : State} {i : Info} {f : Frame} {r : BaseRegister}

/-- Steps 4 to 10 of such a request: the void bank in basic mode, or a bank that a return binds. -/
theorem PopRecord.leads_s10 (h : PopRecord i) (hg : i.gated = false) (hb : ReturnBinds u f r) :
    ∃ n op j, n ≤ 4 ∧ PopBinds op j f r ∧ j.prior = i.prior ∧
      Leads n (u.setInfo (sourcedFrame i f)) (u.setInfo j) := by
  have hrec : ReturnRecord (sourcedFrame i f) f := h.returnRecord
  obtain ⟨op, ho, hop⟩ := h.op
  rcases hb with ⟨hv, hd, rfl⟩ | ⟨bd, hf, rfl, hty⟩
  · have h5 := leads5_return u { sourcedFrame i f with step := .s5 } f rfl rfl hv rfl hd hrec.int hrec.load hrec.ret
    exact ⟨2, op, { sourcedFrame i f with step := .s10, voidTarget := true, targetName := some voidName }, by decide,
      ⟨rfl, ho, hop, rfl, hg, rfl, congrArg some hv.symm, .inl ⟨rfl, hv, rfl⟩⟩, rfl,
      Leads.trans 1 1 _ _ _ (hrec.atSource.leads_s5 (by rw [hv]; decide)) (Leads.step _ _ (by simp) h5)⟩
  · obtain ⟨-, -, hfw, -⟩ := info_pops (sourcedFrame i f) ho hop
    have h7 := leads7_return u (foundRecord (sourcedFrame i f) (frameVa f) bd) bd f rfl rfl rfl hty hrec.int hrec.ret
      hfw
    exact ⟨4, op, { foundRecord (sourcedFrame i f) (frameVa f) bd with step := .s10 }, by decide,
      ⟨rfl, ho, hop, rfl, hg, rfl, rfl, .inr ⟨rfl, notReserved_of _ hf.1, bd, rfl, rfl⟩⟩, rfl,
      Leads.trans 3 1 _ _ _ (hrec.atSource.leads_s7 hf) (Leads.step _ _ (by simp [foundRecord]) h7)⟩

/-- The state of a return, with the steps that make it: 11, 16, 17, then 18 and 19. -/
theorem returned_eq (s : State) (f : Frame) (k : BmSel) (emSlot : Slot) (r : BaseRegister) : returned s f k emSlot r =
    arrive ((restoreDesignators (leaveCaller s s.mode (modeOf (frameDb16 f)) k) f.db f.key).setPc f.offset)
      (modeOf (frameDb16 f)) (if frameDb16 f then bmSlot f.sel else emSlot) (vaName (frameVa f)) r := by
  obtain ⟨-, hdr, hikr, -, -, -⟩ := leaveCaller_frame s s.mode (modeOf (frameDb16 f)) k
  rw [restoreDesignators, hdr, hikr]
  rfl

/-- Steps 10 to 21 of a request that pops; `k` is the selector of the caller's basic-mode register. -/
theorem PopBinds.ends {op : OpKind} (h : PopBinds op i f r) {pr : Prior} {k : BmSel} (hp : i.prior = some pr)
    (hm : pr.mode = u.mode) (hk : pr.mode = .bm → pr.slot = bmSlot k) :
    Ends 12 (u.setInfo i) (finished .ok (returned u f k 0 r)) := by
  obtain ⟨hret, hretLike, hfw, -, htr, hcall, hnorm, hlcall⟩ := info_pops i h.code h.kind
  have hur : op ≠ .ur := by
    rintro rfl
    simpa [kindIsLxj] using h.kind
  have h10 := leads10_return u i op f h.step h.code (h.kind.imp_right fun hx => .inr ⟨hx.1, hret⟩) h.popped
  rw [if_neg hur] at h10
  refine Ends.cons _ _ _ _ (by simp [h.step]) h10 ?_
  refine Ends.cons _ _ _ _ (by simp [landed]) (leads11 u _ pr _ rfl hp rfl) ?_
  rw [voidPrior_eq u pr _ k hk, hm]
  refine Ends.cons _ _ _ _ (by simp) (leads12_none _ _ rfl ?_) ?_
  · show (i.isCall && _) = false
    rw [hcall]
    rfl
  refine Ends.cons _ _ _ _ (by simp) (leads13_none _ _ rfl ?_) ?_
  · show (i.isLxjForm .normal || i.isLxjForm .call) = false
    rw [hnorm, hlcall]
    rfl
  exact ends_return _ { landed i (modeOf (frameDb16 f)) _ with step := .s14 } op pr (modeOf (frameDb16 f)) _ r
    (vaName (frameVa f)) f rfl h.code hp rfl rfl h.name h.binds htr h.gated h.offset hfw hnorm hretLike h.popped _
    (returned_eq u f k 0 r)

end

/-- RTN to a frame that a return binds (R106). -/
theorem exec_rtn_returns {s w : State} {f : Frame} {r : BaseRegister} (hpop : rcsPop s = .ok (f, w))
    (hb : ReturnBinds s f r) : exec .rtn s = .next (finished .ok (returned w f s.codeSel 0 r)) := by
  have hrec : PopRecord (plainRecord s .rtn) := ⟨rfl, .rtn, rfl, .inl rfl⟩
  obtain rfl := rcsPop_state s w f hpop
  obtain ⟨n, op, j, hn, hj, hprior, hlead⟩ := hrec.leads_s10 rfl (returnBinds_setRcsp s f r _ hb)
  have hslot : (capturePrior s .rtn 0).mode = .bm → (capturePrior s .rtn 0).slot = bmSlot s.codeSel := fun hm => by
    rw [(capture_plain s .rtn rfl).2.2, mode_bm s hm]
    rfl
  have h10 := Leads.trans _ _ _ _ _ (Leads.trans _ _ _ _ _ (leads_plain s .rtn rfl rfl) (hrec.leads_s4 hpop)) hlead
  exact exec_of_landing (k := 2 + 1 + n) (by omega) h10 (hj.ends hprior rfl hslot)

/-! ### What a landing keeps of the return control stack -/

/-- From `u` to `t` the return control stack is kept, and every base register but that of a slot. -/
structure KeepsStack (slot : Slot) (u t : State) : Prop where
  params : t.params = u.params
  rcsp : t.rcsp = u.rcsp
  memory : t.memory = u.memory
  breg : ∀ j, j ≠ slot → t.breg j = u.breg j

section
variable {slot : Slot} {s u v t : State}

theorem KeepsStack.trans (h1 : KeepsStack slot u v) (h2 : KeepsStack slot v t) : KeepsStack slot u t where
  params := h2.params.trans h1.params
  rcsp := h2.rcsp.trans h1.rcsp
  memory := h2.memory.trans h1.memory
  breg j hj := (h2.breg j hj).trans (h1.breg j hj)

theorem keepsStack_refl (slot : Slot) (u : State) : KeepsStack slot u u := ⟨rfl, rfl, rfl, fun _ _ => rfl⟩

theorem keepsStack_crossLink (m : Mode) : KeepsStack slot u (crossLink s m u) := by
  unfold crossLink
  split
  · exact keepsStack_refl slot u
  · exact ⟨by simp, by simp, by simp, by simp⟩

theorem keepsStack_crossDb16 (m : Mode) : KeepsStack slot u (crossDb16 s m u) := by
  unfold crossDb16
  split
  · exact keepsStack_refl slot u
  · exact ⟨rfl, rfl, rfl, fun _ _ => rfl⟩

theorem keepsStack_toggled (op : OpKind) (m : Mode) : KeepsStack slot u (toggled s op m u) := by
  unfold toggled
  split
  · exact ⟨rfl, rfl, rfl, fun _ _ => rfl⟩
  · exact keepsStack_refl slot u

theorem keepsStack_arrive (m : Mode) (n : BankName) (r : BaseRegister) : KeepsStack slot u (arrive u m slot n r) := by
  cases m with
  | em => exact ⟨rfl, rfl, rfl, fun j hj => (setBreg_breg _ slot j r).trans (if_neg hj)⟩
  | bm =>
    refine ⟨recordAbt_params u slot n, recordAbt_rcsp u slot n, recordAbt_memory u slot n, fun j hj => ?_⟩
    exact ((setBreg_breg _ slot j r).trans (if_neg hj)).trans (recordAbt_breg u slot n j)

/-- What CALL does after its push leaves the stack alone (R88 to R94). -/
theorem keepsStack_enteredDirect (op : OpKind) (n : BankName) (bd : BankDescriptor) (off : BitVec 18) :
    KeepsStack (callLanding s (landingMode bd)) u (finished .ok (enteredDirect s op n bd off u)) := by
  have hcross : KeepsStack (callLanding s (landingMode bd)) u
      (crossDb16 s (landingMode bd) (crossLink s (landingMode bd) u)) :=
    (keepsStack_crossLink _).trans (keepsStack_crossDb16 _)
  have hpc := hcross.trans (t := State.setPc _ off) ⟨rfl, rfl, rfl, fun _ _ => rfl⟩
  have hbound := hpc.trans (keepsStack_arrive (landingMode bd) n (makeBreg bd))
  exact (hbound.trans (keepsStack_toggled op (landingMode bd))).trans ⟨rfl, rfl, rfl, fun _ _ => rfl⟩

/-- A pop reads nothing but the stack (R41). -/
theorem KeepsStack.rcsPop_eq (h : KeepsStack slot u t) (hne : u.params.rcsBreg ≠ slot) {f : Frame} {p : BitVec 18}
    (hpop : rcsPop u = .ok (f, u.setRcsp p)) : rcsPop t = .ok (f, t.setRcsp p) := by
  obtain ⟨r, w, hb, hu, hl, hw, rfl, hp⟩ := rcsPop_ok u _ _ hpop
  obtain rfl : p = u.rcsp + 2 := congrArg State.rcsp hp
  have hbt : t.breg t.params.rcsBreg = .bound r := by rw [h.params, h.breg _ hne, hb]
  have hwt : memRead t (relToAbs r t.rcsp.toNat) 2 = .ok w := by
    rw [h.rcsp, memRead_congr u t _ 2 (by rw [h.params]) h.memory, hw]
  have inside : ¬(r.uln.toNat < t.rcsp.toNat + 1 ∨ t.rcsp.toNat < r.lln.toNat) := by rw [h.rcsp]; omega
  rw [← h.rcsp]
  simp only [rcsPop, hbt, if_neg inside, hwt, andThen_ok]

end

/-! ### The caller that a return brings back -/

/-- DB16 is one of DB12-17 (R19). -/
theorem getLsbD_db12to17 (dr : Word) : (db12to17 dr).getLsbD 1 = db16 dr := by
  simp [db12to17, db16]

theorem arrive_frame (u : State) (m : Mode) (slot : Slot) (n : BankName) (r : BaseRegister) :
    (arrive u m slot n r).par.pc = u.par.pc ∧ (arrive u m slot n r).ikr = u.ikr ∧
      (arrive u m slot n r).breg slot = r := by
  cases m with
  | em => exact ⟨rfl, rfl, setBreg_breg_same _ slot r⟩
  | bm =>
    exact ⟨congrArg Par.pc (recordAbt_par u slot n), recordAbt_ikr u slot n, setBreg_breg_same _ slot r⟩

section
variable {s : State} {f : Frame} {k : BmSel} {emSlot : Slot} {r : BaseRegister}

/-- The fields that a return restores from its frame (R90, R91). -/
theorem returned_restores : (returned s f k emSlot r).par.pc = f.offset ∧
    db12to17 (returned s f k emSlot r).dr = f.db ∧ accessKey (returned s f k emSlot r).ikr = f.key ∧
    (returned s f k emSlot r).rcsp = s.rcsp := by
  rw [returned_eq]
  obtain ⟨hpc, hikr, -⟩ := arrive_frame ((restoreDesignators (leaveCaller s s.mode (modeOf (frameDb16 f)) k) f.db
    f.key).setPc f.offset) (modeOf (frameDb16 f)) (if frameDb16 f then bmSlot f.sel else emSlot) (vaName (frameVa f)) r
  refine ⟨hpc, ?_, ?_, ?_⟩
  · rw [arrive_dr]
    exact db12to17_setDb12to17 _ _
  · rw [hikr]
    exact accessKey_setAccessKey _ _
  · obtain ⟨-, -, -, hrcsp, -⟩ := leaveCaller_frame s s.mode (modeOf (frameDb16 f)) k
    rw [(keepsStack_arrive _ _ _).rcsp]
    exact hrcsp

/-- A return into extended mode names its bank in PAR (R92, R93). -/
theorem returned_em (h : frameDb16 f = false) :
    (returned s f k emSlot r).parName = vaName (frameVa f) ∧ (returned s f k emSlot r).breg emSlot = r := by
  simp [returned_eq, h, modeOf, arrive, State.parName]

/-- A return into basic mode names its bank in the ABT entry of the frame's selector (R92, R93). -/
theorem returned_bm (h : frameDb16 f = true) :
    (returned s f k emSlot r).abtEntry f.sel = vaName (frameVa f) ∧
      (returned s f k emSlot r).breg (bmSlot f.sel) = r := by
  simp [returned_eq, h, modeOf, arrive, recordAbt_abtEntry]

end

/-- DB16 of the frame that CALL pushes is the caller's (R60, R86). -/
theorem frameDb16_pushedFrame (s : State) : frameDb16 (pushedFrame s) = db16 s.dr := getLsbD_db12to17 s.dr

theorem mode_em {s : State} (h : s.mode = .em) : db16 s.dr = false := by
  cases hd : db16 s.dr with
  | false => rfl
  | true => simp [State.mode, modeOf, hd] at h

/-- The frame that CALL pushes is popped from the state that CALL makes (R97, R106). -/
theorem rcsPop_called {s u t : State} {v : VA} {n : BankName} {bd : BankDescriptor} (hm : s.memory.wf = true)
    (hr : Reaches s (vaName v) n bd) (hl : MayLand s bd)
    (hpush : rcsPush (leaveCaller s s.mode (landingMode bd) s.codeSel) (pushedFrame s) = .ok u)
    (hcall : exec (.call v) s = .next t) (hne : s.params.rcsBreg ≠ callLanding s (landingMode bd)) :
    rcsPop t = .ok (pushedFrame s, t.setRcsp s.rcsp) := by
  obtain ⟨hparams, -, -, hrcsp, hmem, -⟩ := leaveCaller_frame s s.mode (landingMode bd) s.codeSel
  have keeps : KeepsStack (callLanding s (landingMode bd)) u t := by
    rw [exec_direct (i := .call v) rfl hr hl (.inl ⟨rfl, hpush⟩), Host.Outcome.next.injEq] at hcall
    exact hcall ▸ keepsStack_enteredDirect .call n bd v.offset
  have hpop := pushThenPop _ u _ (hmem ▸ hm) hpush
  rw [hrcsp] at hpop
  exact keeps.rcsPop_eq (by rwa [(rcsPush_frame _ u _ hpush).1, hparams]) hpop

/-- Settles O46: RTN pops the frame that CALL pushed, and that frame holds all that the claim names. -/
theorem callThenRtnRestoresCaller : Obligations.CallThenRtnRestoresCaller := by
  intro s u t v n bd r hm hr hl hpush hcall hne hbinds
  have hrtn := exec_rtn_returns (rcsPop_called hm hr hl hpush hcall hne) hbinds
  obtain ⟨hpc, hdb, hkey, hrcsp⟩ := returned_restores (s := t.setRcsp s.rcsp) (k := t.codeSel) (emSlot := 0) (r := r)
    (f := pushedFrame s)
  refine ⟨_, hrtn, rfl, hpc, hrcsp, hdb, hkey, ?mode, fun hem => ?em, fun hbm => ?bm⟩
  case mode =>
    refine congrArg modeOf ((getLsbD_db12to17 _).symm.trans ?_)
    exact (congrArg (·.getLsbD 1) hdb).trans (getLsbD_db12to17 s.dr)
  case em =>
    have hd := mode_em hem
    have hname : s.callerName = s.parName := by simp [State.callerName, hd]
    obtain ⟨hpar, hreg⟩ := returned_em (s := t.setRcsp s.rcsp) (k := t.codeSel) (emSlot := 0) (r := r)
      ((frameDb16_pushedFrame s).trans hd)
    exact ⟨hpar.trans hname, hreg⟩
  case bm =>
    have hd := mode_bm s hbm
    have hname : s.callerName = s.abtEntry s.codeSel := by simp [State.callerName, hd]
    have hsel : s.callerSel = s.codeSel := by simp [State.callerSel, hd]
    obtain ⟨habt, hreg⟩ := returned_bm (s := t.setRcsp s.rcsp) (k := t.codeSel) (emSlot := 0) (r := r)
      ((frameDb16_pushedFrame s).trans hd)
    rw [← hsel]
    exact ⟨habt.trans (hname.trans (congrArg s.abtEntry hsel.symm)), hreg⟩

end Sys2Proof.Machine

/-! SUPPORT. LBE and LBU that bind: the run from the descriptor of a direct name to the end, and the hop of indirection
taken off by `indirectionTransparent`. -/

namespace Sys2Proof.Machine

/-- The base register that LBE or LBU loads (R84). -/
def loadSlot (op : OpKind) (a : RegIndex) : Slot := if op = .lbe then ⟨16 + a.val, by omega⟩ else ⟨a.val, by omega⟩

/-- The load binds Void for the bank: an LBU of a BasicMode bank under reduced privilege, with execute in neither triple
(R70). -/
def voidsBank (s : State) (op : OpKind) (bd : BankDescriptor) : Bool :=
  decide (bd.bankType = .basicMode) && (op == .lbu && reducedPrivilege s.params (processorPrivilege s.dr) &&
    !bd.gap.execute && !bd.sap.execute)

/-- The types of bank that LBE and LBU bind (R81, R82), as `LoadBinds` and `LbuBinds` write them. -/
abbrev Loadable (bd : BankDescriptor) : Prop :=
  bd.bankType = .extendedMode ∨ bd.bankType = .basicMode ∨ bd.bankType = .gate ∨ bd.bankType = .queue

theorem Loadable.dispatches {bd : BankDescriptor} (h : Loadable bd) :
    bd.bankType ≠ .indirect ∧ bd.bankType ≠ .queueRepository := by
  rcases h with h | h | h | h <;> simp [h]

/-- The state after a load has recorded the name `m` and bound `r` (R92, R93). -/
def loadBound (s : State) (op : OpKind) (a : RegIndex) (m : BankName) (r : BaseRegister) : State :=
  (recordAbt s (loadSlot op a) m).setBreg (loadSlot op a) r

/-- The record of LBE or LBU at step 10, with the name and the register that the load will bind. -/
structure LoadReady (op : OpKind) (a : RegIndex) (m : BankName) (r : BaseRegister) (i : Info) : Prop where
  step : i.step = .s10
  op : i.op = some op
  a : i.a = some a
  binds : (i.voidTarget = true ∧ m = voidName ∧ r = .void ∧ ∃ n, i.targetName = some n) ∨
    (i.voidTarget = false ∧ i.targetName = some m ∧ nameReserved m = false ∧ ∃ bd, i.target = some bd ∧ r = makeBreg bd)

/-- No register of LBE has an ABT entry (R17, R100). -/
theorem recordAbt_lbe (s : State) (a : RegIndex) (m : BankName) : recordAbt s (loadSlot .lbe a) m = s := by
  have hsel : bmSelOf (loadSlot .lbe a) = none :=
    if_neg (show ¬(12 ≤ 16 + a.val ∧ 16 + a.val ≤ 15) by omega)
  simp [recordAbt, hsel]

theorem voidsBank_lbe (s : State) (bd : BankDescriptor) : voidsBank s .lbe bd = false := by simp [voidsBank]

theorem voidsBank_lbu (s : State) (bd : BankDescriptor) : voidsBank s .lbu bd = true ↔
    bd.bankType = .basicMode ∧ reducedPrivilege s.params (processorPrivilege s.dr) = true ∧
      bd.gap.execute = false ∧ bd.sap.execute = false := by
  simp [voidsBank, and_assoc]

section
variable {s : State} {op : OpKind} {i : Instr} {a : RegIndex} {v : VA} {m : BankName} {r : BaseRegister} {j : Info}
  {bd : BankDescriptor}

/-- Steps 10, 18, 19 and 21 of LBE and LBU. -/
theorem LoadReady.ends (h : LoadReady op a m r j) (hop : op = .lbe ∨ op = .lbu) :
    Ends 4 (s.setInfo j) (finished .ok (loadBound s op a m r)) := by
  obtain ⟨-, -, -, -, htr, -⟩ := info_load j op h.op (.inr hop)
  have hslot : (op = .lbe ∧ ∃ b : RegIndex, j.a = some b ∧ loadSlot op a = ⟨16 + b.val, by omega⟩) ∨
      (op = .lbu ∧ ∃ b : RegIndex, j.a = some b ∧ loadSlot op a = ⟨b.val, by omega⟩) ∨
      (op = .lae ∧ ∃ b : Fin 16, j.laeI = some b ∧ loadSlot op a = ⟨b.val, by omega⟩) := by
    rcases hop with rfl | rfl
    · exact .inl ⟨rfl, a, h.a, rfl⟩
    · exact .inr (.inl ⟨rfl, a, h.a, rfl⟩)
  have hlae : op ≠ .lae := by rcases hop with rfl | rfl <;> decide
  have hafter : ∀ st k, afterBind { j with step := st, slot := k } = .s21 := fun _ _ =>
    if_neg (show ¬j.isTransfer = true by simp [htr])
  have hno : (({ j with step := .s18, slot := some (loadSlot op a) } : Info).isTransfer &&
      j.targetMode == some .em) = false := by
    show (j.isTransfer && _) = false
    rw [htr, Bool.false_and]
  refine Ends.cons _ _ _ _ (by simp [h.step]) (leads10_load s j op _ h.step h.op hslot) ?_
  rcases h.binds with ⟨hv, rfl, rfl, n, hn⟩ | ⟨hv, hn, hr, bd, ht, rfl⟩
  · refine Ends.cons _ _ _ _ (by simp) (leads18_abt s _ _ n rfl rfl hn hno) ?_
    refine Ends.cons _ _ _ _ (by simp) (leads19_void _ _ _ rfl rfl hv) ?_
    rw [if_pos (by simp [hv]), hafter]
    exact Ends.last _ _ (by simp) (ends21 _ _ op n rfl h.op hn (by simp [hv]) (.inl hlae)) rfl
  · refine Ends.cons _ _ _ _ (by simp) (leads18_abt s _ _ m rfl rfl hn hno) ?_
    refine Ends.cons _ _ _ _ (by simp) (leads19_bound _ _ _ bd rfl rfl ht hv) ?_
    rw [if_neg (by simp [hv]), hafter]
    exact Ends.last _ _ (by simp) (ends21 _ _ op m rfl h.op hn (by simp [hr]) (.inl hlae)) rfl

/-- Step 8's dispatch of LBE and LBU: on to step 10, with Void where R70 asks for it (R81, R82). -/
theorem step8Dispatch_load (ho : j.op = some op) (hop : op = .lbe ∨ op = .lbu) (hv : j.voidTarget = false)
    (hty : Loadable bd) :
    step8Dispatch (s.setInfo j) bd = .next (s.setInfo { j with step := .s10, voidTarget := voidsBank s op bd }) := by
  obtain ⟨hload, -, hfw, -, -, -⟩ := info_load j op ho (.inr hop)
  have henter : ∀ k : Info, k.isForward = false →
      enterThenBind (s.setInfo k) bd = .next (s.setInfo { k with step := .s10 }) := fun k hk => by
    simp [enterThenBind, enterDenied, hk, goto]
  have hkeep : bd.bankType ≠ .basicMode → { j with step := .s10, voidTarget := voidsBank s op bd } =
      { j with step := .s10 } := fun hne => by simp [voidsBank, hne, hv]
  rcases hty with hty | hty | hty | hty
  · rw [hkeep (by simp [hty])]
    simp only [step8Dispatch, hty, henter j hfw]
  · have hsub : voidsBank s op bd = substitutesVoid (s.setInfo j) bd := by
      simp [voidsBank, substitutesVoid, hty, ho]
    simp only [step8Dispatch, hty, withSubstitution, ← hsub]
    cases voidsBank s op bd with
    | false => exact (henter j hfw).trans (by rw [← hv])
    | true => exact henter { j with voidTarget := true } hfw
  · rw [hkeep (by simp [hty])]
    simp [step8Dispatch, hty, hfw, goto]
  · rw [hkeep (by simp [hty])]
    simp [step8Dispatch, hty, hload, goto]

/-- LBE or LBU whose run comes to step 10 with the name and the register to bind. -/
theorem exec_of_loadReady {n : Nat} (hop : op = .lbe ∨ (op = .lbu ∧ 2 ≤ a.val)) (hn : n ≤ 4)
    (hi : startRequest i s = startInvocation op (some a) (.va v) none s)
    (hlead : Leads n (s.setInfo (loadSourced op a v)) (s.setInfo j)) (h : LoadReady op a m r j) :
    exec i s = .next (finished .ok (loadBound s op a m r)) :=
  exec_of_finishes (by decide) (hi ▸ leads_load hop)
    ⟨n + 4, by omega, Leads.ends _ _ _ _ _ hlead (h.ends (hop.imp_right And.left))⟩ rfl

/-- LBE or LBU of the void bank (R79). -/
theorem exec_load_void (hop : op = .lbe ∨ (op = .lbu ∧ 2 ≤ a.val))
    (hi : startRequest i s = startInvocation op (some a) (.va v) none s) (hv : vaName v = ⟨0, 0⟩) :
    exec i s = .next (finished .ok (loadBound s op a voidName .void)) := by
  have hop' : op = .lbe ∨ op = .lbu := hop.imp_right And.left
  obtain ⟨hload, hint, -, -, -, -⟩ := info_load (loadSourced op a v) op rfl (.inr hop')
  have h4 := (loadSourced_atSource (a := a) (v := v) hop').leads_s5 (u := s) (by rw [hv]; decide)
  have h5 := leads5_load s { loadSourced op a v with step := .s5 } v rfl rfl hv hint hload
  exact exec_of_loadReady hop (by decide) hi (Leads.trans 1 1 _ _ _ h4 (Leads.step _ _ (by simp) h5))
    ⟨rfl, rfl, rfl, .inl ⟨rfl, rfl, rfl, _, rfl⟩⟩

/-- LBE or LBU of a bank that it names directly and finds (R80, R81). -/
theorem exec_load_found (hop : op = .lbe ∨ (op = .lbu ∧ 2 ≤ a.val))
    (hi : startRequest i s = startInvocation op (some a) (.va v) none s) (hf : FindsBank s (vaName v) bd)
    (hty : Loadable bd) :
    exec i s = .next (finished .ok (if voidsBank s op bd then loadBound s op a voidName .void
      else loadBound s op a (vaName v) (makeBreg bd))) := by
  have hop' : op = .lbe ∨ op = .lbu := hop.imp_right And.left
  have hh : Hops (loadSourced op a v) := loadSourced_hops hop'
  obtain ⟨hni, hnq⟩ := hty.dispatches
  have h7 : engineStep (s.setInfo (foundRecord (loadSourced op a v) v bd)) = .next (s.setInfo
      { foundRecord (loadSourced op a v) v bd with step := .s10, voidTarget := voidsBank s op bd }) :=
    (step7_eq_dispatch s (foundRecord (loadSourced op a v) v bd) bd rfl rfl ⟨hh.may, hh.int, hh.ret⟩ hni hnq).trans
      (step8Dispatch_load rfl hop' rfl hty)
  have hlead := Leads.trans 3 1 _ _ _ ((loadSourced_atSource hop').leads_s7 hf)
    (Leads.step _ _ (by simp [foundRecord]) h7)
  cases hvoids : voidsBank s op bd with
  | true => exact exec_of_loadReady hop (by decide) hi hlead ⟨rfl, rfl, rfl, .inl ⟨hvoids, rfl, rfl, _, rfl⟩⟩
  | false =>
    exact exec_of_loadReady hop (by decide) hi hlead
      ⟨rfl, rfl, rfl, .inr ⟨hvoids, rfl, notReserved_of _ hf.1, bd, rfl, rfl⟩⟩

/-- LBE and LBU of a name do what they do with the name of the bank that it reaches, which they find directly (R82). -/
theorem exec_load_reaches (a : RegIndex) (hr : Reaches s (vaName v) m bd) (hty : Loadable bd) :
    ∃ w, vaName w = m ∧ FindsBank s (vaName w) bd ∧ exec (.lbe a v) s = exec (.lbe a w) s ∧
      exec (.lbu a v) s = exec (.lbu a w) s := by
  rcases hr with ⟨rfl, -, hf⟩ | ⟨ib, hib, hind, hg, rfl, hf⟩
  · exact ⟨v, rfl, hf, rfl, rfl⟩
  · have hdisp : ∀ t, findBd s ib.target = .ok (some t) → t.bankType ≠ .indirect ∧ t.bankType ≠ .queueRepository := by
      intro t ht
      obtain rfl : bd = t := by simpa [hf.2] using ht
      exact hty.dispatches
    obtain ⟨-, -, hlbe, hlbu⟩ := indirectionTransparent s (vaName v) ib.target ib v.offset a hib hind hg rfl hf.1 hdisp
    exact ⟨⟨ib.target.level, ib.target.bdi, v.offset⟩, rfl, hf, hlbe, hlbu⟩

end

/-- Settles O31: none of LBE's registers has an ABT entry, and it substitutes no Void for a bank. -/
theorem lbeBindsBank : Obligations.LbeBindsBank := by
  intro s a v m r h
  have hbound : ∀ n q, loadBound s .lbe a n q = s.setBreg ⟨16 + a.val, by omega⟩ q := fun n q => by
    rw [loadBound, recordAbt_lbe]; rfl
  rw [← hbound m r]
  rcases h with ⟨hv, rfl, rfl⟩ | ⟨bd, hr, rfl, hty⟩
  · exact exec_load_void (.inl rfl) rfl hv
  · obtain ⟨w, rfl, hf, hlbe, -⟩ := exec_load_reaches a hr hty
    have hfound := exec_load_found (.inl rfl) (i := .lbe a w) (a := a) rfl hf hty
    rwa [voidsBank_lbe, if_neg (by decide), ← hlbe] at hfound

/-- Settles O32: the clause of R70 is the condition under which the run of LBU comes to step 10 with Void. -/
theorem lbuBindsBank : Obligations.LbuBindsBank := by
  intro s a v m r h2 h
  show exec (.lbu a v) s = .next (finished .ok (loadBound s .lbu a m r))
  rcases h with ⟨hv, rfl, rfl⟩ | ⟨m', bd, hr, hty, hbind⟩
  · exact exec_load_void (.inr ⟨rfl, h2⟩) rfl hv
  · obtain ⟨w, rfl, hf, -, hlbu⟩ := exec_load_reaches a hr hty
    rw [hlbu, exec_load_found (.inr ⟨rfl, h2⟩) (i := .lbu a w) rfl hf hty]
    simp only [← voidsBank_lbu] at hbind
    split at hbind
    next hvoid =>
      obtain ⟨rfl, rfl⟩ := hbind
      rw [if_pos hvoid]
      rfl
    next hbound =>
      obtain ⟨rfl, rfl⟩ := hbind
      rw [if_neg hbound]

end Sys2Proof.Machine

/-! SUPPORT. LBJ, LDJ and LIJ that land: one run for the normal and the call form, with and without a gate, from the record
at step 10; and the return form, from the frame that it pops. -/

namespace Sys2Proof.Machine

/-! ### The jump's changes, as the claims write them -/

/-- The frame that an LxJ of call form made in state `s` pushes (R86). -/
abbrev lxjFrame (s : State) (k : BmSel) : Frame := callerFrame s (s.abtEntry k) k (s.par.pc + 1) false

/-- What step 12 of an LxJ does: the call form pushes its frame, the normal form does nothing (R86, R102). -/
def LxjStoresFrame (f : LxjForm) (fr : Frame) (u w : State) : Prop :=
  (f = .call ∧ rcsPush u fr = .ok w) ∨ (f = .normal ∧ w = u)

/-- The state after step 13 of an LxJ: X(a) holds the link word (R87). -/
def lxjLinkedX (s : State) (a : RegIndex) (k : BmSel) (w : State) : State :=
  w.setGr (lxjRegister s a)
    (Config.lxjLinkWord (s.abtEntry k).level (s.abtEntry k).bdi k (s.par.pc + 1) (db16 s.dr))

/-- What steps 15 and 16 of a forward transfer into the mode `m` do to DB16, without a gate and through one (R89, R90). -/
def CrossesMode (s : State) (i : Info) (m : Mode) (u v : State) : Prop :=
  (i.gated = false ∧ v = crossDb16 s m u) ∨ (i.gated = true ∧ ∃ g, i.gate = some g ∧ v = gateDb16 s g m u)

/-- Steps 17 to 20 of an LxJ, from the state `v` that step 16 leaves (R91 to R94). -/
def lxjBound (s : State) (op : OpKind) (k : BmSel) (n : BankName) (bd : BankDescriptor) (off : BitVec 18)
    (v : State) : State :=
  toggled s op (landingMode bd) (arrive (v.setPc off) (landingMode bd) (lxjLanding k (landingMode bd)) n (makeBreg bd))

section
variable {s u w : State} {f : LxjForm} {fr : Frame} {a : RegIndex} {k : BmSel}

/-- The two clauses in which the claims state step 12. -/
theorem lxjStoresFrame_of (hret : f ≠ .ret) (hcall : f = .call → rcsPush u fr = .ok w) (hnormal : f = .normal → w = u) :
    LxjStoresFrame f fr u w := by
  cases f with
  | normal => exact .inr ⟨rfl, hnormal rfl⟩
  | call => exact .inl ⟨rfl, hcall rfl⟩
  | ret => exact absurd rfl hret

theorem LxjStoresFrame.form (h : LxjStoresFrame f fr u w) : f ≠ .ret := by
  rcases h with ⟨rfl, -⟩ | ⟨rfl, -⟩ <;> decide

theorem LxjStoresFrame.params (h : LxjStoresFrame f fr u w) : w.params = u.params := by
  rcases h with ⟨-, hpush⟩ | ⟨-, rfl⟩
  · exact (rcsPush_frame u w fr hpush).1
  · rfl

@[simp] theorem lxjLinkedX_params : (lxjLinkedX s a k w).params = w.params := setGr_params w _ _

@[simp] theorem lxjLinks_params (m : Mode) : (lxjLinks s a k f m w).params = w.params := by
  unfold lxjLinks
  split <;> simp

end

/-! ### The record at step 10 -/

/-- The classes of an LxJ of normal or call form (R12). -/
theorem info_lxjForward {i : Info} {op : OpKind} {f : LxjForm} (ho : i.op = some op) (hx : kindIsLxj op = true)
    (hf : i.form = some f) (hret : f ≠ .ret) : i.isForward = true ∧ i.isInt = false ∧ i.isReturn = false ∧
      i.isReturnLike = false ∧ i.isTransfer = true ∧ (i.isLxjForm .normal || i.isLxjForm .call) = true ∧
      i.isCall = (f == .call) := by
  obtain ⟨-, hform, hint, htr, -, hreturn, hlike, hfw, hcall⟩ := info_lxj i op f ho hx hf
  rw [hfw, hint, hreturn, hlike, htr, hform, hform, hcall]
  cases f with
  | normal | call => decide
  | ret => exact absurd rfl hret

/-- The record of an LxJ of form `f` at step 10: it selects the register `k`, the caller's snapshot was taken in `s`, and
the bank `bd`, named `n`, is entered at `off`. -/
structure LxjEntering (s : State) (op : OpKind) (a : RegIndex) (k : BmSel) (f : LxjForm) (i : Info) (n : BankName)
    (bd : BankDescriptor) (off : BitVec 18) : Prop where
  step : i.step = .s10
  kind : kindIsLxj op = true
  selects : lxjSel s.params op (s.gr (lxjRegister s a)) (db31 s.dr) = some k
  code : i.op = some op
  form : i.form = some f
  register : i.a = some a
  prior : i.prior = some (capturePrior s op (s.gr (lxjRegister s a)))
  target : i.target = some bd
  name : i.targetName = some n
  unreserved : nameReserved n = false
  bound : i.voidTarget = false
  offset : i.finalOffset = some off

section
variable {s u v w : State} {op : OpKind} {a : RegIndex} {k : BmSel} {f : LxjForm} {i : Info} {n : BankName}
  {bd : BankDescriptor} {off : BitVec 18}

/-- Step 10: extended mode in B0, basic mode in the register that the LxJ selects (R84). -/
theorem LxjEntering.leads_s11 (h : LxjEntering s op a k f i n bd off) (hret : f ≠ .ret) :
    engineStep (u.setInfo i) = .next (u.setInfo (landed i (landingMode bd) (lxjLanding k (landingMode bd)))) := by
  obtain ⟨-, -, hreturn, -⟩ := info_lxjForward h.code h.kind h.form hret
  obtain ⟨-, -, hslot, -⟩ := capture_lxj s op _ k h.selects h.kind
  have hland : (if landingMode bd = .em then emCodeSlot else (capturePrior s op (s.gr (lxjRegister s a))).slot) =
      lxjLanding k (landingMode bd) := by
    rw [hslot]
    cases landingMode bd <;> rfl
  rw [← hland]
  exact leads10_lxj u i op bd _ h.step h.code h.kind hreturn h.target h.prior

/-- Step 12 of an LxJ. -/
theorem LxjStoresFrame.leads12 {pr : Prior} (h : LxjStoresFrame f (returnFrame pr false) u w) (hs : i.step = .s12)
    (ho : i.op = some op) (hx : kindIsLxj op = true) (hf : i.form = some f) (hp : i.prior = some pr) :
    engineStep (u.setInfo i) = .next (w.setInfo { i with step := .s13 }) := by
  obtain ⟨-, hint, -, -, -, -, hcall⟩ := info_lxjForward ho hx hf h.form
  rcases h with ⟨rfl, hpush⟩ | ⟨rfl, rfl⟩
  · exact leads12_push u i pr w hs hp (by rw [hcall, hint]; rfl) (by rw [hint]; exact hpush)
  · exact leads12_none w i hs (by rw [hcall]; rfl)

/-- Steps 10 to 13: the landing, the caller left, the frame, and the link word in X(a) (R84 to R87). -/
theorem LxjEntering.leads_s14 (h : LxjEntering s op a k f i n bd off)
    (hframe : LxjStoresFrame f (lxjFrame s k) (leaveCaller u s.mode (landingMode bd) k) w) :
    Leads 4 (u.setInfo i)
      ((lxjLinkedX s a k w).setInfo (linking i (landingMode bd) (lxjLanding k (landingMode bd)))) := by
  obtain ⟨-, -, -, -, -, hlink, -⟩ := info_lxjForward h.code h.kind h.form hframe.form
  obtain ⟨hname, hsel, -, hoff⟩ := capture_lxj s op _ k h.selects h.kind
  have h10 := h.leads_s11 (u := u) hframe.form
  rw [lxjFrame, ← returnFrame_lxj s op _ k h.kind h.selects, ← voidPrior_lxj s u op _ _ k h.kind h.selects] at hframe
  have h13 := leads13_link w { landed i (landingMode bd) (lxjLanding k (landingMode bd)) with step := .s13 } _ a rfl
    h.prior h.register hlink
  rw [hname, hsel, hoff] at h13
  refine Leads.cons _ _ _ _ (by simp [h.step]) h10 ?_
  refine Leads.cons _ _ _ _ (by simp [landed]) (leads11 u _ _ _ rfl h.prior rfl) ?_
  refine Leads.cons _ _ _ _ (by simp)
    (hframe.leads12 (i := { landed i _ _ with step := .s12 }) rfl h.code h.kind h.form h.prior) ?_
  exact Leads.step _ _ (by simp) h13

/-- Step 14 of an LxJ, as the claims write the two link registers (R87, R88). -/
theorem linked_lxj (hfw : i.isForward = true) (hform : ∀ g, i.isLxjForm g = (f == g)) (hp : w.params = s.params)
    (x : Word) (m : Mode) :
    linked (lxjLinkedX s a k w) i (capturePrior s op x) m = lxjLinks s a k f m w := by
  have hlink : ((i.isForward && (capturePrior s op x).mode != m) || i.isLxjForm .normal) = true ↔
      f = .normal ∨ s.mode ≠ m := by
    rw [hfw, hform, capturePrior_mode, Bool.true_and, Bool.or_eq_true, bne_iff_ne, or_comm]
    cases f <;> simp
  simp only [linked, lxjLinks, hlink, lxjLinkedX_params, hp]
  rfl

/-- An LxJ from step 10, with and without a gate (R84 to R95); the gate's transfers have made `u` of `s`. -/
theorem LxjEntering.finishes (h : LxjEntering s op a k f i n bd off) (hp : u.params = s.params)
    (hframe : LxjStoresFrame f (lxjFrame s k) (leaveCaller u s.mode (landingMode bd) k) w)
    (hcross : CrossesMode s i (landingMode bd) (lxjLinks s a k f (landingMode bd) w) v) :
    Ends 12 (u.setInfo i) (finished .ok (lxjBound s op k n bd off v)) := by
  obtain ⟨hfw, hint, -, hlike, htr, -, -⟩ := info_lxjForward
    (i := linking i (landingMode bd) (lxjLanding k (landingMode bd))) h.code h.kind h.form hframe.form
  obtain ⟨-, hform, -⟩ := info_lxj (linking i (landingMode bd) (lxjLanding k (landingMode bd))) op f h.code h.kind h.form
  have hw : w.params = s.params := by rw [hframe.params, leaveCaller_params, hp]
  refine Leads.ends 4 8 _ _ _ (h.leads_s14 hframe) ?_
  rcases hcross with ⟨hg, rfl⟩ | ⟨hg, g, hgr, rfl⟩
  · refine ends_forward _ (linking i (landingMode bd) _) op _ (landingMode bd) _ bd n off rfl h.code h.prior rfl rfl
      h.target h.name h.bound h.unreserved htr hg h.offset hfw hint hlike _ _ ?_
      (toggle_call (by simp [hw]) _ _ _).symm
    rw [linked_lxj hfw hform hw]
    rfl
  · refine ends_gated _ (linking i (landingMode bd) _) op _ (landingMode bd) _ bd n off g rfl h.code h.prior rfl rfl
      h.target h.name h.bound h.unreserved htr hg hgr h.offset hfw hint hlike _ _ ?_
      (toggle_call (by simp [hw]) _ _ _).symm
    rw [linked_lxj hfw hform hw, gateDb16_eq]
    rfl

end

/-! ### From the request to step 10 -/

section
variable {s w : State} {i : Instr} {a : RegIndex} {d : BitVec 18} {k : BmSel} {f : LxjForm}

/-- An LxJ of a bank that it may enter, after the step that stores the frame. -/
theorem exec_lxj_direct {n : BankName} {bd : BankDescriptor} (hsel : LxjSelects s i a d k) (hf : LxjHasForm s a f)
    (hr : Reaches s (vaName (lxjTarget s a d)) n bd) (hl : MayLand s bd)
    (hframe : LxjStoresFrame f (lxjFrame s k) (leaveCaller s s.mode (landingMode bd) k) w) :
    exec i s = .next (finished .ok (lxjBound s i.kind k n bd d
      (crossDb16 s (landingMode bd) (lxjLinks s a k f (landingMode bd) w)))) := by
  obtain ⟨hx, -, hk⟩ := lxj_kind s i a d k hsel
  have hrec := forwardRecord_lxj hsel hf hframe.form
  obtain ⟨j, ib, hj, h10⟩ := leads_reaches s _ _ n bd rfl rfl hr hl hrec.forward hrec.int hrec.ret hrec.lbu
  refine exec_of_landing (k := 3 + j) (by omega)
    (Leads.trans 3 j _ _ _ (leads_lxj_forward hsel hf hframe.form) h10) ?_
  exact LxjEntering.finishes
    ⟨rfl, hx, hk, rfl, rfl, rfl, rfl, rfl, rfl, notReserved_of n (reaches_name s _ n bd hr), rfl, rfl⟩ rfl hframe
    (.inl ⟨rfl, rfl⟩)

/-- An LxJ through a gate that does not inhibit it, after the step that stores the frame. -/
theorem exec_lxj_gated {g : GateRecord} {t : BankDescriptor} (hsel : LxjSelects s i a d k) (hf : LxjHasForm s a f)
    (hr : ReadsGate s (lxjTarget s a d) g) (ha : GateAdmits s g) (hl : GateLeads s g t)
    (hinh : g.gotoInhibited = true → ¬GotoInhibitApplies s i)
    (hframe : LxjStoresFrame f (lxjFrame s k) (leaveCaller (gateTransfers s g) s.mode (landingMode t) k) w) :
    exec i s = .next (finished .ok (lxjBound s i.kind k (vaName g.target) t g.target.offset
      (gateDb16 s g (landingMode t) (lxjLinks s a k f (landingMode t) w)))) := by
  obtain ⟨hx, -, hk⟩ := lxj_kind s i a d k hsel
  have hrec := forwardRecord_lxj hsel hf hframe.form
  obtain ⟨n, gb, hreach, hgate, hgf, henter, hlow, hup, halign, hread⟩ := hr
  obtain ⟨j, ib, hj, h9⟩ := leads_reaches_gate s _ _ n gb rfl rfl hreach hgate hrec.forward hrec.int
  have hoff := gateOffsetOk_of s.params gb _ hlow hup halign
  have hpass : (g.gotoInhibited && gotoInhibitApplies (lxjForwardRecord s i.kind a d f)) = false := by
    rw [Bool.and_eq_false_imp, ← Bool.not_eq_true, hrec.inhibit]
    exact hinh
  have h10 := leads9 s { lxjForwardRecord s i.kind a d f with
      step := .s9, srcBD := some ib, target := some gb, targetName := some n }
    (lxjTarget s a d) gb g t rfl rfl rfl hgf henter hoff hread ha hpass hl
  refine exec_of_landing (k := 3 + (j + 1)) (by omega)
    (Leads.trans 3 _ _ _ _ (leads_lxj_forward hsel hf hframe.form)
      (Leads.trans j 1 _ _ _ h9 (Leads.step _ _ (by simp) h10))) ?_
  exact LxjEntering.finishes
    ⟨rfl, hx, hk, rfl, rfl, rfl, rfl, rfl, rfl, notReserved_of _ hl.1.1, rfl, rfl⟩ (gateTransfers_params s g) hframe
    (.inr ⟨rfl, g, rfl, rfl⟩)

end

/-- Settles O38: an LxJ without a gate, its form deciding step 12. -/
theorem lxjBindsBank : Obligations.LxjBindsBank := fun _ _ _ _ _ _ _ _ _ hsel hf hret hr hl hcall hnormal =>
  exec_lxj_direct hsel hf hr hl (lxjStoresFrame_of hret hcall hnormal)

/-- Settles O39: an LxJ through a gate; an inhibiting gate leaves the call form alone, but for LBJ with IS = 1. -/
theorem lxjThroughGate : Obligations.LxjThroughGate := by
  intro s u i a d k f g t hsel hf hret hr ha hl hinh hcall hnormal
  refine exec_lxj_gated hsel hf hr ha hl (fun hg => ?_) (lxjStoresFrame_of hret hcall hnormal)
  obtain ⟨rfl, hlbj⟩ := hinh hg
  rw [gotoInhibitApplies_lxj_iff hsel hf]
  exact fun h => h.elim (fun e => nomatch e) hlbj

/-! ### The return form -/

/-- Settles O41: from the popped frame on, the run is that of RTN, but that the register that it voids is the one that the
LxJ selects. -/
theorem lxjReturnsToFrame : Obligations.LxjReturnsToFrame := by
  intro s s1 i a d k fr r hsel hf hpop hb
  obtain ⟨hx, hstart, hk⟩ := lxj_kind s i a d k hsel
  obtain ⟨-, -, hslot, -⟩ := capture_lxj s i.kind _ k hk hx
  obtain rfl := rcsPop_state s s1 fr hpop
  have hrec : PopRecord (lxjRecord i.kind a d (s.gr (lxjRegister s a)) .ret
      (capturePrior s i.kind (s.gr (lxjRegister s a)))) := ⟨rfl, i.kind, rfl, .inr ⟨hx, rfl⟩⟩
  obtain ⟨n, op, j, hn, hj, hprior, hlead⟩ := hrec.leads_s10 rfl (returnBinds_setRcsp s fr r _ hb)
  have h3 := hstart ▸ leads_lxj s i.kind a d .ret hx hf
  have h10 := Leads.trans _ _ _ _ _ (Leads.trans _ _ _ _ _ h3 (hrec.leads_s4 hpop)) hlead
  exact exec_of_landing (k := 2 + 1 + n) (by omega) h10 (hj.ends hprior rfl fun _ => hslot)

end Sys2Proof.Machine

/-! SUPPORT. The next states of RTN and UR: their whole runs are told by `exec_rtn_returns` and `exec_ur_returns`. -/

namespace Sys2Proof.Machine

/-- Settles O42: the run of RTN from the frame that step 3 pops; the void bank and the found bank join at step 10
(`PopRecord.leads_s10`), and from there one run lands in the frame's mode (`PopBinds.ends`). -/
theorem rtnReturnsToFrame : Obligations.RtnReturnsToFrame := fun _ _ _ _ hpop hbinds =>
  exec_rtn_returns hpop hbinds

/-- Settles O43: the run of UR, whose frame is its operand, so that no step moves RCSP; step 10 takes
B[P_HARD_HELD_SLOT] for extended mode (`UrBinds.ends`). -/
theorem urReturnsToOperand : Obligations.UrReturnsToOperand := fun _ _ _ hbinds => exec_ur_returns hbinds

end Sys2Proof.Machine

/-! SUPPORT. Interrupt entry: the run from the vector to the handler, the checks that turn it into a halt, and the RTN that
resumes the interrupted code. -/

namespace Sys2Proof.Machine

/-! ### The entry's changes, as the claims write them -/

/-- The frame that an interrupt entry made in state `s` pushes (R86, R108). -/
abbrev interruptFrame (s : State) : Frame := callerFrame s s.callerName s.callerSel s.par.pc true

/-- The state after step 11 of an interrupt entry (R85). -/
abbrev interruptLeft (s : State) : State := leaveCaller s s.mode .em s.codeSel

/-- What step 12 of an interrupt entry does: it pushes the frame where P_INT_PUSHES_RCS (R86, R108). -/
def IntStoresFrame (s u : State) : Prop :=
  (s.params.intPushesRcs = true ∧ rcsPush (interruptLeft s) (interruptFrame s) = .ok u) ∨
    (s.params.intPushesRcs = false ∧ u = interruptLeft s)

/-- Steps 16 to 19 of an interrupt entry at `v`, from the state `u` that step 12 leaves (R90 to R93). -/
def intEntered (s : State) (v : VA) (bd : BankDescriptor) (u : State) : State :=
  arrive (((u.setDr (setDb12to17 s.dr s.params.intDb)).setIkr (setAccessKey s.ikr s.params.intKey)).setPc v.offset)
    .em s.params.hardHeldSlot (vaName v) (makeBreg bd)

/-- Steps 11 and 12 keep what step 16 reads and overwrites: the parameters, DR and IKR. -/
theorem IntStoresFrame.frame {s u : State} (h : IntStoresFrame s u) :
    u.params = s.params ∧ u.dr = s.dr ∧ u.ikr = s.ikr := by
  obtain ⟨hparams, hdr, hikr, -⟩ := leaveCaller_frame s s.mode .em s.codeSel
  rcases h with ⟨-, hpush⟩ | ⟨-, rfl⟩
  · obtain ⟨hp, hd, hk, -⟩ := rcsPush_frame _ u _ hpush
    exact ⟨hp.trans hparams, hd.trans hdr, hk.trans hikr⟩
  · exact ⟨hparams, hdr, hikr⟩

/-- The frame of the snapshot of interrupt entry: the resume address is PAR.PC itself (R76, R86). -/
theorem returnFrame_int (s : State) : returnFrame (capturePrior s .int 0) true = interruptFrame s := by
  obtain ⟨hname, hsel, -⟩ := capture_plain s .int rfl
  simp only [returnFrame, hname, hsel]
  rfl

/-! ### Steps of interrupt entry -/

/-- The classes of interrupt entry (R12). -/
theorem info_int (i : Info) (ho : i.op = some .int) :
    i.isInt = true ∧ i.isCall = true ∧ i.isForward = false ∧ ∀ f, i.isLxjForm f = false := by
  simp [Info.isInt, Info.isCall, Info.isForward, Info.isLxjForm, Info.isLxj, ho, kindIsLxj]

section
variable (u : State) (i : Info)

/-- Step 4 of a reserved name (R78). -/
theorem step4_reserved (v : VA) (hs : i.step = .s4) (hv : i.src = some v) (hr : nameReserved (vaName v) = true) :
    engineStep (u.setInfo i) = raise (.addressing .invalidSourceLevelBDI) (u.setInfo i) := by
  have h : engineStep (u.setInfo i) = step4 (u.setInfo i) := by simp only [engineStep, setInfo_info, hs]
  exact h.trans ((need_eq _ _ _ hv).trans (if_pos hr))

/-- Step 5 of an interrupt vector that names the void bank (R79). -/
theorem step5_intVoid (v : VA) (hs : i.step = .s5) (ho : i.op = some .int) (hv : i.src = some v)
    (hn : vaName v = ⟨0, 0⟩) :
    engineStep (u.setInfo i) = raise (.addressing .invalidSourceLevelBDI) (u.setInfo i) := by
  have h : engineStep (u.setInfo i) = step5 (u.setInfo i) := by simp only [engineStep, setInfo_info, hs]
  obtain ⟨hint, -⟩ := info_int i ho
  exact h.trans ((need_eq _ _ _ hv).trans ((if_pos (by rw [hn]; rfl)).trans (if_pos hint)))

/-- Step 6 of a name that FIND_BD does not find (R80). -/
theorem step6_notFound (v : VA) (hs : i.step = .s6) (hv : i.src = some v) (hf : findBd u (vaName v) = .ok none) :
    engineStep (u.setInfo i) = raise (.addressing .fatalAddressingException) (u.setInfo i) := by
  have h : engineStep (u.setInfo i) = step6 (u.setInfo i) := by simp only [engineStep, setInfo_info, hs]
  refine h.trans ((need_eq _ _ _ hv).trans ?_)
  rw [findBd_setInfo, hf]
  rfl

/-- Step 7 of interrupt entry to an ExtendedMode bank: the direct enter check is for forward transfers (R81). -/
theorem leads7_int (bd : BankDescriptor) (hs : i.step = .s7) (ho : i.op = some .int) (hb : i.srcBD = some bd)
    (ht : bd.bankType = .extendedMode) : engineStep (u.setInfo i) = .next (u.setInfo { i with step := .s10 }) := by
  obtain ⟨-, -, hfw, -⟩ := info_int i ho
  simp [engineStep, hs, step7, hb, ht, enterThenBind, enterDenied, hfw, goto]

/-- Step 7 of interrupt entry to any other bank (R81). -/
theorem step7_int (bd : BankDescriptor) (hs : i.step = .s7) (ho : i.op = some .int) (hb : i.srcBD = some bd)
    (ht : bd.bankType ≠ .extendedMode) :
    engineStep (u.setInfo i) = raise (.addressing .bdTypeInvalid) (u.setInfo i) := by
  have h : engineStep (u.setInfo i) = step7 (u.setInfo i) := by simp only [engineStep, setInfo_info, hs]
  refine h.trans ((need_eq _ _ _ hb).trans ?_)
  obtain ⟨hint, -⟩ := info_int i ho
  have hload : i.isLoad = false := isLoad_of_op ho
  cases hty : bd.bankType with
  | extendedMode => exact absurd hty ht
  | basicMode | gate | indirect => exact if_pos hint
  | queue => exact if_neg (by simp [hload])
  | queueRepository => rfl

/-- Step 12 of interrupt entry. -/
theorem leads12_int {s w : State} (hs : i.step = .s12) (ho : i.op = some .int)
    (hp : i.prior = some (capturePrior s .int 0)) (h : IntStoresFrame s w) :
    engineStep ((interruptLeft s).setInfo i) = .next (w.setInfo { i with step := .s13 }) := by
  obtain ⟨hint, hcall, -⟩ := info_int i ho
  rcases h with ⟨hpushes, hpush⟩ | ⟨hpushes, rfl⟩
  · refine leads12_push _ i _ w hs hp (by simp [hcall, hpushes]) ?_
    rw [hint, returnFrame_int]
    exact hpush
  · exact leads12_none _ i hs (by simp [hint, hpushes])

/-- Step 12 of interrupt entry without room for its frame (R86). -/
theorem step12_intOverflow {s : State} {e : EngineFault} (hs : i.step = .s12) (ho : i.op = some .int)
    (hp : i.prior = some (capturePrior s .int 0)) (hpushes : u.params.intPushesRcs = true)
    (hpush : rcsPush u (interruptFrame s) = .raise e) :
    engineStep (u.setInfo i) = raise e (u.setInfo i) := by
  have h : engineStep (u.setInfo i) = step12 (u.setInfo i) := by simp only [engineStep, setInfo_info, hs]
  obtain ⟨hint, hcall, -⟩ := info_int i ho
  refine h.trans ((if_pos (by simp [hcall, hpushes])).trans ((need_eq _ _ _ hp).trans ?_))
  rw [setInfo_info, hint, returnFrame_int, rcsPush_setInfo, hpush]
  rfl

end

/-! ### The run of interrupt entry -/

/-- The record of interrupt entry at step 4. -/
def intRecord (s : State) (c : Nat) (v : VA) : Info := sourced (plainRecord s (.int c)) v

/-- The record of interrupt entry at step 12. -/
def intLanding (s : State) (c : Nat) (v : VA) (bd : BankDescriptor) : Info :=
  { landed (foundRecord (intRecord s c v) v bd) .em s.params.hardHeldSlot with step := .s12 }

section
variable {s : State} {c : Nat} {v : VA} {bd : BankDescriptor}

/-- Steps 1 to 3: the caller's snapshot and the vector (R76, R77). -/
theorem leads_int_s4 (hv : vectorRead s c = .ok v) :
    Leads 3 (startRequest (.int c) s) (s.setInfo (intRecord s c v)) :=
  Leads.trans 2 1 _ _ _ (leads_plain s (.int c) rfl rfl)
    (Leads.step _ _ (by simp [plainRecord]) (leads3_int s (plainRecord s (.int c)) c v rfl rfl rfl hv))

/-- Step 4 of a vector whose name is not reserved. -/
theorem leads_int_s5 (hv : vectorRead s c = .ok v) (hr : nameReserved (vaName v) = false) :
    Leads 4 (startRequest (.int c) s) (s.setInfo { intRecord s c v with step := .s5 }) :=
  Leads.trans 3 1 _ _ _ (leads_int_s4 hv)
    (Leads.step _ _ (by simp [intRecord, sourced]) (leads4 s (intRecord s c v) v rfl rfl hr))

/-- Step 5 of a vector whose name is not the void bank's either. -/
theorem leads_int_s6 (hv : vectorRead s c = .ok v) (hn : nameReservedOrVoid (vaName v) = false) :
    Leads 5 (startRequest (.int c) s) (s.setInfo { intRecord s c v with step := .s6 }) :=
  Leads.trans 4 1 _ _ _ (leads_int_s5 hv (notReserved_of _ hn))
    (Leads.step _ _ (by simp) (leads5 s { intRecord s c v with step := .s5 } v rfl rfl (notVoid_of _ hn)))

/-- Step 6 of a vector whose bank is found. -/
theorem leads_int_s7 (hv : vectorRead s c = .ok v) (hf : FindsBank s (vaName v) bd) :
    Leads 6 (startRequest (.int c) s) (s.setInfo (foundRecord (intRecord s c v) v bd)) :=
  Leads.trans 5 1 _ _ _ (leads_int_s6 hv hf.1)
    (Leads.step _ _ (by simp) (leads6 s { intRecord s c v with step := .s6 } v bd rfl rfl hf.2))

/-- Steps 7 to 11: the landing in B[P_HARD_HELD_SLOT], and the interrupted code left (R84, R85). -/
theorem leads_int_s12 (hv : vectorRead s c = .ok v) (hf : FindsBank s (vaName v) bd) (ht : bd.bankType = .extendedMode) :
    Leads 9 (startRequest (.int c) s) ((interruptLeft s).setInfo (intLanding s c v bd)) := by
  refine Leads.trans 6 3 _ _ _ (leads_int_s7 hv hf) ?_
  refine Leads.cons _ _ _ _ (by simp [foundRecord]) (leads7_int s _ bd rfl rfl rfl ht) ?_
  refine Leads.cons _ _ _ _ (by simp) (leads10_int s _ rfl rfl) ?_
  refine Leads.step _ _ (by simp [landed]) ?_
  rw [interruptLeft, ← voidPrior_plain s s .int .em rfl]
  exact leads11 s _ _ .em rfl rfl rfl

/-- Interrupt entry into an ExtendedMode bank (R108). -/
theorem exec_int_enters {u : State} (hv : vectorRead s c = .ok v) (hf : FindsBank s (vaName v) bd)
    (ht : bd.bankType = .extendedMode) (hframe : IntStoresFrame s u) :
    exec (.int c) s = .next (finished .ok (intEntered s v bd u)) := by
  obtain ⟨hparams, hdr, hikr⟩ := hframe.frame
  have h13 : Leads 10 (startRequest (.int c) s) (u.setInfo { intLanding s c v bd with step := .s13 }) :=
    Leads.trans 9 1 _ _ _ (leads_int_s12 hv hf ht)
      (Leads.step _ _ (by simp [intLanding]) (leads12_int (intLanding s c v bd) rfl rfl rfl hframe))
  have h14 : Leads 11 (startRequest (.int c) s) (u.setInfo { intLanding s c v bd with step := .s14 }) :=
    Leads.trans 10 1 _ _ _ h13 (Leads.step _ _ (by simp) (leads13_none u _ rfl rfl))
  have hend : Ends 8 (u.setInfo { intLanding s c v bd with step := .s14 }) (finished .ok (intEntered s v bd u)) := by
    refine ends_int u _ _ s.params.hardHeldSlot bd (vaName v) v.offset rfl rfl rfl rfl rfl rfl rfl rfl
      (notReserved_of _ hf.1) rfl rfl _ ?_
    rw [intEntered, restoreDesignators, hparams, hdr, hikr]
  rw [exec_eq_run]
  exact Ends.runs (11 + 8) (by decide) _ _ (Leads.ends _ _ _ _ _ h14 hend) rfl

/-- A step of interrupt entry that raises halts the processor (R74, R112). -/
theorem exec_int_wraps {k : Nat} {u : State} {j : Info} {e : EngineFault} (hk : k < engineFuel)
    (hlead : Leads k (startRequest (.int c) s) (u.setInfo j)) (hj : j.step ≠ .idle) (ho : j.op = some .int)
    (he : engineStep (u.setInfo j) = raise e (u.setInfo j)) :
    exec (.int c) s = .next (finished (.halt (.wrappedFault e)) u) := by
  have hraise : raise e (u.setInfo j) = .next (finished (.halt (.wrappedFault e)) u) := by rw [raise_setInfo, if_pos ho]
  rw [exec_eq_run]
  exact runEngine_of_leads k hk _ _ _ hlead hj (he.trans hraise) rfl

end

/-- Settles O47: one run for an entry with the push and one without, told apart at step 12 (`IntStoresFrame`). -/
theorem intEntersHandler : Obligations.IntEntersHandler := by
  intro s u c v bd hv hf ht hpush hnone
  refine exec_int_enters hv hf ht ?_
  cases hp : s.params.intPushesRcs with
  | true => exact .inl ⟨hp, hpush hp⟩
  | false => exact .inr ⟨hp, hnone hp⟩

/-- Settles O48: the checks of steps 4 to 7 raise in the state as it was, and the push of step 12 after step 11. -/
theorem intHaltsOnFailure : Obligations.IntHaltsOnFailure := by
  refine ⟨fun s c v hv hn => ?noDestination, fun s c v hv hn hf => ?notFound, fun s c v bd hv hf ht => ?notExtended,
    fun s c v bd e hv hf ht hpushes hpush => ?overflow⟩
  case noDestination =>
    rcases nameReservedOrVoid_cases hn with hr | ⟨hr, hvoid⟩
    · exact exec_int_wraps (by decide) (leads_int_s4 hv) (by simp [intRecord, sourced]) rfl
        (step4_reserved s _ v rfl rfl hr)
    · exact exec_int_wraps (by decide) (leads_int_s5 hv hr) (by simp) rfl (step5_intVoid s _ v rfl rfl rfl hvoid)
  case notFound =>
    exact exec_int_wraps (by decide) (leads_int_s6 hv hn) (by simp) rfl (step6_notFound s _ v rfl rfl hf)
  case notExtended =>
    exact exec_int_wraps (by decide) (leads_int_s7 hv hf) (by simp [foundRecord]) rfl (step7_int s _ bd rfl rfl rfl ht)
  case overflow =>
    exact exec_int_wraps (by decide) (leads_int_s12 hv hf ht) (by simp [intLanding]) rfl
      (step12_intOverflow _ _ rfl rfl rfl (by simpa using hpushes) hpush)

/-! ### The return to the interrupted code -/

/-- What interrupt entry does after its push leaves the stack alone (R90 to R93). -/
theorem keepsStack_intEntered (s : State) (v : VA) (bd : BankDescriptor) (u : State) :
    KeepsStack s.params.hardHeldSlot u (finished .ok (intEntered s v bd u)) := by
  have hset : KeepsStack s.params.hardHeldSlot u (((u.setDr (setDb12to17 s.dr s.params.intDb)).setIkr
      (setAccessKey s.ikr s.params.intKey)).setPc v.offset) := ⟨rfl, rfl, rfl, fun _ _ => rfl⟩
  exact (hset.trans (keepsStack_arrive .em (vaName v) (makeBreg bd))).trans ⟨rfl, rfl, rfl, fun _ _ => rfl⟩

/-- The frame that interrupt entry pushes is popped from the state that it makes (R106, R108). -/
theorem rcsPop_interrupted {s u t : State} {c : Nat} {v : VA} {bd : BankDescriptor} (hm : s.memory.wf = true)
    (hv : vectorRead s c = .ok v) (hf : FindsBank s (vaName v) bd) (ht : bd.bankType = .extendedMode)
    (hpushes : s.params.intPushesRcs = true) (hpush : rcsPush (interruptLeft s) (interruptFrame s) = .ok u)
    (hint : exec (.int c) s = .next t) (hne : s.params.rcsBreg ≠ s.params.hardHeldSlot) :
    rcsPop t = .ok (interruptFrame s, t.setRcsp s.rcsp) := by
  obtain ⟨-, -, -, hrcsp, hmem, -⟩ := leaveCaller_frame s s.mode .em s.codeSel
  have hframe : IntStoresFrame s u := .inl ⟨hpushes, hpush⟩
  have keeps : KeepsStack s.params.hardHeldSlot u t := by
    rw [exec_int_enters hv hf ht hframe, Host.Outcome.next.injEq] at hint
    exact hint ▸ keepsStack_intEntered s v bd u
  have hpop : rcsPop u = .ok (interruptFrame s, u.setRcsp s.rcsp) := hrcsp ▸ pushThenPop _ u _ (hmem ▸ hm) hpush
  obtain ⟨hparams, -⟩ := hframe.frame
  exact keeps.rcsPop_eq (by rwa [hparams]) hpop

/-- The mode is read from DB12-17 (R13, R19). -/
theorem mode_eq_of_db12to17 {s w : State} (h : db12to17 w.dr = db12to17 s.dr) : w.mode = s.mode := by
  unfold State.mode
  rw [← getLsbD_db12to17, h, getLsbD_db12to17]

section
variable (s : State) (off : BitVec 18) (trap : Bool)

/-- The frame of code in extended mode names PAR's bank (R60, R76). -/
theorem callerFrame_em (h : s.mode = .em) :
    frameDb16 (callerFrame s s.callerName s.callerSel off trap) = false ∧
      vaName (frameVa (callerFrame s s.callerName s.callerSel off trap)) = s.parName := by
  have hd := mode_em h
  refine ⟨(getLsbD_db12to17 s.dr).trans hd, ?_⟩
  simp [callerFrame, frameVa, vaName, State.callerName, hd]

/-- The frame of code in basic mode names the bank of the current code register (R60, R76). -/
theorem callerFrame_bm (h : s.mode = .bm) :
    frameDb16 (callerFrame s s.callerName s.callerSel off trap) = true ∧
      (callerFrame s s.callerName s.callerSel off trap).sel = s.codeSel ∧
      vaName (frameVa (callerFrame s s.callerName s.callerSel off trap)) = s.abtEntry s.codeSel := by
  have hd := mode_bm s h
  refine ⟨(getLsbD_db12to17 s.dr).trans hd, ?_, ?_⟩
  · simp [callerFrame, State.callerSel, hd]
  · simp [callerFrame, frameVa, vaName, State.callerName, hd]

end

/-- RTN to the frame of code that ran in state `s` brings that code back (R106, R117). -/
theorem exec_rtn_resumes {s t : State} {off : BitVec 18} {trap : Bool} {r : BaseRegister}
    (hpop : rcsPop t = .ok (callerFrame s s.callerName s.callerSel off trap, t.setRcsp s.rcsp))
    (hbinds : ReturnBinds t (callerFrame s s.callerName s.callerSel off trap) r) :
    ∃ w, exec .rtn t = .next w ∧ w.result = some .ok ∧ w.par.pc = off ∧ w.rcsp = s.rcsp ∧
      db12to17 w.dr = db12to17 s.dr ∧ accessKey w.ikr = accessKey s.ikr ∧ w.mode = s.mode ∧
      (s.mode = .em → w.parName = s.parName ∧ w.breg 0 = r) ∧
      (s.mode = .bm → w.abtEntry s.codeSel = s.abtEntry s.codeSel ∧ w.breg (bmSlot s.codeSel) = r) := by
  obtain ⟨hpc, hdb, hkey, hrcsp⟩ := returned_restores (s := t.setRcsp s.rcsp) (k := t.codeSel) (emSlot := 0) (r := r)
    (f := callerFrame s s.callerName s.callerSel off trap)
  refine ⟨_, exec_rtn_returns hpop hbinds, rfl, hpc, hrcsp, hdb, hkey, mode_eq_of_db12to17 hdb, fun hem => ?em,
    fun hbm => ?bm⟩
  case em =>
    obtain ⟨hd, hname⟩ := callerFrame_em s off trap hem
    rw [← hname]
    exact returned_em hd
  case bm =>
    obtain ⟨hd, hsel, hname⟩ := callerFrame_bm s off trap hbm
    rw [← hname, ← hsel]
    exact returned_bm hd

/-- Settles O49: RTN pops the frame that interrupt entry pushed, and that frame is the interrupted code's. -/
theorem intThenRtnResumes : Obligations.IntThenRtnResumes := by
  intro s u t c v bd r hm hv hf ht hpushes hpush hint hne hbinds
  exact exec_rtn_resumes (rcsPop_interrupted hm hv hf ht hpushes hpush hint hne) hbinds

end Sys2Proof.Machine

/-! SUPPORT. The reset and what every request leaves alone: the parameters and the port, which no engine step writes
(`Effect.params`, `Effect.port`); the halt, which stops the step; the idle engine and the invariants of a reset. -/

namespace Sys2Proof.Machine

/-! ### The parameters and the port -/

@[simp] theorem recordAbt_port (s : State) (j : Slot) (n : BankName) : (recordAbt s j n).port = s.port := by
  rcases recordAbt_cases s j n with h | ⟨k, h⟩ <;> simp [h]
@[simp] theorem voidPrior_port (s : State) (pr : Prior) (m : Mode) : (voidPrior s pr m).port = s.port := by
  unfold voidPrior; split <;> simp
@[simp] theorem recordBinding_port (s : State) (j : Slot) (n : BankName) : (recordBinding s j n).port = s.port := by
  unfold recordBinding; split <;> simp

@[simp] theorem gateTransfers_port (s : State) (g : GateRecord) : (gateTransfers s g).port = s.port := by
  obtain ⟨-, -, -, -, -, -, hport, -⟩ := gateTransfers_frame s g
  exact hport

/-- A push writes storage and RCSP alone (R42). -/
theorem rcsPush_port (s u : State) (f : Frame) (h : rcsPush s f = .ok u) : u.port = s.port := by
  obtain ⟨-, -, -, -, -, -, -, hu⟩ := rcsPush_ok _ _ _ h
  rw [hu]; rfl

/-- No engine step takes words from the port (log entry 10). -/
theorem Effect.port {s s1 : State} (h : Effect s s1) : s1.port = s.port := by
  cases h with
  | popped f _ _ h => rw [rcsPop_state _ _ _ h]; rfl
  | pushed pr _ _ _ _ h => exact rcsPush_port _ _ _ h
  | none | gate | voided | linked | linkedGr | restored | modeSet | counter | recorded | bound | flipped =>
    simp [restoreDesignators]

/-- Settles O57: every change of an engine step keeps the parameters and the port, and so does the invocation. -/
theorem parametersAndPortKept : Obligations.ParametersAndPortKept := by
  intro i s t h
  refine exec_induct i s (fun u => u.params = s.params ∧ u.port = s.port) ?start ?step t h
  case start =>
    rw [startRequest_eq]
    exact ⟨rfl, rfl⟩
  case step =>
    rintro u v - hs ⟨hparams, hport⟩ hv
    obtain ⟨u1, j, r, he, rfl⟩ := engineStep_change u v hs hv
    exact ⟨he.params.trans hparams, he.port.trans hport⟩

/-! ### The halt -/

theorem halted_of_result {s : State} {h : Halt} (hr : s.result = some (.halt h)) : s.halted = true := by
  simp [State.halted, hr]

/-- A halted processor takes no request, whatever waits at its port (R122, log entry 9). -/
theorem step_of_halted {s : State} (h : s.halted = true) : step s = .fault .processorHalted := if_pos h

/-- Settles O8: the result that the invocation leaves stops the step. -/
theorem haltStopsProcessor : Obligations.HaltStopsProcessor := fun _ _ _ _ _ hr => step_of_halted (halted_of_result hr)

/-! ### The reset -/

/-- A request starts with a new record, whatever the record held (R28, R73). -/
theorem startRequest_setInfo (i : Instr) (s : State) (j : Info) : startRequest i (s.setInfo j) = startRequest i s := by
  rw [startRequest_eq, startRequest_eq]
  rfl

theorem exec_setInfo (i : Instr) (s : State) (j : Info) : exec i (s.setInfo j) = exec i s := by
  rw [exec_eq_run, exec_eq_run, startRequest_setInfo]

/-- A reset during an invocation comes after completed engine steps, and abandons what they have reached (R123). -/
theorem resetAfter_next {k : Nat} {i : Instr} {s t : State} (h : resetAfter k i s = .next t) :
    ∃ u, engineSteps k (startRequest i s) = .next u ∧ t = u.abandonInvocation := by
  unfold resetAfter at h
  split at h
  next u hu => exact ⟨u, hu, (Host.Outcome.next.inj h).symm⟩
  next => simp at h
  next => simp at h

/-- Settles O9: a launch copies its arguments, a request replaces the record, and an abandoned invocation keeps all but
the record and the result of its completed steps. -/
theorem resetLeavesIdleEngine : Obligations.ResetLeavesIdleEngine := by
  refine ⟨fun l => ?launch, exec_setInfo, fun k i s t h => ?abandoned⟩
  case launch => simp [State.launch]
  case abandoned =>
    obtain ⟨u, hu, rfl⟩ := resetAfter_next h
    exact ⟨u, hu, rfl, rfl, rfl⟩

theorem reset_breg (j : Slot) : State.reset.breg j = .void := by
  simp [State.reset, State.launch, defaultLaunch, State.breg]

theorem reset_abtEntry (k : BmSel) : State.reset.abtEntry k = voidName := by
  simp [State.reset, State.launch, defaultLaunch, State.abtEntry, voidName]

theorem voidName_unreserved : nameReserved voidName = false := by decide

/-- Settles O10: storage is empty, every base register Void, and PAR and the active base table name the void bank. -/
theorem resetMeetsInvariants : Obligations.ResetMeetsInvariants := by
  refine ⟨⟨wf_reset_memory, fun j => ?bregs, rfl⟩, ⟨voidName_unreserved, fun k => ?abt⟩⟩
  case bregs => rw [reset_breg]; rfl
  case abt => rw [reset_abtEntry]; exact voidName_unreserved

end Sys2Proof.Machine
